-- ==== Sys2Proof/Word.lean ====
section
/-! DEFINITION. The word types of the core (00_scope.md R7, R11, R12): every value is an unsigned
number of a stated width, little-endian in limbs and bytes. -/

namespace Sys2Proof

/-- One byte. -/
abbrev Byte := BitVec 8

/-- A 64-bit limb, the width of a `G` register (R56). -/
abbrev Limb := BitVec 64

/-- A 32-bit word: a command word or a host bus word (R150, R105). -/
abbrev Word := BitVec 32

/-- A 6-bit operand field of a command word (R151). -/
abbrev Field := BitVec 6

/-- An Fp register value: 8 limbs of 64 bits, any 512-bit value (R52). -/
abbrev Fp := BitVec 512

/-- A double-width register value: 16 limbs (R55). -/
abbrev FpX2 := BitVec 1024

/-- An address of the 64 KiB host window (R100). -/
abbrev Addr := BitVec 16

end Sys2Proof
end

