-- ==== Sys2Proof/Syntax.lean ====
section
/-! DEFINITION. The commands of 30_encoding.md R160, one constructor per row of
spec/opcode_table.json. A constructor holds the fields its row uses, in the order `RD, RS1, RS2, RS3`;
a field the row marks `-` is ignored (R152) and is no argument. -/

namespace Sys2Proof

/-- One command of the core (R160). -/
inductive Instr
  | nop
  | addc (rd rs1 rs2 : Field)
  | subc (rd rs1 rs2 : Field)
  | mul64 (rd rs1 rs2 rs3 : Field)
  | setc (rs1 : Field)
  | fpAdd (rd rs1 rs2 : Field)
  | fpSub (rd rs1 rs2 : Field)
  | fpRdcp (rd rs1 : Field)
  | fpSwapcond (rs1 rs2 rs3 : Field)
  | fpMul (rd rs1 rs2 : Field)
  | fpMontrdc (rd rs1 : Field)
  | fpMulrdc (rd rs1 rs2 : Field)
  | fpP34 (rd rs1 : Field)
  | fpMov (rd rs1 : Field)
  | fpLdc (rd rs1 : Field)
  | fpTomont (rd rs1 : Field)
  | fpFrommont (rd rs1 : Field)
  | fp2Add (rd rs1 rs2 : Field)
  | fp2Sub (rd rs1 rs2 : Field)
  | fp2Mul (rd rs1 rs2 : Field)
  | fp2Sqr (rd rs1 : Field)
  | fp2Inv (rd rs1 : Field)
  | fp2Mov (rd rs1 : Field)
  | fp2Swapcond (rs1 rs2 rs3 : Field)
  | ptPow2k (rd rs1 rs2 rs3 : Field)
  | ptPow3k (rd rs1 rs2 rs3 : Field)
  | ptLadder3pt (rd rs1 rs2 rs3 : Field)
  | crvEquiv4 (rd rs1 : Field)
  | crvEquiv3 (rd rs1 : Field)
  | crvRecover4 (rd rs1 : Field)
  | crvRecover3 (rd rs1 : Field)
  | crvRecoverA (rd rs1 : Field)
  | crvJinv (rd rs1 : Field)
  | iso4Gen (rd rs1 : Field)
  | iso4Eval (rd rs1 : Field)
  | iso3Gen (rd rs1 : Field)
  | iso3Eval (rd rs1 : Field)
  | travPkA (rs1 rs2 rs3 : Field)
  | travPkB (rs1 rs2 rs3 : Field)
  | travSsA (rs1 rs2 : Field)
  | travSsB (rs1 rs2 : Field)
  | skGenerate (rd rs1 : Field)
  | skImport (rd rs1 rs2 : Field)
  | skExport (rs1 rs2 : Field)
  | pkImport (rd rs1 rs2 : Field)
  | pkExport (rs1 rs2 : Field)
  | genPublic (rd rs1 : Field)
  | deriveSecret (rs1 rs2 rs3 : Field)
  | encrypt (rs1 rs2 : Field)
  | decrypt (rs1 rs2 : Field)
  | encapsulate (rs1 rs2 : Field)
  | decapsulate (rs1 rs2 rs3 : Field)
  | fp2Towire (rs1 rs2 : Field)
  | fp2Fromwire (rd rs2 : Field)
  | zeroize
deriving DecidableEq, Repr

end Sys2Proof
end

