-- ==== Sys2Proof/WellFormed.lean ====
section
/-! DEFINITION. When a command's fields are legal, as far as the word alone decides it: the operand
classes of 30_encoding.md R153 and the overlap of written operands of R155. (The `BUF` ranges of R156
and `ENCAPSULATE`'s output overlap depend on `G`; the meanings check those.) A command that is not
well-formed still runs: it raises `IllegalOperand` (R158). -/

namespace Sys2Proof

/-- The operand classes of R153. `gs n` is the class `gN`; `g` is `gs 1`. -/
inductive OperandClass
  | e | v | v3 | pt | pt3 | crv | d | g | gs (n : Nat) | sk | pk | var | cs | imm1
deriving DecidableEq, Repr

/-- The legal values of a field of the class (R153). -/
def OperandClass.admits : OperandClass → Field → Bool
  | .e, _ => true
  | .v, f => f.toNat ≤ 31
  | .v3, f => f.toNat ≤ 29
  | .pt, f => f.toNat ≤ 15
  | .pt3, f => f.toNat ≤ 13
  | .crv, f => f.toNat ≤ 15
  | .d, f => f.toNat ≤ 3
  | .g, f => f.toNat ≤ 15
  | .gs n, f => f.toNat + n ≤ 16
  | .sk, f => f.toNat ≤ 3
  | .pk, f => f.toNat ≤ 3
  | .var, f => 1 ≤ f.toNat && f.toNat ≤ 3
  | .cs, f => f.toNat ≤ 5
  | .imm1, _ => true

/-- The used fields of a command with their classes, as the rows of R160 give them. -/
def Instr.operands : Instr → List (OperandClass × Field)
  | .nop => []
  | .addc rd rs1 rs2 => [(.g, rd), (.g, rs1), (.g, rs2)]
  | .subc rd rs1 rs2 => [(.g, rd), (.g, rs1), (.g, rs2)]
  | .mul64 rd rs1 rs2 rs3 => [(.g, rd), (.g, rs1), (.g, rs2), (.g, rs3)]
  | .setc rs1 => [(.imm1, rs1)]
  | .fpAdd rd rs1 rs2 => [(.e, rd), (.e, rs1), (.e, rs2)]
  | .fpSub rd rs1 rs2 => [(.e, rd), (.e, rs1), (.e, rs2)]
  | .fpRdcp rd rs1 => [(.e, rd), (.e, rs1)]
  | .fpSwapcond rs1 rs2 rs3 => [(.e, rs1), (.e, rs2), (.g, rs3)]
  | .fpMul rd rs1 rs2 => [(.d, rd), (.e, rs1), (.e, rs2)]
  | .fpMontrdc rd rs1 => [(.e, rd), (.d, rs1)]
  | .fpMulrdc rd rs1 rs2 => [(.e, rd), (.e, rs1), (.e, rs2)]
  | .fpP34 rd rs1 => [(.e, rd), (.e, rs1)]
  | .fpMov rd rs1 => [(.e, rd), (.e, rs1)]
  | .fpLdc rd rs1 => [(.e, rd), (.cs, rs1)]
  | .fpTomont rd rs1 => [(.e, rd), (.e, rs1)]
  | .fpFrommont rd rs1 => [(.e, rd), (.e, rs1)]
  | .fp2Add rd rs1 rs2 => [(.v, rd), (.v, rs1), (.v, rs2)]
  | .fp2Sub rd rs1 rs2 => [(.v, rd), (.v, rs1), (.v, rs2)]
  | .fp2Mul rd rs1 rs2 => [(.v, rd), (.v, rs1), (.v, rs2)]
  | .fp2Sqr rd rs1 => [(.v, rd), (.v, rs1)]
  | .fp2Inv rd rs1 => [(.v, rd), (.v, rs1)]
  | .fp2Mov rd rs1 => [(.v, rd), (.v, rs1)]
  | .fp2Swapcond rs1 rs2 rs3 => [(.v, rs1), (.v, rs2), (.g, rs3)]
  | .ptPow2k rd rs1 rs2 rs3 => [(.pt, rd), (.pt, rs1), (.crv, rs2), (.g, rs3)]
  | .ptPow3k rd rs1 rs2 rs3 => [(.pt, rd), (.pt, rs1), (.crv, rs2), (.g, rs3)]
  | .ptLadder3pt rd rs1 rs2 rs3 => [(.pt, rd), (.crv, rs1), (.pt3, rs2), (.gs 2, rs3)]
  | .crvEquiv4 rd rs1 => [(.crv, rd), (.crv, rs1)]
  | .crvEquiv3 rd rs1 => [(.crv, rd), (.crv, rs1)]
  | .crvRecover4 rd rs1 => [(.crv, rd), (.crv, rs1)]
  | .crvRecover3 rd rs1 => [(.crv, rd), (.crv, rs1)]
  | .crvRecoverA rd rs1 => [(.crv, rd), (.v3, rs1)]
  | .crvJinv rd rs1 => [(.v, rd), (.crv, rs1)]
  | .iso4Gen rd rs1 => [(.crv, rd), (.pt, rs1)]
  | .iso4Eval rd rs1 => [(.pt, rd), (.pt, rs1)]
  | .iso3Gen rd rs1 => [(.crv, rd), (.pt, rs1)]
  | .iso3Eval rd rs1 => [(.pt, rd), (.pt, rs1)]
  | .travPkA rs1 rs2 rs3 => [(.crv, rs1), (.pt, rs2), (.pt3, rs3)]
  | .travPkB rs1 rs2 rs3 => [(.crv, rs1), (.pt, rs2), (.pt3, rs3)]
  | .travSsA rs1 rs2 => [(.crv, rs1), (.pt, rs2)]
  | .travSsB rs1 rs2 => [(.crv, rs1), (.pt, rs2)]
  | .skGenerate rd rs1 => [(.sk, rd), (.var, rs1)]
  | .skImport rd rs1 rs2 => [(.sk, rd), (.var, rs1), (.gs 2, rs2)]
  | .skExport rs1 rs2 => [(.sk, rs1), (.gs 2, rs2)]
  | .pkImport rd rs1 rs2 => [(.pk, rd), (.var, rs1), (.gs 2, rs2)]
  | .pkExport rs1 rs2 => [(.pk, rs1), (.gs 2, rs2)]
  | .genPublic rd rs1 => [(.pk, rd), (.sk, rs1)]
  | .deriveSecret rs1 rs2 rs3 => [(.sk, rs1), (.pk, rs2), (.g, rs3)]
  | .encrypt rs1 rs2 => [(.pk, rs1), (.gs 4, rs2)]
  | .decrypt rs1 rs2 => [(.sk, rs1), (.gs 4, rs2)]
  | .encapsulate rs1 rs2 => [(.pk, rs1), (.gs 2, rs2)]
  | .decapsulate rs1 rs2 rs3 => [(.sk, rs1), (.pk, rs2), (.gs 3, rs3)]
  | .fp2Towire rs1 rs2 => [(.v, rs1), (.g, rs2)]
  | .fp2Fromwire rd rs2 => [(.v, rd), (.g, rs2)]
  | .zeroize => []

/-- The storage a command writes by more than one operand, as register numbers of one file: the
operands R155 and R160 forbid to overlap. -/
def Instr.writtenTogether : Instr → List Nat
  | .mul64 rd _ _ rs3 => [rd.toNat, rs3.toNat]
  | .travPkA rs1 rs2 rs3 => [rs1.toNat, rs2.toNat, rs3.toNat, rs3.toNat + 1, rs3.toNat + 2]
  | .travPkB rs1 rs2 rs3 => [rs1.toNat, rs2.toNat, rs3.toNat, rs3.toNat + 1, rs3.toNat + 2]
  | .travSsA rs1 rs2 => [rs1.toNat, rs2.toNat]
  | .travSsB rs1 rs2 => [rs1.toNat, rs2.toNat]
  | _ => []

/-- Every used field is in its class and no two written operands overlap (R153, R155). -/
def Instr.wellFormed (i : Instr) : Bool :=
  i.operands.all (fun o => o.1.admits o.2) && decide i.writtenTogether.Nodup

end Sys2Proof
end

