-- ==== Sys2Proof/Decode.lean ====
section
/-! DEFINITION. The command word of 30_encoding.md R151 and the opcode map of R160, read and written.
The decoder is total: every 32-bit word selects a command or is rejected by name (R158); fields outside
their operand class are decoded too and raise `IllegalOperand` when the command runs. -/

namespace Sys2Proof

/-- Why the decoder rejects a word: the opcode is reserved (R161). -/
inductive DecodeReject
  | illegalOpcode (opc : BitVec 8)
deriving DecidableEq, Repr

/-- Bits 7:0, the opcode (R151). -/
def opcOf (w : Word) : BitVec 8 := w.extractLsb' 0 8

/-- Bits 13:8, the destination field (R151). -/
def rdOf (w : Word) : Field := w.extractLsb' 8 6

/-- Bits 19:14, the first source field or immediate (R151). -/
def rs1Of (w : Word) : Field := w.extractLsb' 14 6

/-- Bits 25:20, the second source field (R151). -/
def rs2Of (w : Word) : Field := w.extractLsb' 20 6

/-- Bits 31:26, the third source field (R151). -/
def rs3Of (w : Word) : Field := w.extractLsb' 26 6

/-- The command a word selects (R158 step 1, R160); a reserved opcode is rejected (R161). -/
def decode (w : Word) : Except DecodeReject Instr :=
  match (opcOf w).toNat with
  | 0x00 => .ok (.nop)
  | 0x01 => .ok (.addc (rdOf w) (rs1Of w) (rs2Of w))
  | 0x02 => .ok (.subc (rdOf w) (rs1Of w) (rs2Of w))
  | 0x03 => .ok (.mul64 (rdOf w) (rs1Of w) (rs2Of w) (rs3Of w))
  | 0x04 => .ok (.setc (rs1Of w))
  | 0x10 => .ok (.fpAdd (rdOf w) (rs1Of w) (rs2Of w))
  | 0x11 => .ok (.fpSub (rdOf w) (rs1Of w) (rs2Of w))
  | 0x12 => .ok (.fpRdcp (rdOf w) (rs1Of w))
  | 0x13 => .ok (.fpSwapcond (rs1Of w) (rs2Of w) (rs3Of w))
  | 0x14 => .ok (.fpMul (rdOf w) (rs1Of w) (rs2Of w))
  | 0x15 => .ok (.fpMontrdc (rdOf w) (rs1Of w))
  | 0x16 => .ok (.fpMulrdc (rdOf w) (rs1Of w) (rs2Of w))
  | 0x17 => .ok (.fpP34 (rdOf w) (rs1Of w))
  | 0x18 => .ok (.fpMov (rdOf w) (rs1Of w))
  | 0x19 => .ok (.fpLdc (rdOf w) (rs1Of w))
  | 0x1A => .ok (.fpTomont (rdOf w) (rs1Of w))
  | 0x1B => .ok (.fpFrommont (rdOf w) (rs1Of w))
  | 0x20 => .ok (.fp2Add (rdOf w) (rs1Of w) (rs2Of w))
  | 0x21 => .ok (.fp2Sub (rdOf w) (rs1Of w) (rs2Of w))
  | 0x22 => .ok (.fp2Mul (rdOf w) (rs1Of w) (rs2Of w))
  | 0x23 => .ok (.fp2Sqr (rdOf w) (rs1Of w))
  | 0x24 => .ok (.fp2Inv (rdOf w) (rs1Of w))
  | 0x25 => .ok (.fp2Mov (rdOf w) (rs1Of w))
  | 0x26 => .ok (.fp2Swapcond (rs1Of w) (rs2Of w) (rs3Of w))
  | 0x30 => .ok (.ptPow2k (rdOf w) (rs1Of w) (rs2Of w) (rs3Of w))
  | 0x31 => .ok (.ptPow3k (rdOf w) (rs1Of w) (rs2Of w) (rs3Of w))
  | 0x32 => .ok (.ptLadder3pt (rdOf w) (rs1Of w) (rs2Of w) (rs3Of w))
  | 0x33 => .ok (.crvEquiv4 (rdOf w) (rs1Of w))
  | 0x34 => .ok (.crvEquiv3 (rdOf w) (rs1Of w))
  | 0x35 => .ok (.crvRecover4 (rdOf w) (rs1Of w))
  | 0x36 => .ok (.crvRecover3 (rdOf w) (rs1Of w))
  | 0x37 => .ok (.crvRecoverA (rdOf w) (rs1Of w))
  | 0x38 => .ok (.crvJinv (rdOf w) (rs1Of w))
  | 0x40 => .ok (.iso4Gen (rdOf w) (rs1Of w))
  | 0x41 => .ok (.iso4Eval (rdOf w) (rs1Of w))
  | 0x42 => .ok (.iso3Gen (rdOf w) (rs1Of w))
  | 0x43 => .ok (.iso3Eval (rdOf w) (rs1Of w))
  | 0x50 => .ok (.travPkA (rs1Of w) (rs2Of w) (rs3Of w))
  | 0x51 => .ok (.travPkB (rs1Of w) (rs2Of w) (rs3Of w))
  | 0x52 => .ok (.travSsA (rs1Of w) (rs2Of w))
  | 0x53 => .ok (.travSsB (rs1Of w) (rs2Of w))
  | 0x60 => .ok (.skGenerate (rdOf w) (rs1Of w))
  | 0x61 => .ok (.skImport (rdOf w) (rs1Of w) (rs2Of w))
  | 0x62 => .ok (.skExport (rs1Of w) (rs2Of w))
  | 0x63 => .ok (.pkImport (rdOf w) (rs1Of w) (rs2Of w))
  | 0x64 => .ok (.pkExport (rs1Of w) (rs2Of w))
  | 0x65 => .ok (.genPublic (rdOf w) (rs1Of w))
  | 0x66 => .ok (.deriveSecret (rs1Of w) (rs2Of w) (rs3Of w))
  | 0x70 => .ok (.encrypt (rs1Of w) (rs2Of w))
  | 0x71 => .ok (.decrypt (rs1Of w) (rs2Of w))
  | 0x72 => .ok (.encapsulate (rs1Of w) (rs2Of w))
  | 0x73 => .ok (.decapsulate (rs1Of w) (rs2Of w) (rs3Of w))
  | 0x78 => .ok (.fp2Towire (rs1Of w) (rs2Of w))
  | 0x79 => .ok (.fp2Fromwire (rdOf w) (rs2Of w))
  | 0xFE => .ok (.zeroize)
  | _ => .error (.illegalOpcode (opcOf w))

/-- `OPC | RD << 8 | RS1 << 14 | RS2 << 20 | RS3 << 26` (R151). -/
def cmdWord (opc : BitVec 8) (rd rs1 rs2 rs3 : Field) : Word :=
  opc.setWidth 32 ||| (rd.setWidth 32 <<< 8) ||| (rs1.setWidth 32 <<< 14) |||
    (rs2.setWidth 32 <<< 20) ||| (rs3.setWidth 32 <<< 26)

/-- The word of a command, with every unused field 0 (R151, R160). -/
def encode : Instr → Word
  | .nop => cmdWord 0x00 0 0 0 0
  | .addc rd rs1 rs2 => cmdWord 0x01 rd rs1 rs2 0
  | .subc rd rs1 rs2 => cmdWord 0x02 rd rs1 rs2 0
  | .mul64 rd rs1 rs2 rs3 => cmdWord 0x03 rd rs1 rs2 rs3
  | .setc rs1 => cmdWord 0x04 0 rs1 0 0
  | .fpAdd rd rs1 rs2 => cmdWord 0x10 rd rs1 rs2 0
  | .fpSub rd rs1 rs2 => cmdWord 0x11 rd rs1 rs2 0
  | .fpRdcp rd rs1 => cmdWord 0x12 rd rs1 0 0
  | .fpSwapcond rs1 rs2 rs3 => cmdWord 0x13 0 rs1 rs2 rs3
  | .fpMul rd rs1 rs2 => cmdWord 0x14 rd rs1 rs2 0
  | .fpMontrdc rd rs1 => cmdWord 0x15 rd rs1 0 0
  | .fpMulrdc rd rs1 rs2 => cmdWord 0x16 rd rs1 rs2 0
  | .fpP34 rd rs1 => cmdWord 0x17 rd rs1 0 0
  | .fpMov rd rs1 => cmdWord 0x18 rd rs1 0 0
  | .fpLdc rd rs1 => cmdWord 0x19 rd rs1 0 0
  | .fpTomont rd rs1 => cmdWord 0x1A rd rs1 0 0
  | .fpFrommont rd rs1 => cmdWord 0x1B rd rs1 0 0
  | .fp2Add rd rs1 rs2 => cmdWord 0x20 rd rs1 rs2 0
  | .fp2Sub rd rs1 rs2 => cmdWord 0x21 rd rs1 rs2 0
  | .fp2Mul rd rs1 rs2 => cmdWord 0x22 rd rs1 rs2 0
  | .fp2Sqr rd rs1 => cmdWord 0x23 rd rs1 0 0
  | .fp2Inv rd rs1 => cmdWord 0x24 rd rs1 0 0
  | .fp2Mov rd rs1 => cmdWord 0x25 rd rs1 0 0
  | .fp2Swapcond rs1 rs2 rs3 => cmdWord 0x26 0 rs1 rs2 rs3
  | .ptPow2k rd rs1 rs2 rs3 => cmdWord 0x30 rd rs1 rs2 rs3
  | .ptPow3k rd rs1 rs2 rs3 => cmdWord 0x31 rd rs1 rs2 rs3
  | .ptLadder3pt rd rs1 rs2 rs3 => cmdWord 0x32 rd rs1 rs2 rs3
  | .crvEquiv4 rd rs1 => cmdWord 0x33 rd rs1 0 0
  | .crvEquiv3 rd rs1 => cmdWord 0x34 rd rs1 0 0
  | .crvRecover4 rd rs1 => cmdWord 0x35 rd rs1 0 0
  | .crvRecover3 rd rs1 => cmdWord 0x36 rd rs1 0 0
  | .crvRecoverA rd rs1 => cmdWord 0x37 rd rs1 0 0
  | .crvJinv rd rs1 => cmdWord 0x38 rd rs1 0 0
  | .iso4Gen rd rs1 => cmdWord 0x40 rd rs1 0 0
  | .iso4Eval rd rs1 => cmdWord 0x41 rd rs1 0 0
  | .iso3Gen rd rs1 => cmdWord 0x42 rd rs1 0 0
  | .iso3Eval rd rs1 => cmdWord 0x43 rd rs1 0 0
  | .travPkA rs1 rs2 rs3 => cmdWord 0x50 0 rs1 rs2 rs3
  | .travPkB rs1 rs2 rs3 => cmdWord 0x51 0 rs1 rs2 rs3
  | .travSsA rs1 rs2 => cmdWord 0x52 0 rs1 rs2 0
  | .travSsB rs1 rs2 => cmdWord 0x53 0 rs1 rs2 0
  | .skGenerate rd rs1 => cmdWord 0x60 rd rs1 0 0
  | .skImport rd rs1 rs2 => cmdWord 0x61 rd rs1 rs2 0
  | .skExport rs1 rs2 => cmdWord 0x62 0 rs1 rs2 0
  | .pkImport rd rs1 rs2 => cmdWord 0x63 rd rs1 rs2 0
  | .pkExport rs1 rs2 => cmdWord 0x64 0 rs1 rs2 0
  | .genPublic rd rs1 => cmdWord 0x65 rd rs1 0 0
  | .deriveSecret rs1 rs2 rs3 => cmdWord 0x66 0 rs1 rs2 rs3
  | .encrypt rs1 rs2 => cmdWord 0x70 0 rs1 rs2 0
  | .decrypt rs1 rs2 => cmdWord 0x71 0 rs1 rs2 0
  | .encapsulate rs1 rs2 => cmdWord 0x72 0 rs1 rs2 0
  | .decapsulate rs1 rs2 rs3 => cmdWord 0x73 0 rs1 rs2 rs3
  | .fp2Towire rs1 rs2 => cmdWord 0x78 0 rs1 rs2 0
  | .fp2Fromwire rd rs2 => cmdWord 0x79 rd 0 rs2 0
  | .zeroize => cmdWord 0xFE 0 0 0 0

/-- The reserved opcodes, range by range as R161 lists them. -/
def reservedOpcode (opc : BitVec 8) : Bool :=
  let n := opc.toNat
  (0x05 ≤ n && n ≤ 0x0F) || (0x1C ≤ n && n ≤ 0x1F) || (0x27 ≤ n && n ≤ 0x2F) ||
    (0x39 ≤ n && n ≤ 0x3F) || (0x44 ≤ n && n ≤ 0x4F) || (0x54 ≤ n && n ≤ 0x5F) ||
    (0x67 ≤ n && n ≤ 0x6F) || (0x74 ≤ n && n ≤ 0x77) || (0x7A ≤ n && n ≤ 0xFD) || n == 0xFF

/-- The word whose set bits are the bits a command reads: the opcode and its used fields (R152, R160). -/
def usedBits (rd rs1 rs2 rs3 : Bool) : Word :=
  let field := fun (b : Bool) => if b then (63 : Field) else 0
  cmdWord 0xFF (field rd) (field rs1) (field rs2) (field rs3)

/-- The bits a command reads: the fields its row of R160 does not mark `-`. -/
def Instr.usedMask : Instr → Word
  | .nop | .zeroize => usedBits false false false false
  | .setc _ => usedBits false true false false
  | .fpRdcp _ _ | .fpMontrdc _ _ | .fpP34 _ _ | .fpMov _ _ | .fpLdc _ _ | .fpTomont _ _
  | .fpFrommont _ _ | .fp2Sqr _ _ | .fp2Inv _ _ | .fp2Mov _ _ | .crvEquiv4 _ _ | .crvEquiv3 _ _
  | .crvRecover4 _ _ | .crvRecover3 _ _ | .crvRecoverA _ _ | .crvJinv _ _ | .iso4Gen _ _
  | .iso4Eval _ _ | .iso3Gen _ _ | .iso3Eval _ _ | .skGenerate _ _ | .genPublic _ _ =>
    usedBits true true false false
  | .addc _ _ _ | .subc _ _ _ | .fpAdd _ _ _ | .fpSub _ _ _ | .fpMul _ _ _ | .fpMulrdc _ _ _
  | .fp2Add _ _ _ | .fp2Sub _ _ _ | .fp2Mul _ _ _ | .skImport _ _ _ | .pkImport _ _ _ =>
    usedBits true true true false
  | .mul64 _ _ _ _ | .ptPow2k _ _ _ _ | .ptPow3k _ _ _ _ | .ptLadder3pt _ _ _ _ =>
    usedBits true true true true
  | .fpSwapcond _ _ _ | .fp2Swapcond _ _ _ | .travPkA _ _ _ | .travPkB _ _ _ | .deriveSecret _ _ _
  | .decapsulate _ _ _ => usedBits false true true true
  | .travSsA _ _ | .travSsB _ _ | .skExport _ _ | .pkExport _ _ | .encrypt _ _ | .decrypt _ _
  | .encapsulate _ _ | .fp2Towire _ _ => usedBits false true true false
  | .fp2Fromwire _ _ => usedBits true false true false

/-- The host's entry: the command the decoder reads from the `nbits` low bits of `w`, every bit above
them 0. The core takes its command from the 32-bit register `CMD` (R58, R150), whose bit 0 is the
least significant. -/
def decodeTableWord (nbits w : Nat) : Option Instr :=
  match decode (BitVec.ofNat 32 (w % 2 ^ nbits)) with
  | .ok i => some i
  | .error _ => none

end Sys2Proof
end

