-- ==== Sys2Proof/Config.lean ====
section
/-! DEFINITION. What the spec leaves open, as constants without a body: nothing in Lean can evaluate
them. The configuration parameters of 00_scope.md R10 stand here raw; `Sys2Proof.Machine.Params` and
`Sys2Proof.Machine.Field` restrict them to the configurations the spec admits. -/

namespace Sys2Proof

/-- The six basis points of R10: `PA, QA, RA = x(PA - QA)` of side A, the same of side B. -/
inductive BasisPoint
  | pA | qA | rA | pB | qB | rB
deriving DecidableEq, Repr

/-- FREE (log 6). Which of the two representatives in `[0, 2p)` of the residue law 1 of R236 fixes
`p34Impl x` returns: `false` the one below `p`, `true` that one plus `p`. -/
opaque Config.p34Upper : Fp → Bool

/-- FREE (log 7). The external HMAC port: key, message, 32 bytes (R450). -/
opaque Config.hmac : List Byte → List Byte → Vector Byte 32

/-- FREE (log 8). The basis x-coordinates, each a pair of integers read modulo `p` (R10). -/
opaque Config.basisRaw : BasisPoint → Nat × Nat

/-- FREE (log 8). The starting curve's `A`, read modulo `p` (R10). -/
opaque Config.startARaw : Nat × Nat

/-- FREE (log 8). The starting curve's `C`, read modulo `p` (R10). -/
opaque Config.startCRaw : Nat × Nat

/-- FREE (log 9). The side-A strategy offered by the configuration (R10, R371). -/
opaque Config.stratARaw : List Nat

/-- FREE (log 9). The side-B strategy offered by the configuration (R10, R371). -/
opaque Config.stratBRaw : List Nat

/-- FREE (log 10). The stack depth offered by the configuration (R372). -/
opaque Config.stackDepthRaw : Nat

/-- FREE (log 4). The draw a host read of `G`, `E`, `D`, `BUF` or `FLAGS` returns while `BUSY = 1`
(R109, R580); a fresh one for every value of the counter `State.draws`. -/
opaque Config.busyRead : Nat → Word

/-- FREE (log 5). How many RNG items a command that a reset discards had taken (R571); the model
limits it to what the command's step would take. -/
opaque Config.rngTaken : Nat → Nat

end Sys2Proof
end

