-- ==== Sys2Proof/Machine/State.lean ====
section
/-! DEFINITION. The state of the core (10_state.md), its errors, and the state after reset (R75). -/

namespace Sys2Proof.Machine

/-! ## Data types of the registers -/

/-- An Fp² register value `re + im·i` (R14, R53). -/
structure Fp2 where
  re : Fp
  im : Fp
deriving DecidableEq, Repr

/-- A projective point `(X, Z)` in a `Pt` register (R54). -/
structure Pt where
  x : Fp2
  z : Fp2
deriving DecidableEq, Repr

/-- A curve in a `Crv` register, which is the storage of the `Pt` register of the same number. `fst` and
`snd` are `(A, C)`, `(A24p, C24)` or `(A24p, A24m)` by the form the command reads (R54). -/
structure Crv where
  fst : Fp2
  snd : Fp2
deriving DecidableEq, Repr

/-- An Fp² residue: two integers, below `p` in every reachable state (R67). -/
structure Residue2 where
  re : Nat
  im : Nat
deriving DecidableEq, Repr

/-- The coefficients `K1, K2, K3` of a 4-isogeny (R64). -/
structure Coeffs4 where
  k1 : Fp2
  k2 : Fp2
  k3 : Fp2
deriving DecidableEq, Repr

/-- The coefficients `K1, K2` of a 3-isogeny (R65). -/
structure Coeffs3 where
  k1 : Fp2
  k2 : Fp2
deriving DecidableEq, Repr

/-- The 4-isogeny stash `ISO4` (R64). -/
structure Stash4 where
  coeffs : Coeffs4
  valid : Bool
deriving DecidableEq, Repr

/-- The 3-isogeny stash `ISO3` (R65). -/
structure Stash3 where
  coeffs : Coeffs3
  valid : Bool
deriving DecidableEq, Repr

/-- The variant of a key slot (R66, R67). `none` is `NONE`, an empty slot. -/
inductive Variant
  | none | sidhA | sidhB | sike
deriving DecidableEq, Repr

/-- The side of a key: `A` is the 2-torsion side, `B` the 3-torsion side (R16, R400). -/
inductive Side
  | a | b
deriving DecidableEq, Repr

/-- A private-key slot (R66). -/
structure SkSlot where
  variant : Variant
  scalar : Vector Byte 32
  s : Vector Byte 24
deriving DecidableEq, Repr

/-- A public-key slot (R67). -/
structure PkSlot where
  variant : Variant
  xP : Residue2
  xQ : Residue2
  xQmP : Residue2
deriving DecidableEq, Repr

/-- `BUF` (R69) as a canonical list of (offset, byte): offsets strictly rising, no byte 0; an offset not
listed reads 0, which is the spec's reset value. -/
abbrev Memory := List Host.Cell

/-! ## The outside (logs 1, 3) -/

/-- What the RNG port delivers next: `some b` the byte `b`, `none` a failure (R72). -/
abbrev RngItem := Option Byte

/-- The width of a host access. Only `word` is admitted (R105). -/
inductive Width
  | byte | half | word | dword
deriving DecidableEq, Repr

/-- One thing that happens next at the core's boundary: a host access (R100, R105), the core's turn (the
atomic step of an accepted command, R150, R585), or a power-on reset (R570). -/
inductive Input
  | read (width : Width) (addr : Addr)
  | write (width : Width) (addr : Addr) (data : Word)
  | run
  | powerOn
deriving DecidableEq, Repr

/-! ## Errors -/

/-- The errors a command can raise (R521). Each gives a NEXT state with its code in `STATUS` (R520). -/
inductive CmdError
  | invalidInputLength | incompatibleKeys | rngFailure | wrongKeyType
  | illegalOpcode | illegalOperand | isogenyNotGenerated | emptyKeySlot
deriving DecidableEq, Repr

/-- Faults that stop the machine. There are none: every command completes, with or without an error
code (R520, R530), so the type has no constructor. -/
inductive Fault
deriving DecidableEq, Repr

/-- Why a step is refused. -/
inductive Refusal
  /-- Raised by an arm of `exec` whose command has no meaning yet; no arm is left. Safe: nothing is
  claimed of that command. -/
  | notModelled (mnemonic : String)
  /-- Raised by the bus for a host access that is not an aligned 32-bit access: "it *refuses* the host
  step" (R105, U2). Safe: a hardware implementation may do anything. -/
  | accessNotAdmitted (width : Width) (addr : Addr)
deriving DecidableEq, Repr

/-! ## The state -/

/-- The core's architectural state (R52 to R69) and, last, the model's own fields for the outside. -/
structure State where
  /-- `E0..E63` (R52); `V`, `Pt` and `Crv` are views of it (R53, R54). -/
  e : Vector Fp 64
  /-- `D0..D3` (R55). -/
  d : Vector FpX2 4
  /-- `G0..G15` (R56). -/
  g : Vector Limb 16
  /-- The carry flag `C` (R57), also `FLAGS` bit 0 (R63). -/
  c : Bool
  /-- `CMD`, the last command word accepted (R58). -/
  cmd : Word
  /-- `STATUS.BUSY` (R59). -/
  busy : Bool
  /-- `STATUS.DONE` (R59). -/
  done : Bool
  /-- `STATUS.ERR` (R59). -/
  err : Bool
  /-- `STATUS.ERRCODE` (R59). -/
  errcode : BitVec 4
  /-- `STATUS.OVR` (R59). -/
  ovr : Bool
  /-- `CTRL.IE` (R60). -/
  ie : Bool
  /-- `ISR.DONE_P` (R61). -/
  doneP : Bool
  /-- `ISO4` (R64). -/
  iso4 : Stash4
  /-- `ISO3` (R65). -/
  iso3 : Stash3
  /-- `SK0..SK3` (R66). -/
  sk : Vector SkSlot 4
  /-- `PK0..PK3` (R67). -/
  pk : Vector PkSlot 4
  /-- `BUF` (R69). -/
  buf : Memory
  /-- MODEL. What the RNG port will deliver, in order; past its end the port fails (log 3). -/
  rng : List RngItem
  /-- MODEL. What happens next at the boundary, in order (log 1). -/
  inputs : List Input
  /-- MODEL. The answer of the last host read, if there was one (log 11). -/
  rdata : Option Word
  /-- MODEL. How many free values have been drawn (log 4). -/
  draws : Nat
deriving DecidableEq, Repr

/-- The Fp² value 0. -/
def Fp2.zero : Fp2 := ⟨0, 0⟩

/-- A cleared `ISO4`: `valid = 0`, coefficients 0 (R64). -/
def Stash4.cleared : Stash4 := ⟨⟨.zero, .zero, .zero⟩, false⟩

/-- A cleared `ISO3`: `valid = 0`, coefficients 0 (R65). -/
def Stash3.cleared : Stash3 := ⟨⟨.zero, .zero⟩, false⟩

/-- An empty private-key slot: `NONE`, every byte 0 (R66). -/
def SkSlot.empty : SkSlot := ⟨.none, Vector.replicate 32 0, Vector.replicate 24 0⟩

/-- An empty public-key slot: `NONE`, all residues 0 (R67). -/
def PkSlot.empty : PkSlot := ⟨.none, ⟨0, 0⟩, ⟨0, 0⟩, ⟨0, 0⟩⟩

/-- Every field at the value 10_state.md R75 states; the model's own fields at the values of logs 1, 3,
4 and 11. -/
def State.reset : State where
  e := Vector.replicate 64 0
  d := Vector.replicate 4 0
  g := Vector.replicate 16 0
  c := false
  cmd := 0
  busy := false
  done := false
  err := false
  errcode := 0
  ovr := false
  ie := false
  doneP := false
  iso4 := .cleared
  iso3 := .cleared
  sk := Vector.replicate 4 .empty
  pk := Vector.replicate 4 .empty
  buf := []
  rng := []
  inputs := []
  rdata := none
  draws := 0

end Sys2Proof.Machine
end

