-- ==== Sys2Proof/Machine/Params.lean ====
section
/-! DEFINITION. The constants of 41_fp.md R220 and the admitted configuration of 00_scope.md R10: the raw
free values of `Sys2Proof.Config`, each restricted by the law the spec gives it. -/

namespace Sys2Proof.Machine

/-! ## Constants (R220) -/

/-- `R = 2^512`, the Montgomery radix (R7). -/
def radix : Nat := 2 ^ 512

/-- The prime `p = 2^250 · 3^159 - 1` (R2, R220). -/
def prime : Nat :=
  0x4066f541811e1e6045c6bdda77a4d01b9bf6c87b7e7daf13085bda2211e7a0abffffffffffffffffffffffffffffffffffffffffffffffffffffffffffffff

/-- `ONE = R mod p`, the Montgomery form of 1 (R220). -/
def montOne : Nat :=
  0x26fbaec60f59538acd77c71ab2414251689d8d667eb37d63cb1a6ea6ded2b4b4000000000000000000000000000000000000000000000000000000000003f9

/-- `R2 = R² mod p` (R220). -/
def montR2 : Nat :=
  0x3f6cfce8b8177146e9127bce14cdb6bf8999cbac3b56959e51998bd84d44235bc57ab6eff168eca3b365d58dc8f17a9b88257189fed2b95289a0cf641d011f

/-- `(-p^(-1)) mod R`, the factor of the Montgomery reduction (R232). -/
def negPrimeInv : Nat :=
  0x73d066f541811e1e6045c6bdda77a4d01b9bf6c87b7e7daf13085bda2211e7a0ac00000000000000000000000000000000000000000000000000000000000001

/-- `R^(-1) mod p`, the factor of the residue (R15). -/
def radixInv : Nat :=
  0x1d22adba6af4e0fb6c4fb11dd5270ddd461bf38c934f9835ebb16a52ce56a92c9d8b7565ccc13fa338a3767f6f2520bdfc933977c47d3a41463ab4329a333f

/-- The constant a selector of class `cs` names (R242); a selector above 5 is illegal and names 0. -/
def constant (sel : Nat) : Fp :=
  match sel with
  | 0 => 0
  | 1 => BitVec.ofNat 512 montOne
  | 2 => BitVec.ofNat 512 prime
  | 3 => BitVec.ofNat 512 (2 * prime)
  | 4 => BitVec.ofNat 512 (prime + 1)
  | 5 => BitVec.ofNat 512 montR2
  | _ => 0

/-! ## Sizes (R7, R8) -/

/-- `Bytelen`, the bytes of one wire component (R7). -/
def bytelen : Nat := 63

/-- `2·Bytelen`, the bytes of one Fp² value on the wire (R7). -/
def fp2WireLen : Nat := 126

/-- `PublicKeySize` (R7). -/
def publicKeySize : Nat := 378

/-- `SharedSecretSize` (R7). -/
def sharedSecretSize : Nat := 126

/-- `MsgLen` (R7). -/
def msgLen : Nat := 24

/-- `KemSize` (R7). -/
def kemSize : Nat := 16

/-- The ciphertext size (R7, R497). -/
def ciphertextSize : Nat := 402

/-- `SecretByteLen` of either side (R8). -/
def secretByteLen : Nat := 32

/-- `SecretBitLen` of a side (R8, R401). -/
def secretBitLen : Side → Nat
  | .a => 250
  | .b => 252

/-- `N = |STRAT|` of a side (R8). -/
def stratLen : Side → Nat
  | .a => 124
  | .b => 158

/-- The size of `BUF` in bytes (R69). -/
def bufSize : Nat := 2048

/-! ## Strategies (R371, R372) -/

/-- The inner loop of R371: push while `i ≤ bound`. Answers the stack, the index and what is left of the
strategy, or `none` where the run fails (the array is exhausted, or an entry is 0). -/
def pushRun (bound : Nat) : List Nat → List Nat → Nat → Option (List Nat × Nat × List Nat)
  | [], st, i => if i ≤ bound then none else some (st, i, [])
  | k :: rest, st, i =>
    if i ≤ bound then
      if k < 1 then none else pushRun bound rest (i :: st) (i + k)
    else some (st, i, k :: rest)

/-- The outer loop of R371 with `rounds` rounds still to run, so that `N - j` is `rounds - 1`. Answers
what is left of the strategy and the largest stack size reached, or `none` where the run fails. -/
def indexRun : Nat → List Nat → List Nat → Nat → Nat → Option (List Nat × Nat)
  | 0, strat, _, _, deepest => some (strat, deepest)
  | rounds + 1, strat, st, i, deepest =>
    match pushRun rounds strat st i with
    | none => none
    | some (st', i', rest) =>
      if i' = rounds + 1 then
        match st' with
        | [] => none
        | top :: below => indexRun rounds rest below top (max deepest st'.length)
      else none

/-- R371: the abstract run finishes with `ok`, that is without failing and with `sidx = N`. -/
def wellFormedStrategy (strat : List Nat) : Bool :=
  match indexRun strat.length strat [] 0 0 with
  | some (rest, _) => rest.isEmpty
  | none => false

/-- `depth(strat)` of R372: the largest stack size the run of R371 reaches. -/
def strategyDepth (strat : List Nat) : Nat :=
  match indexRun strat.length strat [] 0 0 with
  | some (_, deepest) => deepest
  | none => 0

/-- The naive strategy `[n, n - 1, …, 1]`, which R371 calls well-formed. -/
def naiveStrategy : Nat → List Nat
  | 0 => []
  | n + 1 => (n + 1) :: naiveStrategy n

/-- A configured strategy of `n` entries: the one offered if it is well-formed and of that length, else
the naive one (a configuration with another is refused, U10; log 9). -/
def admitStrategy (n : Nat) (offered : List Nat) : List Nat :=
  if offered.length = n ∧ wellFormedStrategy offered = true then offered else naiveStrategy n

/-- `STRAT_A` and `STRAT_B` (R10). -/
def strategy : Side → List Nat
  | .a => admitStrategy (stratLen .a) Config.stratARaw
  | .b => admitStrategy (stratLen .b) Config.stratBRaw

/-- `STACK_DEPTH`: at least the depth of each configured strategy (R372; log 10). -/
def stackDepth : Nat :=
  max Config.stackDepthRaw (max (strategyDepth (strategy .a)) (strategyDepth (strategy .b)))

/-! ## Domain parameters (R10) -/

/-- A pair of integers read as an Fp² residue. -/
def residueOf (v : Nat × Nat) : Residue2 := ⟨v.1 % prime, v.2 % prime⟩

/-- The basis x-coordinates `PA, QA, RA, PB, QB, RB` (R10; log 8). -/
def basis (b : BasisPoint) : Residue2 := residueOf (Config.basisRaw b)

/-- `START_A` (R10; log 8). -/
def startA : Residue2 := residueOf Config.startARaw

/-- `START_C`, which is not 0 (R10; log 8). -/
def startC : Residue2 :=
  let v := residueOf Config.startCRaw
  if v = ⟨0, 0⟩ then ⟨1, 0⟩ else v

/-- `PA, QA, RA` for side A, `PB, QB, RB` for side B (R401). -/
def ownBasis : Side → Residue2 × Residue2 × Residue2
  | .a => (basis .pA, basis .qA, basis .rA)
  | .b => (basis .pB, basis .qB, basis .rB)

/-- The basis of the other side, which a public key carries (R401). -/
def oppositeBasis : Side → Residue2 × Residue2 × Residue2
  | .a => ownBasis .b
  | .b => ownBasis .a

end Sys2Proof.Machine
end

