-- ==== Sys2Proof/Machine/Field.lean ====
section
/-! DEFINITION. The exact functions of 41_fp.md section 2 on 512-bit register values, and the exponentiation
`p34` of R236. No function checks the range `[0, 2p)` (R113, R221). -/

namespace Sys2Proof.Machine

/-- `fpAdd` (R222): the sum drops its carry, then `2p` is subtracted once. -/
def fpAdd (x y : Fp) : Fp :=
  if 2 * prime ≤ (x + y).toNat then x + y - BitVec.ofNat 512 (2 * prime) else x + y

/-- `fpSub` (R223): `2p` is added when the subtraction borrows; the carry is dropped. -/
def fpSub (x y : Fp) : Fp :=
  if y.toNat ≤ x.toNat then x - y else x - y + BitVec.ofNat 512 (2 * prime)

/-- `fpRdcP` (R224): one conditional subtraction of `p`. -/
def fpRdcP (x : Fp) : Fp :=
  if prime ≤ x.toNat then x - BitVec.ofNat 512 prime else x

/-- `MontRdc` (R232) on the integer value of a double-width buffer. -/
def montRdcNat (x : Nat) : Nat :=
  (x + x * negPrimeInv % radix * prime) / radix % radix

/-- `MontRdc` (R232). -/
def montRdc (x : FpX2) : Fp := BitVec.ofNat 512 (montRdcNat x.toNat)

/-- `fpMul` (R233): the exact product. -/
def fpMul (x y : Fp) : FpX2 := BitVec.ofNat 1024 (x.toNat * y.toNat)

/-- `fpMulRdc` (R234). -/
def fpMulRdc (x y : Fp) : Fp := montRdc (fpMul x y)

/-- `swapCond` (R235): every limb of the two values exchanges the bits set in `(0 - c) mod 2^64`. -/
def swapCond (x y : Fp) (c : Limb) : Fp × Fp :=
  let mask : Fp := (0 - c).replicate 8
  let t := mask &&& (x ^^^ y)
  (x ^^^ t, y ^^^ t)

/-- `toMont` (R243): `MontRdc(a · R2)`. -/
def toMont (a : Fp) : Fp := montRdc (fpMul a (BitVec.ofNat 512 montR2))

/-- `fromMont` (R244): `fpRdcP(MontRdc(zext_1024(a)))`. -/
def fromMont (a : Fp) : Fp := fpRdcP (montRdc (a.setWidth 1024))

/-! ## Residues and `p34` -/

/-- The residue `res(x) = x · R^(-1) mod p` of a register value (R15). -/
def residue (x : Fp) : Nat := x.toNat * radixInv % prime

/-- `b^e mod p` by squaring; `fuel` bounds the bits of `e`. -/
def powMod : Nat → Nat → Nat → Nat
  | 0, _, _ => 1
  | fuel + 1, b, e =>
    if e = 0 then 1
    else if e % 2 = 1 then b * powMod fuel (b * b % prime) (e / 2) % prime
    else powMod fuel (b * b % prime) (e / 2)

/-- The exponent `(p - 3)/4` of `p34` (R236). -/
def p34Exponent : Nat := (prime - 3) / 4

/-- The canonical representative of law 1 of R236: `(res(x)^((p-3)/4) · R) mod p`. -/
def p34Canon (x : Fp) : Nat := powMod 512 (residue x) p34Exponent * radix % prime

/-- `p34Impl` (R236): the addition chain is not in the source, so which of the two representatives in
`[0, 2p)` it returns is free (U6, log 6); the residue and the range are the spec's laws. -/
def p34Impl (x : Fp) : Fp :=
  BitVec.ofNat 512 (if Config.p34Upper x then p34Canon x + prime else p34Canon x)

end Sys2Proof.Machine
end

