-- ==== Sys2Proof/Machine/Field2.lean ====
section
/-! DEFINITION. The exact Fp² functions of 42_fp2.md section 1. The sequence of lazy additions fixes the
representative and is the spec's (D26). -/

namespace Sys2Proof.Machine

/-- `lazy(u, v)`: an addition without reduction, modulo `2^512` (42_fp2.md). -/
def lazyAdd (u v : Fp) : Fp := u + v

/-- `f2add` (R260). -/
def f2add (x y : Fp2) : Fp2 := ⟨fpAdd x.re y.re, fpAdd x.im y.im⟩

/-- `f2sub` (R260). -/
def f2sub (x y : Fp2) : Fp2 := ⟨fpSub x.re y.re, fpSub x.im y.im⟩

/-- `f2mul` (R263): Karatsuba with three products and two reductions; `p·2^512` is added back when
`ac - bd` borrows. All double-width arithmetic is modulo `2^1024`. -/
def f2mul (x y : Fp2) : Fp2 :=
  let ac := fpMul x.re y.re
  let bd := fpMul x.im y.im
  let t1 := fpSub x.im x.re
  let t2 := fpSub y.re y.im
  let im := montRdc (fpMul t1 t2 + ac + bd)
  let re :=
    if bd.toNat ≤ ac.toNat then montRdc (ac - bd)
    else montRdc (ac - bd + BitVec.ofNat 1024 (prime * radix))
  ⟨re, im⟩

/-- `f2sqr` (R265). -/
def f2sqr (x : Fp2) : Fp2 :=
  let t1 := lazyAdd x.re x.im
  let t2 := fpSub x.re x.im
  let t3 := lazyAdd x.re x.re
  ⟨montRdc (fpMul t1 t2), montRdc (fpMul t3 x.im)⟩

/-- `f2inv` (R267), total: the inverse of a zero residue is zero (R269). -/
def f2inv (x : Fp2) : Fp2 :=
  let n := montRdc (fpMul x.re x.re + fpMul x.im x.im)
  let t := fpMulRdc n n
  let t := p34Impl t
  let t := fpMulRdc t t
  let t := fpMulRdc t n
  let mb := fpSub 0 x.im
  ⟨montRdc (fpMul x.re t), montRdc (fpMul mb t)⟩

/-- `swapCond` on both components with one choice (R271). -/
def f2swapCond (x y : Fp2) (c : Limb) : Fp2 × Fp2 :=
  let re := swapCond x.re y.re c
  let im := swapCond x.im y.im c
  (⟨re.1, im.1⟩, ⟨re.2, im.2⟩)

/-- `ONE2 = (ONE, 0)`, the Montgomery form of 1 (R291). -/
def one2 : Fp2 := ⟨BitVec.ofNat 512 montOne, 0⟩

/-- `toMont` on both components of a residue: `toMont2` of R409. -/
def toMont2 (r : Residue2) : Fp2 := ⟨toMont (BitVec.ofNat 512 r.re), toMont (BitVec.ofNat 512 r.im)⟩

/-- The residue of both components: `res2` of R409. -/
def residue2 (x : Fp2) : Residue2 := ⟨residue x.re, residue x.im⟩

end Sys2Proof.Machine
end

