-- ==== Sys2Proof/Machine/Formulas.lean ====
section
/-! DEFINITION. The point, curve and isogeny formulas of 43_curve.md and 44_isogeny.md, operation for
operation: the exact register values depend on the order (R291, D25). -/

namespace Sys2Proof.Machine

/-! ## Points -/

/-- `xDBL` on the curve of 4-form `(A24p, C24)` (R292). -/
def xDBL (p : Pt) (a24p c24 : Fp2) : Pt :=
  let t0 := f2sub p.x p.z
  let t1 := f2add p.x p.z
  let t0 := f2sqr t0
  let t1 := f2sqr t1
  let z2 := f2mul c24 t0
  let x2 := f2mul z2 t1
  let t1 := f2sub t1 t0
  let t0 := f2mul a24p t1
  let z2 := f2add z2 t0
  let z2 := f2mul z2 t1
  ⟨x2, z2⟩

/-- `xTPL` on the curve of 3-form `(A24p, A24m)` (R294). -/
def xTPL (p : Pt) (a24m a24p : Fp2) : Pt :=
  let t0 := f2sub p.x p.z
  let t2 := f2sqr t0
  let t1 := f2add p.x p.z
  let t3 := f2sqr t1
  let t4 := f2add t1 t0
  let t0 := f2sub t1 t0
  let t1 := f2sqr t4
  let t1 := f2sub t1 t3
  let t1 := f2sub t1 t2
  let t5 := f2mul t3 a24p
  let t3 := f2mul t5 t3
  let t6 := f2mul t2 a24m
  let t2 := f2mul t2 t6
  let t3 := f2sub t2 t3
  let t2 := f2sub t5 t6
  let t1 := f2mul t2 t1
  let t2 := f2add t3 t1
  let t2 := f2sqr t2
  let x3 := f2mul t2 t4
  let t1 := f2sub t3 t1
  let t1 := f2sqr t1
  let z3 := f2mul t1 t0
  ⟨x3, z3⟩

/-- `k` successive doublings on a curve read as 4-form (R293). -/
def pow2k (k : Nat) (crv : Crv) (p : Pt) : Pt := (fun q => xDBL q crv.fst crv.snd)^[k] p

/-- `k` successive triplings on a curve read as 3-form (R295). -/
def pow3k (k : Nat) (crv : Crv) (p : Pt) : Pt := (fun q => xTPL q crv.snd crv.fst)^[k] p

/-- `xDBLADD`: `2P` and `P + Q` from `P`, `Q`, `P - Q` and `a24` (R296). -/
def xDBLADD (p q pq : Pt) (a24 : Fp2) : Pt × Pt :=
  let t0 := f2add p.x p.z
  let t1 := f2sub p.x p.z
  let x2p := f2sqr t0
  let t2 := f2sub q.x q.z
  let xqp := f2add q.x q.z
  let t0 := f2mul t0 t2
  let z2p := f2sqr t1
  let t1 := f2mul t1 xqp
  let t2 := f2sub x2p z2p
  let x2p := f2mul x2p z2p
  let xqp := f2mul a24 t2
  let zqp := f2sub t0 t1
  let z2p := f2add xqp z2p
  let xqp := f2add t0 t1
  let z2p := f2mul z2p t2
  let zqp := f2sqr zqp
  let xqp := f2sqr xqp
  let zqp := f2mul pq.x zqp
  let xqp := f2mul pq.z xqp
  (⟨x2p, z2p⟩, ⟨xqp, zqp⟩)

/-! ## The three-point ladder (R297) -/

/-- Ladder bit `i` of a scalar: bit `i mod 8` of byte `i div 8` (R102). -/
def scalarBit (scalar : List Byte) (i : Nat) : Bool := (scalar.getD (i / 8) 0).getLsbD (i % 8)

/-- The ladder's three points `R0, R1, R2` (R297, transient by R70). -/
structure LadderPoints where
  r0 : Pt
  r1 : Pt
  r2 : Pt
deriving DecidableEq, Repr

/-- One ladder bit (R297). -/
def ladderStep (a24 : Fp2) (bit : Bool) (r : LadderPoints) : LadderPoints :=
  if bit then
    let v := xDBLADD r.r0 r.r1 r.r2 a24
    ⟨v.1, v.2, r.r2⟩
  else
    let v := xDBLADD r.r0 r.r2 r.r1 a24
    ⟨v.1, r.r1, v.2⟩

/-- `a24 = (A + 2C) / (4C)` of a canonical curve, as R297 computes it. -/
def ladderA24 (crv : Crv) : Fp2 :=
  let t := f2add crv.snd crv.snd
  let a24 := f2add crv.fst t
  let t := f2add t t
  let t := f2inv t
  f2mul a24 t

/-- The ladder's points after the bits `0 .. bitlen - 1` (R297). -/
def ladderRun (a24 : Fp2) (scalar : List Byte) (bitlen : Nat) (r : LadderPoints) : LadderPoints :=
  (List.range bitlen).foldl (fun r i => ladderStep a24 (scalarBit scalar i) r) r

/-- `ladder3pt(crv, P, Q, PmQ, bitlen, scalar)` (R297). -/
def ladder3pt (crv : Crv) (p q pmq : Pt) (bitlen : Nat) (scalar : List Byte) : Pt :=
  (ladderRun (ladderA24 crv) scalar bitlen ⟨q, p, pmq⟩).r1

/-! ## Curve forms -/

/-- Canonical `(A, C)` to the 4-form `(A + 2C, 4C)` (R300). -/
def curveEquiv4 (crv : Crv) : Crv :=
  let c24 := f2add crv.snd crv.snd
  let a24p := f2add crv.fst c24
  let c24 := f2add c24 c24
  ⟨a24p, c24⟩

/-- Canonical `(A, C)` to the 3-form `(A + 2C, A - 2C)` (R301). -/
def curveEquiv3 (crv : Crv) : Crv :=
  let t := f2add crv.snd crv.snd
  let a24m := f2sub crv.fst t
  let a24p := f2add crv.fst t
  ⟨a24p, a24m⟩

/-- The 4-form back to `(4A, 4C)` (R302, R304). -/
def curveRecover4 (crv : Crv) : Crv :=
  let t0 := f2add crv.fst crv.fst
  let t0 := f2add t0 t0
  let t1 := f2add crv.snd crv.snd
  ⟨f2sub t0 t1, crv.snd⟩

/-- The 3-form back to `(4A, 4C)` (R303, R304). -/
def curveRecover3 (crv : Crv) : Crv :=
  let a := f2add crv.fst crv.snd
  let a := f2add a a
  let c := f2sub crv.fst crv.snd
  ⟨a, c⟩

/-- `RecoverCoordinateA`: the curve `(A, 1)` of a basis (R305). -/
def recoverA (xP xQ xR : Fp2) : Crv :=
  let t1 := f2add xP xQ
  let t0 := f2mul xP xQ
  let a := f2mul xR t1
  let a := f2add a t0
  let t0 := f2mul t0 xR
  let a := f2sub a one2
  let t0 := f2add t0 t0
  let t1 := f2add t1 xR
  let t0 := f2add t0 t0
  let a := f2sqr a
  let t0 := f2inv t0
  let a := f2mul a t0
  let a := f2sub a t1
  ⟨a, one2⟩

/-- The j-invariant of a canonical curve; 0 where its denominator is 0 (R307, R308). -/
def jInvariant (crv : Crv) : Fp2 :=
  let j := f2sqr crv.fst
  let t1 := f2sqr crv.snd
  let t0 := f2add t1 t1
  let t0 := f2sub j t0
  let t0 := f2sub t0 t1
  let j := f2sub t0 t1
  let t1 := f2sqr t1
  let j := f2mul j t1
  let t0 := f2add t0 t0
  let t0 := f2add t0 t0
  let t1 := f2sqr t0
  let t0 := f2mul t0 t1
  let t0 := f2add t0 t0
  let t0 := f2add t0 t0
  let j := f2inv j
  let j := f2mul t0 j
  j

/-! ## Isogenies -/

/-- `get4`: the codomain 4-form and the coefficients of the 4-isogeny with kernel `K` (R341). -/
def get4 (k : Pt) : Crv × Coeffs4 :=
  let k2 := f2sub k.x k.z
  let k3 := f2add k.x k.z
  let k1 := f2sqr k.z
  let k1 := f2add k1 k1
  let c24 := f2sqr k1
  let k1 := f2add k1 k1
  let a24 := f2sqr k.x
  let a24 := f2add a24 a24
  let a24 := f2sqr a24
  (⟨a24, c24⟩, ⟨k1, k2, k3⟩)

/-- `eval4`: the image of a point under the stashed 4-isogeny (R343). -/
def eval4 (p : Pt) (k : Coeffs4) : Pt :=
  let x := p.x
  let z := p.z
  let t0 := f2add x z
  let t1 := f2sub x z
  let x := f2mul t0 k.k2
  let z := f2mul t1 k.k3
  let t0 := f2mul t0 t1
  let t0 := f2mul t0 k.k1
  let t1 := f2add x z
  let z := f2sub x z
  let t1 := f2sqr t1
  let z := f2sqr z
  let x := f2add t0 t1
  let t0 := f2sub z t0
  ⟨f2mul x t1, f2mul z t0⟩

/-- `get3`: the codomain 3-form and the coefficients of the 3-isogeny with kernel `K` (R345). -/
def get3 (k : Pt) : Crv × Coeffs3 :=
  let k1 := f2sub k.x k.z
  let t0 := f2sqr k1
  let k2 := f2add k.x k.z
  let t1 := f2sqr k2
  let t2 := f2add t0 t1
  let t3 := f2add k1 k2
  let t3 := f2sqr t3
  let t3 := f2sub t3 t2
  let t2 := f2add t1 t3
  let t3 := f2add t3 t0
  let t4 := f2add t3 t0
  let t4 := f2add t4 t4
  let t4 := f2add t1 t4
  let a24m := f2mul t2 t4
  let t4 := f2add t1 t2
  let t4 := f2add t4 t4
  let t4 := f2add t0 t4
  let a24p := f2mul t3 t4
  (⟨a24p, a24m⟩, ⟨k1, k2⟩)

/-- `eval3`: the image of a point under the stashed 3-isogeny (R347). -/
def eval3 (p : Pt) (k : Coeffs3) : Pt :=
  let t0 := f2add p.x p.z
  let t1 := f2sub p.x p.z
  let t0 := f2mul k.k1 t0
  let t1 := f2mul k.k2 t1
  let t2 := f2add t0 t1
  let t0 := f2sub t1 t0
  let t2 := f2sqr t2
  let t0 := f2sqr t0
  ⟨f2mul p.x t2, f2mul p.z t0⟩

end Sys2Proof.Machine
end

