-- ==== Sys2Proof/Machine/Flags.lean ====
section
/-! DEFINITION. The 64-bit operations with their carry (40_l0_primitives.md R200 to R203) and the words of
the control and status registers (10_state.md R59 to R63). -/

namespace Sys2Proof.Machine

/-- `addc(cin, a, b)`: the sum modulo `2^64` and `cout = (a + b + cin) div 2^64` (R200, R201). -/
def addc (cin : Bool) (a b : Limb) : Limb × Bool :=
  let s := a.toNat + b.toNat + cin.toNat
  (BitVec.ofNat 64 s, decide (2 ^ 64 ≤ s))

/-- `subc(bin, a, b)`: the difference modulo `2^64` and the borrow, 1 iff `a < b + bin` (R200, R202). -/
def subc (bin : Bool) (a b : Limb) : Limb × Bool :=
  (a - b - BitVec.ofNat 64 bin.toNat, decide (a.toNat < b.toNat + bin.toNat))

/-- `mul64(a, b)`: the high and the low word of the full product (R200, R203). -/
def mul64 (a b : Limb) : Limb × Limb :=
  let t := a.toNat * b.toNat
  (BitVec.ofNat 64 (t / 2 ^ 64), BitVec.ofNat 64 t)

/-- The code of an error in `STATUS.ERRCODE` (R521). -/
def CmdError.code : CmdError → BitVec 4
  | .invalidInputLength => 1
  | .incompatibleKeys => 2
  | .rngFailure => 3
  | .wrongKeyType => 4
  | .illegalOpcode => 8
  | .illegalOperand => 9
  | .isogenyNotGenerated => 10
  | .emptyKeySlot => 11

/-- A flag as a word with the flag at bit `n`. -/
def bitAt (b : Bool) (n : Nat) : Word := (BitVec.ofBool b).setWidth 32 <<< n

/-- The value a read of `STATUS` returns (R59). -/
def State.statusWord (s : State) : Word :=
  bitAt s.busy 0 ||| bitAt s.done 1 ||| bitAt s.err 2 ||| (s.errcode.setWidth 32 <<< 4) ||| bitAt s.ovr 8

/-- The value a read of `CTRL` returns; `SRST` reads 0 (R60). -/
def State.ctrlWord (s : State) : Word := bitAt s.ie 0

/-- The value a read of `ISR` returns (R61). -/
def State.isrWord (s : State) : Word := bitAt s.doneP 0

/-- The value a read of `FLAGS` returns (R63). -/
def State.flagsWord (s : State) : Word := bitAt s.c 0

/-- The constant a read of `ID` returns (R3, R62). -/
def idWord : Word := 0x01F70701

/-- The interrupt output `IRQ = CTRL.IE AND ISR.DONE_P`, a level (R527). -/
def State.irq (s : State) : Bool := s.ie && s.doneP

end Sys2Proof.Machine
end

