-- ==== Sys2Proof/Machine/Ops.lean ====
section
/-! DEFINITION. The named operations over registers, slots, stashes, `BUF` and the RNG port, and the two ends
of a command: completion (R150) and raising an error (R520). -/

namespace Sys2Proof.Machine

/-- What a meaning answers. -/
abbrev Result := Host.Outcome State Fault Refusal

/-! ## Register files -/

/-- `E[n]` (R13, R52). The operand classes keep `n` below 64; past the file the value is 0. -/
def State.readE (s : State) (n : Nat) : Fp := s.e.getD n 0

/-- `E[n] <- v` (R13). -/
def State.writeE (s : State) (n : Nat) (v : Fp) : State := { s with e := s.e.setIfInBounds n v }

/-- `V[k] = (E[2k], E[2k+1])` (R53). -/
def State.readV (s : State) (k : Nat) : Fp2 := ⟨s.readE (2 * k), s.readE (2 * k + 1)⟩

/-- `V[k] <- v` (R53). -/
def State.writeV (s : State) (k : Nat) (v : Fp2) : State :=
  (s.writeE (2 * k) v.re).writeE (2 * k + 1) v.im

/-- `Pt[k] = (V[2k], V[2k+1])` as a point `(X, Z)` (R54). -/
def State.readPt (s : State) (k : Nat) : Pt := ⟨s.readV (2 * k), s.readV (2 * k + 1)⟩

/-- `Pt[k] <- p` (R54). -/
def State.writePt (s : State) (k : Nat) (p : Pt) : State :=
  (s.writeV (2 * k) p.x).writeV (2 * k + 1) p.z

/-- `Pt[k], Pt[k+1], … <- ps` (class `pt3`, R153). -/
def State.writePts (s : State) (k : Nat) : List Pt → State
  | [] => s
  | p :: ps => (s.writePt k p).writePts (k + 1) ps

/-- `Crv[k]`, the storage of `Pt[k]` (R54). -/
def State.readCrv (s : State) (k : Nat) : Crv := ⟨s.readV (2 * k), s.readV (2 * k + 1)⟩

/-- `Crv[k] <- v` (R54). -/
def State.writeCrv (s : State) (k : Nat) (v : Crv) : State :=
  (s.writeV (2 * k) v.fst).writeV (2 * k + 1) v.snd

/-- `D[n]` (R55). -/
def State.readD (s : State) (n : Nat) : FpX2 := s.d.getD n 0

/-- `D[n] <- v` (R55). -/
def State.writeD (s : State) (n : Nat) (v : FpX2) : State := { s with d := s.d.setIfInBounds n v }

/-- `G[n]` (R56). -/
def State.readG (s : State) (n : Nat) : Limb := s.g.getD n 0

/-- `G[n] <- v` (R56). -/
def State.writeG (s : State) (n : Nat) (v : Limb) : State := { s with g := s.g.setIfInBounds n v }

/-- `C <- b` (R57). -/
def State.writeC (s : State) (b : Bool) : State := { s with c := b }

/-! ## Slots and stashes -/

/-- `SK[n]` (R66). -/
def State.readSk (s : State) (n : Nat) : SkSlot := s.sk.getD n .empty

/-- `SK[n] <- k` (R66). -/
def State.writeSk (s : State) (n : Nat) (k : SkSlot) : State := { s with sk := s.sk.setIfInBounds n k }

/-- `PK[n]` (R67). -/
def State.readPk (s : State) (n : Nat) : PkSlot := s.pk.getD n .empty

/-- `PK[n] <- k` (R67). -/
def State.writePk (s : State) (n : Nat) (k : PkSlot) : State := { s with pk := s.pk.setIfInBounds n k }

/-- `ISO4 <- {K, valid = 1}` (R340, R341). -/
def State.stash4 (s : State) (k : Coeffs4) : State := { s with iso4 := ⟨k, true⟩ }

/-- `ISO3 <- {K, valid = 1}` (R340, R345). -/
def State.stash3 (s : State) (k : Coeffs3) : State := { s with iso3 := ⟨k, true⟩ }

/-- Clear `ISO4` and `ISO3` (R412). -/
def State.clearStashes (s : State) : State := { s with iso4 := .cleared, iso3 := .cleared }

/-! ## `BUF` -/

/-- The byte of `BUF` at an offset; an offset not listed reads 0 (R69, R75). -/
def Memory.read : Memory → Nat → Byte
  | [], _ => 0
  | (k, b) :: m, a => if k = a then b else Memory.read m a

/-- Write one byte, keeping the canonical form: a 0 is not listed. -/
def Memory.write : Memory → Nat → Byte → Memory
  | [], a, v => if v = 0 then [] else [(a, v)]
  | (k, b) :: m, a, v =>
    if a < k then (if v = 0 then (k, b) :: m else (a, v) :: (k, b) :: m)
    else if a = k then (if v = 0 then m else (a, v) :: m)
    else (k, b) :: Memory.write m a v

/-- `BufRead(off, n)` (R13). -/
def Memory.readBytes (m : Memory) (off n : Nat) : List Byte :=
  (List.range n).map (fun i => Memory.read m (off + i))

/-- `BufWrite(off, n, s)` with `n` the length of `s` (R13). -/
def Memory.writeBytes : Memory → Nat → List Byte → Memory
  | m, _, [] => m
  | m, off, b :: bs => Memory.writeBytes (Memory.write m off b) (off + 1) bs

/-- The canonical form: offsets below 2048 and strictly rising, no byte that an unlisted offset reads as. -/
def Memory.wf (m : Memory) : Bool :=
  decide (m.Pairwise (fun x y => x.1 < y.1)) && m.all (fun x => decide (x.1 < 2048) && x.2 != 0)

/-- `BufRead(off, n)` on a state (R13). -/
def State.bufRead (s : State) (off n : Nat) : List Byte := Memory.readBytes s.buf off n

/-- `BufWrite(off, n, bs)` on a state (R13). -/
def State.bufWrite (s : State) (off : Nat) (bs : List Byte) : State :=
  { s with buf := Memory.writeBytes s.buf off bs }

/-! ## The RNG port -/

/-- `RngRead(n)`: `n` bytes, or `none` for a failure; either way with the items that are left. Bytes taken
before a failure are lost (R72). -/
def rngRead : Nat → List RngItem → Option (List Byte) × List RngItem
  | 0, items => (some [], items)
  | _ + 1, [] => (none, [])
  | _ + 1, none :: items => (none, items)
  | n + 1, some b :: items =>
    match rngRead n items with
    | (some bs, left) => (some (b :: bs), left)
    | (none, left) => (none, left)

/-! ## The ends of a command -/

/-- Completion with an error code: `ERRCODE`, `ERR`, then `BUSY = 0`, `DONE = 1`, `DONE_P = 1` (R150). -/
def State.finish (s : State) (code : BitVec 4) : State :=
  { s with errcode := code, err := code != 0, busy := false, done := true, doneP := true }

/-- The end of a command that completes without error (R150). -/
def complete (s : State) : Result := .next (s.finish 0)

/-- TAKING AN EXCEPTION: `raise E` ends the command. `s` is the state the command started from, so that
every effect is discarded, less the RNG items it has taken (R520, R523). There is no trap entry, no saved
pc and no return (R520). -/
def raise (e : CmdError) (s : State) : Result := .next (s.finish e.code)

/-- The checks of a command in the order of R158 and R524: the first that does not hold is raised, before
any state changes (R522); then the command's effect. -/
def checked (s : State) : List (Bool × CmdError) → Result → Result
  | [], effect => effect
  | (ok, e) :: rest, effect => if ok then checked s rest effect else raise e s

/-- `RngRead(n)` inside a command: a failure raises `RngFailure`, with the items taken lost (R72, R523). -/
def withRng (n : Nat) (s : State) (effect : List Byte → State → Result) : Result :=
  match rngRead n s.rng with
  | (some bs, left) => effect bs { s with rng := left }
  | (none, left) => raise .rngFailure { s with rng := left }

end Sys2Proof.Machine
end

