-- ==== Sys2Proof/Machine/Operands.lean ====
section
/-! DEFINITION. The operand checks of 30_encoding.md R153, R155 and R156 as the meanings make them. That they
agree with `Instr.wellFormed` is proved under Laws/. -/

namespace Sys2Proof.Machine

/-- Class `v`: 0..31 (R153). Class `e` admits every field value. -/
def okV (f : Field) : Bool := decide (f.toNat < 32)

/-- Class `v3`: 0..29 (R153). -/
def okV3 (f : Field) : Bool := decide (f.toNat < 30)

/-- Classes `pt` and `crv`: 0..15 (R153). -/
def okPt (f : Field) : Bool := decide (f.toNat < 16)

/-- Class `pt3`: 0..13 (R153). -/
def okPt3 (f : Field) : Bool := decide (f.toNat < 14)

/-- Class `d`: 0..3 (R153). -/
def okD (f : Field) : Bool := decide (f.toNat < 4)

/-- Classes `g` (`n = 1`) and `gN` (`n = N`): 0..16-N (R153). -/
def okG (n : Nat) (f : Field) : Bool := decide (f.toNat ≤ 16 - n)

/-- Classes `sk` and `pk`: 0..3 (R153). -/
def okSlot (f : Field) : Bool := decide (f.toNat < 4)

/-- Class `var`: 1..3 (R68, R153). -/
def okVar (f : Field) : Bool := decide (1 ≤ f.toNat ∧ f.toNat < 4)

/-- Class `cs`: 0..5 (R153, R242). -/
def okCs (f : Field) : Bool := decide (f.toNat < 6)

/-- The variant a `var` field names (R68). A value outside the class names none. -/
def variantOf (f : Field) : Variant :=
  match f.toNat with
  | 1 => .sidhA
  | 2 => .sidhB
  | 3 => .sike
  | _ => .none

/-- A `BUF` range is legal iff `off + n ≤ 2048`, on full 64-bit values without wrap-around (R101, R156). -/
def okRange (off : Limb) (n : Nat) : Bool := decide (off.toNat + n ≤ 2048)

/-- Two written `BUF` ranges do not overlap (R155). -/
def okDisjoint (off₁ : Limb) (n₁ : Nat) (off₂ : Limb) (n₂ : Nat) : Bool :=
  decide (off₁.toNat + n₁ ≤ off₂.toNat ∨ off₂.toNat + n₂ ≤ off₁.toNat)

/-- The register is none of the three a `pt3` field names (R155). -/
def okOutside3 (f base : Field) : Bool :=
  decide (f.toNat < base.toNat ∨ base.toNat + 2 < f.toNat)

end Sys2Proof.Machine
end

