-- ==== Sys2Proof/Machine/CurveCommands.lean ====
section
/-! DEFINITION. The point and curve commands (43_curve.md). -/

namespace Sys2Proof.Machine

/-- `PT_POW2K Ptd, Pts, Crvc, Gk` (R293). -/
def execPtPow2k (rd rs1 rs2 rs3 : Field) (s : State) : Result :=
  checked s [(okPt rd && okPt rs1 && okPt rs2 && okG 1 rs3, .illegalOperand)]
    (complete (s.writePt rd.toNat
      (pow2k (s.readG rs3.toNat).toNat (s.readCrv rs2.toNat) (s.readPt rs1.toNat))))

/-- `PT_POW3K Ptd, Pts, Crvc, Gk` (R295). -/
def execPtPow3k (rd rs1 rs2 rs3 : Field) (s : State) : Result :=
  checked s [(okPt rd && okPt rs1 && okPt rs2 && okG 1 rs3, .illegalOperand)]
    (complete (s.writePt rd.toNat
      (pow3k (s.readG rs3.toNat).toNat (s.readCrv rs2.toNat) (s.readPt rs1.toNat))))

/-- The bytes of a ladder scalar of `bitlen` bits: `(bitlen + 7) div 8` (R298). -/
def scalarBytes (bitlen : Limb) : Nat := (bitlen.toNat + 7) / 8

/-- `PT_LADDER3PT Ptd, Crvc, Ptb, Gg` (R298): `bitlen = G[RS3]`, the scalar at `BUF[G[RS3+1]]`. -/
def execPtLadder3pt (rd rs1 rs2 rs3 : Field) (s : State) : Result :=
  let bitlen := s.readG rs3.toNat
  let off := s.readG (rs3.toNat + 1)
  checked s
    [(okPt rd && okPt rs1 && okPt3 rs2 && okG 2 rs3 && okRange off (scalarBytes bitlen), .illegalOperand)]
    (complete (s.writePt rd.toNat
      (ladder3pt (s.readCrv rs1.toNat) (s.readPt rs2.toNat) (s.readPt (rs2.toNat + 1))
        (s.readPt (rs2.toNat + 2)) bitlen.toNat (s.bufRead off.toNat (scalarBytes bitlen)))))

/-- `CRV_EQUIV4 Crvd, Crvs` (R300). -/
def execCrvEquiv4 (rd rs1 : Field) (s : State) : Result :=
  checked s [(okPt rd && okPt rs1, .illegalOperand)]
    (complete (s.writeCrv rd.toNat (curveEquiv4 (s.readCrv rs1.toNat))))

/-- `CRV_EQUIV3 Crvd, Crvs` (R301). -/
def execCrvEquiv3 (rd rs1 : Field) (s : State) : Result :=
  checked s [(okPt rd && okPt rs1, .illegalOperand)]
    (complete (s.writeCrv rd.toNat (curveEquiv3 (s.readCrv rs1.toNat))))

/-- `CRV_RECOVER4 Crvd, Crvs` (R302). -/
def execCrvRecover4 (rd rs1 : Field) (s : State) : Result :=
  checked s [(okPt rd && okPt rs1, .illegalOperand)]
    (complete (s.writeCrv rd.toNat (curveRecover4 (s.readCrv rs1.toNat))))

/-- `CRV_RECOVER3 Crvd, Crvs` (R303). -/
def execCrvRecover3 (rd rs1 : Field) (s : State) : Result :=
  checked s [(okPt rd && okPt rs1, .illegalOperand)]
    (complete (s.writeCrv rd.toNat (curveRecover3 (s.readCrv rs1.toNat))))

/-- `CRV_RECOVER_A Crvd, Vb` (R305). -/
def execCrvRecoverA (rd rs1 : Field) (s : State) : Result :=
  checked s [(okPt rd && okV3 rs1, .illegalOperand)]
    (complete (s.writeCrv rd.toNat
      (recoverA (s.readV rs1.toNat) (s.readV (rs1.toNat + 1)) (s.readV (rs1.toNat + 2)))))

/-- `CRV_JINV Vd, Crvs` (R307). -/
def execCrvJinv (rd rs1 : Field) (s : State) : Result :=
  checked s [(okV rd && okPt rs1, .illegalOperand)]
    (complete (s.writeV rd.toNat (jInvariant (s.readCrv rs1.toNat))))

end Sys2Proof.Machine
end

