-- ==== Sys2Proof/Machine/Fp2Commands.lean ====
section
/-! DEFINITION. The Fp² commands (42_fp2.md section 3). -/

namespace Sys2Proof.Machine

/-- `FP2_ADD Vd, Va, Vb` (R261). -/
def execFp2Add (rd rs1 rs2 : Field) (s : State) : Result :=
  checked s [(okV rd && okV rs1 && okV rs2, .illegalOperand)]
    (complete (s.writeV rd.toNat (f2add (s.readV rs1.toNat) (s.readV rs2.toNat))))

/-- `FP2_SUB Vd, Va, Vb` (R262). -/
def execFp2Sub (rd rs1 rs2 : Field) (s : State) : Result :=
  checked s [(okV rd && okV rs1 && okV rs2, .illegalOperand)]
    (complete (s.writeV rd.toNat (f2sub (s.readV rs1.toNat) (s.readV rs2.toNat))))

/-- `FP2_MUL Vd, Va, Vb` (R264). -/
def execFp2Mul (rd rs1 rs2 : Field) (s : State) : Result :=
  checked s [(okV rd && okV rs1 && okV rs2, .illegalOperand)]
    (complete (s.writeV rd.toNat (f2mul (s.readV rs1.toNat) (s.readV rs2.toNat))))

/-- `FP2_SQR Vd, Va` (R266). -/
def execFp2Sqr (rd rs1 : Field) (s : State) : Result :=
  checked s [(okV rd && okV rs1, .illegalOperand)]
    (complete (s.writeV rd.toNat (f2sqr (s.readV rs1.toNat))))

/-- `FP2_INV Vd, Va` (R268): no error, also for 0. -/
def execFp2Inv (rd rs1 : Field) (s : State) : Result :=
  checked s [(okV rd && okV rs1, .illegalOperand)]
    (complete (s.writeV rd.toNat (f2inv (s.readV rs1.toNat))))

/-- `FP2_MOV Vd, Va` (R270). -/
def execFp2Mov (rd rs1 : Field) (s : State) : Result :=
  checked s [(okV rd && okV rs1, .illegalOperand)]
    (complete (s.writeV rd.toNat (s.readV rs1.toNat)))

/-- `FP2_SWAPCOND Va, Vb, Gc` (R271). -/
def execFp2Swapcond (rs1 rs2 rs3 : Field) (s : State) : Result :=
  checked s [(okV rs1 && okV rs2 && okG 1 rs3, .illegalOperand)]
    (let v := f2swapCond (s.readV rs1.toNat) (s.readV rs2.toNat) (s.readG rs3.toNat)
     complete ((s.writeV rs1.toNat v.1).writeV rs2.toNat v.2))

end Sys2Proof.Machine
end

