-- ==== Sys2Proof/Machine/FpCommands.lean ====
section
/-! DEFINITION. The Fp commands (41_fp.md sections 3 to 5). A field of class `e` is always legal (R153). -/

namespace Sys2Proof.Machine

/-- `FP_ADD Ed, Ea, Eb` (R225). -/
def execFpAdd (rd rs1 rs2 : Field) (s : State) : Result :=
  complete (s.writeE rd.toNat (fpAdd (s.readE rs1.toNat) (s.readE rs2.toNat)))

/-- `FP_SUB Ed, Ea, Eb` (R226). -/
def execFpSub (rd rs1 rs2 : Field) (s : State) : Result :=
  complete (s.writeE rd.toNat (fpSub (s.readE rs1.toNat) (s.readE rs2.toNat)))

/-- `FP_RDCP Ed, Ea` (R227). -/
def execFpRdcp (rd rs1 : Field) (s : State) : Result :=
  complete (s.writeE rd.toNat (fpRdcP (s.readE rs1.toNat)))

/-- `FP_SWAPCOND Ea, Eb, Gc` (R228). -/
def execFpSwapcond (rs1 rs2 rs3 : Field) (s : State) : Result :=
  checked s [(okG 1 rs3, .illegalOperand)]
    (let v := swapCond (s.readE rs1.toNat) (s.readE rs2.toNat) (s.readG rs3.toNat)
     complete ((s.writeE rs1.toNat v.1).writeE rs2.toNat v.2))

/-- `FP_MUL Dd, Ea, Eb` (R229). -/
def execFpMul (rd rs1 rs2 : Field) (s : State) : Result :=
  checked s [(okD rd, .illegalOperand)]
    (complete (s.writeD rd.toNat (fpMul (s.readE rs1.toNat) (s.readE rs2.toNat))))

/-- `FP_MONTRDC Ed, Ds` (R230). -/
def execFpMontrdc (rd rs1 : Field) (s : State) : Result :=
  checked s [(okD rs1, .illegalOperand)]
    (complete (s.writeE rd.toNat (montRdc (s.readD rs1.toNat))))

/-- `FP_MULRDC Ed, Ea, Eb` (R231). -/
def execFpMulrdc (rd rs1 rs2 : Field) (s : State) : Result :=
  complete (s.writeE rd.toNat (fpMulRdc (s.readE rs1.toNat) (s.readE rs2.toNat)))

/-- `FP_P34 Ed, Ea` (R237). -/
def execFpP34 (rd rs1 : Field) (s : State) : Result :=
  complete (s.writeE rd.toNat (p34Impl (s.readE rs1.toNat)))

/-- `FP_MOV Ed, Ea` (R240). -/
def execFpMov (rd rs1 : Field) (s : State) : Result :=
  complete (s.writeE rd.toNat (s.readE rs1.toNat))

/-- `FP_LDC Ed, #cs` (R242). -/
def execFpLdc (rd rs1 : Field) (s : State) : Result :=
  checked s [(okCs rs1, .illegalOperand)]
    (complete (s.writeE rd.toNat (constant rs1.toNat)))

/-- `FP_TOMONT Ed, Ea` (R243). -/
def execFpTomont (rd rs1 : Field) (s : State) : Result :=
  complete (s.writeE rd.toNat (toMont (s.readE rs1.toNat)))

/-- `FP_FROMMONT Ed, Ea` (R244). -/
def execFpFrommont (rd rs1 : Field) (s : State) : Result :=
  complete (s.writeE rd.toNat (fromMont (s.readE rs1.toNat)))

end Sys2Proof.Machine
end

