-- ==== Sys2Proof/Machine/IsogenyCommands.lean ====
section
/-! DEFINITION. The isogeny commands (44_isogeny.md). -/

namespace Sys2Proof.Machine

/-- `ISO4_GEN Crvd, Pts` (R341): writes the codomain and the stash. -/
def execIso4Gen (rd rs1 : Field) (s : State) : Result :=
  checked s [(okPt rd && okPt rs1, .illegalOperand)]
    (let made := get4 (s.readPt rs1.toNat)
     complete ((s.writeCrv rd.toNat made.1).stash4 made.2))

/-- `ISO4_EVAL Ptd, Pts` (R343): without a stash it raises `IsogenyNotGenerated` (R340). -/
def execIso4Eval (rd rs1 : Field) (s : State) : Result :=
  checked s [(okPt rd && okPt rs1, .illegalOperand), (s.iso4.valid, .isogenyNotGenerated)]
    (complete (s.writePt rd.toNat (eval4 (s.readPt rs1.toNat) s.iso4.coeffs)))

/-- `ISO3_GEN Crvd, Pts` (R345). -/
def execIso3Gen (rd rs1 : Field) (s : State) : Result :=
  checked s [(okPt rd && okPt rs1, .illegalOperand)]
    (let made := get3 (s.readPt rs1.toNat)
     complete ((s.writeCrv rd.toNat made.1).stash3 made.2))

/-- `ISO3_EVAL Ptd, Pts` (R347). -/
def execIso3Eval (rd rs1 : Field) (s : State) : Result :=
  checked s [(okPt rd && okPt rs1, .illegalOperand), (s.iso3.valid, .isogenyNotGenerated)]
    (complete (s.writePt rd.toNat (eval3 (s.readPt rs1.toNat) s.iso3.coeffs)))

end Sys2Proof.Machine
end

