-- ==== Sys2Proof/Machine/Walk.lean ====
section
/-! DEFINITION. The strategy-driven traversal of 45_traversal.md R374. Its stack, counters and current curve
are transient (R70, R373). -/

namespace Sys2Proof.Machine

/-- What the traversal takes from a side (R374, R401): the small isogeny's `gen` and `eval`, the
multiplication `step` by `k` strategy units on the current curve, and the curve-form maps. `κ` is the type
of the isogeny's coefficients. -/
structure IsogenyFamily (κ : Type) where
  gen : Pt → Crv × κ
  eval : Pt → κ → Pt
  step : Crv → Nat → Pt → Pt
  equiv : Crv → Crv
  recover : Crv → Crv

/-- Side A: 4-isogenies; one strategy unit is two doublings (R374, R380). -/
def family4 : IsogenyFamily Coeffs4 where
  gen := get4
  eval := eval4
  step := fun crv k p => pow2k (2 * k) crv p
  equiv := curveEquiv4
  recover := curveRecover4

/-- Side B: 3-isogenies; one strategy unit is one tripling (R374, R380). -/
def family3 : IsogenyFamily Coeffs3 where
  gen := get3
  eval := eval3
  step := fun crv k p => pow3k k crv p
  equiv := curveEquiv3
  recover := curveRecover3

/-- The traversal's working state (R373): the current curve, `R` and `i`, the stack of `(R, i)` with its
top first, the strategy entries not yet read, the basis, the last coefficients, and the largest size the
stack has had, which `STACK_DEPTH` bounds (R372). -/
structure Frame (κ : Type) where
  crv : Crv
  r : Pt
  i : Nat
  stack : List (Pt × Nat)
  strat : List Nat
  basis : List Pt
  coeffs : Option κ
  deepest : Nat

/-- The inner loop of R374: while `i ≤ bound`, push `(R, i)` and multiply `R` by the next strategy entry.
The recursion is on the entries left; it ends early only where they run out, which an admitted strategy
excludes (R371; log 17). -/
def pushLoop {κ : Type} (fam : IsogenyFamily κ) (crv : Crv) (bound : Nat) :
    List Nat → Pt → Nat → List (Pt × Nat) → Pt × Nat × List (Pt × Nat) × List Nat
  | [], r, i, st => (r, i, st, [])
  | k :: rest, r, i, st =>
    if i ≤ bound then pushLoop fam crv bound rest (fam.step crv k r) (i + k) ((r, i) :: st)
    else (r, i, st, k :: rest)

/-- One round of the outer loop of R374, with `N - j = bound`: push, generate the small isogeny from `R`,
evaluate it at every stack entry and every basis point, pop `(R, i)`. An empty stack, which an admitted
strategy excludes, leaves `R` and `i` (log 17). -/
def walkRound {κ : Type} (fam : IsogenyFamily κ) (bound : Nat) (f : Frame κ) : Frame κ :=
  let pushed := pushLoop fam f.crv bound f.strat f.r f.i f.stack
  let r := pushed.1
  let i := pushed.2.1
  let made := fam.gen r
  let stack := pushed.2.2.1.map (fun entry => (fam.eval entry.1 made.2, entry.2))
  let top := stack.headD (r, i)
  { crv := made.1
    r := top.1
    i := top.2
    stack := stack.tail
    strat := pushed.2.2.2
    basis := f.basis.map (fun b => fam.eval b made.2)
    coeffs := some made.2
    deepest := max f.deepest pushed.2.2.1.length }

/-- The outer loop of R374 for `j = N - rounds + 1 .. N`. -/
def walkRounds {κ : Type} (fam : IsogenyFamily κ) : Nat → Frame κ → Frame κ
  | 0, f => f
  | rounds + 1, f => walkRounds fam rounds (walkRound fam rounds f)

/-- `traverse(side, crv, R, basis)` (R374), with the strategy given. An empty `basis` is R374's `none`. -/
def traverse {κ : Type} (fam : IsogenyFamily κ) (strat : List Nat) (crv : Crv) (r : Pt)
    (basis : List Pt) : Frame κ :=
  walkRounds fam strat.length
    { crv := crv, r := r, i := 0, stack := [], strat := strat, basis := basis, coeffs := none, deepest := 0 }

end Sys2Proof.Machine
end

