-- ==== Sys2Proof/Machine/Keys.lean ====
section
/-! DEFINITION. Wire formats (48_wire.md), keys, public-key generation and the shared secret (46_sidh.md),
and the procedures of the KEM (47_kem.md), as functions of values. -/

namespace Sys2Proof.Machine

/-! ## Bytes (R12) -/

/-- `bytes_LE(v, n)` (R12). -/
def bytesLE : Nat → Nat → List Byte
  | _, 0 => []
  | v, n + 1 => BitVec.ofNat 8 v :: bytesLE (v / 256) n

/-- `int_LE(s)` (R12). -/
def intLE : List Byte → Nat
  | [] => 0
  | b :: bs => b.toNat + 256 * intLE bs

/-- `s[a : b]` (R12). -/
def slice (s : List Byte) (a b : Nat) : List Byte := (s.drop a).take (b - a)

/-- A byte string of known length as a slot stores it. -/
def pack (n : Nat) (s : List Byte) : Vector Byte n := Vector.ofFn (fun i => s.getD i.val 0)

/-! ## Wire formats -/

/-- The 126 wire bytes of a residue pair (R490). -/
def residueWire (r : Residue2) : List Byte := bytesLE r.re bytelen ++ bytesLE r.im bytelen

/-- `f2Wire(v)`: the 126 canonical wire bytes of a register value (R490). -/
def f2Wire (v : Fp2) : List Byte :=
  bytesLE (fromMont v.re).toNat bytelen ++ bytesLE (fromMont v.im).toNat bytelen

/-- The residue pair of 126 wire bytes, read modulo `p` (R491). -/
def residueFromWire (b : List Byte) : Residue2 :=
  ⟨intLE (slice b 0 63) % prime, intLE (slice b 63 126) % prime⟩

/-- The register value `FP2_FROMWIRE` makes of 126 wire bytes, with no prior reduction (R491, R496). -/
def f2FromWire (b : List Byte) : Fp2 :=
  ⟨toMont (BitVec.ofNat 512 (intLE (slice b 0 63))), toMont (BitVec.ofNat 512 (intLE (slice b 63 126)))⟩

/-- `pkWire(k)`: `xP || xQ || xQmP`, 378 bytes (R492). -/
def pkWire (k : PkSlot) : List Byte := residueWire k.xP ++ residueWire k.xQ ++ residueWire k.xQmP

/-- `{variant, pkFromWire(b)}` for 378 wire bytes (R491, R405). -/
def pkFromWire (v : Variant) (b : List Byte) : PkSlot :=
  ⟨v, residueFromWire (slice b 0 126), residueFromWire (slice b 126 252), residueFromWire (slice b 252 378)⟩

/-- `skSize` (R493). -/
def skSize : Variant → Nat
  | .none => 0
  | .sidhA => 32
  | .sidhB => 32
  | .sike => 56

/-- `skWire(k)`: the scalar, after `s` for a SIKE key (R493). An empty slot has size 0 and no bytes. -/
def skWire (k : SkSlot) : List Byte :=
  match k.variant with
  | .none => []
  | .sidhA => k.scalar.toList
  | .sidhB => k.scalar.toList
  | .sike => k.s.toList ++ k.scalar.toList

/-- The private key of `skSize(v)` wire bytes, stored as given (R403, R493). -/
def skFromWire (v : Variant) (b : List Byte) : SkSlot :=
  match v with
  | .sike => ⟨.sike, pack 32 (slice b 24 56), pack 24 (slice b 0 24)⟩
  | v => ⟨v, pack 32 (slice b 0 32), Vector.replicate 24 0⟩

/-! ## Keys -/

/-- The side of a variant (R68, R400). Every command that asks for a side has raised `EmptyKeySlot` for
`NONE` before (R524), so the value for an empty slot is never used (log 12). -/
def side : Variant → Side
  | .sidhA => .a
  | .sidhB => .b
  | .sike => .b
  | .none => .b

/-- `mask(sc, side)` on the last byte: clear the bits above `SecretBitLen`, force the high bit (R407). -/
def mask (sc : Vector Byte 32) (sd : Side) : Vector Byte 32 :=
  let b := secretBitLen sd % 8
  let cleared := sc[31] &&& BitVec.ofNat 8 (2 ^ b - 1)
  sc.set 31 (cleared ||| BitVec.ofNat 8 (2 ^ (b - 1)))

/-! ## Public-key generation and the shared secret -/

/-- `pt(x) = (toMont2(x), ONE2)` (R409). -/
def affinePt (x : Residue2) : Pt := ⟨toMont2 x, one2⟩

/-- The starting curve in Montgomery form (R409). -/
def startCurve : Crv := ⟨toMont2 startA, toMont2 startC⟩

/-- Step 5 of R409: the affine x-coordinates of three points by one inversion. -/
def normalize3 (p1 p2 p3 : Pt) : Residue2 × Residue2 × Residue2 :=
  let t0 := f2mul p1.z p2.z
  let t1 := f2mul t0 p3.z
  let t1 := f2inv t1
  let y3 := f2mul t1 t0
  let t2 := f2mul t1 p3.z
  let y1 := f2mul t2 p2.z
  let y2 := f2mul t2 p1.z
  (residue2 (f2mul p1.x y1), residue2 (f2mul p2.x y2), residue2 (f2mul p3.x y3))

/-- `genPublic` on a side whose isogenies are `fam` (R409, steps 1 to 5). -/
def genPublicOn {κ : Type} (fam : IsogenyFamily κ) (sd : Side) (sc : List Byte) :
    Residue2 × Residue2 × Residue2 :=
  let own := ownBasis sd
  let opp := oppositeBasis sd
  let r := ladder3pt startCurve (affinePt own.1) (affinePt own.2.1) (affinePt own.2.2) (secretBitLen sd) sc
  let f := traverse fam (strategy sd) (fam.equiv startCurve) r
    [affinePt opp.1, affinePt opp.2.1, affinePt opp.2.2]
  let last := fam.gen f.r
  match f.basis.map (fun b => fam.eval b last.2) with
  | [p1, p2, p3] => normalize3 p1 p2 p3
  | _ => (⟨0, 0⟩, ⟨0, 0⟩, ⟨0, 0⟩)

/-- `genPublic(v, sc)`, as the key slot with its variant (R409, R410). -/
def genPublic (v : Variant) (sc : List Byte) : PkSlot :=
  let x :=
    match side v with
    | .a => genPublicOn family4 .a sc
    | .b => genPublicOn family3 .b sc
  ⟨v, x.1, x.2.1, x.2.2⟩

/-- `deriveSecret` on a side whose isogenies are `fam` (R413, steps 1 to 4). -/
def deriveSecretOn {κ : Type} (fam : IsogenyFamily κ) (sd : Side) (sc : List Byte) (pk : PkSlot) :
    List Byte :=
  let xP := toMont2 pk.xP
  let xQ := toMont2 pk.xQ
  let xR := toMont2 pk.xQmP
  let crv := recoverA xP xQ xR
  let r := ladder3pt crv ⟨xP, one2⟩ ⟨xQ, one2⟩ ⟨xR, one2⟩ (secretBitLen sd) sc
  let f := traverse fam (strategy sd) (fam.equiv crv) r []
  let last := fam.gen f.r
  f2Wire (jInvariant (fam.recover last.1))

/-- `deriveSecret(v, sc, pk)`: the 126 bytes of the shared secret (R413). -/
def deriveSecret (v : Variant) (sc : List Byte) (pk : PkSlot) : List Byte :=
  match side v with
  | .a => deriveSecretOn family4 .a sc pk
  | .b => deriveSecretOn family3 .b sc pk

/-! ## The KEM's procedures -/

/-- The hash names `G`, `H`, `F` (R451). -/
inductive HashName
  | g | h | f
deriving DecidableEq, Repr

/-- The 2 bytes of a domain separator, least significant first (R451). -/
def sep : HashName → List Byte
  | .g => [0, 0]
  | .h => [1, 0]
  | .f => [2, 0]

/-- `HashMac(n, key, S) = HMAC(key, sep(S))[0 : n]` (R451). -/
def hashMac (n : Nat) (key : List Byte) (name : HashName) : List Byte :=
  (Config.hmac key (sep name)).toList.take n

/-- `n XOR m` on byte strings of one length (R452). -/
def xorBytes (a b : List Byte) : List Byte := List.zipWith (· ^^^ ·) a b

/-- `encryptCore(scA, pkA, pkB, m)` (R452). -/
def encryptCore (scA : List Byte) (pkA pkB : PkSlot) (m : List Byte) : List Byte :=
  let j := deriveSecret .sidhA scA pkB
  pkWire pkA ++ xorBytes (hashMac m.length j .f) m

/-- `decryptCore(sk, c)` (R453). -/
def decryptCore (k : SkSlot) (c : List Byte) : List Byte :=
  let c0 := slice c 0 378
  let c1 := slice c 378 402
  let j := deriveSecret k.variant k.scalar.toList (pkFromWire .sidhA c0)
  xorBytes (hashMac c1.length j .f) c1

/-- The masked ephemeral side-A scalar of 32 bytes (R455, R457, R458). -/
def ephemeralScalar (r : List Byte) : List Byte := (mask (pack 32 r) .a).toList

/-- `ctEqual` (R454). -/
def ctEqual (a b : List Byte) : Bool := a == b

/-- `select(e, x, y)` (R454). -/
def select (e : Bool) (x y : List Byte) : List Byte := if e then x else y

/-- The ciphertext and the key that `ENCAPSULATE` makes of a message `m` (R457). -/
def encapsulateCore (q : PkSlot) (m : List Byte) : List Byte × List Byte :=
  let scA := ephemeralScalar (hashMac secretByteLen (m ++ pkWire q) .g)
  let c := encryptCore scA (genPublic .sidhA scA) q m
  (c, hashMac kemSize (m ++ c) .h)

/-- The key `DECAPSULATE` makes of a ciphertext `c`: on a re-encryption mismatch it is keyed by `s`
(R458). -/
def decapsulateCore (k : SkSlot) (q : PkSlot) (c : List Byte) : List Byte :=
  let m := decryptCore k c
  let scA := ephemeralScalar (hashMac secretByteLen (m ++ pkWire q) .g)
  let eq := ctEqual (pkWire (genPublic .sidhA scA)) (slice c 0 378)
  hashMac kemSize (select eq m k.s.toList ++ c) .h

end Sys2Proof.Machine
end

