-- ==== Sys2Proof/Machine/KeyCommands.lean ====
section
/-! DEFINITION. The key commands (46_sidh.md). -/

namespace Sys2Proof.Machine

/-- The slot holds a key: the check of `EmptyKeySlot` (R521). -/
def isPresent (v : Variant) : Bool := v != .none

/-- `SK_GENERATE SKd, #var` (R402): the scalar first, then `s` for a SIKE key. -/
def execSkGenerate (rd rs1 : Field) (s : State) : Result :=
  checked s [(okSlot rd && okVar rs1, .illegalOperand)]
    (withRng secretByteLen s fun sc s =>
      let scalar := mask (pack 32 sc) (side (variantOf rs1))
      if variantOf rs1 = .sike then
        withRng msgLen s fun sBytes s =>
          complete (s.writeSk rd.toNat ⟨.sike, scalar, pack 24 sBytes⟩)
      else complete (s.writeSk rd.toNat ⟨variantOf rs1, scalar, Vector.replicate 24 0⟩))

/-- `SK_IMPORT SKd, #var, Gg` (R403): no masking, no check but the length. -/
def execSkImport (rd rs1 rs2 : Field) (s : State) : Result :=
  let off := s.readG rs2.toNat
  let n := s.readG (rs2.toNat + 1)
  checked s
    [(okSlot rd && okVar rs1 && okG 2 rs2 && okRange off n.toNat, .illegalOperand),
     (n.toNat == skSize (variantOf rs1), .invalidInputLength)]
    (complete (s.writeSk rd.toNat (skFromWire (variantOf rs1) (s.bufRead off.toNat n.toNat))))

/-- `SK_EXPORT SKs, Gg` (R404): writes the wire bytes and their length; an empty slot has size 0 in the
range check. -/
def execSkExport (rs1 rs2 : Field) (s : State) : Result :=
  let k := s.readSk rs1.toNat
  let off := s.readG rs2.toNat
  checked s
    [(okSlot rs1 && okG 2 rs2 && okRange off (skSize k.variant), .illegalOperand),
     (isPresent k.variant, .emptyKeySlot)]
    (complete ((s.bufWrite off.toNat (skWire k)).writeG (rs2.toNat + 1)
      (BitVec.ofNat 64 (skSize k.variant))))

/-- `PK_IMPORT PKd, #var, Gg` (R405). -/
def execPkImport (rd rs1 rs2 : Field) (s : State) : Result :=
  let off := s.readG rs2.toNat
  let n := s.readG (rs2.toNat + 1)
  checked s
    [(okSlot rd && okVar rs1 && okG 2 rs2 && okRange off n.toNat, .illegalOperand),
     (n.toNat == publicKeySize, .invalidInputLength)]
    (complete (s.writePk rd.toNat (pkFromWire (variantOf rs1) (s.bufRead off.toNat publicKeySize))))

/-- `PK_EXPORT PKs, Gg` (R406). -/
def execPkExport (rs1 rs2 : Field) (s : State) : Result :=
  let k := s.readPk rs1.toNat
  let off := s.readG rs2.toNat
  checked s
    [(okSlot rs1 && okG 2 rs2 && okRange off publicKeySize, .illegalOperand),
     (isPresent k.variant, .emptyKeySlot)]
    (complete ((s.bufWrite off.toNat (pkWire k)).writeG (rs2.toNat + 1) (BitVec.ofNat 64 publicKeySize)))

/-- `GEN_PUBLIC PKd, SKs` (R410), composite (R412). -/
def execGenPublic (rd rs1 : Field) (s : State) : Result :=
  let k := s.readSk rs1.toNat
  checked s [(okSlot rd && okSlot rs1, .illegalOperand), (isPresent k.variant, .emptyKeySlot)]
    (complete ((s.writePk rd.toNat (genPublic k.variant k.scalar.toList)).clearStashes))

/-- `DERIVE_SECRET SKs, PKs, Gg` (R415), composite (R412). -/
def execDeriveSecret (rs1 rs2 rs3 : Field) (s : State) : Result :=
  let k := s.readSk rs1.toNat
  let q := s.readPk rs2.toNat
  let off := s.readG rs3.toNat
  checked s
    [(okSlot rs1 && okSlot rs2 && okG 1 rs3 && okRange off sharedSecretSize, .illegalOperand),
     (isPresent k.variant && isPresent q.variant, .emptyKeySlot),
     (side k.variant != side q.variant, .incompatibleKeys)]
    (complete ((s.bufWrite off.toNat (deriveSecret k.variant k.scalar.toList q)).clearStashes))

end Sys2Proof.Machine
end

