-- ==== Sys2Proof/Machine/KemCommands.lean ====
section
/-! DEFINITION. The KEM commands (47_kem.md section 3), composite (R412, R459). -/

namespace Sys2Proof.Machine

/-- `ENCRYPT PKs, Gg` (R455): ptext offset and length, ctext offset in `G`; the length goes to `G[RS2+3]`. -/
def execEncrypt (rs1 rs2 : Field) (s : State) : Result :=
  let q := s.readPk rs1.toNat
  let po := s.readG rs2.toNat
  let pn := s.readG (rs2.toNat + 1)
  let co := s.readG (rs2.toNat + 2)
  checked s
    [(okSlot rs1 && okG 4 rs2 && okRange po pn.toNat && okRange co ciphertextSize, .illegalOperand),
     (isPresent q.variant, .emptyKeySlot),
     (q.variant == .sike, .wrongKeyType),
     (pn.toNat == msgLen, .invalidInputLength)]
    (withRng secretByteLen s fun r s =>
      let m := s.bufRead po.toNat msgLen
      let scA := ephemeralScalar r
      let c := encryptCore scA (genPublic .sidhA scA) q m
      complete (((s.bufWrite co.toNat c).writeG (rs2.toNat + 3) (BitVec.ofNat 64 ciphertextSize)).clearStashes))

/-- `DECRYPT SKs, Gg` (R456): ctext offset and length, ptext offset in `G`; the length goes to `G[RS2+3]`. -/
def execDecrypt (rs1 rs2 : Field) (s : State) : Result :=
  let k := s.readSk rs1.toNat
  let co := s.readG rs2.toNat
  let cn := s.readG (rs2.toNat + 1)
  let po := s.readG (rs2.toNat + 2)
  checked s
    [(okSlot rs1 && okG 4 rs2 && okRange co cn.toNat && okRange po msgLen, .illegalOperand),
     (isPresent k.variant, .emptyKeySlot),
     (k.variant == .sike, .wrongKeyType),
     (cn.toNat == ciphertextSize, .invalidInputLength)]
    (complete (((s.bufWrite po.toNat (decryptCore k (s.bufRead co.toNat ciphertextSize))).writeG
      (rs2.toNat + 3) (BitVec.ofNat 64 msgLen)).clearStashes))

/-- `ENCAPSULATE PKs, Gg` (R457): ctext offset and `K` offset in `G`; the two ranges must not overlap. -/
def execEncapsulate (rs1 rs2 : Field) (s : State) : Result :=
  let q := s.readPk rs1.toNat
  let co := s.readG rs2.toNat
  let ko := s.readG (rs2.toNat + 1)
  checked s
    [(okSlot rs1 && okG 2 rs2 && okRange co ciphertextSize && okRange ko kemSize &&
        okDisjoint co ciphertextSize ko kemSize, .illegalOperand),
     (isPresent q.variant, .emptyKeySlot),
     (q.variant == .sike, .wrongKeyType)]
    (withRng msgLen s fun m s =>
      let made := encapsulateCore q m
      complete (((s.bufWrite co.toNat made.1).bufWrite ko.toNat made.2).clearStashes))

/-- `DECAPSULATE SKs, PKs, Gg` (R458): ctext offset and length, `K` offset in `G`. -/
def execDecapsulate (rs1 rs2 rs3 : Field) (s : State) : Result :=
  let k := s.readSk rs1.toNat
  let q := s.readPk rs2.toNat
  let co := s.readG rs3.toNat
  let cn := s.readG (rs3.toNat + 1)
  let ko := s.readG (rs3.toNat + 2)
  checked s
    [(okSlot rs1 && okSlot rs2 && okG 3 rs3 && okRange co cn.toNat && okRange ko kemSize, .illegalOperand),
     (isPresent k.variant && isPresent q.variant, .emptyKeySlot),
     (k.variant == .sike && q.variant == .sike, .wrongKeyType),
     (cn.toNat == ciphertextSize, .invalidInputLength)]
    (complete ((s.bufWrite ko.toNat (decapsulateCore k q (s.bufRead co.toNat ciphertextSize))).clearStashes))

end Sys2Proof.Machine
end

