-- ==== Sys2Proof/Machine/Primitives.lean ====
section
/-! DEFINITION. The 64-bit commands (40_l0_primitives.md section 2). -/

namespace Sys2Proof.Machine

/-- `ADDC Gd, Ga, Gb` (R201). -/
def execAddc (rd rs1 rs2 : Field) (s : State) : Result :=
  checked s [(okG 1 rd && okG 1 rs1 && okG 1 rs2, .illegalOperand)]
    (let r := addc s.c (s.readG rs1.toNat) (s.readG rs2.toNat)
     complete ((s.writeG rd.toNat r.1).writeC r.2))

/-- `SUBC Gd, Ga, Gb` (R202). -/
def execSubc (rd rs1 rs2 : Field) (s : State) : Result :=
  checked s [(okG 1 rd && okG 1 rs1 && okG 1 rs2, .illegalOperand)]
    (let r := subc s.c (s.readG rs1.toNat) (s.readG rs2.toNat)
     complete ((s.writeG rd.toNat r.1).writeC r.2))

/-- `MUL64 Gh, Ga, Gb, Gl` (R203): `RD = RS3` is an overlap of written operands (R155). -/
def execMul64 (rd rs1 rs2 rs3 : Field) (s : State) : Result :=
  checked s [(okG 1 rd && okG 1 rs1 && okG 1 rs2 && okG 1 rs3 && rd != rs3, .illegalOperand)]
    (let t := mul64 (s.readG rs1.toNat) (s.readG rs2.toNat)
     complete ((s.writeG rd.toNat t.1).writeG rs3.toNat t.2))

/-- `SETC #b` (R204): the immediate is bit 0 of the field, and every field value is legal (R153; log 15). -/
def execSetc (rs1 : Field) (s : State) : Result := complete (s.writeC (rs1.getLsbD 0))

end Sys2Proof.Machine
end

