-- ==== Sys2Proof/Machine/SystemCommands.lean ====
section
/-! DEFINITION. The system commands (60_exceptions.md section 4). -/

namespace Sys2Proof.Machine

/-- `NOP` (R525): no effect but the completion. -/
def execNop (s : State) : Result := complete s

/-- Every piece of data state at its cleared value (R526). -/
def State.zeroized (s : State) : State :=
  { s with
    e := Vector.replicate 64 0
    d := Vector.replicate 4 0
    g := Vector.replicate 16 0
    c := false
    iso4 := .cleared
    iso3 := .cleared
    sk := Vector.replicate 4 .empty
    pk := Vector.replicate 4 .empty
    buf := [] }

/-- `ZEROIZE` (R526): clears the data state; `CTRL` and `CMD` stay. -/
def execZeroize (s : State) : Result := complete s.zeroized

end Sys2Proof.Machine
end

