-- ==== Sys2Proof/Machine/TraversalCommands.lean ====
section
/-! DEFINITION. The traversal commands (45_traversal.md section 4). -/

namespace Sys2Proof.Machine

/-- The three basis points a `pt3` field names (R375). -/
def State.readPts3 (s : State) (k : Nat) : List Pt := [s.readPt k, s.readPt (k + 1), s.readPt (k + 2)]

/-- `ISO4 <- {K, valid = 1}` if the traversal generated an isogeny (R375, R379). -/
def State.stashLast4 (s : State) : Option Coeffs4 → State
  | some k => s.stash4 k
  | none => s

/-- `ISO3 <- {K, valid = 1}` if the traversal generated an isogeny (R376, R379). -/
def State.stashLast3 (s : State) : Option Coeffs3 → State
  | some k => s.stash3 k
  | none => s

/-- `TRAV_PK_A Crvc, Ptr, Ptb` (R375). The five written points must not overlap (R155). -/
def execTravPkA (rs1 rs2 rs3 : Field) (s : State) : Result :=
  checked s
    [(okPt rs1 && okPt rs2 && okPt3 rs3 && rs1 != rs2 && okOutside3 rs1 rs3 && okOutside3 rs2 rs3,
      .illegalOperand)]
    (let f := traverse family4 (strategy .a) (s.readCrv rs1.toNat) (s.readPt rs2.toNat)
       (s.readPts3 rs3.toNat)
     complete ((((s.writeCrv rs1.toNat f.crv).writePt rs2.toNat f.r).writePts rs3.toNat f.basis).stashLast4
       f.coeffs))

/-- `TRAV_PK_B Crvc, Ptr, Ptb` (R376). -/
def execTravPkB (rs1 rs2 rs3 : Field) (s : State) : Result :=
  checked s
    [(okPt rs1 && okPt rs2 && okPt3 rs3 && rs1 != rs2 && okOutside3 rs1 rs3 && okOutside3 rs2 rs3,
      .illegalOperand)]
    (let f := traverse family3 (strategy .b) (s.readCrv rs1.toNat) (s.readPt rs2.toNat)
       (s.readPts3 rs3.toNat)
     complete ((((s.writeCrv rs1.toNat f.crv).writePt rs2.toNat f.r).writePts rs3.toNat f.basis).stashLast3
       f.coeffs))

/-- `TRAV_SS_A Crvc, Ptr` (R377). -/
def execTravSsA (rs1 rs2 : Field) (s : State) : Result :=
  checked s [(okPt rs1 && okPt rs2 && rs1 != rs2, .illegalOperand)]
    (let f := traverse family4 (strategy .a) (s.readCrv rs1.toNat) (s.readPt rs2.toNat) []
     complete (((s.writeCrv rs1.toNat f.crv).writePt rs2.toNat f.r).stashLast4 f.coeffs))

/-- `TRAV_SS_B Crvc, Ptr` (R378). -/
def execTravSsB (rs1 rs2 : Field) (s : State) : Result :=
  checked s [(okPt rs1 && okPt rs2 && rs1 != rs2, .illegalOperand)]
    (let f := traverse family3 (strategy .b) (s.readCrv rs1.toNat) (s.readPt rs2.toNat) []
     complete (((s.writeCrv rs1.toNat f.crv).writePt rs2.toNat f.r).stashLast3 f.coeffs))

end Sys2Proof.Machine
end

