-- ==== Sys2Proof/Machine/WireCommands.lean ====
section
/-! DEFINITION. The wire conversion commands (48_wire.md section 3). -/

namespace Sys2Proof.Machine

/-- `FP2_TOWIRE Vs, Gg` (R495). -/
def execFp2Towire (rs1 rs2 : Field) (s : State) : Result :=
  let off := s.readG rs2.toNat
  checked s [(okV rs1 && okG 1 rs2 && okRange off fp2WireLen, .illegalOperand)]
    (complete (s.bufWrite off.toNat (f2Wire (s.readV rs1.toNat))))

/-- `FP2_FROMWIRE Vd, Gg` (R496). -/
def execFp2Fromwire (rd rs2 : Field) (s : State) : Result :=
  let off := s.readG rs2.toNat
  checked s [(okV rd && okG 1 rs2 && okRange off fp2WireLen, .illegalOperand)]
    (complete (s.writeV rd.toNat (f2FromWire (s.bufRead off.toNat fp2WireLen))))

end Sys2Proof.Machine
end

