-- ==== Sys2Proof/Machine/Dispatch.lean ====
section
/-! DEFINITION. The meaning of each command: its atomic step with its completion (R150). -/

namespace Sys2Proof.Machine

def exec (i : Instr) (s : State) : Host.Outcome State Fault Refusal :=
  match i with
  | .nop => Sys2Proof.Machine.execNop s
  | .addc rd rs1 rs2 => Sys2Proof.Machine.execAddc rd rs1 rs2 s
  | .subc rd rs1 rs2 => Sys2Proof.Machine.execSubc rd rs1 rs2 s
  | .mul64 rd rs1 rs2 rs3 => Sys2Proof.Machine.execMul64 rd rs1 rs2 rs3 s
  | .setc rs1 => Sys2Proof.Machine.execSetc rs1 s
  | .fpAdd rd rs1 rs2 => Sys2Proof.Machine.execFpAdd rd rs1 rs2 s
  | .fpSub rd rs1 rs2 => Sys2Proof.Machine.execFpSub rd rs1 rs2 s
  | .fpRdcp rd rs1 => Sys2Proof.Machine.execFpRdcp rd rs1 s
  | .fpSwapcond rs1 rs2 rs3 => Sys2Proof.Machine.execFpSwapcond rs1 rs2 rs3 s
  | .fpMul rd rs1 rs2 => Sys2Proof.Machine.execFpMul rd rs1 rs2 s
  | .fpMontrdc rd rs1 => Sys2Proof.Machine.execFpMontrdc rd rs1 s
  | .fpMulrdc rd rs1 rs2 => Sys2Proof.Machine.execFpMulrdc rd rs1 rs2 s
  | .fpP34 rd rs1 => Sys2Proof.Machine.execFpP34 rd rs1 s
  | .fpMov rd rs1 => Sys2Proof.Machine.execFpMov rd rs1 s
  | .fpLdc rd rs1 => Sys2Proof.Machine.execFpLdc rd rs1 s
  | .fpTomont rd rs1 => Sys2Proof.Machine.execFpTomont rd rs1 s
  | .fpFrommont rd rs1 => Sys2Proof.Machine.execFpFrommont rd rs1 s
  | .fp2Add rd rs1 rs2 => Sys2Proof.Machine.execFp2Add rd rs1 rs2 s
  | .fp2Sub rd rs1 rs2 => Sys2Proof.Machine.execFp2Sub rd rs1 rs2 s
  | .fp2Mul rd rs1 rs2 => Sys2Proof.Machine.execFp2Mul rd rs1 rs2 s
  | .fp2Sqr rd rs1 => Sys2Proof.Machine.execFp2Sqr rd rs1 s
  | .fp2Inv rd rs1 => Sys2Proof.Machine.execFp2Inv rd rs1 s
  | .fp2Mov rd rs1 => Sys2Proof.Machine.execFp2Mov rd rs1 s
  | .fp2Swapcond rs1 rs2 rs3 => Sys2Proof.Machine.execFp2Swapcond rs1 rs2 rs3 s
  | .ptPow2k rd rs1 rs2 rs3 => Sys2Proof.Machine.execPtPow2k rd rs1 rs2 rs3 s
  | .ptPow3k rd rs1 rs2 rs3 => Sys2Proof.Machine.execPtPow3k rd rs1 rs2 rs3 s
  | .ptLadder3pt rd rs1 rs2 rs3 => Sys2Proof.Machine.execPtLadder3pt rd rs1 rs2 rs3 s
  | .crvEquiv4 rd rs1 => Sys2Proof.Machine.execCrvEquiv4 rd rs1 s
  | .crvEquiv3 rd rs1 => Sys2Proof.Machine.execCrvEquiv3 rd rs1 s
  | .crvRecover4 rd rs1 => Sys2Proof.Machine.execCrvRecover4 rd rs1 s
  | .crvRecover3 rd rs1 => Sys2Proof.Machine.execCrvRecover3 rd rs1 s
  | .crvRecoverA rd rs1 => Sys2Proof.Machine.execCrvRecoverA rd rs1 s
  | .crvJinv rd rs1 => Sys2Proof.Machine.execCrvJinv rd rs1 s
  | .iso4Gen rd rs1 => Sys2Proof.Machine.execIso4Gen rd rs1 s
  | .iso4Eval rd rs1 => Sys2Proof.Machine.execIso4Eval rd rs1 s
  | .iso3Gen rd rs1 => Sys2Proof.Machine.execIso3Gen rd rs1 s
  | .iso3Eval rd rs1 => Sys2Proof.Machine.execIso3Eval rd rs1 s
  | .travPkA rs1 rs2 rs3 => Sys2Proof.Machine.execTravPkA rs1 rs2 rs3 s
  | .travPkB rs1 rs2 rs3 => Sys2Proof.Machine.execTravPkB rs1 rs2 rs3 s
  | .travSsA rs1 rs2 => Sys2Proof.Machine.execTravSsA rs1 rs2 s
  | .travSsB rs1 rs2 => Sys2Proof.Machine.execTravSsB rs1 rs2 s
  | .skGenerate rd rs1 => Sys2Proof.Machine.execSkGenerate rd rs1 s
  | .skImport rd rs1 rs2 => Sys2Proof.Machine.execSkImport rd rs1 rs2 s
  | .skExport rs1 rs2 => Sys2Proof.Machine.execSkExport rs1 rs2 s
  | .pkImport rd rs1 rs2 => Sys2Proof.Machine.execPkImport rd rs1 rs2 s
  | .pkExport rs1 rs2 => Sys2Proof.Machine.execPkExport rs1 rs2 s
  | .genPublic rd rs1 => Sys2Proof.Machine.execGenPublic rd rs1 s
  | .deriveSecret rs1 rs2 rs3 => Sys2Proof.Machine.execDeriveSecret rs1 rs2 rs3 s
  | .encrypt rs1 rs2 => Sys2Proof.Machine.execEncrypt rs1 rs2 s
  | .decrypt rs1 rs2 => Sys2Proof.Machine.execDecrypt rs1 rs2 s
  | .encapsulate rs1 rs2 => Sys2Proof.Machine.execEncapsulate rs1 rs2 s
  | .decapsulate rs1 rs2 rs3 => Sys2Proof.Machine.execDecapsulate rs1 rs2 rs3 s
  | .fp2Towire rs1 rs2 => Sys2Proof.Machine.execFp2Towire rs1 rs2 s
  | .fp2Fromwire rd rs2 => Sys2Proof.Machine.execFp2Fromwire rd rs2 s
  | .zeroize => Sys2Proof.Machine.execZeroize s

end Sys2Proof.Machine
end

