-- ==== Sys2Proof/Machine/Bus.lean ====
section
/-! DEFINITION. The boundary of the core: acceptance and execution of a command word (30_encoding.md R150), the
host window (20_memory.md) and reset (70_reset_and_hazards.md section 1). -/

namespace Sys2Proof.Machine

/-! ## Commands -/

/-- What a host write of `w` to `CMD` does while the core is idle (R150). -/
def State.accept (s : State) (w : Word) : State :=
  { s with cmd := w, busy := true, done := false, err := false, errcode := 0 }

/-- The atomic step of an accepted command (R150, R158): decode `CMD` and run the command; a reserved
opcode raises `IllegalOpcode` (R161). -/
def execute (s : State) : Result :=
  match decode s.cmd with
  | .ok i => exec i s
  | .error _ => raise .illegalOpcode s

/-! ## Reset -/

/-- How many RNG items the command's step would take if it ran now. -/
def rngDemand (s : State) : Nat :=
  match execute s with
  | .next s' => s.rng.length - s'.rng.length
  | _ => 0

/-- Reset (R570, R571): every field at its reset value. A command in progress is discarded with none of its
effects, but the RNG items it has taken are lost: how many is free, up to what its step would take (U13,
log 5). The boundary's own fields go on (log 18). -/
def State.resetCore (s : State) : State :=
  if s.busy then
    { State.reset with
      rng := s.rng.drop (min (Config.rngTaken s.draws) (rngDemand s))
      inputs := s.inputs
      rdata := s.rdata
      draws := s.draws + 1 }
  else { State.reset with rng := s.rng, inputs := s.inputs, rdata := s.rdata, draws := s.draws }

/-! ## The window (R103) -/

/-- The 32-bit word at word index `i` of a register (R102, R106). -/
def wordOf {n : Nat} (v : BitVec n) (i : Nat) : Word := v.extractLsb' (32 * i) 32

/-- A register with the 32-bit word at word index `i` replaced (R102, R106). -/
def withWord {n : Nat} (v : BitVec n) (i : Nat) (x : Word) : BitVec n :=
  (v &&& ~~~((0xFFFFFFFF : Word).setWidth n <<< (32 * i))) ||| (x.setWidth n <<< (32 * i))

/-- What a window address names (R103). -/
inductive Place
  | cmd | status | ctrl | isr | id | flags
  | g (n word : Nat) | e (n word : Nat) | d (n word : Nat) | buf (off : Nat)
  | unmapped
deriving DecidableEq, Repr

/-- The window map (R103), for an address that is a multiple of 4. -/
def placeOf (a : Nat) : Place :=
  if a = 0x0000 then .cmd
  else if a = 0x0004 then .status
  else if a = 0x0008 then .ctrl
  else if a = 0x000C then .isr
  else if a = 0x0010 then .id
  else if a = 0x0014 then .flags
  else if 0x0100 ≤ a ∧ a ≤ 0x017F then .g ((a - 0x0100) / 8) ((a - 0x0100) % 8 / 4)
  else if 0x1000 ≤ a ∧ a ≤ 0x1FFF then .e ((a - 0x1000) / 64) ((a - 0x1000) % 64 / 4)
  else if 0x2000 ≤ a ∧ a ≤ 0x21FF then .d ((a - 0x2000) / 128) ((a - 0x2000) % 128 / 4)
  else if 0x4000 ≤ a ∧ a ≤ 0x47FF then .buf (a - 0x4000)
  else .unmapped

/-- The places a host access may not use while `BUSY = 1`: writes are dropped, reads are unspecified
(R109; `CMD` reads are not among them). -/
def Place.isData : Place → Bool
  | .flags | .g _ _ | .e _ _ | .d _ _ | .buf _ => true
  | .cmd | .status | .ctrl | .isr | .id | .unmapped => false

/-- The 32-bit word of `BUF` at an offset, little-endian (R102). -/
def State.bufWord (s : State) (off : Nat) : Word := BitVec.ofNat 32 (intLE (s.bufRead off 4))

/-- The current value of a place; an unmapped address reads 0 (R104). -/
def State.placeValue (s : State) : Place → Word
  | .cmd => s.cmd
  | .status => s.statusWord
  | .ctrl => s.ctrlWord
  | .isr => s.isrWord
  | .id => idWord
  | .flags => s.flagsWord
  | .g n i => wordOf (s.readG n) i
  | .e n i => wordOf (s.readE n) i
  | .d n i => wordOf (s.readD n) i
  | .buf off => s.bufWord off
  | .unmapped => 0

/-- `MemRead(addr, 4)`: no side effect on the core (R107). While busy, a data read is a draw (R109, R580). -/
def State.hostRead (s : State) (p : Place) : State :=
  if s.busy && p.isData then
    { s with rdata := some (Config.busyRead s.draws), draws := s.draws + 1 }
  else { s with rdata := some (s.placeValue p) }

/-- A write to a data place while idle (R103, R106). -/
def State.storeData (s : State) (p : Place) (x : Word) : State :=
  match p with
  | .flags => s.writeC (x.getLsbD 0)
  | .g n i => s.writeG n (withWord (s.readG n) i x)
  | .e n i => s.writeE n (withWord (s.readE n) i x)
  | .d n i => s.writeD n (withWord (s.readD n) i x)
  | .buf off => s.bufWrite off (bytesLE x.toNat 4)
  | .cmd | .status | .ctrl | .isr | .id | .unmapped => s

/-- `MemWrite(addr, 4, x)` (R104, R107): `CMD`, `FLAGS` and the data windows drop a write while busy and
set `OVR` (R574); `STATUS.OVR` and `ISR.DONE_P` are cleared by a 1 (R59, R61); `CTRL` may be written at any
time, and its bit 1 is the soft reset (R60, R571). -/
def State.hostWrite (s : State) (p : Place) (x : Word) : State :=
  match p with
  | .cmd => if s.busy then { s with ovr := true } else s.accept x
  | .status => { s with ovr := s.ovr && !x.getLsbD 8 }
  | .ctrl => if x.getLsbD 1 then s.resetCore else { s with ie := x.getLsbD 0 }
  | .isr => { s with doneP := s.doneP && !x.getLsbD 0 }
  | .id => s
  | .unmapped => s
  | .flags | .g _ _ | .e _ _ | .d _ _ | .buf _ =>
    if s.busy then { s with ovr := true } else s.storeData p x

/-- Only aligned 32-bit accesses are admitted (R105). -/
def admitted (width : Width) (addr : Addr) : Bool := width == .word && addr.toNat % 4 == 0

/-! ## One turn -/

/-- The core's turn: the atomic step of the command in progress, or nothing while idle (R50, R150). -/
def coreTurn (s : State) : Result := if s.busy then execute s else .next s

/-- One turn of the machine: the next thing that happens at the boundary, in order (R108); with nothing
left, the core's turn (log 1). -/
def turn (s : State) : Result :=
  match s.inputs with
  | [] => coreTurn s
  | .run :: rest => coreTurn { s with inputs := rest }
  | .powerOn :: rest => .next { s with inputs := rest }.resetCore
  | .read width addr :: rest =>
    if admitted width addr then .next ({ s with inputs := rest }.hostRead (placeOf addr.toNat))
    else .refused (.accessNotAdmitted width addr)
  | .write width addr x :: rest =>
    if admitted width addr then .next ({ s with inputs := rest }.hostWrite (placeOf addr.toNat) x)
    else .refused (.accessNotAdmitted width addr)

/-- The state in which the core has accepted the command word `w` and its turn is next. -/
def State.acceptedWord (s : State) (w : Word) : State :=
  { s.accept w with inputs := .run :: s.inputs }

end Sys2Proof.Machine
end

