-- ==== Sys2Proof/Machine/Step.lean ====
section
/-! DEFINITION. One step of the machine, and the host's way to place a command. -/

namespace Sys2Proof.Machine

/-- One step (log 1). -/
def step (s : State) : Host.Outcome State Fault Refusal := turn s

/-- `s` right after the host's write of the word to `CMD` has been accepted (R150), with the core's turn
next: the very next step runs that command (log 2). -/
def State.withFetchWord (s : State) (nbits w : Nat) : State :=
  s.acceptedWord (BitVec.ofNat 32 (w % 2 ^ nbits))

end Sys2Proof.Machine
end

