-- ==== Sys2Proof/Safety.lean ====
section
/-! DEFINITION. What counts as a safe run, in the terms the statements use: how a command ends, what it may
write and what it leaves (its frame), the invariant of the state, the range of the register values, the
buffer ranges and errors of each command, and the field elements that register values stand for. -/

namespace Sys2Proof.Machine

/-! ## How a command ends -/

/-- `t` is left by a completion with the code: `STATUS` and `ISR` as R150 leaves them. -/
structure Completed (code : BitVec 4) (t : State) : Prop where
  errcode : t.errcode = code
  err : t.err = (code != 0)
  busy : t.busy = false
  done : t.done = true
  doneP : t.doneP = true

/-- The codes a command can leave in `ERRCODE` (R521); 5 to 7 and 12 to 15 are never produced (U4). -/
def definedCode (code : BitVec 4) : Bool :=
  code == 0 || code == 1 || code == 2 || code == 3 || code == 4 || code == 8 || code == 9 ||
    code == 10 || code == 11

/-! ## Frames -/

/-- The `E` registers of `V[k]` (R53). -/
def vRegs (k : Nat) : List Nat := [2 * k, 2 * k + 1]

/-- The `E` registers of `Pt[k]` and `Crv[k]` (R54). -/
def ptRegs (k : Nat) : List Nat := [4 * k, 4 * k + 1, 4 * k + 2, 4 * k + 3]

/-- The state a command may write besides `STATUS` and `ISR`: register and slot numbers, the carry flag,
the stashes, `BUF` ranges as (offset, length), and the RNG port. -/
structure Writes where
  e : List Nat := []
  d : List Nat := []
  g : List Nat := []
  c : Bool := false
  iso4 : Bool := false
  iso3 : Bool := false
  sk : List Nat := []
  pk : List Nat := []
  buf : List (Nat × Nat) := []
  rng : Bool := false
deriving DecidableEq, Repr

/-- From `s` to `t` nothing changes but what `w` allows, `STATUS.BUSY`, `DONE`, `ERR`, `ERRCODE` and
`ISR.DONE_P`. -/
structure KeepsRest (w : Writes) (s t : State) : Prop where
  e : ∀ n, n < 64 → n ∉ w.e → t.readE n = s.readE n
  d : ∀ n, n < 4 → n ∉ w.d → t.readD n = s.readD n
  g : ∀ n, n < 16 → n ∉ w.g → t.readG n = s.readG n
  c : w.c = false → t.c = s.c
  iso4 : w.iso4 = false → t.iso4 = s.iso4
  iso3 : w.iso3 = false → t.iso3 = s.iso3
  sk : ∀ n, n < 4 → n ∉ w.sk → t.readSk n = s.readSk n
  pk : ∀ n, n < 4 → n ∉ w.pk → t.readPk n = s.readPk n
  buf : ∀ a, a < bufSize → (∀ r ∈ w.buf, ¬(r.1 ≤ a ∧ a < r.1 + r.2)) →
    Memory.read t.buf a = Memory.read s.buf a
  rng : w.rng = false → t.rng = s.rng
  cmd : t.cmd = s.cmd
  ovr : t.ovr = s.ovr
  ie : t.ie = s.ie
  inputs : t.inputs = s.inputs
  rdata : t.rdata = s.rdata
  draws : t.draws = s.draws

/-- The command ends without error in a state that has `result`, having changed nothing but `w` (R150). -/
def CompletesWith (i : Instr) (s : State) (w : Writes) (result : State → Prop) : Prop :=
  ∃ t, exec i s = .next t ∧ Completed 0 t ∧ KeepsRest w s t ∧ result t

/-- The command raises the error: a next state with its code, and no other change (R520, R523). -/
def Raises (i : Instr) (s : State) (e : CmdError) : Prop :=
  ∃ t, exec i s = .next t ∧ Completed e.code t ∧ KeepsRest {} s t

/-- The command runs out of random bytes: `RngFailure`, with no other change but that the items it took are
lost (R72, R523). -/
def RaisesRngFailure (i : Instr) (s : State) : Prop :=
  ∃ t, exec i s = .next t ∧ Completed 3 t ∧ KeepsRest { rng := true } s t ∧ t.rng <:+ s.rng

/-- `STATUS` and `ISR` are the same, but for `OVR`. -/
structure SameStatus (s t : State) : Prop where
  busy : t.busy = s.busy
  done : t.done = s.done
  err : t.err = s.err
  errcode : t.errcode = s.errcode
  doneP : t.doneP = s.doneP

/-- All a command may write in a state, from its rule and the access summary R74. -/
def mayWrite (i : Instr) (s : State) : Writes :=
  match i with
  | .nop => {}
  | .addc rd _ _ | .subc rd _ _ => { g := [rd.toNat], c := true }
  | .mul64 rd _ _ rs3 => { g := [rd.toNat, rs3.toNat] }
  | .setc _ => { c := true }
  | .fpAdd rd _ _ | .fpSub rd _ _ | .fpMulrdc rd _ _ => { e := [rd.toNat] }
  | .fpRdcp rd _ | .fpMontrdc rd _ | .fpP34 rd _ | .fpMov rd _ | .fpLdc rd _ | .fpTomont rd _
  | .fpFrommont rd _ => { e := [rd.toNat] }
  | .fpSwapcond rs1 rs2 _ => { e := [rs1.toNat, rs2.toNat] }
  | .fpMul rd _ _ => { d := [rd.toNat] }
  | .fp2Add rd _ _ | .fp2Sub rd _ _ | .fp2Mul rd _ _ => { e := vRegs rd.toNat }
  | .fp2Sqr rd _ | .fp2Inv rd _ | .fp2Mov rd _ | .crvJinv rd _ | .fp2Fromwire rd _ =>
    { e := vRegs rd.toNat }
  | .fp2Swapcond rs1 rs2 _ => { e := vRegs rs1.toNat ++ vRegs rs2.toNat }
  | .ptPow2k rd _ _ _ | .ptPow3k rd _ _ _ | .ptLadder3pt rd _ _ _ => { e := ptRegs rd.toNat }
  | .crvEquiv4 rd _ | .crvEquiv3 rd _ | .crvRecover4 rd _ | .crvRecover3 rd _ | .crvRecoverA rd _
  | .iso4Eval rd _ | .iso3Eval rd _ => { e := ptRegs rd.toNat }
  | .iso4Gen rd _ => { e := ptRegs rd.toNat, iso4 := true }
  | .iso3Gen rd _ => { e := ptRegs rd.toNat, iso3 := true }
  | .travPkA rs1 rs2 rs3 =>
    { e := ptRegs rs1.toNat ++ ptRegs rs2.toNat ++ ptRegs rs3.toNat ++ ptRegs (rs3.toNat + 1) ++
        ptRegs (rs3.toNat + 2), iso4 := true }
  | .travPkB rs1 rs2 rs3 =>
    { e := ptRegs rs1.toNat ++ ptRegs rs2.toNat ++ ptRegs rs3.toNat ++ ptRegs (rs3.toNat + 1) ++
        ptRegs (rs3.toNat + 2), iso3 := true }
  | .travSsA rs1 rs2 => { e := ptRegs rs1.toNat ++ ptRegs rs2.toNat, iso4 := true }
  | .travSsB rs1 rs2 => { e := ptRegs rs1.toNat ++ ptRegs rs2.toNat, iso3 := true }
  | .skGenerate rd _ => { sk := [rd.toNat], rng := true }
  | .skImport rd _ _ => { sk := [rd.toNat] }
  | .skExport rs1 rs2 =>
    { g := [rs2.toNat + 1], buf := [((s.readG rs2.toNat).toNat, skSize (s.readSk rs1.toNat).variant)] }
  | .pkImport rd _ _ => { pk := [rd.toNat] }
  | .pkExport _ rs2 => { g := [rs2.toNat + 1], buf := [((s.readG rs2.toNat).toNat, publicKeySize)] }
  | .genPublic rd _ => { pk := [rd.toNat], iso4 := true, iso3 := true }
  | .deriveSecret _ _ rs3 =>
    { buf := [((s.readG rs3.toNat).toNat, sharedSecretSize)], iso4 := true, iso3 := true }
  | .encrypt _ rs2 =>
    { g := [rs2.toNat + 3], buf := [((s.readG (rs2.toNat + 2)).toNat, ciphertextSize)]
      iso4 := true, iso3 := true, rng := true }
  | .decrypt _ rs2 =>
    { g := [rs2.toNat + 3], buf := [((s.readG (rs2.toNat + 2)).toNat, msgLen)]
      iso4 := true, iso3 := true }
  | .encapsulate _ rs2 =>
    { buf := [((s.readG rs2.toNat).toNat, ciphertextSize), ((s.readG (rs2.toNat + 1)).toNat, kemSize)]
      iso4 := true, iso3 := true, rng := true }
  | .decapsulate _ _ rs3 =>
    { buf := [((s.readG (rs3.toNat + 2)).toNat, kemSize)], iso4 := true, iso3 := true }
  | .fp2Towire _ rs2 => { buf := [((s.readG rs2.toNat).toNat, fp2WireLen)] }
  | .zeroize =>
    { e := List.range 64, d := List.range 4, g := List.range 16, c := true, iso4 := true, iso3 := true
      sk := List.range 4, pk := List.range 4, buf := [(0, bufSize)] }

/-! ## Checks that depend on the state -/

/-- The `BUF` ranges a command names, as (offset, length), with the lengths of R156 and of its own rule. -/
def bufRanges (i : Instr) (s : State) : List (Nat × Nat) :=
  let g := fun (n : Nat) => (s.readG n).toNat
  match i with
  | .ptLadder3pt _ _ _ rs3 => [(g (rs3.toNat + 1), (g rs3.toNat + 7) / 8)]
  | .skImport _ _ rs2 | .pkImport _ _ rs2 => [(g rs2.toNat, g (rs2.toNat + 1))]
  | .skExport rs1 rs2 => [(g rs2.toNat, skSize (s.readSk rs1.toNat).variant)]
  | .pkExport _ rs2 => [(g rs2.toNat, 378)]
  | .deriveSecret _ _ rs3 => [(g rs3.toNat, 126)]
  | .encrypt _ rs2 => [(g rs2.toNat, g (rs2.toNat + 1)), (g (rs2.toNat + 2), 402)]
  | .decrypt _ rs2 => [(g rs2.toNat, g (rs2.toNat + 1)), (g (rs2.toNat + 2), 24)]
  | .encapsulate _ rs2 => [(g rs2.toNat, 402), (g (rs2.toNat + 1), 16)]
  | .decapsulate _ _ rs3 => [(g rs3.toNat, g (rs3.toNat + 1)), (g (rs3.toNat + 2), 16)]
  | .fp2Towire _ rs2 | .fp2Fromwire _ rs2 => [(g rs2.toNat, 126)]
  | _ => []

/-- The two output ranges of `ENCAPSULATE` do not overlap (R155, R457). -/
def outputsDisjoint (i : Instr) (s : State) : Bool :=
  match i with
  | .encapsulate _ rs2 =>
    let co := (s.readG rs2.toNat).toNat
    let ko := (s.readG (rs2.toNat + 1)).toNat
    decide (co + 402 ≤ ko ∨ ko + 16 ≤ co)
  | _ => true

/-- The command's operands are legal in the state: its fields, its `BUF` ranges, and `ENCAPSULATE`'s two
outputs (R153, R155, R156). -/
def legal (i : Instr) (s : State) : Bool :=
  i.wellFormed && (bufRanges i s).all (fun r => decide (r.1 + r.2 ≤ 2048)) && outputsDisjoint i s

/-- The errors of a command beyond `IllegalOpcode`, as the rows of R531 list them. -/
def errorsOf : Instr → List CmdError
  | .nop | .zeroize | .setc _ => []
  | .iso4Eval _ _ | .iso3Eval _ _ => [.illegalOperand, .isogenyNotGenerated]
  | .skGenerate _ _ => [.illegalOperand, .rngFailure]
  | .skImport _ _ _ | .pkImport _ _ _ => [.illegalOperand, .invalidInputLength]
  | .skExport _ _ | .pkExport _ _ | .genPublic _ _ => [.illegalOperand, .emptyKeySlot]
  | .deriveSecret _ _ _ => [.illegalOperand, .emptyKeySlot, .incompatibleKeys]
  | .encrypt _ _ => [.illegalOperand, .emptyKeySlot, .wrongKeyType, .invalidInputLength, .rngFailure]
  | .decrypt _ _ | .decapsulate _ _ _ => [.illegalOperand, .emptyKeySlot, .wrongKeyType, .invalidInputLength]
  | .encapsulate _ _ => [.illegalOperand, .emptyKeySlot, .wrongKeyType, .rngFailure]
  | _ => [.illegalOperand]

/-! ## The invariant -/

/-- A private-key slot as the commands leave it: an empty slot is all zero, and only a SIKE key has `s`
(R66, R402, R403). -/
def SkSlot.sound (k : SkSlot) : Prop :=
  (k.variant = .none → k = .empty) ∧ (k.variant ≠ .sike → k.s = Vector.replicate 24 0)

/-- A residue pair of two integers in `[0, p)` (R67). -/
def Residue2.reduced (r : Residue2) : Prop := r.re < prime ∧ r.im < prime

/-- A public-key slot as the commands leave it: an empty slot is all zero, and each component is a pair of
residues (R67). -/
def PkSlot.sound (k : PkSlot) : Prop :=
  (k.variant = .none → k = .empty) ∧ k.xP.reduced ∧ k.xQ.reduced ∧ k.xQmP.reduced

/-- What every step keeps. -/
structure State.Inv (s : State) : Prop where
  /-- `BUF` is in canonical form. -/
  buf : Memory.wf s.buf = true
  /-- `ERR = 1` exactly when `ERRCODE ≠ 0` (R59). -/
  err : s.err = (s.errcode != 0)
  /-- Reserved codes are never produced (R521). -/
  code : definedCode s.errcode = true
  /-- A command in progress is not done and has no error (R150). -/
  progress : s.busy = true → s.done = false ∧ s.errcode = 0
  /-- A stash that is not valid is cleared (R64, R340). -/
  iso4 : s.iso4.valid = false → s.iso4 = .cleared
  /-- The same for `ISO3` (R65, R340). -/
  iso3 : s.iso3.valid = false → s.iso3 = .cleared
  /-- The private-key slots are sound. -/
  sk : ∀ n, n < 4 → (s.readSk n).sound
  /-- The public-key slots are sound. -/
  pk : ∀ n, n < 4 → (s.readPk n).sound

/-! ## The range of register values -/

/-- A register value in `[0, 2p)` (R113, R221). -/
def Fp.inRange (x : Fp) : Prop := x.toNat < 2 * prime

/-- Both components are in `[0, 2p)` (R272). -/
def Fp2.inRange (x : Fp2) : Prop := x.re.toNat < 2 * prime ∧ x.im.toNat < 2 * prime

/-- Both coordinates are in range. -/
def Pt.inRange (p : Pt) : Prop := p.x.inRange ∧ p.z.inRange

/-- Both coefficients are in range. -/
def Crv.inRange (c : Crv) : Prop := c.fst.inRange ∧ c.snd.inRange

/-- Every field register is in `[0, 2p)`, every double-width register below `p·R`, and the stashed
coefficients are in range: the values the core makes from values in range (R113, R221, R232). -/
structure State.InRange (s : State) : Prop where
  e : ∀ n, n < 64 → (s.readE n).toNat < 2 * prime
  d : ∀ n, n < 4 → (s.readD n).toNat < prime * radix
  iso4 : s.iso4.coeffs.k1.inRange ∧ s.iso4.coeffs.k2.inRange ∧ s.iso4.coeffs.k3.inRange
  iso3 : s.iso3.coeffs.k1.inRange ∧ s.iso3.coeffs.k2.inRange

/-- The two commands that can leave the range although every operand is in it: `FP_LDC` of `2p` itself, and a
conditional swap with a choice other than 0 or 1 (R235, R242; log 19). -/
def mayLeaveRange (i : Instr) (s : State) : Prop :=
  match i with
  | .fpLdc _ rs1 => rs1.toNat = 3
  | .fpSwapcond _ _ rs3 | .fp2Swapcond _ _ rs3 => 2 ≤ (s.readG rs3.toNat).toNat
  | _ => False

/-! ## Field elements -/

/-- `GF(p²) = GF(p)[i]/(i² + 1)` (R14, R16). -/
abbrev GF := QuadraticAlgebra (ZMod prime) (-1) 0

/-- The field element an Fp² register value stands for: its residue (R15). -/
def Fp2.gf (x : Fp2) : GF := ⟨(residue x.re : ZMod prime), (residue x.im : ZMod prime)⟩

/-- What `f2inv` computes in the field: the conjugate times the norm to the power `p - 2` (R267); the
inverse of a nonzero element, and 0 for 0 (R269). -/
def gfInv (x : GF) : GF :=
  let n := (x.re ^ 2 + x.im ^ 2) ^ (prime - 2)
  ⟨x.re * n, -(x.im * n)⟩

/-! ## Strategies -/

/-- The strategy trees of R371: `S(1) = []` and `S(n) = [k] ++ S(n - k) ++ S(k)` with `1 ≤ k < n`. -/
inductive StrategyTree : Nat → List Nat → Prop
  | leaf : StrategyTree 1 []
  | node (n k : Nat) (a b : List Nat) : 1 ≤ k → k < n → StrategyTree (n - k) a → StrategyTree k b →
      StrategyTree n (k :: (a ++ b))

/-! ## Host accesses and safe steps -/

/-- `s` with a host read of the word at a window address next. -/
def State.withRead (s : State) (addr : Nat) (rest : List Input) : State :=
  { s with inputs := .read .word (BitVec.ofNat 16 addr) :: rest }

/-- `s` with a host write of a word at a window address next. -/
def State.withWrite (s : State) (addr : Nat) (x : Word) (rest : List Input) : State :=
  { s with inputs := .write .word (BitVec.ofNat 16 addr) x :: rest }

/-- A host read of the address answers the value and changes nothing else (R107). -/
def ReadsAs (s : State) (addr value : Nat) : Prop :=
  ∀ rest, step (s.withRead addr rest) =
    .next { s with inputs := rest, rdata := some (BitVec.ofNat 32 value) }

/-- A window address whose data a host may use only while the core is idle: `FLAGS` and the windows of `G`,
`E`, `D` and `BUF` (R103, R109). -/
def dataAddress (a : Nat) : Bool :=
  a == 0x0014 || (0x0100 ≤ a && a < 0x0180) || (0x1000 ≤ a && a < 0x2000) || (0x2000 ≤ a && a < 0x2200) ||
    (0x4000 ≤ a && a < 0x4800)

/-- A window address that R103 does not list. -/
def unmappedAddress (a : Nat) : Bool := decide (0x0018 ≤ a) && !dataAddress a

/-- The next thing at the boundary is one the spec admits (R105). -/
def nextAdmitted (s : State) : Bool :=
  match s.inputs with
  | .read width addr :: _ => width == .word && addr.toNat % 4 == 0
  | .write width addr _ :: _ => width == .word && addr.toNat % 4 == 0
  | _ => true

/-- A step is safe if it answers a next state. -/
def SafeStep (s : State) : Prop := ∃ t, step s = .next t

end Sys2Proof.Machine
end

