-- ==== Sys2Proof/Certificates/Slice0/Obligations.lean ====
section
/-! DEFINITION. The statements for the provers, from the numbered rules of spec/. Each holds for every state
and every operand its hypotheses admit; `CompletesWith i s w result` says that `exec i s` answers a next
state with no error code, that nothing but `w` changed, and that the next state has `result`. -/

open Sys2Proof Sys2Proof.Machine

/-! ## Encoding -/

/-- R151, R160: reading the word of a command gives that command, with every field at every value. -/
def Obligations.DecodeEncodeAgree : Prop :=
  ∀ i : Instr, decode (encode i) = .ok i

/-- R152: a word decodes to a command exactly where its opcode and used fields are that command's; no other
bit matters. -/
def Obligations.DecodeReadsExactlyTheUsedFields : Prop :=
  ∀ (w : Word) (i : Instr), decode w = .ok i ↔ w &&& i.usedMask = encode i

/-- R161: the reserved opcodes are rejected, and no others; running one raises `IllegalOpcode` and changes
nothing else; `NOP` is an ordinary command that completes with no other effect. -/
def Obligations.ReservedOpcodesAreIllegal : Prop :=
  (∀ w : Word, reservedOpcode (opcOf w) = true ↔ decode w = .error (.illegalOpcode (opcOf w))) ∧
  (∀ (s : State) (rest : List Input), s.busy = true → s.inputs = .run :: rest →
    reservedOpcode (opcOf s.cmd) = true →
    ∃ t, step s = .next t ∧ Completed CmdError.illegalOpcode.code t ∧
      KeepsRest {} { s with inputs := rest } t) ∧
  ∀ s : State, CompletesWith .nop s {} fun t => t.c = s.c

/-- Words of the spec's own examples, one per family, decode to the commands they stand for. -/
def Obligations.ExampleWordsDecode : Prop :=
  decode 0x00204301 = .ok (.addc 3 1 2) ∧
  decode 0x10204303 = .ok (.mul64 3 1 2 4) ∧
  decode 0x0c204013 = .ok (.fpSwapcond 1 2 3) ∧
  decode 0x04204026 = .ok (.fp2Swapcond 1 2 1) ∧
  decode 0x04100432 = .ok (.ptLadder3pt 4 0 1 1) ∧
  decode 0x00014643 = .ok (.iso3Eval 6 5) ∧
  decode 0x1081c051 = .ok (.travPkB 7 8 4) ∧
  decode 0x00e0c261 = .ok (.skImport 2 3 14) ∧
  decode 0x20104073 = .ok (.decapsulate 1 1 8) ∧
  decode 0x00200179 = .ok (.fp2Fromwire 1 2) ∧
  decode 0x20718500 = .ok .nop ∧
  decode 0x000000fe = .ok .zeroize

/-! ## Steps and the ends of a command -/

/-- Where the core's turn comes with the command word decoding to `i`, the step is `exec` of `i`; so is the
step after an accepted word. With nothing at the boundary it is the core's turn too, and while no command is
in progress the core's turn changes nothing (both the model's choice, log 1). -/
def Obligations.StepRunsTheDecodedCommand : Prop :=
  (∀ (s : State) (rest : List Input) (i : Instr), s.busy = true → s.inputs = .run :: rest →
    decode s.cmd = .ok i → step s = exec i { s with inputs := rest }) ∧
  (∀ (s : State) (i : Instr), s.busy = true → s.inputs = [] → decode s.cmd = .ok i → step s = exec i s) ∧
  (∀ (s : State) (nbits w : Nat) (i : Instr), decode (BitVec.ofNat 32 (w % 2 ^ nbits)) = .ok i →
    step (s.withFetchWord nbits w) = exec i (s.accept (BitVec.ofNat 32 (w % 2 ^ nbits)))) ∧
  ∀ (s : State) (rest : List Input), s.busy = false →
    (s.inputs = .run :: rest → step s = .next { s with inputs := rest }) ∧ (s.inputs = [] → step s = .next s)

/-- R150, R520, R521, R530, R587: every command, on any operands in any state, answers a next state that is
completed, with no error or with one of those its row of R531 lists, but that `SETC` lists none: the model's
reading (log 15). -/
def Obligations.EveryCommandEndsWithAListedCode : Prop :=
  ∀ (i : Instr) (s : State), ∃ t, exec i s = .next t ∧ Completed t.errcode t ∧
    (t.errcode = 0 ∨ ∃ e ∈ errorsOf i, t.errcode = e.code)

/-- R153, R155, R156, R158: a command raises `IllegalOperand` exactly where a field is outside its class, a
`BUF` range ends past 2048, or written operands overlap; and it then changes nothing. Two of its cases are the
model's readings: `SETC` never raises it (log 15, where R531's row has a field that `SETC` has not), and the range
of `PT_LADDER3PT` does not wrap, so a `bitlen` of `2^64 - 7` or more always does (log 22). -/
def Obligations.IllegalOperandExactlyWhenIllegal : Prop :=
  ∀ (i : Instr) (s : State),
    (legal i s = false → Raises i s .illegalOperand) ∧
    (legal i s = true → ∀ t, exec i s = .next t → t.errcode ≠ CmdError.illegalOperand.code)

/-- R523: a command that raises changes nothing but `STATUS` and `ISR`; only `RngFailure` has taken RNG items. -/
def Obligations.RaisingIsAtomic : Prop :=
  ∀ (i : Instr) (s t : State), exec i s = .next t → t.errcode ≠ 0 →
    KeepsRest { rng := true } s t ∧ t.rng <:+ s.rng ∧
    (t.errcode ≠ CmdError.rngFailure.code → t.rng = s.rng)

/-- R74, R205, R412, R459: whatever a command ends with, it has written nothing outside what its rule and the
access summary name. -/
def Obligations.CommandsWriteOnlyTheirDestinations : Prop :=
  ∀ (i : Instr) (s t : State), exec i s = .next t → KeepsRest (mayWrite i s) s t

/-- R205: a command other than `ADDC`, `SUBC`, `SETC` and `ZEROIZE` neither reads nor writes `C`: from two
states that differ in `C` alone it goes to two states that differ in `C` alone. -/
def Obligations.CarryIsReadAndWrittenOnlyByItsCommands : Prop :=
  ∀ (i : Instr) (s t : State) (b : Bool),
    (∀ rd rs1 rs2, i ≠ .addc rd rs1 rs2 ∧ i ≠ .subc rd rs1 rs2 ∧ i ≠ .setc rs1) → i ≠ .zeroize →
    exec i s = .next t → t.c = s.c ∧ exec i (s.writeC b) = .next (t.writeC b)

/-! ## The invariant -/

/-- Every step keeps the invariant: `BUF` in canonical form, `ERR` and `ERRCODE` consistent and defined, a
command in progress not done, empty slots and invalid stashes cleared, public keys reduced. -/
def Obligations.StepKeepsTheInvariant : Prop :=
  ∀ s t : State, s.Inv → step s = .next t → t.Inv

/-- The state after reset has the invariant. -/
def Obligations.ResetHasTheInvariant : Prop := State.reset.Inv

/-- R113, R221, R232, R272, R416: with every register value in its range, a command leaves every register
value in its range, but for `FP_LDC` of `2p` itself and a conditional swap with a choice above 1 (log 19). -/
def Obligations.CommandsKeepTheRange : Prop :=
  ∀ (i : Instr) (s t : State), s.InRange → ¬mayLeaveRange i s → exec i s = .next t → t.InRange

/-! ## Reset, the boundary and the window -/

/-- R75: every piece of state and its value after reset. -/
def Obligations.ResetValues : Prop :=
  (∀ n, n < 64 → State.reset.readE n = 0) ∧ (∀ n, n < 4 → State.reset.readD n = 0) ∧
  (∀ n, n < 16 → State.reset.readG n = 0) ∧ State.reset.c = false ∧ State.reset.cmd = 0 ∧
  State.reset.statusWord = 0 ∧ State.reset.ctrlWord = 0 ∧ State.reset.isrWord = 0 ∧
  idWord = 0x01F70701 ∧ State.reset.flagsWord = 0 ∧
  State.reset.iso4 = ⟨⟨⟨0, 0⟩, ⟨0, 0⟩, ⟨0, 0⟩⟩, false⟩ ∧ State.reset.iso3 = ⟨⟨⟨0, 0⟩, ⟨0, 0⟩⟩, false⟩ ∧
  (∀ n, n < 4 → State.reset.readSk n = ⟨.none, Vector.replicate 32 0, Vector.replicate 24 0⟩) ∧
  (∀ n, n < 4 → State.reset.readPk n = ⟨.none, ⟨0, 0⟩, ⟨0, 0⟩, ⟨0, 0⟩⟩) ∧
  (∀ a, a < 2048 → Memory.read State.reset.buf a = 0) ∧ State.reset.irq = false

/-- R570, R571: a power-on reset, and a write to `CTRL` with bit 1 set, whatever its other bits, give every piece
of state the value of R75, with or without a command in progress; such a command is discarded with none of its
effects, and of the RNG items at most those its step would take are lost. -/
def Obligations.ResetsRestoreTheResetState : Prop :=
  ∀ (s : State) (rest : List Input),
    (s.inputs = .powerOn :: rest ∨
      ∃ x : Word, x.getLsbD 1 = true ∧ s.inputs = .write .word 0x0008 x :: rest) →
    ∃ n draws, step s =
        .next { State.reset with rng := s.rng.drop n, inputs := rest, rdata := s.rdata, draws := draws } ∧
      n ≤ rngDemand { s with inputs := rest } ∧ (s.busy = false → n = 0)

/-- R150, R58, R575: a write to `CMD` while idle accepts the word, with `BUSY` set and `DONE`, `ERR` and
`ERRCODE` cleared. -/
def Obligations.CmdWriteWhileIdleAccepts : Prop :=
  ∀ (s : State) (rest : List Input) (w : Word), s.busy = false →
    step (s.withWrite 0x0000 w rest) =
      .next { s with inputs := rest, cmd := w, busy := true, done := false, err := false, errcode := 0 }

/-- R574: a write to `CMD`, `FLAGS`, `G`, `E`, `D` or `BUF` while a command is in progress is dropped and sets
`OVR`. -/
def Obligations.WritesWhileBusyAreDropped : Prop :=
  ∀ (s : State) (rest : List Input) (a : Nat) (x : Word), s.busy = true → a % 4 = 0 →
    (a = 0x0000 ∨ dataAddress a = true) →
    step (s.withWrite a x rest) = .next { s with inputs := rest, ovr := true }

/-- R105: a host access that is not an aligned 32-bit access is refused; that it is so in every state and at every
address is the model's reading (log 13). Nothing else ever is: every other step answers a next state (R104, R520,
R530, R587). -/
def Obligations.OnlyUnadmittedAccessesAreRefused : Prop :=
  (∀ (s : State) (rest : List Input) (width : Width) (addr : Addr),
    width ≠ .word ∨ addr.toNat % 4 ≠ 0 →
    (s.inputs = .read width addr :: rest ∨ ∃ x, s.inputs = .write width addr x :: rest) →
    step s = .refused (.accessNotAdmitted width addr)) ∧
  ∀ s : State, nextAdmitted s = true → SafeStep s

/-- R103, R102: what a host read of each register returns: the control registers at any time, the data windows
while idle. -/
def Obligations.WindowReadsReturnTheRegisters : Prop :=
  ∀ s : State,
    (ReadsAs s 0x0000 s.cmd.toNat ∧
      ReadsAs s 0x0004
        (s.busy.toNat + 2 * s.done.toNat + 4 * s.err.toNat + 16 * s.errcode.toNat + 256 * s.ovr.toNat) ∧
      ReadsAs s 0x0008 s.ie.toNat ∧ ReadsAs s 0x000C s.doneP.toNat ∧ ReadsAs s 0x0010 0x01F70701) ∧
    (s.busy = false →
      ReadsAs s 0x0014 s.c.toNat ∧
      (∀ n, n < 16 → ReadsAs s (0x0100 + 8 * n) ((s.readG n).toNat % 2 ^ 32) ∧
        ReadsAs s (0x0104 + 8 * n) ((s.readG n).toNat / 2 ^ 32)) ∧
      (∀ n k, n < 64 → k < 16 →
        ReadsAs s (0x1000 + 64 * n + 4 * k) ((s.readE n).toNat / 2 ^ (32 * k) % 2 ^ 32)) ∧
      (∀ n k, n < 4 → k < 32 →
        ReadsAs s (0x2000 + 128 * n + 4 * k) ((s.readD n).toNat / 2 ^ (32 * k) % 2 ^ 32)) ∧
      ∀ k, k < 512 →
        ReadsAs s (0x4000 + 4 * k)
          ((Memory.read s.buf (4 * k)).toNat + 2 ^ 8 * (Memory.read s.buf (4 * k + 1)).toNat +
            2 ^ 16 * (Memory.read s.buf (4 * k + 2)).toNat + 2 ^ 24 * (Memory.read s.buf (4 * k + 3)).toNat))

/-- R103, R106: a host write to a data window while idle replaces exactly the word it addresses. -/
def Obligations.WindowWritesReplaceOneWord : Prop :=
  ∀ (s : State) (rest : List Input) (x : Word), s.busy = false →
    (∃ t, step (s.withWrite 0x0014 x rest) = .next t ∧ SameStatus s t ∧
      KeepsRest { c := true } { s with inputs := rest } t ∧ t.c = x.getLsbD 0) ∧
    (∀ n, n < 16 →
      (∃ t, step (s.withWrite (0x0100 + 8 * n) x rest) = .next t ∧ SameStatus s t ∧
        KeepsRest { g := [n] } { s with inputs := rest } t ∧
        (t.readG n).toNat = (s.readG n).toNat / 2 ^ 32 * 2 ^ 32 + x.toNat) ∧
      ∃ t, step (s.withWrite (0x0104 + 8 * n) x rest) = .next t ∧ SameStatus s t ∧
        KeepsRest { g := [n] } { s with inputs := rest } t ∧
        (t.readG n).toNat = x.toNat * 2 ^ 32 + (s.readG n).toNat % 2 ^ 32) ∧
    (∀ n k, n < 64 → k < 16 →
      ∃ t, step (s.withWrite (0x1000 + 64 * n + 4 * k) x rest) = .next t ∧ SameStatus s t ∧
        KeepsRest { e := [n] } { s with inputs := rest } t ∧
        ∀ j, j < 16 → (t.readE n).toNat / 2 ^ (32 * j) % 2 ^ 32 =
          if j = k then x.toNat else (s.readE n).toNat / 2 ^ (32 * j) % 2 ^ 32) ∧
    (∀ n k, n < 4 → k < 32 →
      ∃ t, step (s.withWrite (0x2000 + 128 * n + 4 * k) x rest) = .next t ∧ SameStatus s t ∧
        KeepsRest { d := [n] } { s with inputs := rest } t ∧
        ∀ j, j < 32 → (t.readD n).toNat / 2 ^ (32 * j) % 2 ^ 32 =
          if j = k then x.toNat else (s.readD n).toNat / 2 ^ (32 * j) % 2 ^ 32) ∧
    ∀ k, k < 512 → Memory.wf s.buf = true →
      ∃ t, step (s.withWrite (0x4000 + 4 * k) x rest) = .next t ∧ SameStatus s t ∧
        KeepsRest { buf := [(4 * k, 4)] } { s with inputs := rest } t ∧
        ∀ j, j < 4 → (Memory.read t.buf (4 * k + j)).toNat = x.toNat / 2 ^ (8 * j) % 2 ^ 8

/-- R104, R59, R60, R61, R62: a read of an unmapped address returns 0; a write to one, to `ID`, or to a
read-only field is ignored; a 1 written to `STATUS.OVR` or `ISR.DONE_P` clears it; `CTRL` bit 0 is `IE`. That
the writes to `STATUS` and `ISR` take effect in a busy state too is the model's reading (log 14). -/
def Obligations.ControlWritesAndUnmappedAccesses : Prop :=
  ∀ (s : State) (rest : List Input) (x : Word),
    (∀ a, a < 65536 → a % 4 = 0 → unmappedAddress a = true →
      ReadsAs s a 0 ∧ step (s.withWrite a x rest) = .next { s with inputs := rest }) ∧
    step (s.withWrite 0x0010 x rest) = .next { s with inputs := rest } ∧
    step (s.withWrite 0x0004 x rest) = .next { s with inputs := rest, ovr := s.ovr && !x.getLsbD 8 } ∧
    step (s.withWrite 0x000C x rest) = .next { s with inputs := rest, doneP := s.doneP && !x.getLsbD 0 } ∧
    (x.getLsbD 1 = false →
      step (s.withWrite 0x0008 x rest) = .next { s with inputs := rest, ie := x.getLsbD 0 })

/-- R107, R109, R580: no host read changes anything but the answer; while a command is in progress a read of a
data address answers the next free value (the model's draw, log 4). -/
def Obligations.ReadsHaveNoSideEffect : Prop :=
  ∀ (s : State) (rest : List Input) (a : Nat), a % 4 = 0 →
    ∃ v draws, step (s.withRead a rest) =
        .next { s with inputs := rest, rdata := some v, draws := draws } ∧
      (s.busy = true → dataAddress a = true → v = Config.busyRead s.draws ∧ draws = s.draws + 1) ∧
      (s.busy = false → draws = s.draws)

/-- R103, R112, R529: no host read tells the key slots or the stashes: in two states that differ only in them
it has the same answer. -/
def Obligations.SecretsAreNotInTheWindow : Prop :=
  ∀ (s : State) (rest : List Input) (a : Nat) (sk : Vector SkSlot 4) (pk : Vector PkSlot 4)
    (iso4 : Stash4) (iso3 : Stash3), a % 4 = 0 →
    ∃ v draws,
      step (s.withRead a rest) = .next { s with inputs := rest, rdata := some v, draws := draws } ∧
      step (({ s with sk := sk, pk := pk, iso4 := iso4, iso3 := iso3 } : State).withRead a rest) =
        .next { s with
          sk := sk, pk := pk, iso4 := iso4, iso3 := iso3
          inputs := rest, rdata := some v, draws := draws }

/-- R527, R528: `IRQ` is `CTRL.IE AND ISR.DONE_P`; every completion sets `DONE_P` and clears `BUSY` in one step,
so `IRQ` rises with it where `IE` is set; it rises at once where `IE` is set over a pending `DONE_P`, and is lowered at once by clearing either. That a 1 written to `ISR`
clears `DONE_P` in a busy state too is the model's reading (log 14). -/
def Obligations.IrqFollowsCompletionAndEnable : Prop :=
  (∀ s : State, s.irq = true ↔ s.ie = true ∧ s.doneP = true) ∧
  (∀ (s : State) (rest : List Input), s.busy = true → s.inputs = .run :: rest →
    ∃ t, step s = .next t ∧ t.busy = false ∧ t.done = true ∧ t.doneP = true ∧ t.irq = s.ie) ∧
  (∀ (s : State) (rest : List Input) (x : Word), x.getLsbD 1 = false →
    ∃ t, step (s.withWrite 0x0008 x rest) = .next t ∧ t.irq = (x.getLsbD 0 && s.doneP)) ∧
  ∀ (s : State) (rest : List Input) (x : Word), x.getLsbD 0 = true →
    ∃ t, step (s.withWrite 0x000C x rest) = .next t ∧ t.doneP = false ∧ t.irq = false

/-! ## System commands and the 64-bit commands -/

/-- R525, R526: `NOP`, whatever its fields, completes and changes nothing; `ZEROIZE` clears every piece of data state and neither
`CTRL` nor `CMD`. -/
def Obligations.NopAndZeroizeResults : Prop :=
  (∀ w : Word, opcOf w = 0x00 → decode w = .ok .nop) ∧
  ∀ s : State,
    (CompletesWith .nop s {} fun t => t.c = s.c) ∧
    CompletesWith .zeroize s (mayWrite .zeroize s) fun t =>
      (∀ n, n < 64 → t.readE n = 0) ∧ (∀ n, n < 4 → t.readD n = 0) ∧ (∀ n, n < 16 → t.readG n = 0) ∧
      t.c = false ∧ t.iso4 = .cleared ∧ t.iso3 = .cleared ∧
      (∀ n, n < 4 → t.readSk n = .empty) ∧ (∀ n, n < 4 → t.readPk n = .empty) ∧
      (∀ a, a < 2048 → Memory.read t.buf a = 0) ∧ t.ie = s.ie ∧ t.cmd = s.cmd

/-- R200 to R204: `ADDC` and `SUBC` with their carry and borrow, `MUL64` with both halves of the product and
`IllegalOperand` where they would be one register, and `SETC`, which completes for every value of its field: the
model's reading of R153 and R204 where R531's row differs (log 15). -/
def Obligations.LimbCommandResults : Prop :=
  ∀ (s : State) (rd rs1 rs2 rs3 : Field),
    let a := (s.readG rs1.toNat).toNat
    let b := (s.readG rs2.toNat).toNat
    ((Instr.addc rd rs1 rs2).wellFormed = true →
      CompletesWith (.addc rd rs1 rs2) s { g := [rd.toNat], c := true } fun t =>
        (t.readG rd.toNat).toNat + 2 ^ 64 * t.c.toNat = a + b + s.c.toNat) ∧
    ((Instr.subc rd rs1 rs2).wellFormed = true →
      CompletesWith (.subc rd rs1 rs2) s { g := [rd.toNat], c := true } fun t =>
        ((t.readG rd.toNat).toNat : Int) - 2 ^ 64 * (t.c.toNat : Int) = (a : Int) - b - s.c.toNat) ∧
    ((Instr.mul64 rd rs1 rs2 rs3).wellFormed = true →
      CompletesWith (.mul64 rd rs1 rs2 rs3) s { g := [rd.toNat, rs3.toNat] } fun t =>
        (t.readG rd.toNat).toNat * 2 ^ 64 + (t.readG rs3.toNat).toNat = a * b) ∧
    (rd = rs3 → Raises (.mul64 rd rs1 rs2 rs3) s .illegalOperand) ∧
    CompletesWith (.setc rs1) s { c := true } fun t => t.c = decide (rs1.toNat % 2 = 1)

/-! ## Fp commands -/

/-- R222, R223, R225, R226: `FP_ADD` and `FP_SUB` on all 512-bit operands, and what that is for operands below
`2p`. -/
def Obligations.FpAddAndFpSubResults : Prop :=
  ∀ (s : State) (rd rs1 rs2 : Field),
    let x := (s.readE rs1.toNat).toNat
    let y := (s.readE rs2.toNat).toNat
    CompletesWith (.fpAdd rd rs1 rs2) s { e := [rd.toNat] } (fun t =>
      (t.readE rd.toNat).toNat =
        (if 2 * prime ≤ (x + y) % 2 ^ 512 then (x + y) % 2 ^ 512 - 2 * prime else (x + y) % 2 ^ 512) ∧
      (x < 2 * prime → y < 2 * prime → (t.readE rd.toNat).toNat = (x + y) % (2 * prime))) ∧
    CompletesWith (.fpSub rd rs1 rs2) s { e := [rd.toNat] } fun t =>
      (t.readE rd.toNat).toNat = (if y ≤ x then x - y else (2 ^ 512 + x - y + 2 * prime) % 2 ^ 512) ∧
      (x < 2 * prime → y < 2 * prime →
        (t.readE rd.toNat).toNat < 2 * prime ∧ ((t.readE rd.toNat).toNat + y) % prime = x % prime)

/-- R224, R227, R240, R242, R220: `FP_RDCP`, `FP_MOV` and `FP_LDC`, the constants given by their laws; a
selector above 5 raises `IllegalOperand`. -/
def Obligations.FpRdcpMovAndLdcResults : Prop :=
  ∀ (s : State) (rd rs1 : Field),
    let x := (s.readE rs1.toNat).toNat
    CompletesWith (.fpRdcp rd rs1) s { e := [rd.toNat] } (fun t =>
      (t.readE rd.toNat).toNat = if prime ≤ x then x - prime else x) ∧
    CompletesWith (.fpMov rd rs1) s { e := [rd.toNat] } (fun t => (t.readE rd.toNat).toNat = x) ∧
    (rs1.toNat ≤ 5 →
      CompletesWith (.fpLdc rd rs1) s { e := [rd.toNat] } fun t =>
        [0, 2 ^ 512 % (2 ^ 250 * 3 ^ 159 - 1), 2 ^ 250 * 3 ^ 159 - 1, 2 * (2 ^ 250 * 3 ^ 159 - 1),
          2 ^ 250 * 3 ^ 159, 2 ^ 1024 % (2 ^ 250 * 3 ^ 159 - 1)][rs1.toNat]? = some (t.readE rd.toNat).toNat) ∧
    (5 < rs1.toNat → Raises (.fpLdc rd rs1) s .illegalOperand)

/-- R228, R235: `FP_SWAPCOND` exchanges, in every limb, exactly the bits set in `-c`; for 0 nothing, for 1
everything; one register with itself is unchanged. -/
def Obligations.FpSwapcondExchangesMaskedBits : Prop :=
  ∀ (s : State) (rs1 rs2 rs3 : Field), (Instr.fpSwapcond rs1 rs2 rs3).wellFormed = true →
    let c := s.readG rs3.toNat
    CompletesWith (.fpSwapcond rs1 rs2 rs3) s { e := [rs1.toNat, rs2.toNat] } fun t =>
      (c = 0 ∨ rs1 = rs2 → t.readE rs1.toNat = s.readE rs1.toNat ∧ t.readE rs2.toNat = s.readE rs2.toNat) ∧
      (c = 1 → t.readE rs1.toNat = s.readE rs2.toNat ∧ t.readE rs2.toNat = s.readE rs1.toNat) ∧
      ∀ k, k < 512 →
        let swapped := (0 - c).getLsbD (k % 64)
        (t.readE rs1.toNat).getLsbD k =
          (if swapped then (s.readE rs2.toNat).getLsbD k else (s.readE rs1.toNat).getLsbD k) ∧
        (t.readE rs2.toNat).getLsbD k =
          (if swapped then (s.readE rs1.toNat).getLsbD k else (s.readE rs2.toNat).getLsbD k)

/-- R229 to R234: `FP_MUL` is the exact product; `FP_MONTRDC` and `FP_MULRDC` are `(X + m·p) div R mod 2^512` for
the `m` below `R` that makes `X + m·p` a multiple of `R`, with the properties R232 names; `FP_MULRDC` multiplies
residues of values in range. -/
def Obligations.FpProductsAndReductions : Prop :=
  ∀ (s : State) (rd rs1 rs2 : Field),
    let x := s.readE rs1.toNat
    let y := s.readE rs2.toNat
    let reduces := fun (v : Nat) (r : Nat) =>
      ∃ m q, m < 2 ^ 512 ∧ v + m * prime = 2 ^ 512 * q ∧ r = q % 2 ^ 512 ∧
        (v < prime * 2 ^ 512 → r < 2 * prime) ∧
        (v < 2 ^ 512 * (2 ^ 512 - prime) → r * 2 ^ 512 % prime = v % prime)
    ((Instr.fpMul rd rs1 rs2).wellFormed = true →
      CompletesWith (.fpMul rd rs1 rs2) s { d := [rd.toNat] } fun t =>
        (t.readD rd.toNat).toNat = x.toNat * y.toNat) ∧
    ((Instr.fpMontrdc rd rs1).wellFormed = true →
      CompletesWith (.fpMontrdc rd rs1) s { e := [rd.toNat] } fun t =>
        reduces (s.readD rs1.toNat).toNat (t.readE rd.toNat).toNat) ∧
    CompletesWith (.fpMulrdc rd rs1 rs2) s { e := [rd.toNat] } fun t =>
      reduces (x.toNat * y.toNat) (t.readE rd.toNat).toNat ∧
      (Fp.inRange x → Fp.inRange y →
        Fp.inRange (t.readE rd.toNat) ∧ residue (t.readE rd.toNat) = residue x * residue y % prime) ∧
      (x.toNat < prime → y = constant 1 → t.readE rd.toNat = x)

/-- R243, R244, R245: `FP_TOMONT` is `MontRdc(a · R2)`, below `2p` and congruent to `a·R`; `FP_FROMMONT` is
`fpRdcP(MontRdc(a))`, the canonical residue, for every 512-bit operand; the round trip is congruent to its
operand, and not always equal: for some `a` below `p` it gives `a + p`. -/
def Obligations.MontgomeryConversions : Prop :=
  (∀ (s : State) (rd rs1 : Field),
    let a := s.readE rs1.toNat
    CompletesWith (.fpTomont rd rs1) s { e := [rd.toNat] } (fun t =>
      t.readE rd.toNat = montRdc (fpMul a (constant 5)) ∧ Fp.inRange (t.readE rd.toNat) ∧
      (t.readE rd.toNat).toNat % prime = a.toNat * 2 ^ 512 % prime ∧
      residue (t.readE rd.toNat) = a.toNat % prime) ∧
    CompletesWith (.fpFrommont rd rs1) s { e := [rd.toNat] } fun t =>
      t.readE rd.toNat = fpRdcP (montRdc (a.setWidth 1024)) ∧ (montRdc (a.setWidth 1024)).toNat ≤ prime ∧
      (t.readE rd.toNat).toNat = residue a ∧ (t.readE rd.toNat).toNat < prime ∧
      (t.readE rd.toNat).toNat * 2 ^ 512 % prime = a.toNat % prime) ∧
  (∀ a : Fp, (toMont (fromMont a)).toNat % prime = a.toNat % prime) ∧
  ∃ a : Fp, a.toNat < prime ∧ (toMont (fromMont a)).toNat = a.toNat + prime

/-- R236, R237: `FP_P34` raises the residue to the power `(p - 3)/4`, in range; which of the two values below
`2p` with that residue it is, is free (log 6). -/
def Obligations.FpP34RaisesTheResidue : Prop :=
  ∀ (s : State) (rd rs1 : Field),
    CompletesWith (.fpP34 rd rs1) s { e := [rd.toNat] } fun t =>
      Fp.inRange (t.readE rd.toNat) ∧
      (residue (t.readE rd.toNat) : ZMod prime) = (residue (s.readE rs1.toNat) : ZMod prime) ^ ((prime - 3) / 4) ∧
      t.readE rd.toNat = p34Impl (s.readE rs1.toNat)

/-- R246: the laws of the residues for operands in range, and the two exact laws. -/
def Obligations.FpResidueLaws : Prop :=
  (∀ x y : Fp, Fp.inRange x → Fp.inRange y →
    residue (fpAdd x y) = (residue x + residue y) % prime ∧
    (residue (fpSub x y) + residue y) % prime = residue x ∧
    residue (fpMulRdc x y) = residue x * residue y % prime) ∧
  (∀ x y : Fp, x.toNat < prime → y.toNat < prime → fpSub (fpAdd x y) y = x) ∧
  ∀ x : Fp, x.toNat < prime → fpMulRdc x (constant 1) = x

/-! ## Fp² commands -/

/-- R260 to R266, R272: `FP2_ADD`, `FP2_SUB`, `FP2_MUL` and `FP2_SQR` write the exact value of their function,
which for operands in range is in range and is the operation of `GF(p²)` on residues. -/
def Obligations.Fp2ArithmeticIsTheFieldsArithmetic : Prop :=
  ∀ (s : State) (rd rs1 rs2 : Field),
    let x := s.readV rs1.toNat
    let y := s.readV rs2.toNat
    ((Instr.fp2Add rd rs1 rs2).wellFormed = true →
      CompletesWith (.fp2Add rd rs1 rs2) s { e := vRegs rd.toNat } (fun t =>
        t.readV rd.toNat = f2add x y ∧
        (x.inRange → y.inRange → (t.readV rd.toNat).inRange ∧ (t.readV rd.toNat).gf = x.gf + y.gf)) ∧
      CompletesWith (.fp2Sub rd rs1 rs2) s { e := vRegs rd.toNat } (fun t =>
        t.readV rd.toNat = f2sub x y ∧
        (x.inRange → y.inRange → (t.readV rd.toNat).inRange ∧ (t.readV rd.toNat).gf = x.gf - y.gf)) ∧
      CompletesWith (.fp2Mul rd rs1 rs2) s { e := vRegs rd.toNat } fun t =>
        t.readV rd.toNat = f2mul x y ∧
        (x.inRange → y.inRange → (t.readV rd.toNat).inRange ∧ (t.readV rd.toNat).gf = x.gf * y.gf)) ∧
    ((Instr.fp2Sqr rd rs1).wellFormed = true →
      CompletesWith (.fp2Sqr rd rs1) s { e := vRegs rd.toNat } fun t =>
        t.readV rd.toNat = f2sqr x ∧
        (x.inRange → (t.readV rd.toNat).inRange ∧ (t.readV rd.toNat).gf = x.gf ^ 2))

/-- R267, R268, R269: `FP2_INV` never fails; for an operand in range the result is in range and is, in the field,
the conjugate times the norm to the power `p - 2`; times the operand it is 1 where the operand is not 0 in the
field, and it is 0 where the operand is. -/
def Obligations.Fp2InvInvertsTheResidue : Prop :=
  ∀ (s : State) (rd rs1 : Field), (Instr.fp2Inv rd rs1).wellFormed = true →
    let x := s.readV rs1.toNat
    CompletesWith (.fp2Inv rd rs1) s { e := vRegs rd.toNat } fun t =>
      t.readV rd.toNat = f2inv x ∧
      (x.inRange → (t.readV rd.toNat).inRange ∧ (t.readV rd.toNat).gf = gfInv x.gf ∧
        (x.gf ≠ 0 → x.gf * (t.readV rd.toNat).gf = 1) ∧
        (x.gf = 0 → (t.readV rd.toNat).gf = 0))

/-- R270, R271: `FP2_MOV` copies bit for bit, and `FP2_SWAPCOND` swaps both components by one choice: not at all
for 0, wholly for 1. -/
def Obligations.Fp2MovAndSwapcondResults : Prop :=
  (∀ (s : State) (rd rs1 : Field), (Instr.fp2Mov rd rs1).wellFormed = true →
    CompletesWith (.fp2Mov rd rs1) s { e := vRegs rd.toNat } fun t =>
      t.readV rd.toNat = s.readV rs1.toNat) ∧
  ∀ (s : State) (rs1 rs2 rs3 : Field), (Instr.fp2Swapcond rs1 rs2 rs3).wellFormed = true →
    CompletesWith (.fp2Swapcond rs1 rs2 rs3) s { e := vRegs rs1.toNat ++ vRegs rs2.toNat } fun t =>
      let x := s.readV rs1.toNat
      let y := s.readV rs2.toNat
      let c := s.readG rs3.toNat
      (t.readV rs1.toNat = ⟨(swapCond x.re y.re c).1, (swapCond x.im y.im c).1⟩ ∧
        t.readV rs2.toNat = ⟨(swapCond x.re y.re c).2, (swapCond x.im y.im c).2⟩) ∧
      (c = 0 → t.readV rs1.toNat = x ∧ t.readV rs2.toNat = y) ∧
      (c = 1 → t.readV rs1.toNat = y ∧ t.readV rs2.toNat = x)

/-! ## Points and curves -/

/-- R293, R295: `PT_POW2K` and `PT_POW3K` repeat the doubling or tripling `G[RS3]` times, reading the curve in
the form each needs. -/
def Obligations.PointPowerCommandsIterate : Prop :=
  ∀ (s : State) (rd rs1 rs2 rs3 : Field), (Instr.ptPow2k rd rs1 rs2 rs3).wellFormed = true →
    let k := (s.readG rs3.toNat).toNat
    let crv := s.readCrv rs2.toNat
    CompletesWith (.ptPow2k rd rs1 rs2 rs3) s { e := ptRegs rd.toNat } (fun t =>
      ∃ q : Nat → Pt, q 0 = s.readPt rs1.toNat ∧ (∀ j, q (j + 1) = xDBL (q j) crv.fst crv.snd) ∧
        t.readPt rd.toNat = q k) ∧
    CompletesWith (.ptPow3k rd rs1 rs2 rs3) s { e := ptRegs rd.toNat } fun t =>
      ∃ q : Nat → Pt, q 0 = s.readPt rs1.toNat ∧ (∀ j, q (j + 1) = xTPL (q j) crv.snd crv.fst) ∧
        t.readPt rd.toNat = q k

/-- R292, R294, R296, R272: in the field, one doubling, one tripling and one combined doubling and differential
addition are the formulas of x-only arithmetic. -/
def Obligations.DoublingAndTriplingInTheField : Prop :=
  (∀ (p : Pt) (a b : Fp2), p.inRange → a.inRange → b.inRange →
    let x := p.x.gf
    let z := p.z.gf
    let d := (x - z) ^ 2
    let s := (x + z) ^ 2
    ((xDBL p a b).inRange ∧ (xDBL p a b).x.gf = b.gf * d * s ∧
      (xDBL p a b).z.gf = (s - d) * (b.gf * d + a.gf * (s - d))) ∧
    let u := b.gf * s * s
    let v := a.gf * d * d
    let m := (b.gf * s - a.gf * d) * ((2 * x) ^ 2 - s - d)
    (xTPL p a b).inRange ∧ (xTPL p a b).x.gf = 2 * x * (v - u + m) ^ 2 ∧
      (xTPL p a b).z.gf = 2 * z * (v - u - m) ^ 2) ∧
  ∀ (p q pq : Pt) (a24 : Fp2), p.inRange → q.inRange → pq.inRange → a24.inRange →
    let x := p.x.gf
    let z := p.z.gf
    let d := (x - z) ^ 2
    let s := (x + z) ^ 2
    let v := xDBLADD p q pq a24
    (v.1.inRange ∧ v.1.x.gf = s * d ∧ v.1.z.gf = (s - d) * (d + a24.gf * (s - d))) ∧
    v.2.inRange ∧ v.2.x.gf = 4 * pq.z.gf * (x * q.x.gf - z * q.z.gf) ^ 2 ∧
      v.2.z.gf = 4 * pq.x.gf * (z * q.x.gf - x * q.z.gf) ^ 2

/-- R296, R297, R298: `PT_LADDER3PT` reads `bitlen` bits of the scalar in `BUF`, least significant first, and
steps the three points by each, with the constant `a24`, which is `(A + 2C)/(4C)` in the field; for `bitlen = 0` the
result is `P` as given. -/
def Obligations.LadderStepsByTheScalarBits : Prop :=
  ∀ (s : State) (rd rs1 rs2 rs3 : Field), legal (.ptLadder3pt rd rs1 rs2 rs3) s = true →
    let bitlen := (s.readG rs3.toNat).toNat
    let off := (s.readG (rs3.toNat + 1)).toNat
    let crv := s.readCrv rs1.toNat
    let c2 := f2add crv.snd crv.snd
    let a24 := f2mul (f2add crv.fst c2) (f2inv (f2add c2 c2))
    CompletesWith (.ptLadder3pt rd rs1 rs2 rs3) s { e := ptRegs rd.toNat } fun t =>
      (∃ r : Nat → LadderPoints,
        r 0 = ⟨s.readPt (rs2.toNat + 1), s.readPt rs2.toNat, s.readPt (rs2.toNat + 2)⟩ ∧
        (∀ i, i < bitlen →
          if (Memory.read s.buf (off + i / 8)).getLsbD (i % 8) then
            (r (i + 1)).r0 = (xDBLADD (r i).r0 (r i).r1 (r i).r2 a24).1 ∧
            (r (i + 1)).r1 = (xDBLADD (r i).r0 (r i).r1 (r i).r2 a24).2 ∧ (r (i + 1)).r2 = (r i).r2
          else
            (r (i + 1)).r0 = (xDBLADD (r i).r0 (r i).r2 (r i).r1 a24).1 ∧
            (r (i + 1)).r2 = (xDBLADD (r i).r0 (r i).r2 (r i).r1 a24).2 ∧ (r (i + 1)).r1 = (r i).r1) ∧
        t.readPt rd.toNat = (r bitlen).r1) ∧
      (crv.inRange → a24.inRange ∧ a24.gf = (crv.fst.gf + 2 * crv.snd.gf) * gfInv (4 * crv.snd.gf)) ∧
      (bitlen = 0 → t.readPt rd.toNat = s.readPt rs2.toNat)

/-- R297: the ladder's result does not depend on the bits of its last byte above `bitlen`, nor on any byte
of `BUF` outside the scalar. -/
def Obligations.LadderIgnoresBitsAboveBitlen : Prop :=
  ∀ (s : State) (m : Memory) (rd rs1 rs2 rs3 : Field), legal (.ptLadder3pt rd rs1 rs2 rs3) s = true →
    (∀ i, i < (s.readG rs3.toNat).toNat →
      (Memory.read m ((s.readG (rs3.toNat + 1)).toNat + i / 8)).getLsbD (i % 8) =
        (Memory.read s.buf ((s.readG (rs3.toNat + 1)).toNat + i / 8)).getLsbD (i % 8)) →
    ∃ t, exec (.ptLadder3pt rd rs1 rs2 rs3) s = .next t ∧
      exec (.ptLadder3pt rd rs1 rs2 rs3) { s with buf := m } = .next { t with buf := m }

/-- R300 to R304: the four curve-form commands write the exact values of their rules, which in the field are
`(A+2C, 4C)`, `(A+2C, A-2C)`, `(4A24p - 2C24, C24)` and `(2(A24p + A24m), A24p - A24m)`; so recovering either
equivalence form of `(A, C)` gives `(4A, 4C)`. -/
def Obligations.CurveFormCommands : Prop :=
  (∀ c : Crv, c.inRange →
    (curveRecover4 (curveEquiv4 c)).fst.gf = 4 * c.fst.gf ∧
    (curveRecover4 (curveEquiv4 c)).snd.gf = 4 * c.snd.gf ∧
    (curveRecover3 (curveEquiv3 c)).fst.gf = 4 * c.fst.gf ∧
    (curveRecover3 (curveEquiv3 c)).snd.gf = 4 * c.snd.gf) ∧
  ∀ (s : State) (rd rs1 : Field), (Instr.crvEquiv4 rd rs1).wellFormed = true →
    let c := s.readCrv rs1.toNat
    let a := c.fst.gf
    let b := c.snd.gf
    let twice := f2add c.snd c.snd
    let sum := f2add c.fst c.snd
    CompletesWith (.crvEquiv4 rd rs1) s { e := ptRegs rd.toNat } (fun t =>
      t.readCrv rd.toNat = ⟨f2add c.fst twice, f2add twice twice⟩ ∧
      (c.inRange → (t.readCrv rd.toNat).fst.gf = a + 2 * b ∧ (t.readCrv rd.toNat).snd.gf = 4 * b)) ∧
    CompletesWith (.crvEquiv3 rd rs1) s { e := ptRegs rd.toNat } (fun t =>
      t.readCrv rd.toNat = ⟨f2add c.fst twice, f2sub c.fst twice⟩ ∧
      (c.inRange → (t.readCrv rd.toNat).fst.gf = a + 2 * b ∧ (t.readCrv rd.toNat).snd.gf = a - 2 * b)) ∧
    CompletesWith (.crvRecover4 rd rs1) s { e := ptRegs rd.toNat } (fun t =>
      t.readCrv rd.toNat =
        ⟨f2sub (f2add (f2add c.fst c.fst) (f2add c.fst c.fst)) twice, c.snd⟩ ∧
      (c.inRange → (t.readCrv rd.toNat).fst.gf = 4 * a - 2 * b ∧ (t.readCrv rd.toNat).snd.gf = b)) ∧
    CompletesWith (.crvRecover3 rd rs1) s { e := ptRegs rd.toNat } fun t =>
      t.readCrv rd.toNat = ⟨f2add sum sum, f2sub c.fst c.snd⟩ ∧
      (c.inRange → (t.readCrv rd.toNat).fst.gf = 2 * (a + b) ∧ (t.readCrv rd.toNat).snd.gf = a - b)

/-- R305 to R308: `CRV_RECOVER_A` gives `((1 - xP·xQ - xP·xR - xQ·xR)² / (4·xP·xQ·xR) - xP - xQ - xR, 1)` and
`CRV_JINV` gives `256·(A² - 3C²)³ / (C⁴·(A² - 4C²))`, with the division the model's `gfInv`; where the
denominator is 0, the j-invariant is 0. -/
def Obligations.RecoverAAndJInvariantFormulas : Prop :=
  ∀ (s : State) (rd rs1 : Field),
    ((Instr.crvRecoverA rd rs1).wellFormed = true →
      let p := s.readV rs1.toNat
      let q := s.readV (rs1.toNat + 1)
      let r := s.readV (rs1.toNat + 2)
      CompletesWith (.crvRecoverA rd rs1) s { e := ptRegs rd.toNat } fun t =>
        t.readCrv rd.toNat = recoverA p q r ∧ (t.readCrv rd.toNat).snd = one2 ∧
        (p.inRange → q.inRange → r.inRange →
          (t.readCrv rd.toNat).fst.inRange ∧
          (t.readCrv rd.toNat).fst.gf =
            (1 - p.gf * q.gf - p.gf * r.gf - q.gf * r.gf) ^ 2 * gfInv (4 * p.gf * q.gf * r.gf) -
              p.gf - q.gf - r.gf)) ∧
    ((Instr.crvJinv rd rs1).wellFormed = true →
      let c := s.readCrv rs1.toNat
      let a := c.fst.gf
      let b := c.snd.gf
      CompletesWith (.crvJinv rd rs1) s { e := vRegs rd.toNat } fun t =>
        t.readV rd.toNat = jInvariant c ∧
        (c.inRange → (t.readV rd.toNat).inRange ∧
          (t.readV rd.toNat).gf = 256 * (a ^ 2 - 3 * b ^ 2) ^ 3 * gfInv (b ^ 4 * (a ^ 2 - 4 * b ^ 2)) ∧
          (b ^ 4 * (a ^ 2 - 4 * b ^ 2) = 0 → (t.readV rd.toNat).gf = 0)))

/-! ## Isogenies and traversals -/

/-- R341, R345, R349: `ISO4_GEN` and `ISO3_GEN` write the codomain and the stash, and set its `valid`; the
codomains and the coefficients, in the field, are the polynomials of `get4` and `get3` in `X` and `Z`. -/
def Obligations.IsogenyGenWritesCurveAndStash : Prop :=
  ∀ (s : State) (rd rs1 : Field), (Instr.iso4Gen rd rs1).wellFormed = true →
    let k := s.readPt rs1.toNat
    CompletesWith (.iso4Gen rd rs1) s { e := ptRegs rd.toNat, iso4 := true } (fun t =>
      t.readCrv rd.toNat = (get4 k).1 ∧ t.iso4 = ⟨(get4 k).2, true⟩ ∧
      (k.inRange → (t.readCrv rd.toNat).fst.gf = 4 * k.x.gf ^ 4 ∧ (t.readCrv rd.toNat).snd.gf = 4 * k.z.gf ^ 4 ∧
        t.iso4.coeffs.k1.gf = 4 * k.z.gf ^ 2 ∧ t.iso4.coeffs.k2.gf = k.x.gf - k.z.gf ∧
        t.iso4.coeffs.k3.gf = k.x.gf + k.z.gf)) ∧
    CompletesWith (.iso3Gen rd rs1) s { e := ptRegs rd.toNat, iso3 := true } fun t =>
      t.readCrv rd.toNat = (get3 k).1 ∧ t.iso3 = ⟨(get3 k).2, true⟩ ∧
      (k.inRange →
        (t.readCrv rd.toNat).fst.gf = (3 * k.x.gf + k.z.gf) ^ 3 * (k.x.gf - k.z.gf) ∧
        (t.readCrv rd.toNat).snd.gf = (3 * k.x.gf - k.z.gf) ^ 3 * (k.x.gf + k.z.gf) ∧
        t.iso3.coeffs.k1.gf = k.x.gf - k.z.gf ∧ t.iso3.coeffs.k2.gf = k.x.gf + k.z.gf)

/-- R340, R343, R347, R272: the evaluators apply the stash where it is valid, without changing it, and raise
`IsogenyNotGenerated` where it is not; for a point and coefficients in range the image is in range and, in the
field, is the polynomial of `eval4` or `eval3` in the point and the coefficients. -/
def Obligations.IsogenyEvalNeedsTheStash : Prop :=
  ∀ (s : State) (rd rs1 : Field), (Instr.iso4Eval rd rs1).wellFormed = true →
    let p := s.readPt rs1.toNat
    let u := p.x.gf + p.z.gf
    let v := p.x.gf - p.z.gf
    let k := s.iso4.coeffs
    let l := s.iso3.coeffs
    (s.iso4.valid = true → CompletesWith (.iso4Eval rd rs1) s { e := ptRegs rd.toNat } fun t =>
      t.readPt rd.toNat = eval4 p k ∧
      (p.inRange → k.k1.inRange → k.k2.inRange → k.k3.inRange →
        let w := u * v * k.k1.gf
        let a := (u * k.k2.gf + v * k.k3.gf) ^ 2
        let b := (u * k.k2.gf - v * k.k3.gf) ^ 2
        (t.readPt rd.toNat).inRange ∧ (t.readPt rd.toNat).x.gf = (w + a) * a ∧
          (t.readPt rd.toNat).z.gf = (b - w) * b)) ∧
    (s.iso4.valid = false → Raises (.iso4Eval rd rs1) s .isogenyNotGenerated) ∧
    (s.iso3.valid = true → CompletesWith (.iso3Eval rd rs1) s { e := ptRegs rd.toNat } fun t =>
      t.readPt rd.toNat = eval3 p l ∧
      (p.inRange → l.k1.inRange → l.k2.inRange →
        (t.readPt rd.toNat).inRange ∧
          (t.readPt rd.toNat).x.gf = p.x.gf * (l.k1.gf * u + l.k2.gf * v) ^ 2 ∧
          (t.readPt rd.toNat).z.gf = p.z.gf * (l.k2.gf * v - l.k1.gf * u) ^ 2)) ∧
    (s.iso3.valid = false → Raises (.iso3Eval rd rs1) s .isogenyNotGenerated)

/-- R344, R348: after the isogeny with kernel point `K` is generated, evaluating it at `K` gives the point at
infinity. -/
def Obligations.KernelPointGoesToInfinity : Prop :=
  ∀ k : Pt, k.inRange → (eval4 k (get4 k).2).z.gf = 0 ∧ (eval3 k (get3 k).2).z.gf = 0

/-- R375, R376, R379: `TRAV_PK_A` and `TRAV_PK_B` write the curve, the point, the three basis points and the
stash that the traversal with the configured strategy leaves. -/
def Obligations.PublicKeyTraversals : Prop :=
  ∀ (s : State) (rs1 rs2 rs3 : Field), (Instr.travPkA rs1 rs2 rs3).wellFormed = true →
    let c := s.readCrv rs1.toNat
    let r := s.readPt rs2.toNat
    let b := [s.readPt rs3.toNat, s.readPt (rs3.toNat + 1), s.readPt (rs3.toNat + 2)]
    let regs := ptRegs rs1.toNat ++ ptRegs rs2.toNat ++ ptRegs rs3.toNat ++ ptRegs (rs3.toNat + 1) ++
      ptRegs (rs3.toNat + 2)
    CompletesWith (.travPkA rs1 rs2 rs3) s { e := regs, iso4 := true } (fun t =>
      let f := traverse family4 (strategy .a) c r b
      t.readCrv rs1.toNat = f.crv ∧ t.readPt rs2.toNat = f.r ∧
      [t.readPt rs3.toNat, t.readPt (rs3.toNat + 1), t.readPt (rs3.toNat + 2)] = f.basis ∧
      ∃ k, f.coeffs = some k ∧ t.iso4 = ⟨k, true⟩) ∧
    CompletesWith (.travPkB rs1 rs2 rs3) s { e := regs, iso3 := true } fun t =>
      let f := traverse family3 (strategy .b) c r b
      t.readCrv rs1.toNat = f.crv ∧ t.readPt rs2.toNat = f.r ∧
      [t.readPt rs3.toNat, t.readPt (rs3.toNat + 1), t.readPt (rs3.toNat + 2)] = f.basis ∧
      ∃ k, f.coeffs = some k ∧ t.iso3 = ⟨k, true⟩

/-- R377, R378: `TRAV_SS_A` and `TRAV_SS_B` leave the curve, the point and the stash that the public-key
traversal leaves from the same start, and no basis point changes. -/
def Obligations.SharedKeyTraversals : Prop :=
  ∀ (s : State) (rs1 rs2 : Field), (Instr.travSsA rs1 rs2).wellFormed = true →
    let c := s.readCrv rs1.toNat
    let r := s.readPt rs2.toNat
    let regs := ptRegs rs1.toNat ++ ptRegs rs2.toNat
    CompletesWith (.travSsA rs1 rs2) s { e := regs, iso4 := true } (fun t =>
      ∀ b, let f := traverse family4 (strategy .a) c r b
        t.readCrv rs1.toNat = f.crv ∧ t.readPt rs2.toNat = f.r ∧ ∃ k, f.coeffs = some k ∧ t.iso4 = ⟨k, true⟩) ∧
    CompletesWith (.travSsB rs1 rs2) s { e := regs, iso3 := true } fun t =>
      ∀ b, let f := traverse family3 (strategy .b) c r b
        t.readCrv rs1.toNat = f.crv ∧ t.readPt rs2.toNat = f.r ∧ ∃ k, f.coeffs = some k ∧ t.iso3 = ⟨k, true⟩

/-- R371, R372, R374: with a well-formed strategy the traversal, on either side and from any point, reads the
strategy exactly, leaves its stack empty and never needs more than the strategy's depth; the configured
strategies are well-formed, of the length of R8, and their depth is within `STACK_DEPTH`. -/
def Obligations.TraversalConsumesItsStrategy : Prop :=
  (∀ (strat : List Nat) (c : Crv) (r : Pt) (b : List Pt), wellFormedStrategy strat = true →
    ((traverse family4 strat c r b).stack = [] ∧ (traverse family4 strat c r b).strat = [] ∧
      (traverse family4 strat c r b).deepest = strategyDepth strat) ∧
    ((traverse family3 strat c r b).stack = [] ∧ (traverse family3 strat c r b).strat = [] ∧
      (traverse family3 strat c r b).deepest = strategyDepth strat)) ∧
  (∀ sd, wellFormedStrategy (strategy sd) = true ∧ strategyDepth (strategy sd) ≤ stackDepth) ∧
  (strategy .a).length = 124 ∧ (strategy .b).length = 158

/-- R371: every strategy tree `S(n)` is well-formed with `n - 1` entries, and so is the naive strategy, whose
stack never holds more than one entry. -/
def Obligations.StrategyTreesAreWellFormed : Prop :=
  (∀ n strat, StrategyTree n strat → wellFormedStrategy strat = true ∧ strat.length + 1 = n) ∧
  ∀ n, wellFormedStrategy (naiveStrategy n) = true ∧ strategyDepth (naiveStrategy n) ≤ 1

/-! ## Keys -/

/-- R402, R407: `SK_GENERATE` takes 32 bytes, and 24 more for a SIKE key, and stores the scalar with its last
byte masked and its other bytes as drawn; the scalar is in `[2^(SecretBitLen-1), 2^SecretBitLen)`. Where the
port does not deliver, it raises `RngFailure` and the slot is unchanged. -/
def Obligations.SkGenerateMasksTheScalar : Prop :=
  ∀ (s : State) (rd rs1 : Field), (Instr.skGenerate rd rs1).wellFormed = true →
    let bits := if variantOf rs1 = .sidhA then 250 else 252
    let keep : Byte := if variantOf rs1 = .sidhA then 0x03 else 0x0F
    let force : Byte := if variantOf rs1 = .sidhA then 0x02 else 0x08
    let drawn := if variantOf rs1 = .sike then 56 else 32
    (∀ (bs : List Byte) (left : List RngItem), s.rng = bs.map some ++ left → bs.length = drawn →
      CompletesWith (.skGenerate rd rs1) s { sk := [rd.toNat], rng := true } fun t =>
        (t.readSk rd.toNat).variant = variantOf rs1 ∧
        (t.readSk rd.toNat).scalar.toList =
          bs.take 31 ++ [(bs.getD 31 0 &&& keep) ||| force] ∧
        (t.readSk rd.toNat).s.toList =
          (if variantOf rs1 = .sike then bs.drop 32 else List.replicate 24 0) ∧
        2 ^ (bits - 1) ≤ intLE (t.readSk rd.toNat).scalar.toList ∧
        intLE (t.readSk rd.toNat).scalar.toList < 2 ^ bits ∧ t.rng = left) ∧
    ((¬∃ (bs : List Byte) (left : List RngItem), s.rng = bs.map some ++ left ∧ bs.length = drawn) →
      RaisesRngFailure (.skGenerate rd rs1) s)

/-- R403, R405, R491, R494: `SK_IMPORT` stores the bytes as given and `PK_IMPORT` the residues of the
components; the length in `G[RS2+1]` must be the variant's size, or 378. -/
def Obligations.KeyImports : Prop :=
  ∀ (s : State) (rd rs1 rs2 : Field),
    let off := (s.readG rs2.toNat).toNat
    let n := (s.readG (rs2.toNat + 1)).toNat
    let size := if variantOf rs1 = .sike then 56 else 32
    let part := fun (k : Nat) => intLE (s.bufRead (off + 63 * k) 63) % prime
    (legal (.skImport rd rs1 rs2) s = true → n = size →
      CompletesWith (.skImport rd rs1 rs2) s { sk := [rd.toNat] } fun t =>
        (t.readSk rd.toNat).variant = variantOf rs1 ∧
        (if variantOf rs1 = .sike then
          (t.readSk rd.toNat).s.toList = s.bufRead off 24 ∧
          (t.readSk rd.toNat).scalar.toList = s.bufRead (off + 24) 32
        else
          (t.readSk rd.toNat).s.toList = List.replicate 24 0 ∧
          (t.readSk rd.toNat).scalar.toList = s.bufRead off 32)) ∧
    (legal (.skImport rd rs1 rs2) s = true → n ≠ size → Raises (.skImport rd rs1 rs2) s .invalidInputLength) ∧
    (legal (.pkImport rd rs1 rs2) s = true → n = 378 →
      CompletesWith (.pkImport rd rs1 rs2) s { pk := [rd.toNat] } fun t =>
        t.readPk rd.toNat =
          ⟨variantOf rs1, ⟨part 0, part 1⟩, ⟨part 2, part 3⟩, ⟨part 4, part 5⟩⟩) ∧
    (legal (.pkImport rd rs1 rs2) s = true → n ≠ 378 → Raises (.pkImport rd rs1 rs2) s .invalidInputLength)

/-- R404, R406, R492, R493: the export commands write the wire bytes of a key at `G[RS2]` and their number to
`G[RS2+1]`; an empty slot raises `EmptyKeySlot`. -/
def Obligations.KeyExports : Prop :=
  ∀ (s : State) (rs1 rs2 : Field), Memory.wf s.buf = true →
    let off := (s.readG rs2.toNat).toNat
    let k := s.readSk rs1.toNat
    let q := s.readPk rs1.toNat
    let size := if k.variant = .sike then 56 else 32
    let parts := [q.xP.re, q.xP.im, q.xQ.re, q.xQ.im, q.xQmP.re, q.xQmP.im]
    (legal (.skExport rs1 rs2) s = true → k.variant ≠ .none →
      CompletesWith (.skExport rs1 rs2) s { g := [rs2.toNat + 1], buf := [(off, size)] } fun t =>
        (t.readG (rs2.toNat + 1)).toNat = size ∧
        t.bufRead off size =
          (if k.variant = .sike then k.s.toList ++ k.scalar.toList else k.scalar.toList)) ∧
    (legal (.skExport rs1 rs2) s = true → k.variant = .none → Raises (.skExport rs1 rs2) s .emptyKeySlot) ∧
    (legal (.pkExport rs1 rs2) s = true → q.variant ≠ .none →
      CompletesWith (.pkExport rs1 rs2) s { g := [rs2.toNat + 1], buf := [(off, 378)] } fun t =>
        (t.readG (rs2.toNat + 1)).toNat = 378 ∧
        ∀ i j, i < 6 → j < 63 →
          (Memory.read t.buf (off + 63 * i + j)).toNat = parts.getD i 0 / 2 ^ (8 * j) % 2 ^ 8) ∧
    (legal (.pkExport rs1 rs2) s = true → q.variant = .none → Raises (.pkExport rs1 rs2) s .emptyKeySlot)

/-- R498: importing what was exported, with the same variant, gives the same key back. -/
def Obligations.ExportThenImportRestoresTheKey : Prop :=
  ∀ (s t : State) (k r v g : Field), s.Inv → r.toNat < 4 →
    (exec (.skExport k g) s = .next t → t.errcode = 0 → variantOf v = (s.readSk k.toNat).variant →
      CompletesWith (.skImport r v g) t { sk := [r.toNat] } fun u =>
        u.readSk r.toNat = s.readSk k.toNat) ∧
    (exec (.pkExport k g) s = .next t → t.errcode = 0 → variantOf v = (s.readPk k.toNat).variant →
      CompletesWith (.pkImport r v g) t { pk := [r.toNat] } fun u =>
        u.readPk r.toNat = s.readPk k.toNat)

/-- R410, R412: `GEN_PUBLIC` stores the public key of the private key, with its variant, and clears the stashes;
an empty slot raises `EmptyKeySlot`. -/
def Obligations.GenPublicStoresThePublicKey : Prop :=
  ∀ (s : State) (rd rs1 : Field), (Instr.genPublic rd rs1).wellFormed = true →
    let k := s.readSk rs1.toNat
    (k.variant ≠ .none →
      CompletesWith (.genPublic rd rs1) s { pk := [rd.toNat], iso4 := true, iso3 := true } fun t =>
        t.readPk rd.toNat = genPublic k.variant k.scalar.toList ∧
        (t.readPk rd.toNat).variant = k.variant ∧
        ((t.readPk rd.toNat).xP.reduced ∧ (t.readPk rd.toNat).xQ.reduced ∧ (t.readPk rd.toNat).xQmP.reduced) ∧
        t.iso4 = .cleared ∧ t.iso3 = .cleared) ∧
    (k.variant = .none → Raises (.genPublic rd rs1) s .emptyKeySlot)

/-- R414, R415: `DERIVE_SECRET` writes the 126 bytes of the shared secret where the keys are on opposite sides,
raises `IncompatibleKeys` where they are on the same side, and `EmptyKeySlot` before that. -/
def Obligations.DeriveSecretWritesTheSecret : Prop :=
  ∀ (s : State) (rs1 rs2 rs3 : Field), legal (.deriveSecret rs1 rs2 rs3) s = true →
    let k := s.readSk rs1.toNat
    let q := s.readPk rs2.toNat
    let off := (s.readG rs3.toNat).toNat
    let kA := k.variant = .sidhA
    let qA := q.variant = .sidhA
    (k.variant ≠ .none → q.variant ≠ .none → ¬(kA ↔ qA) → Memory.wf s.buf = true →
      CompletesWith (.deriveSecret rs1 rs2 rs3) s { buf := [(off, 126)], iso4 := true, iso3 := true } fun t =>
        t.bufRead off 126 = deriveSecret k.variant k.scalar.toList q ∧
        t.iso4 = .cleared ∧ t.iso3 = .cleared) ∧
    (k.variant ≠ .none → q.variant ≠ .none → (kA ↔ qA) →
      Raises (.deriveSecret rs1 rs2 rs3) s .incompatibleKeys) ∧
    (k.variant = .none ∨ q.variant = .none → Raises (.deriveSecret rs1 rs2 rs3) s .emptyKeySlot)

/-! ## The KEM and the wire commands -/

/-- R455, R456: `ENCRYPT` and `DECRYPT` on legal operands with the right keys and lengths. -/
def Obligations.EncryptAndDecryptResults : Prop :=
  ∀ (s : State) (rs1 rs2 : Field), Memory.wf s.buf = true →
    let g := fun (i : Nat) => (s.readG (rs2.toNat + i)).toNat
    (legal (.encrypt rs1 rs2) s = true → (s.readPk rs1.toNat).variant = .sike → g 1 = 24 →
      ∀ (r : List Byte) (left : List RngItem), s.rng = r.map some ++ left → r.length = 32 →
      CompletesWith (.encrypt rs1 rs2) s
        { g := [rs2.toNat + 3], buf := [(g 2, 402)], iso4 := true, iso3 := true, rng := true } fun t =>
        let scA := r.take 31 ++ [(r.getD 31 0 &&& 0x03) ||| 0x02]
        t.bufRead (g 2) 402 =
          encryptCore scA (genPublic .sidhA scA) (s.readPk rs1.toNat) (s.bufRead (g 0) 24) ∧
        (t.readG (rs2.toNat + 3)).toNat = 402 ∧ t.iso4 = .cleared ∧ t.iso3 = .cleared ∧ t.rng = left) ∧
    (legal (.decrypt rs1 rs2) s = true → (s.readSk rs1.toNat).variant = .sike → g 1 = 402 →
      CompletesWith (.decrypt rs1 rs2) s
        { g := [rs2.toNat + 3], buf := [(g 2, 24)], iso4 := true, iso3 := true } fun t =>
        t.bufRead (g 2) 24 = decryptCore (s.readSk rs1.toNat) (s.bufRead (g 0) 402) ∧
        (t.readG (rs2.toNat + 3)).toNat = 24 ∧ t.iso4 = .cleared ∧ t.iso3 = .cleared)

/-- R457, R458: `ENCAPSULATE` and `DECAPSULATE` on legal operands with the right keys and length; `DECAPSULATE`
keys its answer by the private key's `s` exactly where the re-encryption does not give the ciphertext's key. -/
def Obligations.EncapsulateAndDecapsulateResults : Prop :=
  ∀ (s : State), Memory.wf s.buf = true →
    (∀ rs1 rs2 : Field, legal (.encapsulate rs1 rs2) s = true → (s.readPk rs1.toNat).variant = .sike →
      ∀ (m : List Byte) (left : List RngItem), s.rng = m.map some ++ left → m.length = 24 →
      let co := (s.readG rs2.toNat).toNat
      let ko := (s.readG (rs2.toNat + 1)).toNat
      let q := s.readPk rs1.toNat
      CompletesWith (.encapsulate rs1 rs2) s
        { buf := [(co, 402), (ko, 16)], iso4 := true, iso3 := true, rng := true } fun t =>
        let r := hashMac 32 (m ++ pkWire q) .g
        let scA := r.take 31 ++ [(r.getD 31 0 &&& 0x03) ||| 0x02]
        let c := encryptCore scA (genPublic .sidhA scA) q m
        t.bufRead co 402 = c ∧ t.bufRead ko 16 = hashMac 16 (m ++ c) .h ∧
        t.iso4 = .cleared ∧ t.iso3 = .cleared ∧ t.rng = left) ∧
    ∀ rs1 rs2 rs3 : Field, legal (.decapsulate rs1 rs2 rs3) s = true →
      (s.readSk rs1.toNat).variant = .sike → (s.readPk rs2.toNat).variant = .sike →
      (s.readG (rs3.toNat + 1)).toNat = 402 →
      let c := s.bufRead (s.readG rs3.toNat).toNat 402
      let ko := (s.readG (rs3.toNat + 2)).toNat
      let k := s.readSk rs1.toNat
      let q := s.readPk rs2.toNat
      CompletesWith (.decapsulate rs1 rs2 rs3) s { buf := [(ko, 16)], iso4 := true, iso3 := true } fun t =>
        let m := decryptCore k c
        let r := hashMac 32 (m ++ pkWire q) .g
        let scA := r.take 31 ++ [(r.getD 31 0 &&& 0x03) ||| 0x02]
        (pkWire (genPublic .sidhA scA) = c.take 378 → t.bufRead ko 16 = hashMac 16 (m ++ c) .h) ∧
        (pkWire (genPublic .sidhA scA) ≠ c.take 378 → t.bufRead ko 16 = hashMac 16 (k.s.toList ++ c) .h) ∧
        t.iso4 = .cleared ∧ t.iso3 = .cleared

/-- R521, R524, R455 to R458: where more than one check of a KEM command fails, `EmptyKeySlot` is reported
before `WrongKeyType`, that before `InvalidInputLength`, and `RngFailure` last. -/
def Obligations.KemErrorPriority : Prop :=
  ∀ (s : State) (rs1 rs2 rs3 : Field),
    let k := (s.readSk rs1.toNat).variant
    let p := (s.readPk rs1.toNat).variant
    let q := (s.readPk rs2.toNat).variant
    let short := fun (n : Nat) => ¬∃ (bs : List Byte) (left : List RngItem), s.rng = bs.map some ++ left ∧ bs.length = n
    (legal (.encrypt rs1 rs2) s = true →
      (p = .none → Raises (.encrypt rs1 rs2) s .emptyKeySlot) ∧
      (p = .sidhA ∨ p = .sidhB → Raises (.encrypt rs1 rs2) s .wrongKeyType) ∧
      (p = .sike → (s.readG (rs2.toNat + 1)).toNat ≠ 24 → Raises (.encrypt rs1 rs2) s .invalidInputLength) ∧
      (p = .sike → (s.readG (rs2.toNat + 1)).toNat = 24 → short 32 → RaisesRngFailure (.encrypt rs1 rs2) s)) ∧
    (legal (.decrypt rs1 rs2) s = true →
      (k = .none → Raises (.decrypt rs1 rs2) s .emptyKeySlot) ∧
      (k = .sidhA ∨ k = .sidhB → Raises (.decrypt rs1 rs2) s .wrongKeyType) ∧
      (k = .sike → (s.readG (rs2.toNat + 1)).toNat ≠ 402 → Raises (.decrypt rs1 rs2) s .invalidInputLength)) ∧
    (legal (.encapsulate rs1 rs2) s = true →
      (p = .none → Raises (.encapsulate rs1 rs2) s .emptyKeySlot) ∧
      (p = .sidhA ∨ p = .sidhB → Raises (.encapsulate rs1 rs2) s .wrongKeyType) ∧
      (p = .sike → short 24 → RaisesRngFailure (.encapsulate rs1 rs2) s)) ∧
    (legal (.decapsulate rs1 rs2 rs3) s = true →
      (k = .none ∨ q = .none → Raises (.decapsulate rs1 rs2 rs3) s .emptyKeySlot) ∧
      (k ≠ .none → q ≠ .none → ¬(k = .sike ∧ q = .sike) → Raises (.decapsulate rs1 rs2 rs3) s .wrongKeyType) ∧
      (k = .sike → q = .sike → (s.readG (rs3.toNat + 1)).toNat ≠ 402 →
        Raises (.decapsulate rs1 rs2 rs3) s .invalidInputLength))

/-- R412, R578: after a composite command that completes without error, an evaluation raises
`IsogenyNotGenerated`. -/
def Obligations.CompositeCommandsLeaveNoIsogeny : Prop :=
  ∀ (s t : State) (i : Instr) (rd rs1 rs2 rs3 a b : Field),
    i ∈ [.genPublic rd rs1, .deriveSecret rs1 rs2 rs3, .encrypt rs1 rs2, .decrypt rs1 rs2,
      .encapsulate rs1 rs2, .decapsulate rs1 rs2 rs3] →
    exec i s = .next t → t.errcode = 0 → (Instr.iso4Eval a b).wellFormed = true →
    Raises (.iso4Eval a b) t .isogenyNotGenerated ∧ Raises (.iso3Eval a b) t .isogenyNotGenerated

/-- R490, R491, R495, R496: `FP2_TOWIRE` writes the 63 little-endian bytes of each component's canonical residue;
`FP2_FROMWIRE` converts the two 63-byte numbers as read, with no prior reduction: each component is `toMont` of
its number, below `2p`, with the number's residue. -/
def Obligations.WireConversions : Prop :=
  ∀ (s : State) (r rs2 : Field),
    let off := (s.readG rs2.toNat).toNat
    let x := s.readV r.toNat
    let u0 := intLE (s.bufRead off 63)
    let u1 := intLE (s.bufRead (off + 63) 63)
    (legal (.fp2Towire r rs2) s = true → Memory.wf s.buf = true →
      CompletesWith (.fp2Towire r rs2) s { buf := [(off, 126)] } fun t =>
        ∀ j, j < 63 →
          (Memory.read t.buf (off + j)).toNat = residue x.re / 2 ^ (8 * j) % 2 ^ 8 ∧
          (Memory.read t.buf (off + 63 + j)).toNat = residue x.im / 2 ^ (8 * j) % 2 ^ 8) ∧
    (legal (.fp2Fromwire r rs2) s = true →
      CompletesWith (.fp2Fromwire r rs2) s { e := vRegs r.toNat } fun t =>
        t.readV r.toNat = ⟨toMont (BitVec.ofNat 512 u0), toMont (BitVec.ofNat 512 u1)⟩ ∧
        (t.readV r.toNat).inRange ∧
        residue (t.readV r.toNat).re = u0 % prime ∧ residue (t.readV r.toNat).im = u1 % prime)
end

