-- ==== Sys2Proof/Laws/Field.lean ====
section
/-! SUPPORT. The laws of the Fp and Fp² functions: the values of the constants, the Montgomery reduction, the
range `[0, 2p)`, and what each function does to residues (R221, R232, R246, R272). -/

namespace Sys2Proof.Machine

/-! ### Constants -/

theorem prime_pos : 0 < prime := by decide +kernel

theorem radix_eq : radix = 2 ^ 512 := rfl

theorem radix_pos : 0 < radix := by decide +kernel

theorem radix_mul_radix : radix * radix = 2 ^ 1024 := by rw [radix_eq, ← pow_add]

theorem four_prime_lt_radix : 4 * prime < radix := by decide +kernel

theorem twelve_prime_lt_radix : 12 * prime < radix := by decide +kernel

/-- A sum of three products of values in range is below `p·R` (R263). -/
theorem twelve_sq_lt : 12 * (prime * prime) < prime * radix := by decide +kernel

theorem prime_mul_radix_lt : prime * radix < radix * radix := by decide +kernel

/-! ### Register values as numbers below `R` and `R²` -/

theorem toNat_lt_pow (w : Nat) (x : BitVec w) : x.toNat < 2 ^ w := x.isLt

theorem toNat_ofNat_pow (w n : Nat) : (BitVec.ofNat w n).toNat = n % 2 ^ w := BitVec.toNat_ofNat n w

theorem toNat_add_pow (w : Nat) (x y : BitVec w) : (x + y).toNat = (x.toNat + y.toNat) % 2 ^ w :=
  BitVec.toNat_add x y

theorem toNat_sub_pow (w : Nat) (x y : BitVec w) : (x - y).toNat = (2 ^ w - y.toNat + x.toNat) % 2 ^ w :=
  BitVec.toNat_sub x y

/-- A register value is below `R`. -/
theorem Fp.toNat_lt (x : Fp) : x.toNat < radix := by rw [radix_eq]; exact toNat_lt_pow 512 x

theorem Fp.toNat_ofNat (n : Nat) : (BitVec.ofNat 512 n).toNat = n % radix := by
  rw [radix_eq]; exact toNat_ofNat_pow 512 n

theorem Fp.toNat_add (x y : Fp) : (x + y).toNat = (x.toNat + y.toNat) % radix := by
  rw [radix_eq]; exact toNat_add_pow 512 x y

theorem Fp.toNat_sub (x y : Fp) : (x - y).toNat = (radix - y.toNat + x.toNat) % radix := by
  rw [radix_eq]; exact toNat_sub_pow 512 x y

/-- A double-width value is below `R²`. -/
theorem FpX2.toNat_lt (x : FpX2) : x.toNat < radix * radix := by
  rw [radix_mul_radix]; exact toNat_lt_pow 1024 x

theorem FpX2.toNat_ofNat (n : Nat) : (BitVec.ofNat 1024 n).toNat = n % (radix * radix) := by
  rw [radix_mul_radix]; exact toNat_ofNat_pow 1024 n

theorem FpX2.toNat_add (x y : FpX2) : (x + y).toNat = (x.toNat + y.toNat) % (radix * radix) := by
  rw [radix_mul_radix]; exact toNat_add_pow 1024 x y

theorem FpX2.toNat_sub (x y : FpX2) :
    (x - y).toNat = (radix * radix - y.toNat + x.toNat) % (radix * radix) := by
  rw [radix_mul_radix]; exact toNat_sub_pow 1024 x y

/-- A number below `R` is stored as it is. -/
theorem Fp.toNat_ofNat_lt {n : Nat} (h : n < radix) : (BitVec.ofNat 512 n).toNat = n := by
  rw [Fp.toNat_ofNat, Nat.mod_eq_of_lt h]

/-! ### Constants of the reduction -/

/-- `R` and `R^(-1)` are inverse modulo `p`. -/
theorem radix_mul_radixInv : radix * radixInv % prime = 1 := by decide +kernel

/-- `negPrimeInv` is `-p^(-1)` modulo `R`. -/
theorem negPrimeInv_law : (negPrimeInv * prime + 1) % radix = 0 := by decide +kernel

theorem montOne_law : montOne = radix % prime := by decide +kernel

theorem montR2_law : montR2 = radix * radix % prime := by decide +kernel

theorem one_lt_prime : 1 < prime := by decide +kernel

/-! ### The residue in `ZMod p` -/

/-- A natural number reduced modulo `p` is the same in `ZMod p`. -/
theorem cast_mod_prime (n : Nat) : ((n % prime : Nat) : ZMod prime) = (n : ZMod prime) := by
  rw [ZMod.natCast_mod]

theorem radix_radixInv_zmod : (radix : ZMod prime) * (radixInv : ZMod prime) = 1 := by
  have h := congrArg (fun n : Nat => (n : ZMod prime)) radix_mul_radixInv
  simpa only [cast_mod_prime, Nat.cast_mul, Nat.cast_one] using h

/-- The residue, in `ZMod p`. -/
theorem residue_zmod (x : Fp) : (residue x : ZMod prime) = (x.toNat : ZMod prime) * (radixInv : ZMod prime) := by
  rw [residue, cast_mod_prime, Nat.cast_mul]

theorem residue_lt (x : Fp) : residue x < prime := Nat.mod_lt _ prime_pos

/-- Two residues are equal where they are equal in `ZMod p`. -/
theorem eq_of_zmod_eq {a b : Nat} (ha : a < prime) (hb : b < prime) (h : (a : ZMod prime) = (b : ZMod prime)) :
    a = b := by
  have := (ZMod.natCast_eq_natCast_iff a b prime).mp h
  rwa [Nat.ModEq, Nat.mod_eq_of_lt ha, Nat.mod_eq_of_lt hb] at this

/-! ### Addition and subtraction (R222, R223) -/

theorem fpAdd_toNat {x y : Fp} (hx : x.toNat < 2 * prime) (hy : y.toNat < 2 * prime) :
    (fpAdd x y).toNat =
      if 2 * prime ≤ x.toNat + y.toNat then x.toNat + y.toNat - 2 * prime else x.toNat + y.toNat := by
  have h4 := four_prime_lt_radix
  have hs : (x + y).toNat = x.toNat + y.toNat := by rw [Fp.toNat_add, Nat.mod_eq_of_lt]; omega
  have hp : (BitVec.ofNat 512 (2 * prime)).toNat = 2 * prime := Fp.toNat_ofNat_lt (by omega)
  unfold fpAdd
  rw [hs]
  split
  · rw [BitVec.toNat_sub_of_le (by rw [BitVec.le_def, hs, hp]; assumption), hs, hp]
  · exact hs

theorem fpSub_toNat {x y : Fp} (hx : x.toNat < 2 * prime) (hy : y.toNat < 2 * prime) :
    (fpSub x y).toNat = if y.toNat ≤ x.toNat then x.toNat - y.toNat else x.toNat + 2 * prime - y.toNat := by
  have h4 := four_prime_lt_radix
  have hp : (BitVec.ofNat 512 (2 * prime)).toNat = 2 * prime := Fp.toNat_ofNat_lt (by omega)
  unfold fpSub
  split
  · rw [BitVec.toNat_sub_of_le (by rwa [BitVec.le_def])]
  · rw [Fp.toNat_add, Fp.toNat_sub, hp, Nat.mod_eq_of_lt (a := radix - _ + _) (by omega),
      Nat.mod_eq_sub_mod (by omega), Nat.mod_eq_of_lt] <;> omega

theorem fpAdd_inRange {x y : Fp} (hx : Fp.inRange x) (hy : Fp.inRange y) : Fp.inRange (fpAdd x y) := by
  unfold Fp.inRange at *
  rw [fpAdd_toNat hx hy]
  split <;> omega

theorem fpSub_inRange {x y : Fp} (hx : Fp.inRange x) (hy : Fp.inRange y) : Fp.inRange (fpSub x y) := by
  unfold Fp.inRange at *
  rw [fpSub_toNat hx hy]
  split <;> omega

theorem prime_zmod : (prime : ZMod prime) = 0 := ZMod.natCast_self prime

/-- `fpAdd` adds residues (R246). -/
theorem fpAdd_zmod {x y : Fp} (hx : Fp.inRange x) (hy : Fp.inRange y) :
    ((fpAdd x y).toNat : ZMod prime) = x.toNat + y.toNat := by
  rw [fpAdd_toNat hx hy]
  split
  · rename_i h
    rw [Nat.cast_sub h]
    push_cast
    rw [prime_zmod]; ring
  · push_cast; rfl

/-- `fpSub` subtracts residues (R246). -/
theorem fpSub_zmod {x y : Fp} (hx : Fp.inRange x) (hy : Fp.inRange y) :
    ((fpSub x y).toNat : ZMod prime) = x.toNat - y.toNat := by
  rw [fpSub_toNat hx hy]
  unfold Fp.inRange at *
  split
  · rename_i h
    rw [Nat.cast_sub h]
  · rw [Nat.cast_sub (by omega)]
    push_cast
    rw [prime_zmod]; ring

/-! ### The Montgomery reduction (R232) -/

/-- The factor `m = (-X·p^(-1)) mod R` of R232. -/
def montFactor (x : Nat) : Nat := x * negPrimeInv % radix

theorem montFactor_lt (x : Nat) : montFactor x < radix := Nat.mod_lt _ radix_pos

/-- `X + m·p` is a multiple of `R` (R232). -/
theorem radix_dvd (x : Nat) : radix ∣ x + montFactor x * prime := by
  have h : (x + montFactor x * prime) ≡ x * (negPrimeInv * prime + 1) [MOD radix] := by
    have h1 : montFactor x ≡ x * negPrimeInv [MOD radix] := Nat.mod_modEq _ _
    have h2 := (h1.mul_right prime).add_left x
    refine h2.trans ?_
    rw [show x * (negPrimeInv * prime + 1) = x + x * negPrimeInv * prime by ring]
  have h3 : radix ∣ x * (negPrimeInv * prime + 1) := (Nat.dvd_of_mod_eq_zero negPrimeInv_law).mul_left x
  exact (h.dvd_iff (dvd_refl radix)).mpr h3

theorem montRdcNat_eq (x : Nat) : montRdcNat x = (x + montFactor x * prime) / radix % radix := rfl

theorem montRdc_toNat (x : FpX2) : (montRdc x).toNat = (x.toNat + montFactor x.toNat * prime) / radix % radix := by
  unfold montRdc
  rw [Fp.toNat_ofNat, montRdcNat_eq, Nat.mod_mod]

/-- Below `R·p` the reduction is exact and its result is below `2p` (R232). -/
theorem montRdc_exact {x : FpX2} (h : x.toNat < prime * radix) :
    (montRdc x).toNat * radix = x.toNat + montFactor x.toNat * prime ∧ (montRdc x).toNat < 2 * prime := by
  have hm := montFactor_lt x.toNat
  have h4 := four_prime_lt_radix
  have hr := radix_pos
  obtain ⟨q, hq⟩ := radix_dvd x.toNat
  have hlt : radix * q < radix * (2 * prime) := by
    rw [← hq]
    have : montFactor x.toNat * prime < radix * prime := (Nat.mul_lt_mul_right prime_pos).mpr hm
    rw [Nat.mul_comm prime radix] at h
    nlinarith
  have hq2 : q < 2 * prime := Nat.lt_of_mul_lt_mul_left hlt
  have hv : (montRdc x).toNat = q := by
    rw [montRdc_toNat, hq, Nat.mul_div_cancel_left _ hr, Nat.mod_eq_of_lt (by omega)]
  exact ⟨by rw [hv, hq, Nat.mul_comm], by rw [hv]; exact hq2⟩

/-- Below `R·p` the reduction multiplies by `R^(-1)` modulo `p` (R232). -/
theorem montRdc_zmod {x : FpX2} (h : x.toNat < prime * radix) :
    ((montRdc x).toNat : ZMod prime) = x.toNat * (radixInv : ZMod prime) := by
  have h1 := congrArg (fun n : Nat => (n : ZMod prime)) (montRdc_exact h).1
  simp only [Nat.cast_mul, Nat.cast_add, prime_zmod, mul_zero, add_zero] at h1
  rw [← h1, mul_assoc, radix_radixInv_zmod, mul_one]

theorem montRdc_inRange {x : FpX2} (h : x.toNat < prime * radix) : Fp.inRange (montRdc x) :=
  (montRdc_exact h).2

theorem fpMul_toNat (x y : Fp) : (fpMul x y).toNat = x.toNat * y.toNat := by
  unfold fpMul
  rw [FpX2.toNat_ofNat, Nat.mod_eq_of_lt]
  exact Nat.mul_lt_mul'' (Fp.toNat_lt x) (Fp.toNat_lt y)

/-- The product of two values in range is below `4p²` (R232). -/
theorem mul_lt_four_sq {a b : Nat} (ha : a < 2 * prime) (hb : b < 2 * prime) : a * b < 4 * (prime * prime) := by
  calc a * b < (2 * prime) * (2 * prime) := Nat.mul_lt_mul'' ha hb
    _ = 4 * (prime * prime) := by ring

/-- The product of two values of which one is below `4p` and the other below `2p` is below `R·p` (R265). -/
theorem mul_lt_of_range {a b : Nat} (ha : a < 4 * prime) (hb : b < 2 * prime) : a * b < prime * radix := by
  have h8 : 8 * prime < radix := by decide +kernel
  have hp := prime_pos
  calc a * b ≤ (4 * prime) * (2 * prime) := Nat.mul_le_mul ha.le hb.le
    _ = prime * (8 * prime) := by ring
    _ < prime * radix := (Nat.mul_lt_mul_left hp).mpr h8

theorem fpMulRdc_inRange {x y : Fp} (hx : Fp.inRange x) (hy : Fp.inRange y) : Fp.inRange (fpMulRdc x y) := by
  refine montRdc_inRange ?_
  rw [fpMul_toNat]
  unfold Fp.inRange at *
  exact mul_lt_of_range (by omega) hy

/-- `fpMulRdc` multiplies residues (R234, R246). -/
theorem fpMulRdc_zmod {x y : Fp} (hx : Fp.inRange x) (hy : Fp.inRange y) :
    ((fpMulRdc x y).toNat : ZMod prime) = x.toNat * y.toNat * (radixInv : ZMod prime) := by
  unfold fpMulRdc
  rw [montRdc_zmod, fpMul_toNat, Nat.cast_mul]
  rw [fpMul_toNat]
  unfold Fp.inRange at *
  exact mul_lt_of_range (by omega) hy

/-! ### Conversions (R243, R244) -/

theorem toMont_law (a : Fp) :
    Fp.inRange (toMont a) ∧ ((toMont a).toNat : ZMod prime) = a.toNat * (radix : ZMod prime) := by
  have hR2 : (BitVec.ofNat 512 montR2).toNat = montR2 := by decide +kernel
  have hlt : montR2 < prime := by decide +kernel
  have h : (fpMul a (BitVec.ofNat 512 montR2)).toNat < prime * radix := by
    rw [fpMul_toNat, hR2, Nat.mul_comm]
    exact Nat.mul_lt_mul'' hlt (Fp.toNat_lt a)
  refine ⟨montRdc_inRange h, ?_⟩
  unfold toMont
  rw [montRdc_zmod h, fpMul_toNat, hR2, Nat.cast_mul, montR2_law, cast_mod_prime, Nat.cast_mul,
    mul_assoc, mul_assoc, radix_radixInv_zmod, mul_one]

/-- `fromMont a` is the canonical residue of `a` (R244). -/
theorem fromMont_toNat (a : Fp) : (fromMont a).toNat = residue a := by
  have hw : (a.setWidth 1024).toNat = a.toNat := by
    rw [BitVec.toNat_setWidth_of_le (by omega)]
  have ha := Fp.toNat_lt a
  have hp := prime_pos
  have h : (a.setWidth 1024).toNat < prime * radix := by
    rw [hw]
    exact ha.trans_le (Nat.le_mul_of_pos_left _ hp)
  have h1 := montRdc_exact h
  have h2 := montRdc_zmod h
  rw [hw] at h1 h2
  have hle : (montRdc (a.setWidth 1024)).toNat ≤ prime := by
    have hm := montFactor_lt a.toNat
    have hx : montFactor a.toNat * prime ≤ (radix - 1) * prime := Nat.mul_le_mul_right _ (by omega)
    have hr := radix_pos
    have : (montRdc (a.setWidth 1024)).toNat * radix < (prime + 1) * radix := by
      rw [h1.1]
      have : (radix - 1) * prime = radix * prime - prime := by rw [Nat.sub_mul, one_mul]
      rw [add_mul, one_mul]
      have h5 : prime ≤ radix * prime := Nat.le_mul_of_pos_left _ hr
      have h6 : prime * radix = radix * prime := Nat.mul_comm _ _
      omega
    have := Nat.lt_of_mul_lt_mul_right this
    omega
  have hpn : (BitVec.ofNat 512 prime).toNat = prime := Fp.toNat_ofNat_lt (by
    have := four_prime_lt_radix
    omega)
  have hval : (fromMont a).toNat = (montRdc (a.setWidth 1024)).toNat % prime := by
    unfold fromMont fpRdcP
    split
    · rename_i hge
      have he : (montRdc (a.setWidth 1024)).toNat = prime := by omega
      rw [BitVec.toNat_sub_of_le (by rw [BitVec.le_def, hpn]; exact hge), hpn, he, Nat.mod_self, Nat.sub_self]
    · rw [Nat.mod_eq_of_lt]; omega
  rw [hval]
  refine eq_of_zmod_eq (Nat.mod_lt _ hp) (residue_lt a) ?_
  rw [cast_mod_prime, h2, residue_zmod]

/-! ### `p34` (R236) -/

/-- Exponentiation by squaring computes the power modulo `p`, where the fuel covers the exponent. -/
theorem powMod_zmod (fuel b e : Nat) (h : e < 2 ^ fuel) :
    ((powMod fuel b e : Nat) : ZMod prime) = (b : ZMod prime) ^ e := by
  induction fuel generalizing b e with
  | zero =>
    have : e = 0 := by simpa using h
    subst this
    simp [powMod]
  | succ n ih =>
    have hlt : e / 2 < 2 ^ n := by rw [pow_succ] at h; omega
    have hb : ((b * b % prime : Nat) : ZMod prime) = (b : ZMod prime) ^ 2 := by
      rw [cast_mod_prime, Nat.cast_mul, sq]
    unfold powMod
    split_ifs with h0 h1
    · subst h0; simp
    · rw [cast_mod_prime, Nat.cast_mul, ih _ _ hlt, hb, ← pow_mul, ← pow_succ']
      congr 1; omega
    · rw [ih _ _ hlt, hb, ← pow_mul]
      congr 1; omega

theorem p34Canon_lt (x : Fp) : p34Canon x < prime := Nat.mod_lt _ prime_pos

theorem p34Canon_zmod (x : Fp) :
    (p34Canon x : ZMod prime) = (residue x : ZMod prime) ^ p34Exponent * (radix : ZMod prime) := by
  unfold p34Canon
  rw [cast_mod_prime, Nat.cast_mul, powMod_zmod]
  decide +kernel

/-- Laws 1 and 2 of R236, in `ZMod p`. -/
theorem p34Impl_law (x : Fp) :
    Fp.inRange (p34Impl x) ∧
      ((p34Impl x).toNat : ZMod prime) = (residue x : ZMod prime) ^ p34Exponent * (radix : ZMod prime) := by
  have hc := p34Canon_lt x
  have h4 := four_prime_lt_radix
  have hv : (p34Impl x).toNat = if Config.p34Upper x then p34Canon x + prime else p34Canon x := by
    unfold p34Impl
    rw [Fp.toNat_ofNat_lt]
    split <;> omega
  unfold Fp.inRange
  rw [hv, ← p34Canon_zmod]
  split
  · refine ⟨by omega, ?_⟩
    rw [Nat.cast_add, prime_zmod, add_zero]
  · exact ⟨by omega, rfl⟩

/-! ### Fp² (R272) -/

/-- The field element of a register value, componentwise in `ZMod p`. -/
theorem Fp2.gf_eq (x : Fp2) :
    x.gf = ⟨(x.re.toNat : ZMod prime) * (radixInv : ZMod prime), (x.im.toNat : ZMod prime) * (radixInv : ZMod prime)⟩ := by
  unfold Fp2.gf
  rw [residue_zmod, residue_zmod]

theorem f2add_inRange {x y : Fp2} (hx : x.inRange) (hy : y.inRange) : (f2add x y).inRange :=
  ⟨fpAdd_inRange hx.1 hy.1, fpAdd_inRange hx.2 hy.2⟩

theorem f2sub_inRange {x y : Fp2} (hx : x.inRange) (hy : y.inRange) : (f2sub x y).inRange :=
  ⟨fpSub_inRange hx.1 hy.1, fpSub_inRange hx.2 hy.2⟩

theorem f2add_gf {x y : Fp2} (hx : x.inRange) (hy : y.inRange) : (f2add x y).gf = x.gf + y.gf := by
  rw [Fp2.gf_eq, Fp2.gf_eq, Fp2.gf_eq]
  ext
  · simp only [f2add, QuadraticAlgebra.re_add, fpAdd_zmod hx.1 hy.1]; ring
  · simp only [f2add, QuadraticAlgebra.im_add, fpAdd_zmod hx.2 hy.2]; ring

theorem f2sub_gf {x y : Fp2} (hx : x.inRange) (hy : y.inRange) : (f2sub x y).gf = x.gf - y.gf := by
  rw [Fp2.gf_eq, Fp2.gf_eq, Fp2.gf_eq]
  ext
  · simp only [f2sub, QuadraticAlgebra.re_sub, fpSub_zmod hx.1 hy.1]; ring
  · simp only [f2sub, QuadraticAlgebra.im_sub, fpSub_zmod hx.2 hy.2]; ring

/-- The two double-width values `f2mul` reduces: their sizes, and what they are modulo `p` (R263). -/
theorem f2mul_inputs {x y : Fp2} (hx : x.inRange) (hy : y.inRange) :
    ∃ im re : FpX2, f2mul x y = ⟨montRdc re, montRdc im⟩ ∧
      im.toNat < prime * radix ∧ re.toNat < prime * radix ∧
      (im.toNat : ZMod prime) = x.re.toNat * y.im.toNat + x.im.toNat * y.re.toNat ∧
      (re.toNat : ZMod prime) = x.re.toNat * y.re.toNat - x.im.toNat * y.im.toNat := by
  have hp := prime_pos
  have hbig := prime_mul_radix_lt
  have hs1 := fpSub_inRange hx.2 hx.1
  have hs2 := fpSub_inRange hy.1 hy.2
  have hz1 := fpSub_zmod hx.2 hx.1
  have hz2 := fpSub_zmod hy.1 hy.2
  unfold Fp.inRange at hs1 hs2
  obtain ⟨hx1, hx2⟩ := hx
  obtain ⟨hy1, hy2⟩ := hy
  have hac : (fpMul x.re y.re).toNat < 4 * (prime * prime) := by
    rw [fpMul_toNat]; exact mul_lt_four_sq hx1 hy1
  have hbd : (fpMul x.im y.im).toNat < 4 * (prime * prime) := by
    rw [fpMul_toNat]; exact mul_lt_four_sq hx2 hy2
  have ht : (fpMul (fpSub x.im x.re) (fpSub y.re y.im)).toNat < 4 * (prime * prime) := by
    rw [fpMul_toNat]; exact mul_lt_four_sq hs1 hs2
  have h12p := twelve_sq_lt
  have hzt : ((fpMul (fpSub x.im x.re) (fpSub y.re y.im)).toNat : ZMod prime) =
      (x.im.toNat - x.re.toNat) * (y.re.toNat - y.im.toNat) := by
    rw [fpMul_toNat, Nat.cast_mul, hz1, hz2]
  have hzac : ((fpMul x.re y.re).toNat : ZMod prime) = x.re.toNat * y.re.toNat := by
    rw [fpMul_toNat, Nat.cast_mul]
  have hzbd : ((fpMul x.im y.im).toNat : ZMod prime) = x.im.toNat * y.im.toNat := by
    rw [fpMul_toNat, Nat.cast_mul]
  have hk : (BitVec.ofNat 1024 (prime * radix)).toNat = prime * radix := by
    rw [FpX2.toNat_ofNat, Nat.mod_eq_of_lt hbig]
  unfold f2mul
  dsimp only
  generalize fpMul (fpSub x.im x.re) (fpSub y.re y.im) = tt at *
  generalize fpMul x.re y.re = ac at *
  generalize fpMul x.im y.im = bd at *
  generalize BitVec.ofNat 1024 (prime * radix) = k at *
  have him : (tt + ac + bd).toNat = tt.toNat + ac.toNat + bd.toNat := by
    rw [FpX2.toNat_add, FpX2.toNat_add, Nat.mod_eq_of_lt (a := tt.toNat + ac.toNat) (by omega),
      Nat.mod_eq_of_lt (by omega)]
  refine ⟨tt + ac + bd, if bd.toNat ≤ ac.toNat then ac - bd else ac - bd + k, ?_, by omega, ?_, ?_, ?_⟩
  · split <;> rfl
  · split
    · rename_i h
      rw [BitVec.toNat_sub_of_le (by rwa [BitVec.le_def])]; omega
    · rw [FpX2.toNat_add, FpX2.toNat_sub, hk, Nat.mod_eq_of_lt (a := radix * radix - _ + _) (by omega),
        Nat.mod_eq_sub_mod (by omega), Nat.mod_eq_of_lt] <;> omega
  · rw [him, Nat.cast_add, Nat.cast_add, hzt, hzac, hzbd]; ring
  · split
    · rename_i h
      rw [BitVec.toNat_sub_of_le (by rwa [BitVec.le_def]), Nat.cast_sub h, hzac, hzbd]
    · rename_i h
      have hv : (ac - bd + k).toNat = ac.toNat + prime * radix - bd.toNat := by
        rw [FpX2.toNat_add, FpX2.toNat_sub, hk, Nat.mod_eq_of_lt (a := radix * radix - _ + _) (by omega),
          Nat.mod_eq_sub_mod (by omega), Nat.mod_eq_of_lt] <;> omega
      rw [hv, Nat.cast_sub (by omega), Nat.cast_add, Nat.cast_mul, prime_zmod, hzac, hzbd]; ring

theorem f2mul_inRange {x y : Fp2} (hx : x.inRange) (hy : y.inRange) : (f2mul x y).inRange := by
  obtain ⟨im, re, h, him, hre, -⟩ := f2mul_inputs hx hy
  rw [h]
  exact ⟨montRdc_inRange hre, montRdc_inRange him⟩

theorem f2mul_gf {x y : Fp2} (hx : x.inRange) (hy : y.inRange) : (f2mul x y).gf = x.gf * y.gf := by
  obtain ⟨im, re, h, him, hre, hzi, hzr⟩ := f2mul_inputs hx hy
  rw [h, Fp2.gf_eq, Fp2.gf_eq, Fp2.gf_eq]
  ext
  · simp only [QuadraticAlgebra.re_mul, montRdc_zmod hre, hzr]; ring
  · simp only [QuadraticAlgebra.im_mul, montRdc_zmod him, hzi]; ring

theorem lazyAdd_toNat {x y : Fp} (hx : Fp.inRange x) (hy : Fp.inRange y) :
    (lazyAdd x y).toNat = x.toNat + y.toNat := by
  have h4 := four_prime_lt_radix
  unfold Fp.inRange at *
  unfold lazyAdd
  rw [Fp.toNat_add, Nat.mod_eq_of_lt]; omega

theorem f2sqr_inRange {x : Fp2} (hx : x.inRange) : (f2sqr x).inRange := by
  have h1 := lazyAdd_toNat hx.1 hx.2
  have h3 := lazyAdd_toNat hx.1 hx.1
  have h2 := fpSub_inRange hx.1 hx.2
  obtain ⟨ha, hb⟩ := hx
  refine ⟨montRdc_inRange ?_, montRdc_inRange ?_⟩
  · rw [fpMul_toNat, h1]; exact mul_lt_of_range (by omega) h2
  · rw [fpMul_toNat, h3]; exact mul_lt_of_range (by omega) hb

theorem f2sqr_gf {x : Fp2} (hx : x.inRange) : (f2sqr x).gf = x.gf * x.gf := by
  have h1 := lazyAdd_toNat hx.1 hx.2
  have h3 := lazyAdd_toNat hx.1 hx.1
  have h2 := fpSub_inRange hx.1 hx.2
  have hz := fpSub_zmod hx.1 hx.2
  obtain ⟨ha, hb⟩ := hx
  have hr : (fpMul (lazyAdd x.re x.im) (fpSub x.re x.im)).toNat < prime * radix := by
    rw [fpMul_toNat, h1]; exact mul_lt_of_range (by omega) h2
  have hi : (fpMul (lazyAdd x.re x.re) x.im).toNat < prime * radix := by
    rw [fpMul_toNat, h3]; exact mul_lt_of_range (by omega) hb
  rw [Fp2.gf_eq, Fp2.gf_eq]
  unfold f2sqr
  ext
  · simp only [QuadraticAlgebra.re_mul, montRdc_zmod hr, fpMul_toNat, h1, Nat.cast_mul, Nat.cast_add, hz]; ring
  · simp only [QuadraticAlgebra.im_mul, montRdc_zmod hi, fpMul_toNat, h3, Nat.cast_mul, Nat.cast_add]; ring

theorem one2_inRange : one2.inRange := by
  unfold Fp2.inRange
  decide +kernel

theorem one2_gf : one2.gf = 1 := by
  have h1 : residue one2.re = 1 := by decide +kernel
  have h2 : residue one2.im = 0 := by decide +kernel
  unfold Fp2.gf
  rw [h1, h2]
  ext
  · rw [Nat.cast_one]; rfl
  · rw [Nat.cast_zero]; rfl

/-- The intermediate values of `f2inv` (R267): the norm and its inverse, in range and as residues. -/
theorem f2inv_law {x : Fp2} (hx : x.inRange) : (f2inv x).inRange ∧ (f2inv x).gf = gfInv x.gf := by
  have hp := prime_pos
  have hbig := prime_mul_radix_lt
  have hz0 : Fp.inRange (0 : Fp) := by unfold Fp.inRange; decide +kernel
  obtain ⟨ha, hb⟩ := hx
  have hsq1 := mul_lt_four_sq ha ha
  have hsq2 := mul_lt_four_sq hb hb
  have h12p := twelve_sq_lt
  have hn0 : (fpMul x.re x.re + fpMul x.im x.im).toNat = x.re.toNat * x.re.toNat + x.im.toNat * x.im.toNat := by
    rw [FpX2.toNat_add, fpMul_toNat, fpMul_toNat, Nat.mod_eq_of_lt]; omega
  have hn1 : (fpMul x.re x.re + fpMul x.im x.im).toNat < prime * radix := by rw [hn0]; omega
  have hn := montRdc_inRange hn1
  have hnz := montRdc_zmod hn1
  rw [hn0, Nat.cast_add, Nat.cast_mul, Nat.cast_mul] at hnz
  unfold f2inv
  dsimp only
  generalize montRdc (fpMul x.re x.re + fpMul x.im x.im) = n at *
  have h1 := fpMulRdc_inRange hn hn
  have h1z := fpMulRdc_zmod hn hn
  have h2 := p34Impl_law (fpMulRdc n n)
  rw [residue_zmod, h1z] at h2
  generalize p34Impl (fpMulRdc n n) = q at *
  have h3 := fpMulRdc_inRange h2.1 h2.1
  have h3z := fpMulRdc_zmod h2.1 h2.1
  generalize fpMulRdc q q = q2 at *
  have h4 := fpMulRdc_inRange h3 hn
  have h4z := fpMulRdc_zmod h3 hn
  generalize fpMulRdc q2 n = t at *
  have h5 := fpSub_inRange hz0 hb
  have h5z := fpSub_zmod hz0 hb
  generalize fpSub 0 x.im = mb at *
  have ht : (t.toNat : ZMod prime) * radixInv =
      ((x.re.toNat * radixInv : ZMod prime) ^ 2 + (x.im.toNat * radixInv) ^ 2) ^ (prime - 2) := by
    have he : prime - 2 = 4 * p34Exponent + 1 := by decide +kernel
    rw [h4z, h3z, h2.2, hnz, he]
    have hr := radix_radixInv_zmod
    generalize (radix : ZMod prime) = r at *
    generalize (radixInv : ZMod prime) = ri at *
    generalize (x.re.toNat : ZMod prime) = a at *
    generalize (x.im.toNat : ZMod prime) = b at *
    have hsq : (a * a + b * b) * ri * ((a * a + b * b) * ri) * ri * ri = ((a * ri) ^ 2 + (b * ri) ^ 2) ^ 2 := by ring
    have hexp : ((a * ri) ^ 2 + (b * ri) ^ 2) ^ (4 * p34Exponent + 1) =
        (((a * ri) ^ 2 + (b * ri) ^ 2) ^ 2) ^ p34Exponent * (((a * ri) ^ 2 + (b * ri) ^ 2) ^ 2) ^ p34Exponent *
          ((a * ri) ^ 2 + (b * ri) ^ 2) := by
      rw [← pow_mul, ← pow_add, ← pow_succ]
      congr 1
    rw [hsq, hexp]
    generalize (((a * ri) ^ 2 + (b * ri) ^ 2) ^ 2) ^ p34Exponent = w
    linear_combination ((a * a + b * b) * ri ^ 2 * w * w * (r * ri + 1)) * hr
  refine ⟨⟨fpMulRdc_inRange ha h4, fpMulRdc_inRange h5 h4⟩, ?_⟩
  rw [Fp2.gf_eq, Fp2.gf_eq]
  have hre : ((montRdc (fpMul x.re t)).toNat : ZMod prime) = x.re.toNat * t.toNat * radixInv := fpMulRdc_zmod ha h4
  have him : ((montRdc (fpMul mb t)).toNat : ZMod prime) = mb.toNat * t.toNat * radixInv := fpMulRdc_zmod h5 h4
  unfold gfInv
  dsimp only
  have h0 : ((0 : Fp).toNat : ZMod prime) = 0 := by
    rw [show (0 : Fp).toNat = 0 by decide +kernel, Nat.cast_zero]
  rw [← ht, hre, him, h5z, h0]
  ext <;> dsimp only <;> ring

theorem f2inv_inRange {x : Fp2} (hx : x.inRange) : (f2inv x).inRange := (f2inv_law hx).1

theorem f2inv_gf {x : Fp2} (hx : x.inRange) : (f2inv x).gf = gfInv x.gf := (f2inv_law hx).2

end Sys2Proof.Machine
end

