-- ==== Sys2Proof/Laws/Memory.lean ====
section
/-! SUPPORT. The laws of `BUF`: reading after writing, and the canonical form every operation keeps. -/

namespace Sys2Proof.Machine

/-! ### The canonical form -/

theorem Memory.wf_iff (m : Memory) :
    Memory.wf m = true ↔ m.Pairwise (fun x y => x.1 < y.1) ∧ ∀ x ∈ m, x.1 < 2048 ∧ x.2 ≠ 0 := by
  simp [Memory.wf]

theorem Memory.wf_nil : Memory.wf [] = true := rfl

theorem Memory.wf_cons (k : Nat) (b : Byte) (m : Memory) :
    Memory.wf ((k, b) :: m) = true ↔ (∀ x ∈ m, k < x.1) ∧ k < 2048 ∧ b ≠ 0 ∧ Memory.wf m = true := by
  simp only [Memory.wf_iff, List.pairwise_cons, List.mem_cons, forall_eq_or_imp]
  tauto

/-- Every cell of a written memory is an old one or the one written. -/
theorem Memory.mem_write {m : Memory} {a : Nat} {v : Byte} {x : Host.Cell} :
    x ∈ Memory.write m a v → x ∈ m ∨ (x = (a, v) ∧ v ≠ 0) := by
  induction m with
  | nil => unfold Memory.write; split <;> simp_all
  | cons c m ih =>
    obtain ⟨k, b⟩ := c
    unfold Memory.write
    split_ifs <;> simp only [List.mem_cons] <;> (try tauto)

/-- A write inside `BUF` keeps the canonical form. -/
theorem Memory.wf_write {m : Memory} {a : Nat} (v : Byte) (ha : a < 2048) (h : Memory.wf m = true) :
    Memory.wf (Memory.write m a v) = true := by
  induction m with
  | nil => unfold Memory.write; split <;> simp_all [Memory.wf]
  | cons c m ih =>
    obtain ⟨k, b⟩ := c
    obtain ⟨hlt, hk, hb, hm⟩ := (Memory.wf_cons k b m).mp h
    unfold Memory.write
    split_ifs with h1 h2 h2 h3
    · exact h
    · refine (Memory.wf_cons _ _ _).mpr ⟨?_, ha, h2, h⟩
      intro x hx
      rcases List.mem_cons.mp hx with rfl | hx
      · exact h1
      · exact h1.trans (hlt x hx)
    · exact hm
    · subst h2
      exact (Memory.wf_cons _ _ _).mpr ⟨hlt, hk, h3, hm⟩
    · refine (Memory.wf_cons _ _ _).mpr ⟨?_, hk, hb, ih hm⟩
      intro x hx
      rcases Memory.mem_write hx with hx | ⟨rfl, -⟩
      · exact hlt x hx
      · show k < a; omega

/-- Writing bytes inside `BUF` keeps the canonical form. -/
theorem Memory.wf_writeBytes {m : Memory} {off : Nat} (bs : List Byte) (h : off + bs.length ≤ 2048)
    (hm : Memory.wf m = true) : Memory.wf (Memory.writeBytes m off bs) = true := by
  induction bs generalizing m off with
  | nil => exact hm
  | cons b bs ih =>
    simp only [List.length_cons] at h
    exact ih (by omega) (Memory.wf_write b (by omega) hm)

/-! ### Reading after writing -/

/-- A write leaves every other offset, in any memory. -/
theorem Memory.read_write_ne {m : Memory} {a x : Nat} (v : Byte) (h : x ≠ a) :
    Memory.read (Memory.write m a v) x = Memory.read m x := by
  induction m with
  | nil => unfold Memory.write; split <;> simp [Memory.read, Ne.symm h]
  | cons c m ih =>
    obtain ⟨k, b⟩ := c
    unfold Memory.write
    split_ifs with h1 h2 h2 h3
    · rfl
    · simp [Memory.read, Ne.symm h]
    · subst h2; simp [Memory.read, Ne.symm h]
    · subst h2; simp [Memory.read, Ne.symm h]
    · simp only [Memory.read, ih]

/-- An offset below every listed one reads 0. -/
theorem Memory.read_of_lt {m : Memory} {a : Nat} (h : ∀ x ∈ m, a < x.1) : Memory.read m a = 0 := by
  induction m with
  | nil => rfl
  | cons c m ih =>
    obtain ⟨k, b⟩ := c
    simp only [List.mem_cons, forall_eq_or_imp] at h
    have hk : ¬k = a := by omega
    simp only [Memory.read, hk, if_false]
    exact ih h.2

/-- In canonical form the byte written is the byte read. -/
theorem Memory.read_write_self {m : Memory} {a : Nat} (v : Byte) (h : Memory.wf m = true) :
    Memory.read (Memory.write m a v) a = v := by
  induction m with
  | nil => unfold Memory.write; split <;> simp_all [Memory.read]
  | cons c m ih =>
    obtain ⟨k, b⟩ := c
    obtain ⟨hlt, hk, hb, hm⟩ := (Memory.wf_cons k b m).mp h
    unfold Memory.write
    split_ifs with h1 h2 h2 h3
    · subst h2
      refine Memory.read_of_lt fun x hx => ?_
      rcases List.mem_cons.mp hx with rfl | hx
      · exact h1
      · exact h1.trans (hlt x hx)
    · simp [Memory.read]
    · subst h2; subst h3
      exact Memory.read_of_lt hlt
    · simp [Memory.read]
    · have : ¬k = a := by omega
      simp only [Memory.read, this, if_false]
      exact ih hm

/-- Writing bytes leaves every offset outside them, in any memory. -/
theorem Memory.read_writeBytes_outside {m : Memory} {off : Nat} {bs : List Byte} {x : Nat}
    (h : x < off ∨ off + bs.length ≤ x) : Memory.read (Memory.writeBytes m off bs) x = Memory.read m x := by
  induction bs generalizing m off with
  | nil => rfl
  | cons b bs ih =>
    simp only [List.length_cons] at h
    rw [Memory.writeBytes, ih (by omega), Memory.read_write_ne _ (by omega)]

/-- In canonical form the bytes written are the bytes read. -/
theorem Memory.read_writeBytes_inside {m : Memory} {off : Nat} {bs : List Byte} {i : Nat}
    (hm : Memory.wf m = true) (hb : off + bs.length ≤ 2048) (hi : i < bs.length) :
    Memory.read (Memory.writeBytes m off bs) (off + i) = bs[i] := by
  induction bs generalizing m off i with
  | nil => simp at hi
  | cons b bs ih =>
    simp only [List.length_cons] at hb hi
    rw [Memory.writeBytes]
    match i with
    | 0 =>
      rw [Memory.read_writeBytes_outside (by omega)]
      exact Memory.read_write_self b hm
    | i + 1 =>
      have := ih (m := Memory.write m off b) (off := off + 1) (i := i)
        (Memory.wf_write b (by omega) hm) (by omega) (by omega)
      rw [show off + (i + 1) = off + 1 + i by omega, this]
      rfl

@[simp] theorem Memory.length_readBytes (m : Memory) (off n : Nat) : (Memory.readBytes m off n).length = n := by
  simp [Memory.readBytes]

/-- In canonical form `BufRead` after `BufWrite` of the same range gives the bytes written (R13). -/
theorem Memory.readBytes_writeBytes {m : Memory} {off : Nat} {bs : List Byte} (hm : Memory.wf m = true)
    (hb : off + bs.length ≤ 2048) : Memory.readBytes (Memory.writeBytes m off bs) off bs.length = bs := by
  apply List.ext_getElem
  · simp
  · intro i h1 h2
    simp only [Memory.readBytes, List.getElem_map, List.getElem_range]
    exact Memory.read_writeBytes_inside hm hb h2

/-- `BufRead` of a range disjoint from the bytes written gives what it gave before. -/
theorem Memory.readBytes_writeBytes_disjoint {m : Memory} {off off' n : Nat} {bs : List Byte}
    (h : off' + n ≤ off ∨ off + bs.length ≤ off') :
    Memory.readBytes (Memory.writeBytes m off bs) off' n = Memory.readBytes m off' n := by
  simp only [Memory.readBytes]
  refine List.map_congr_left fun i hi => ?_
  have := List.mem_range.mp hi
  exact Memory.read_writeBytes_outside (by omega)

/-- Two canonical memories that read the same are the same data. -/
theorem Memory.ext_of_wf {m₁ m₂ : Memory} (h₁ : Memory.wf m₁ = true) (h₂ : Memory.wf m₂ = true)
    (h : ∀ a, Memory.read m₁ a = Memory.read m₂ a) : m₁ = m₂ := by
  induction m₁ generalizing m₂ with
  | nil =>
    cases m₂ with
    | nil => rfl
    | cons c m =>
      obtain ⟨k, b⟩ := c
      obtain ⟨-, -, hb, -⟩ := (Memory.wf_cons k b m).mp h₂
      exact absurd (by simpa [Memory.read] using (h k).symm) hb
  | cons c m ih =>
    obtain ⟨k, b⟩ := c
    obtain ⟨hlt, hk, hb, hm⟩ := (Memory.wf_cons k b m).mp h₁
    cases m₂ with
    | nil => exact absurd (by simpa [Memory.read] using h k) hb
    | cons c' m' =>
      obtain ⟨k', b'⟩ := c'
      obtain ⟨hlt', hk', hb', hm'⟩ := (Memory.wf_cons k' b' m').mp h₂
      have hkk : k = k' := by
        by_contra hne
        rcases Nat.lt_or_gt_of_ne hne with hl | hl
        · have := h k
          have h0 : Memory.read ((k', b') :: m') k = 0 := Memory.read_of_lt fun x hx => by
            rcases List.mem_cons.mp hx with rfl | hx
            · exact hl
            · exact hl.trans (hlt' x hx)
          rw [h0] at this
          exact hb (by simpa [Memory.read] using this)
        · have := h k'
          have h0 : Memory.read ((k, b) :: m) k' = 0 := Memory.read_of_lt fun x hx => by
            rcases List.mem_cons.mp hx with rfl | hx
            · exact hl
            · exact Nat.lt_trans hl (hlt x hx)
          rw [h0] at this
          exact hb' (by simpa [Memory.read] using this.symm)
      subst hkk
      have hbb : b = b' := by simpa [Memory.read] using h k
      subst hbb
      congr 1
      refine ih hm hm' fun a => ?_
      by_cases ha : k = a
      · subst ha
        rw [Memory.read_of_lt hlt, Memory.read_of_lt hlt']
      · simpa [Memory.read, ha] using h a

end Sys2Proof.Machine
end

