-- ==== Sys2Proof/Laws/Keys.lean ====
section
/-! SUPPORT. Byte strings and their numbers (R12), and the lengths of what the wire formats and the KEM's
procedures make (R490 to R493, R452). -/

namespace Sys2Proof.Machine

/-! ### Bytes and numbers -/

@[simp] theorem length_bytesLE (v n : Nat) : (bytesLE v n).length = n := by
  induction n generalizing v with
  | zero => rfl
  | succ n ih => simp [bytesLE, ih]

/-- A byte string's number is below `256^length`. -/
theorem intLE_lt (b : List Byte) : intLE b < 256 ^ b.length := by
  induction b with
  | nil => simp [intLE]
  | cons x xs ih =>
    have hx : x.toNat < 256 := x.isLt
    simp only [intLE, List.length_cons, pow_succ]
    omega

/-- The number of the `n` low bytes of `v` is `v` modulo `256^n`. -/
theorem intLE_bytesLE (v n : Nat) : intLE (bytesLE v n) = v % 256 ^ n := by
  induction n generalizing v with
  | zero => simp [bytesLE, intLE, Nat.mod_one]
  | succ n ih =>
    simp only [bytesLE, intLE, ih, BitVec.toNat_ofNat]
    rw [show (256 : Nat) ^ (n + 1) = 2 ^ 8 * 256 ^ n by rw [pow_succ]; omega, Nat.mod_mul]
    rfl

/-- Byte `j` of the bytes of a number. -/
theorem getElem_bytesLE (v n j : Nat) (h : j < (bytesLE v n).length) :
    ((bytesLE v n)[j]).toNat = v / 2 ^ (8 * j) % 2 ^ 8 := by
  induction n generalizing v j with
  | zero => simp at h
  | succ n ih =>
    cases j with
    | zero => simp [bytesLE]
    | succ j =>
      simp only [bytesLE, List.getElem_cons_succ]
      rw [ih, Nat.div_div_eq_div_mul, show (2 : Nat) ^ (8 * (j + 1)) = 256 * 2 ^ (8 * j) by
        rw [Nat.mul_add, pow_add]; omega]

/-- The number of two byte strings one after the other. -/
theorem intLE_append (a b : List Byte) : intLE (a ++ b) = intLE a + 256 ^ a.length * intLE b := by
  induction a with
  | nil => simp [intLE]
  | cons x xs ih => simp only [List.cons_append, intLE, ih, List.length_cons, pow_succ]; ring

/-! ### Parts of byte strings -/

@[simp] theorem length_slice (b : List Byte) (i j : Nat) : (slice b i j).length = min (j - i) (b.length - i) := by
  simp [slice]

/-- A part of the bytes read from `BUF` is the bytes read from there. -/
theorem slice_readBytes (m : Memory) (off n i j : Nat) (h : j ≤ n) (hij : i ≤ j) :
    slice (Memory.readBytes m off n) i j = Memory.readBytes m (off + i) (j - i) := by
  apply List.ext_getElem
  · simp; omega
  · intro k h1 h2
    simp [slice, Memory.readBytes, Nat.add_assoc]

/-- What is left of the first part is the second. -/
theorem slice_append_right (a b : List Byte) (n : Nat) (h : b.length = n) :
    slice (a ++ b) a.length (a.length + n) = b := by
  subst h
  simp [slice]

theorem slice_append_left (a b : List Byte) (i j : Nat) (h : j ≤ a.length) : slice (a ++ b) i j = slice a i j := by
  by_cases hij : i ≤ a.length
  · simp only [slice, List.drop_append_of_le_length hij]
    rw [List.take_append_of_le_length (by simp; omega)]
  · simp only [slice, show j - i = 0 by omega, List.take_zero]

theorem slice_all (a : List Byte) (n : Nat) (h : a.length = n) : slice a 0 n = a := by
  subst h; simp [slice]

/-- Packing the bytes of a vector gives it back. -/
theorem pack_toList {n : Nat} (v : Vector Byte n) : pack n v.toList = v := by
  apply Vector.ext
  intro i hi
  simp [pack, List.getD_eq_getElem?_getD]

/-- Packing keeps a string of the right length. -/
theorem toList_pack {n : Nat} {b : List Byte} (h : b.length = n) : (pack n b).toList = b := by
  subst h
  apply List.ext_getElem
  · simp
  · intro i h1 h2
    simp [pack]

/-! ### Lengths -/

@[simp] theorem length_residueWire (r : Residue2) : (residueWire r).length = 126 := by
  simp [residueWire, bytelen]

@[simp] theorem length_pkWire (k : PkSlot) : (pkWire k).length = 378 := by simp [pkWire]

@[simp] theorem length_f2Wire (x : Fp2) : (f2Wire x).length = 126 := by simp [f2Wire, bytelen]

@[simp] theorem length_skWire (k : SkSlot) : (skWire k).length = skSize k.variant := by
  unfold skWire skSize; split <;> simp

@[simp] theorem length_deriveSecret (v : Variant) (sc : List Byte) (pk : PkSlot) :
    (deriveSecret v sc pk).length = 126 := by
  unfold deriveSecret deriveSecretOn; split <;> simp

theorem length_hashMac {n : Nat} (h : n ≤ 32) (key : List Byte) (name : HashName) : (hashMac n key name).length = n := by
  simp [hashMac, h]

/-- A ciphertext has the public key's 378 bytes and the message's (R452). -/
theorem length_encryptCore (scA : List Byte) (pkA pkB : PkSlot) {m : List Byte} (h : m.length = 24) :
    (encryptCore scA pkA pkB m).length = 402 := by
  simp [encryptCore, xorBytes, length_hashMac, h]

/-- A message recovered from a ciphertext has 24 bytes (R453). -/
theorem length_decryptCore (k : SkSlot) {c : List Byte} (h : c.length = 402) : (decryptCore k c).length = 24 := by
  simp [decryptCore, xorBytes, length_hashMac, h]

theorem length_encapsulateCore_fst (q : PkSlot) {m : List Byte} (h : m.length = 24) :
    (encapsulateCore q m).1.length = 402 := length_encryptCore _ _ _ h

theorem length_encapsulateCore_snd (q : PkSlot) (m : List Byte) : (encapsulateCore q m).2.length = 16 :=
  length_hashMac (by decide) _ _

theorem length_decapsulateCore (k : SkSlot) (q : PkSlot) (c : List Byte) : (decapsulateCore k q c).length = 16 :=
  length_hashMac (by decide) _ _

end Sys2Proof.Machine
end

