-- ==== Sys2Proof/Laws/State.lean ====
section
/-! SUPPORT. What each update of a state does to each field, and to each register read: one lemma per field per
update. -/

namespace Sys2Proof.Machine

variable (s : State)

/-! ### `writeE` -/

@[simp] theorem State.writeE_e (n : Nat) (v : Fp) : (s.writeE n v).e = s.e.setIfInBounds n v := rfl
@[simp] theorem State.writeE_d (n : Nat) (v : Fp) : (s.writeE n v).d = s.d := rfl
@[simp] theorem State.writeE_g (n : Nat) (v : Fp) : (s.writeE n v).g = s.g := rfl
@[simp] theorem State.writeE_c (n : Nat) (v : Fp) : (s.writeE n v).c = s.c := rfl
@[simp] theorem State.writeE_cmd (n : Nat) (v : Fp) : (s.writeE n v).cmd = s.cmd := rfl
@[simp] theorem State.writeE_busy (n : Nat) (v : Fp) : (s.writeE n v).busy = s.busy := rfl
@[simp] theorem State.writeE_done (n : Nat) (v : Fp) : (s.writeE n v).done = s.done := rfl
@[simp] theorem State.writeE_err (n : Nat) (v : Fp) : (s.writeE n v).err = s.err := rfl
@[simp] theorem State.writeE_errcode (n : Nat) (v : Fp) : (s.writeE n v).errcode = s.errcode := rfl
@[simp] theorem State.writeE_ovr (n : Nat) (v : Fp) : (s.writeE n v).ovr = s.ovr := rfl
@[simp] theorem State.writeE_ie (n : Nat) (v : Fp) : (s.writeE n v).ie = s.ie := rfl
@[simp] theorem State.writeE_doneP (n : Nat) (v : Fp) : (s.writeE n v).doneP = s.doneP := rfl
@[simp] theorem State.writeE_iso4 (n : Nat) (v : Fp) : (s.writeE n v).iso4 = s.iso4 := rfl
@[simp] theorem State.writeE_iso3 (n : Nat) (v : Fp) : (s.writeE n v).iso3 = s.iso3 := rfl
@[simp] theorem State.writeE_sk (n : Nat) (v : Fp) : (s.writeE n v).sk = s.sk := rfl
@[simp] theorem State.writeE_pk (n : Nat) (v : Fp) : (s.writeE n v).pk = s.pk := rfl
@[simp] theorem State.writeE_buf (n : Nat) (v : Fp) : (s.writeE n v).buf = s.buf := rfl
@[simp] theorem State.writeE_rng (n : Nat) (v : Fp) : (s.writeE n v).rng = s.rng := rfl
@[simp] theorem State.writeE_inputs (n : Nat) (v : Fp) : (s.writeE n v).inputs = s.inputs := rfl
@[simp] theorem State.writeE_rdata (n : Nat) (v : Fp) : (s.writeE n v).rdata = s.rdata := rfl
@[simp] theorem State.writeE_draws (n : Nat) (v : Fp) : (s.writeE n v).draws = s.draws := rfl

/-! ### `writeD` -/

@[simp] theorem State.writeD_e (n : Nat) (v : FpX2) : (s.writeD n v).e = s.e := rfl
@[simp] theorem State.writeD_d (n : Nat) (v : FpX2) : (s.writeD n v).d = s.d.setIfInBounds n v := rfl
@[simp] theorem State.writeD_g (n : Nat) (v : FpX2) : (s.writeD n v).g = s.g := rfl
@[simp] theorem State.writeD_c (n : Nat) (v : FpX2) : (s.writeD n v).c = s.c := rfl
@[simp] theorem State.writeD_cmd (n : Nat) (v : FpX2) : (s.writeD n v).cmd = s.cmd := rfl
@[simp] theorem State.writeD_busy (n : Nat) (v : FpX2) : (s.writeD n v).busy = s.busy := rfl
@[simp] theorem State.writeD_done (n : Nat) (v : FpX2) : (s.writeD n v).done = s.done := rfl
@[simp] theorem State.writeD_err (n : Nat) (v : FpX2) : (s.writeD n v).err = s.err := rfl
@[simp] theorem State.writeD_errcode (n : Nat) (v : FpX2) : (s.writeD n v).errcode = s.errcode := rfl
@[simp] theorem State.writeD_ovr (n : Nat) (v : FpX2) : (s.writeD n v).ovr = s.ovr := rfl
@[simp] theorem State.writeD_ie (n : Nat) (v : FpX2) : (s.writeD n v).ie = s.ie := rfl
@[simp] theorem State.writeD_doneP (n : Nat) (v : FpX2) : (s.writeD n v).doneP = s.doneP := rfl
@[simp] theorem State.writeD_iso4 (n : Nat) (v : FpX2) : (s.writeD n v).iso4 = s.iso4 := rfl
@[simp] theorem State.writeD_iso3 (n : Nat) (v : FpX2) : (s.writeD n v).iso3 = s.iso3 := rfl
@[simp] theorem State.writeD_sk (n : Nat) (v : FpX2) : (s.writeD n v).sk = s.sk := rfl
@[simp] theorem State.writeD_pk (n : Nat) (v : FpX2) : (s.writeD n v).pk = s.pk := rfl
@[simp] theorem State.writeD_buf (n : Nat) (v : FpX2) : (s.writeD n v).buf = s.buf := rfl
@[simp] theorem State.writeD_rng (n : Nat) (v : FpX2) : (s.writeD n v).rng = s.rng := rfl
@[simp] theorem State.writeD_inputs (n : Nat) (v : FpX2) : (s.writeD n v).inputs = s.inputs := rfl
@[simp] theorem State.writeD_rdata (n : Nat) (v : FpX2) : (s.writeD n v).rdata = s.rdata := rfl
@[simp] theorem State.writeD_draws (n : Nat) (v : FpX2) : (s.writeD n v).draws = s.draws := rfl

/-! ### `writeG` -/

@[simp] theorem State.writeG_e (n : Nat) (v : Limb) : (s.writeG n v).e = s.e := rfl
@[simp] theorem State.writeG_d (n : Nat) (v : Limb) : (s.writeG n v).d = s.d := rfl
@[simp] theorem State.writeG_g (n : Nat) (v : Limb) : (s.writeG n v).g = s.g.setIfInBounds n v := rfl
@[simp] theorem State.writeG_c (n : Nat) (v : Limb) : (s.writeG n v).c = s.c := rfl
@[simp] theorem State.writeG_cmd (n : Nat) (v : Limb) : (s.writeG n v).cmd = s.cmd := rfl
@[simp] theorem State.writeG_busy (n : Nat) (v : Limb) : (s.writeG n v).busy = s.busy := rfl
@[simp] theorem State.writeG_done (n : Nat) (v : Limb) : (s.writeG n v).done = s.done := rfl
@[simp] theorem State.writeG_err (n : Nat) (v : Limb) : (s.writeG n v).err = s.err := rfl
@[simp] theorem State.writeG_errcode (n : Nat) (v : Limb) : (s.writeG n v).errcode = s.errcode := rfl
@[simp] theorem State.writeG_ovr (n : Nat) (v : Limb) : (s.writeG n v).ovr = s.ovr := rfl
@[simp] theorem State.writeG_ie (n : Nat) (v : Limb) : (s.writeG n v).ie = s.ie := rfl
@[simp] theorem State.writeG_doneP (n : Nat) (v : Limb) : (s.writeG n v).doneP = s.doneP := rfl
@[simp] theorem State.writeG_iso4 (n : Nat) (v : Limb) : (s.writeG n v).iso4 = s.iso4 := rfl
@[simp] theorem State.writeG_iso3 (n : Nat) (v : Limb) : (s.writeG n v).iso3 = s.iso3 := rfl
@[simp] theorem State.writeG_sk (n : Nat) (v : Limb) : (s.writeG n v).sk = s.sk := rfl
@[simp] theorem State.writeG_pk (n : Nat) (v : Limb) : (s.writeG n v).pk = s.pk := rfl
@[simp] theorem State.writeG_buf (n : Nat) (v : Limb) : (s.writeG n v).buf = s.buf := rfl
@[simp] theorem State.writeG_rng (n : Nat) (v : Limb) : (s.writeG n v).rng = s.rng := rfl
@[simp] theorem State.writeG_inputs (n : Nat) (v : Limb) : (s.writeG n v).inputs = s.inputs := rfl
@[simp] theorem State.writeG_rdata (n : Nat) (v : Limb) : (s.writeG n v).rdata = s.rdata := rfl
@[simp] theorem State.writeG_draws (n : Nat) (v : Limb) : (s.writeG n v).draws = s.draws := rfl

/-! ### `writeC` -/

@[simp] theorem State.writeC_e (b : Bool) : (s.writeC b).e = s.e := rfl
@[simp] theorem State.writeC_d (b : Bool) : (s.writeC b).d = s.d := rfl
@[simp] theorem State.writeC_g (b : Bool) : (s.writeC b).g = s.g := rfl
@[simp] theorem State.writeC_c (b : Bool) : (s.writeC b).c = b := rfl
@[simp] theorem State.writeC_cmd (b : Bool) : (s.writeC b).cmd = s.cmd := rfl
@[simp] theorem State.writeC_busy (b : Bool) : (s.writeC b).busy = s.busy := rfl
@[simp] theorem State.writeC_done (b : Bool) : (s.writeC b).done = s.done := rfl
@[simp] theorem State.writeC_err (b : Bool) : (s.writeC b).err = s.err := rfl
@[simp] theorem State.writeC_errcode (b : Bool) : (s.writeC b).errcode = s.errcode := rfl
@[simp] theorem State.writeC_ovr (b : Bool) : (s.writeC b).ovr = s.ovr := rfl
@[simp] theorem State.writeC_ie (b : Bool) : (s.writeC b).ie = s.ie := rfl
@[simp] theorem State.writeC_doneP (b : Bool) : (s.writeC b).doneP = s.doneP := rfl
@[simp] theorem State.writeC_iso4 (b : Bool) : (s.writeC b).iso4 = s.iso4 := rfl
@[simp] theorem State.writeC_iso3 (b : Bool) : (s.writeC b).iso3 = s.iso3 := rfl
@[simp] theorem State.writeC_sk (b : Bool) : (s.writeC b).sk = s.sk := rfl
@[simp] theorem State.writeC_pk (b : Bool) : (s.writeC b).pk = s.pk := rfl
@[simp] theorem State.writeC_buf (b : Bool) : (s.writeC b).buf = s.buf := rfl
@[simp] theorem State.writeC_rng (b : Bool) : (s.writeC b).rng = s.rng := rfl
@[simp] theorem State.writeC_inputs (b : Bool) : (s.writeC b).inputs = s.inputs := rfl
@[simp] theorem State.writeC_rdata (b : Bool) : (s.writeC b).rdata = s.rdata := rfl
@[simp] theorem State.writeC_draws (b : Bool) : (s.writeC b).draws = s.draws := rfl

/-! ### `writeSk` -/

@[simp] theorem State.writeSk_e (n : Nat) (k : SkSlot) : (s.writeSk n k).e = s.e := rfl
@[simp] theorem State.writeSk_d (n : Nat) (k : SkSlot) : (s.writeSk n k).d = s.d := rfl
@[simp] theorem State.writeSk_g (n : Nat) (k : SkSlot) : (s.writeSk n k).g = s.g := rfl
@[simp] theorem State.writeSk_c (n : Nat) (k : SkSlot) : (s.writeSk n k).c = s.c := rfl
@[simp] theorem State.writeSk_cmd (n : Nat) (k : SkSlot) : (s.writeSk n k).cmd = s.cmd := rfl
@[simp] theorem State.writeSk_busy (n : Nat) (k : SkSlot) : (s.writeSk n k).busy = s.busy := rfl
@[simp] theorem State.writeSk_done (n : Nat) (k : SkSlot) : (s.writeSk n k).done = s.done := rfl
@[simp] theorem State.writeSk_err (n : Nat) (k : SkSlot) : (s.writeSk n k).err = s.err := rfl
@[simp] theorem State.writeSk_errcode (n : Nat) (k : SkSlot) : (s.writeSk n k).errcode = s.errcode := rfl
@[simp] theorem State.writeSk_ovr (n : Nat) (k : SkSlot) : (s.writeSk n k).ovr = s.ovr := rfl
@[simp] theorem State.writeSk_ie (n : Nat) (k : SkSlot) : (s.writeSk n k).ie = s.ie := rfl
@[simp] theorem State.writeSk_doneP (n : Nat) (k : SkSlot) : (s.writeSk n k).doneP = s.doneP := rfl
@[simp] theorem State.writeSk_iso4 (n : Nat) (k : SkSlot) : (s.writeSk n k).iso4 = s.iso4 := rfl
@[simp] theorem State.writeSk_iso3 (n : Nat) (k : SkSlot) : (s.writeSk n k).iso3 = s.iso3 := rfl
@[simp] theorem State.writeSk_sk (n : Nat) (k : SkSlot) : (s.writeSk n k).sk = s.sk.setIfInBounds n k := rfl
@[simp] theorem State.writeSk_pk (n : Nat) (k : SkSlot) : (s.writeSk n k).pk = s.pk := rfl
@[simp] theorem State.writeSk_buf (n : Nat) (k : SkSlot) : (s.writeSk n k).buf = s.buf := rfl
@[simp] theorem State.writeSk_rng (n : Nat) (k : SkSlot) : (s.writeSk n k).rng = s.rng := rfl
@[simp] theorem State.writeSk_inputs (n : Nat) (k : SkSlot) : (s.writeSk n k).inputs = s.inputs := rfl
@[simp] theorem State.writeSk_rdata (n : Nat) (k : SkSlot) : (s.writeSk n k).rdata = s.rdata := rfl
@[simp] theorem State.writeSk_draws (n : Nat) (k : SkSlot) : (s.writeSk n k).draws = s.draws := rfl

/-! ### `writePk` -/

@[simp] theorem State.writePk_e (n : Nat) (k : PkSlot) : (s.writePk n k).e = s.e := rfl
@[simp] theorem State.writePk_d (n : Nat) (k : PkSlot) : (s.writePk n k).d = s.d := rfl
@[simp] theorem State.writePk_g (n : Nat) (k : PkSlot) : (s.writePk n k).g = s.g := rfl
@[simp] theorem State.writePk_c (n : Nat) (k : PkSlot) : (s.writePk n k).c = s.c := rfl
@[simp] theorem State.writePk_cmd (n : Nat) (k : PkSlot) : (s.writePk n k).cmd = s.cmd := rfl
@[simp] theorem State.writePk_busy (n : Nat) (k : PkSlot) : (s.writePk n k).busy = s.busy := rfl
@[simp] theorem State.writePk_done (n : Nat) (k : PkSlot) : (s.writePk n k).done = s.done := rfl
@[simp] theorem State.writePk_err (n : Nat) (k : PkSlot) : (s.writePk n k).err = s.err := rfl
@[simp] theorem State.writePk_errcode (n : Nat) (k : PkSlot) : (s.writePk n k).errcode = s.errcode := rfl
@[simp] theorem State.writePk_ovr (n : Nat) (k : PkSlot) : (s.writePk n k).ovr = s.ovr := rfl
@[simp] theorem State.writePk_ie (n : Nat) (k : PkSlot) : (s.writePk n k).ie = s.ie := rfl
@[simp] theorem State.writePk_doneP (n : Nat) (k : PkSlot) : (s.writePk n k).doneP = s.doneP := rfl
@[simp] theorem State.writePk_iso4 (n : Nat) (k : PkSlot) : (s.writePk n k).iso4 = s.iso4 := rfl
@[simp] theorem State.writePk_iso3 (n : Nat) (k : PkSlot) : (s.writePk n k).iso3 = s.iso3 := rfl
@[simp] theorem State.writePk_sk (n : Nat) (k : PkSlot) : (s.writePk n k).sk = s.sk := rfl
@[simp] theorem State.writePk_pk (n : Nat) (k : PkSlot) : (s.writePk n k).pk = s.pk.setIfInBounds n k := rfl
@[simp] theorem State.writePk_buf (n : Nat) (k : PkSlot) : (s.writePk n k).buf = s.buf := rfl
@[simp] theorem State.writePk_rng (n : Nat) (k : PkSlot) : (s.writePk n k).rng = s.rng := rfl
@[simp] theorem State.writePk_inputs (n : Nat) (k : PkSlot) : (s.writePk n k).inputs = s.inputs := rfl
@[simp] theorem State.writePk_rdata (n : Nat) (k : PkSlot) : (s.writePk n k).rdata = s.rdata := rfl
@[simp] theorem State.writePk_draws (n : Nat) (k : PkSlot) : (s.writePk n k).draws = s.draws := rfl

/-! ### `stash4` -/

@[simp] theorem State.stash4_e (k : Coeffs4) : (s.stash4 k).e = s.e := rfl
@[simp] theorem State.stash4_d (k : Coeffs4) : (s.stash4 k).d = s.d := rfl
@[simp] theorem State.stash4_g (k : Coeffs4) : (s.stash4 k).g = s.g := rfl
@[simp] theorem State.stash4_c (k : Coeffs4) : (s.stash4 k).c = s.c := rfl
@[simp] theorem State.stash4_cmd (k : Coeffs4) : (s.stash4 k).cmd = s.cmd := rfl
@[simp] theorem State.stash4_busy (k : Coeffs4) : (s.stash4 k).busy = s.busy := rfl
@[simp] theorem State.stash4_done (k : Coeffs4) : (s.stash4 k).done = s.done := rfl
@[simp] theorem State.stash4_err (k : Coeffs4) : (s.stash4 k).err = s.err := rfl
@[simp] theorem State.stash4_errcode (k : Coeffs4) : (s.stash4 k).errcode = s.errcode := rfl
@[simp] theorem State.stash4_ovr (k : Coeffs4) : (s.stash4 k).ovr = s.ovr := rfl
@[simp] theorem State.stash4_ie (k : Coeffs4) : (s.stash4 k).ie = s.ie := rfl
@[simp] theorem State.stash4_doneP (k : Coeffs4) : (s.stash4 k).doneP = s.doneP := rfl
@[simp] theorem State.stash4_iso4 (k : Coeffs4) : (s.stash4 k).iso4 = ⟨k, true⟩ := rfl
@[simp] theorem State.stash4_iso3 (k : Coeffs4) : (s.stash4 k).iso3 = s.iso3 := rfl
@[simp] theorem State.stash4_sk (k : Coeffs4) : (s.stash4 k).sk = s.sk := rfl
@[simp] theorem State.stash4_pk (k : Coeffs4) : (s.stash4 k).pk = s.pk := rfl
@[simp] theorem State.stash4_buf (k : Coeffs4) : (s.stash4 k).buf = s.buf := rfl
@[simp] theorem State.stash4_rng (k : Coeffs4) : (s.stash4 k).rng = s.rng := rfl
@[simp] theorem State.stash4_inputs (k : Coeffs4) : (s.stash4 k).inputs = s.inputs := rfl
@[simp] theorem State.stash4_rdata (k : Coeffs4) : (s.stash4 k).rdata = s.rdata := rfl
@[simp] theorem State.stash4_draws (k : Coeffs4) : (s.stash4 k).draws = s.draws := rfl

/-! ### `stash3` -/

@[simp] theorem State.stash3_e (k : Coeffs3) : (s.stash3 k).e = s.e := rfl
@[simp] theorem State.stash3_d (k : Coeffs3) : (s.stash3 k).d = s.d := rfl
@[simp] theorem State.stash3_g (k : Coeffs3) : (s.stash3 k).g = s.g := rfl
@[simp] theorem State.stash3_c (k : Coeffs3) : (s.stash3 k).c = s.c := rfl
@[simp] theorem State.stash3_cmd (k : Coeffs3) : (s.stash3 k).cmd = s.cmd := rfl
@[simp] theorem State.stash3_busy (k : Coeffs3) : (s.stash3 k).busy = s.busy := rfl
@[simp] theorem State.stash3_done (k : Coeffs3) : (s.stash3 k).done = s.done := rfl
@[simp] theorem State.stash3_err (k : Coeffs3) : (s.stash3 k).err = s.err := rfl
@[simp] theorem State.stash3_errcode (k : Coeffs3) : (s.stash3 k).errcode = s.errcode := rfl
@[simp] theorem State.stash3_ovr (k : Coeffs3) : (s.stash3 k).ovr = s.ovr := rfl
@[simp] theorem State.stash3_ie (k : Coeffs3) : (s.stash3 k).ie = s.ie := rfl
@[simp] theorem State.stash3_doneP (k : Coeffs3) : (s.stash3 k).doneP = s.doneP := rfl
@[simp] theorem State.stash3_iso4 (k : Coeffs3) : (s.stash3 k).iso4 = s.iso4 := rfl
@[simp] theorem State.stash3_iso3 (k : Coeffs3) : (s.stash3 k).iso3 = ⟨k, true⟩ := rfl
@[simp] theorem State.stash3_sk (k : Coeffs3) : (s.stash3 k).sk = s.sk := rfl
@[simp] theorem State.stash3_pk (k : Coeffs3) : (s.stash3 k).pk = s.pk := rfl
@[simp] theorem State.stash3_buf (k : Coeffs3) : (s.stash3 k).buf = s.buf := rfl
@[simp] theorem State.stash3_rng (k : Coeffs3) : (s.stash3 k).rng = s.rng := rfl
@[simp] theorem State.stash3_inputs (k : Coeffs3) : (s.stash3 k).inputs = s.inputs := rfl
@[simp] theorem State.stash3_rdata (k : Coeffs3) : (s.stash3 k).rdata = s.rdata := rfl
@[simp] theorem State.stash3_draws (k : Coeffs3) : (s.stash3 k).draws = s.draws := rfl

/-! ### `clearStashes` -/

@[simp] theorem State.clearStashes_e : (s.clearStashes).e = s.e := rfl
@[simp] theorem State.clearStashes_d : (s.clearStashes).d = s.d := rfl
@[simp] theorem State.clearStashes_g : (s.clearStashes).g = s.g := rfl
@[simp] theorem State.clearStashes_c : (s.clearStashes).c = s.c := rfl
@[simp] theorem State.clearStashes_cmd : (s.clearStashes).cmd = s.cmd := rfl
@[simp] theorem State.clearStashes_busy : (s.clearStashes).busy = s.busy := rfl
@[simp] theorem State.clearStashes_done : (s.clearStashes).done = s.done := rfl
@[simp] theorem State.clearStashes_err : (s.clearStashes).err = s.err := rfl
@[simp] theorem State.clearStashes_errcode : (s.clearStashes).errcode = s.errcode := rfl
@[simp] theorem State.clearStashes_ovr : (s.clearStashes).ovr = s.ovr := rfl
@[simp] theorem State.clearStashes_ie : (s.clearStashes).ie = s.ie := rfl
@[simp] theorem State.clearStashes_doneP : (s.clearStashes).doneP = s.doneP := rfl
@[simp] theorem State.clearStashes_iso4 : (s.clearStashes).iso4 = .cleared := rfl
@[simp] theorem State.clearStashes_iso3 : (s.clearStashes).iso3 = .cleared := rfl
@[simp] theorem State.clearStashes_sk : (s.clearStashes).sk = s.sk := rfl
@[simp] theorem State.clearStashes_pk : (s.clearStashes).pk = s.pk := rfl
@[simp] theorem State.clearStashes_buf : (s.clearStashes).buf = s.buf := rfl
@[simp] theorem State.clearStashes_rng : (s.clearStashes).rng = s.rng := rfl
@[simp] theorem State.clearStashes_inputs : (s.clearStashes).inputs = s.inputs := rfl
@[simp] theorem State.clearStashes_rdata : (s.clearStashes).rdata = s.rdata := rfl
@[simp] theorem State.clearStashes_draws : (s.clearStashes).draws = s.draws := rfl

/-! ### `bufWrite` -/

@[simp] theorem State.bufWrite_e (off : Nat) (bs : List Byte) : (s.bufWrite off bs).e = s.e := rfl
@[simp] theorem State.bufWrite_d (off : Nat) (bs : List Byte) : (s.bufWrite off bs).d = s.d := rfl
@[simp] theorem State.bufWrite_g (off : Nat) (bs : List Byte) : (s.bufWrite off bs).g = s.g := rfl
@[simp] theorem State.bufWrite_c (off : Nat) (bs : List Byte) : (s.bufWrite off bs).c = s.c := rfl
@[simp] theorem State.bufWrite_cmd (off : Nat) (bs : List Byte) : (s.bufWrite off bs).cmd = s.cmd := rfl
@[simp] theorem State.bufWrite_busy (off : Nat) (bs : List Byte) : (s.bufWrite off bs).busy = s.busy := rfl
@[simp] theorem State.bufWrite_done (off : Nat) (bs : List Byte) : (s.bufWrite off bs).done = s.done := rfl
@[simp] theorem State.bufWrite_err (off : Nat) (bs : List Byte) : (s.bufWrite off bs).err = s.err := rfl
@[simp] theorem State.bufWrite_errcode (off : Nat) (bs : List Byte) :
    (s.bufWrite off bs).errcode = s.errcode := rfl
@[simp] theorem State.bufWrite_ovr (off : Nat) (bs : List Byte) : (s.bufWrite off bs).ovr = s.ovr := rfl
@[simp] theorem State.bufWrite_ie (off : Nat) (bs : List Byte) : (s.bufWrite off bs).ie = s.ie := rfl
@[simp] theorem State.bufWrite_doneP (off : Nat) (bs : List Byte) : (s.bufWrite off bs).doneP = s.doneP := rfl
@[simp] theorem State.bufWrite_iso4 (off : Nat) (bs : List Byte) : (s.bufWrite off bs).iso4 = s.iso4 := rfl
@[simp] theorem State.bufWrite_iso3 (off : Nat) (bs : List Byte) : (s.bufWrite off bs).iso3 = s.iso3 := rfl
@[simp] theorem State.bufWrite_sk (off : Nat) (bs : List Byte) : (s.bufWrite off bs).sk = s.sk := rfl
@[simp] theorem State.bufWrite_pk (off : Nat) (bs : List Byte) : (s.bufWrite off bs).pk = s.pk := rfl
@[simp] theorem State.bufWrite_buf (off : Nat) (bs : List Byte) :
    (s.bufWrite off bs).buf = Memory.writeBytes s.buf off bs := rfl
@[simp] theorem State.bufWrite_rng (off : Nat) (bs : List Byte) : (s.bufWrite off bs).rng = s.rng := rfl
@[simp] theorem State.bufWrite_inputs (off : Nat) (bs : List Byte) :
    (s.bufWrite off bs).inputs = s.inputs := rfl
@[simp] theorem State.bufWrite_rdata (off : Nat) (bs : List Byte) : (s.bufWrite off bs).rdata = s.rdata := rfl
@[simp] theorem State.bufWrite_draws (off : Nat) (bs : List Byte) : (s.bufWrite off bs).draws = s.draws := rfl

/-! ### `finish` -/

@[simp] theorem State.finish_e (code : BitVec 4) : (s.finish code).e = s.e := rfl
@[simp] theorem State.finish_d (code : BitVec 4) : (s.finish code).d = s.d := rfl
@[simp] theorem State.finish_g (code : BitVec 4) : (s.finish code).g = s.g := rfl
@[simp] theorem State.finish_c (code : BitVec 4) : (s.finish code).c = s.c := rfl
@[simp] theorem State.finish_cmd (code : BitVec 4) : (s.finish code).cmd = s.cmd := rfl
@[simp] theorem State.finish_busy (code : BitVec 4) : (s.finish code).busy = false := rfl
@[simp] theorem State.finish_done (code : BitVec 4) : (s.finish code).done = true := rfl
@[simp] theorem State.finish_err (code : BitVec 4) : (s.finish code).err = (code != 0) := rfl
@[simp] theorem State.finish_errcode (code : BitVec 4) : (s.finish code).errcode = code := rfl
@[simp] theorem State.finish_ovr (code : BitVec 4) : (s.finish code).ovr = s.ovr := rfl
@[simp] theorem State.finish_ie (code : BitVec 4) : (s.finish code).ie = s.ie := rfl
@[simp] theorem State.finish_doneP (code : BitVec 4) : (s.finish code).doneP = true := rfl
@[simp] theorem State.finish_iso4 (code : BitVec 4) : (s.finish code).iso4 = s.iso4 := rfl
@[simp] theorem State.finish_iso3 (code : BitVec 4) : (s.finish code).iso3 = s.iso3 := rfl
@[simp] theorem State.finish_sk (code : BitVec 4) : (s.finish code).sk = s.sk := rfl
@[simp] theorem State.finish_pk (code : BitVec 4) : (s.finish code).pk = s.pk := rfl
@[simp] theorem State.finish_buf (code : BitVec 4) : (s.finish code).buf = s.buf := rfl
@[simp] theorem State.finish_rng (code : BitVec 4) : (s.finish code).rng = s.rng := rfl
@[simp] theorem State.finish_inputs (code : BitVec 4) : (s.finish code).inputs = s.inputs := rfl
@[simp] theorem State.finish_rdata (code : BitVec 4) : (s.finish code).rdata = s.rdata := rfl
@[simp] theorem State.finish_draws (code : BitVec 4) : (s.finish code).draws = s.draws := rfl

/-! ### `zeroized` -/

@[simp] theorem State.zeroized_e : (s.zeroized).e = Vector.replicate 64 0 := rfl
@[simp] theorem State.zeroized_d : (s.zeroized).d = Vector.replicate 4 0 := rfl
@[simp] theorem State.zeroized_g : (s.zeroized).g = Vector.replicate 16 0 := rfl
@[simp] theorem State.zeroized_c : (s.zeroized).c = false := rfl
@[simp] theorem State.zeroized_cmd : (s.zeroized).cmd = s.cmd := rfl
@[simp] theorem State.zeroized_busy : (s.zeroized).busy = s.busy := rfl
@[simp] theorem State.zeroized_done : (s.zeroized).done = s.done := rfl
@[simp] theorem State.zeroized_err : (s.zeroized).err = s.err := rfl
@[simp] theorem State.zeroized_errcode : (s.zeroized).errcode = s.errcode := rfl
@[simp] theorem State.zeroized_ovr : (s.zeroized).ovr = s.ovr := rfl
@[simp] theorem State.zeroized_ie : (s.zeroized).ie = s.ie := rfl
@[simp] theorem State.zeroized_doneP : (s.zeroized).doneP = s.doneP := rfl
@[simp] theorem State.zeroized_iso4 : (s.zeroized).iso4 = .cleared := rfl
@[simp] theorem State.zeroized_iso3 : (s.zeroized).iso3 = .cleared := rfl
@[simp] theorem State.zeroized_sk : (s.zeroized).sk = Vector.replicate 4 .empty := rfl
@[simp] theorem State.zeroized_pk : (s.zeroized).pk = Vector.replicate 4 .empty := rfl
@[simp] theorem State.zeroized_buf : (s.zeroized).buf = [] := rfl
@[simp] theorem State.zeroized_rng : (s.zeroized).rng = s.rng := rfl
@[simp] theorem State.zeroized_inputs : (s.zeroized).inputs = s.inputs := rfl
@[simp] theorem State.zeroized_rdata : (s.zeroized).rdata = s.rdata := rfl
@[simp] theorem State.zeroized_draws : (s.zeroized).draws = s.draws := rfl

/-! ### `accept` -/

@[simp] theorem State.accept_e (w : Word) : (s.accept w).e = s.e := rfl
@[simp] theorem State.accept_d (w : Word) : (s.accept w).d = s.d := rfl
@[simp] theorem State.accept_g (w : Word) : (s.accept w).g = s.g := rfl
@[simp] theorem State.accept_c (w : Word) : (s.accept w).c = s.c := rfl
@[simp] theorem State.accept_cmd (w : Word) : (s.accept w).cmd = w := rfl
@[simp] theorem State.accept_busy (w : Word) : (s.accept w).busy = true := rfl
@[simp] theorem State.accept_done (w : Word) : (s.accept w).done = false := rfl
@[simp] theorem State.accept_err (w : Word) : (s.accept w).err = false := rfl
@[simp] theorem State.accept_errcode (w : Word) : (s.accept w).errcode = 0 := rfl
@[simp] theorem State.accept_ovr (w : Word) : (s.accept w).ovr = s.ovr := rfl
@[simp] theorem State.accept_ie (w : Word) : (s.accept w).ie = s.ie := rfl
@[simp] theorem State.accept_doneP (w : Word) : (s.accept w).doneP = s.doneP := rfl
@[simp] theorem State.accept_iso4 (w : Word) : (s.accept w).iso4 = s.iso4 := rfl
@[simp] theorem State.accept_iso3 (w : Word) : (s.accept w).iso3 = s.iso3 := rfl
@[simp] theorem State.accept_sk (w : Word) : (s.accept w).sk = s.sk := rfl
@[simp] theorem State.accept_pk (w : Word) : (s.accept w).pk = s.pk := rfl
@[simp] theorem State.accept_buf (w : Word) : (s.accept w).buf = s.buf := rfl
@[simp] theorem State.accept_rng (w : Word) : (s.accept w).rng = s.rng := rfl
@[simp] theorem State.accept_inputs (w : Word) : (s.accept w).inputs = s.inputs := rfl
@[simp] theorem State.accept_rdata (w : Word) : (s.accept w).rdata = s.rdata := rfl
@[simp] theorem State.accept_draws (w : Word) : (s.accept w).draws = s.draws := rfl

/-! ### Register reads past an update of another file -/

@[simp] theorem State.writeE_readD (n : Nat) (v : Fp) (i : Nat) : (s.writeE n v).readD i = s.readD i := rfl
@[simp] theorem State.writeE_readG (n : Nat) (v : Fp) (i : Nat) : (s.writeE n v).readG i = s.readG i := rfl
@[simp] theorem State.writeE_readSk (n : Nat) (v : Fp) (i : Nat) : (s.writeE n v).readSk i = s.readSk i := rfl
@[simp] theorem State.writeE_readPk (n : Nat) (v : Fp) (i : Nat) : (s.writeE n v).readPk i = s.readPk i := rfl
@[simp] theorem State.writeE_bufRead (n : Nat) (v : Fp) (a m : Nat) :
    (s.writeE n v).bufRead a m = s.bufRead a m := rfl

@[simp] theorem State.writeD_readE (n : Nat) (v : FpX2) (i : Nat) : (s.writeD n v).readE i = s.readE i := rfl
@[simp] theorem State.writeD_readV (n : Nat) (v : FpX2) (i : Nat) : (s.writeD n v).readV i = s.readV i := rfl
@[simp] theorem State.writeD_readPt (n : Nat) (v : FpX2) (i : Nat) :
    (s.writeD n v).readPt i = s.readPt i := rfl
@[simp] theorem State.writeD_readCrv (n : Nat) (v : FpX2) (i : Nat) :
    (s.writeD n v).readCrv i = s.readCrv i := rfl
@[simp] theorem State.writeD_readG (n : Nat) (v : FpX2) (i : Nat) : (s.writeD n v).readG i = s.readG i := rfl
@[simp] theorem State.writeD_readSk (n : Nat) (v : FpX2) (i : Nat) :
    (s.writeD n v).readSk i = s.readSk i := rfl
@[simp] theorem State.writeD_readPk (n : Nat) (v : FpX2) (i : Nat) :
    (s.writeD n v).readPk i = s.readPk i := rfl
@[simp] theorem State.writeD_bufRead (n : Nat) (v : FpX2) (a m : Nat) :
    (s.writeD n v).bufRead a m = s.bufRead a m := rfl

@[simp] theorem State.writeG_readE (n : Nat) (v : Limb) (i : Nat) : (s.writeG n v).readE i = s.readE i := rfl
@[simp] theorem State.writeG_readV (n : Nat) (v : Limb) (i : Nat) : (s.writeG n v).readV i = s.readV i := rfl
@[simp] theorem State.writeG_readPt (n : Nat) (v : Limb) (i : Nat) :
    (s.writeG n v).readPt i = s.readPt i := rfl
@[simp] theorem State.writeG_readCrv (n : Nat) (v : Limb) (i : Nat) :
    (s.writeG n v).readCrv i = s.readCrv i := rfl
@[simp] theorem State.writeG_readD (n : Nat) (v : Limb) (i : Nat) : (s.writeG n v).readD i = s.readD i := rfl
@[simp] theorem State.writeG_readSk (n : Nat) (v : Limb) (i : Nat) :
    (s.writeG n v).readSk i = s.readSk i := rfl
@[simp] theorem State.writeG_readPk (n : Nat) (v : Limb) (i : Nat) :
    (s.writeG n v).readPk i = s.readPk i := rfl
@[simp] theorem State.writeG_bufRead (n : Nat) (v : Limb) (a m : Nat) :
    (s.writeG n v).bufRead a m = s.bufRead a m := rfl

@[simp] theorem State.writeC_readE (b : Bool) (i : Nat) : (s.writeC b).readE i = s.readE i := rfl
@[simp] theorem State.writeC_readV (b : Bool) (i : Nat) : (s.writeC b).readV i = s.readV i := rfl
@[simp] theorem State.writeC_readPt (b : Bool) (i : Nat) : (s.writeC b).readPt i = s.readPt i := rfl
@[simp] theorem State.writeC_readCrv (b : Bool) (i : Nat) : (s.writeC b).readCrv i = s.readCrv i := rfl
@[simp] theorem State.writeC_readD (b : Bool) (i : Nat) : (s.writeC b).readD i = s.readD i := rfl
@[simp] theorem State.writeC_readG (b : Bool) (i : Nat) : (s.writeC b).readG i = s.readG i := rfl
@[simp] theorem State.writeC_readSk (b : Bool) (i : Nat) : (s.writeC b).readSk i = s.readSk i := rfl
@[simp] theorem State.writeC_readPk (b : Bool) (i : Nat) : (s.writeC b).readPk i = s.readPk i := rfl
@[simp] theorem State.writeC_bufRead (b : Bool) (a m : Nat) : (s.writeC b).bufRead a m = s.bufRead a m := rfl

@[simp] theorem State.writeSk_readE (n : Nat) (k : SkSlot) (i : Nat) :
    (s.writeSk n k).readE i = s.readE i := rfl
@[simp] theorem State.writeSk_readV (n : Nat) (k : SkSlot) (i : Nat) :
    (s.writeSk n k).readV i = s.readV i := rfl
@[simp] theorem State.writeSk_readPt (n : Nat) (k : SkSlot) (i : Nat) :
    (s.writeSk n k).readPt i = s.readPt i := rfl
@[simp] theorem State.writeSk_readCrv (n : Nat) (k : SkSlot) (i : Nat) :
    (s.writeSk n k).readCrv i = s.readCrv i := rfl
@[simp] theorem State.writeSk_readD (n : Nat) (k : SkSlot) (i : Nat) :
    (s.writeSk n k).readD i = s.readD i := rfl
@[simp] theorem State.writeSk_readG (n : Nat) (k : SkSlot) (i : Nat) :
    (s.writeSk n k).readG i = s.readG i := rfl
@[simp] theorem State.writeSk_readPk (n : Nat) (k : SkSlot) (i : Nat) :
    (s.writeSk n k).readPk i = s.readPk i := rfl
@[simp] theorem State.writeSk_bufRead (n : Nat) (k : SkSlot) (a m : Nat) :
    (s.writeSk n k).bufRead a m = s.bufRead a m := rfl

@[simp] theorem State.writePk_readE (n : Nat) (k : PkSlot) (i : Nat) :
    (s.writePk n k).readE i = s.readE i := rfl
@[simp] theorem State.writePk_readV (n : Nat) (k : PkSlot) (i : Nat) :
    (s.writePk n k).readV i = s.readV i := rfl
@[simp] theorem State.writePk_readPt (n : Nat) (k : PkSlot) (i : Nat) :
    (s.writePk n k).readPt i = s.readPt i := rfl
@[simp] theorem State.writePk_readCrv (n : Nat) (k : PkSlot) (i : Nat) :
    (s.writePk n k).readCrv i = s.readCrv i := rfl
@[simp] theorem State.writePk_readD (n : Nat) (k : PkSlot) (i : Nat) :
    (s.writePk n k).readD i = s.readD i := rfl
@[simp] theorem State.writePk_readG (n : Nat) (k : PkSlot) (i : Nat) :
    (s.writePk n k).readG i = s.readG i := rfl
@[simp] theorem State.writePk_readSk (n : Nat) (k : PkSlot) (i : Nat) :
    (s.writePk n k).readSk i = s.readSk i := rfl
@[simp] theorem State.writePk_bufRead (n : Nat) (k : PkSlot) (a m : Nat) :
    (s.writePk n k).bufRead a m = s.bufRead a m := rfl

@[simp] theorem State.stash4_readE (k : Coeffs4) (i : Nat) : (s.stash4 k).readE i = s.readE i := rfl
@[simp] theorem State.stash4_readV (k : Coeffs4) (i : Nat) : (s.stash4 k).readV i = s.readV i := rfl
@[simp] theorem State.stash4_readPt (k : Coeffs4) (i : Nat) : (s.stash4 k).readPt i = s.readPt i := rfl
@[simp] theorem State.stash4_readCrv (k : Coeffs4) (i : Nat) : (s.stash4 k).readCrv i = s.readCrv i := rfl
@[simp] theorem State.stash4_readD (k : Coeffs4) (i : Nat) : (s.stash4 k).readD i = s.readD i := rfl
@[simp] theorem State.stash4_readG (k : Coeffs4) (i : Nat) : (s.stash4 k).readG i = s.readG i := rfl
@[simp] theorem State.stash4_readSk (k : Coeffs4) (i : Nat) : (s.stash4 k).readSk i = s.readSk i := rfl
@[simp] theorem State.stash4_readPk (k : Coeffs4) (i : Nat) : (s.stash4 k).readPk i = s.readPk i := rfl
@[simp] theorem State.stash4_bufRead (k : Coeffs4) (a m : Nat) :
    (s.stash4 k).bufRead a m = s.bufRead a m := rfl

@[simp] theorem State.stash3_readE (k : Coeffs3) (i : Nat) : (s.stash3 k).readE i = s.readE i := rfl
@[simp] theorem State.stash3_readV (k : Coeffs3) (i : Nat) : (s.stash3 k).readV i = s.readV i := rfl
@[simp] theorem State.stash3_readPt (k : Coeffs3) (i : Nat) : (s.stash3 k).readPt i = s.readPt i := rfl
@[simp] theorem State.stash3_readCrv (k : Coeffs3) (i : Nat) : (s.stash3 k).readCrv i = s.readCrv i := rfl
@[simp] theorem State.stash3_readD (k : Coeffs3) (i : Nat) : (s.stash3 k).readD i = s.readD i := rfl
@[simp] theorem State.stash3_readG (k : Coeffs3) (i : Nat) : (s.stash3 k).readG i = s.readG i := rfl
@[simp] theorem State.stash3_readSk (k : Coeffs3) (i : Nat) : (s.stash3 k).readSk i = s.readSk i := rfl
@[simp] theorem State.stash3_readPk (k : Coeffs3) (i : Nat) : (s.stash3 k).readPk i = s.readPk i := rfl
@[simp] theorem State.stash3_bufRead (k : Coeffs3) (a m : Nat) :
    (s.stash3 k).bufRead a m = s.bufRead a m := rfl

@[simp] theorem State.clearStashes_readE (i : Nat) : (s.clearStashes).readE i = s.readE i := rfl
@[simp] theorem State.clearStashes_readV (i : Nat) : (s.clearStashes).readV i = s.readV i := rfl
@[simp] theorem State.clearStashes_readPt (i : Nat) : (s.clearStashes).readPt i = s.readPt i := rfl
@[simp] theorem State.clearStashes_readCrv (i : Nat) : (s.clearStashes).readCrv i = s.readCrv i := rfl
@[simp] theorem State.clearStashes_readD (i : Nat) : (s.clearStashes).readD i = s.readD i := rfl
@[simp] theorem State.clearStashes_readG (i : Nat) : (s.clearStashes).readG i = s.readG i := rfl
@[simp] theorem State.clearStashes_readSk (i : Nat) : (s.clearStashes).readSk i = s.readSk i := rfl
@[simp] theorem State.clearStashes_readPk (i : Nat) : (s.clearStashes).readPk i = s.readPk i := rfl
@[simp] theorem State.clearStashes_bufRead (a m : Nat) : (s.clearStashes).bufRead a m = s.bufRead a m := rfl

@[simp] theorem State.bufWrite_readE (off : Nat) (bs : List Byte) (i : Nat) :
    (s.bufWrite off bs).readE i = s.readE i := rfl
@[simp] theorem State.bufWrite_readV (off : Nat) (bs : List Byte) (i : Nat) :
    (s.bufWrite off bs).readV i = s.readV i := rfl
@[simp] theorem State.bufWrite_readPt (off : Nat) (bs : List Byte) (i : Nat) :
    (s.bufWrite off bs).readPt i = s.readPt i := rfl
@[simp] theorem State.bufWrite_readCrv (off : Nat) (bs : List Byte) (i : Nat) :
    (s.bufWrite off bs).readCrv i = s.readCrv i := rfl
@[simp] theorem State.bufWrite_readD (off : Nat) (bs : List Byte) (i : Nat) :
    (s.bufWrite off bs).readD i = s.readD i := rfl
@[simp] theorem State.bufWrite_readG (off : Nat) (bs : List Byte) (i : Nat) :
    (s.bufWrite off bs).readG i = s.readG i := rfl
@[simp] theorem State.bufWrite_readSk (off : Nat) (bs : List Byte) (i : Nat) :
    (s.bufWrite off bs).readSk i = s.readSk i := rfl
@[simp] theorem State.bufWrite_readPk (off : Nat) (bs : List Byte) (i : Nat) :
    (s.bufWrite off bs).readPk i = s.readPk i := rfl

@[simp] theorem State.finish_readE (code : BitVec 4) (i : Nat) : (s.finish code).readE i = s.readE i := rfl
@[simp] theorem State.finish_readV (code : BitVec 4) (i : Nat) : (s.finish code).readV i = s.readV i := rfl
@[simp] theorem State.finish_readPt (code : BitVec 4) (i : Nat) : (s.finish code).readPt i = s.readPt i := rfl
@[simp] theorem State.finish_readCrv (code : BitVec 4) (i : Nat) :
    (s.finish code).readCrv i = s.readCrv i := rfl
@[simp] theorem State.finish_readD (code : BitVec 4) (i : Nat) : (s.finish code).readD i = s.readD i := rfl
@[simp] theorem State.finish_readG (code : BitVec 4) (i : Nat) : (s.finish code).readG i = s.readG i := rfl
@[simp] theorem State.finish_readSk (code : BitVec 4) (i : Nat) : (s.finish code).readSk i = s.readSk i := rfl
@[simp] theorem State.finish_readPk (code : BitVec 4) (i : Nat) : (s.finish code).readPk i = s.readPk i := rfl
@[simp] theorem State.finish_bufRead (code : BitVec 4) (a m : Nat) :
    (s.finish code).bufRead a m = s.bufRead a m := rfl


@[simp] theorem State.accept_readE (w : Word) (i : Nat) : (s.accept w).readE i = s.readE i := rfl
@[simp] theorem State.accept_readV (w : Word) (i : Nat) : (s.accept w).readV i = s.readV i := rfl
@[simp] theorem State.accept_readPt (w : Word) (i : Nat) : (s.accept w).readPt i = s.readPt i := rfl
@[simp] theorem State.accept_readCrv (w : Word) (i : Nat) : (s.accept w).readCrv i = s.readCrv i := rfl
@[simp] theorem State.accept_readD (w : Word) (i : Nat) : (s.accept w).readD i = s.readD i := rfl
@[simp] theorem State.accept_readG (w : Word) (i : Nat) : (s.accept w).readG i = s.readG i := rfl
@[simp] theorem State.accept_readSk (w : Word) (i : Nat) : (s.accept w).readSk i = s.readSk i := rfl
@[simp] theorem State.accept_readPk (w : Word) (i : Nat) : (s.accept w).readPk i = s.readPk i := rfl
@[simp] theorem State.accept_bufRead (w : Word) (a m : Nat) : (s.accept w).bufRead a m = s.bufRead a m := rfl

/-! ### `writeV` -/

@[simp] theorem State.writeV_d (k : Nat) (v : Fp2) : (s.writeV k v).d = s.d := rfl
@[simp] theorem State.writeV_g (k : Nat) (v : Fp2) : (s.writeV k v).g = s.g := rfl
@[simp] theorem State.writeV_c (k : Nat) (v : Fp2) : (s.writeV k v).c = s.c := rfl
@[simp] theorem State.writeV_cmd (k : Nat) (v : Fp2) : (s.writeV k v).cmd = s.cmd := rfl
@[simp] theorem State.writeV_busy (k : Nat) (v : Fp2) : (s.writeV k v).busy = s.busy := rfl
@[simp] theorem State.writeV_done (k : Nat) (v : Fp2) : (s.writeV k v).done = s.done := rfl
@[simp] theorem State.writeV_err (k : Nat) (v : Fp2) : (s.writeV k v).err = s.err := rfl
@[simp] theorem State.writeV_errcode (k : Nat) (v : Fp2) : (s.writeV k v).errcode = s.errcode := rfl
@[simp] theorem State.writeV_ovr (k : Nat) (v : Fp2) : (s.writeV k v).ovr = s.ovr := rfl
@[simp] theorem State.writeV_ie (k : Nat) (v : Fp2) : (s.writeV k v).ie = s.ie := rfl
@[simp] theorem State.writeV_doneP (k : Nat) (v : Fp2) : (s.writeV k v).doneP = s.doneP := rfl
@[simp] theorem State.writeV_iso4 (k : Nat) (v : Fp2) : (s.writeV k v).iso4 = s.iso4 := rfl
@[simp] theorem State.writeV_iso3 (k : Nat) (v : Fp2) : (s.writeV k v).iso3 = s.iso3 := rfl
@[simp] theorem State.writeV_sk (k : Nat) (v : Fp2) : (s.writeV k v).sk = s.sk := rfl
@[simp] theorem State.writeV_pk (k : Nat) (v : Fp2) : (s.writeV k v).pk = s.pk := rfl
@[simp] theorem State.writeV_buf (k : Nat) (v : Fp2) : (s.writeV k v).buf = s.buf := rfl
@[simp] theorem State.writeV_rng (k : Nat) (v : Fp2) : (s.writeV k v).rng = s.rng := rfl
@[simp] theorem State.writeV_inputs (k : Nat) (v : Fp2) : (s.writeV k v).inputs = s.inputs := rfl
@[simp] theorem State.writeV_rdata (k : Nat) (v : Fp2) : (s.writeV k v).rdata = s.rdata := rfl
@[simp] theorem State.writeV_draws (k : Nat) (v : Fp2) : (s.writeV k v).draws = s.draws := rfl
@[simp] theorem State.writeV_readD (k : Nat) (v : Fp2) (i : Nat) : (s.writeV k v).readD i = s.readD i := rfl
@[simp] theorem State.writeV_readG (k : Nat) (v : Fp2) (i : Nat) : (s.writeV k v).readG i = s.readG i := rfl
@[simp] theorem State.writeV_readSk (k : Nat) (v : Fp2) (i : Nat) : (s.writeV k v).readSk i = s.readSk i := rfl
@[simp] theorem State.writeV_readPk (k : Nat) (v : Fp2) (i : Nat) : (s.writeV k v).readPk i = s.readPk i := rfl
@[simp] theorem State.writeV_bufRead (k : Nat) (v : Fp2) (a m : Nat) : (s.writeV k v).bufRead a m = s.bufRead a m := rfl

/-! ### `writePt` -/

@[simp] theorem State.writePt_d (k : Nat) (p : Pt) : (s.writePt k p).d = s.d := rfl
@[simp] theorem State.writePt_g (k : Nat) (p : Pt) : (s.writePt k p).g = s.g := rfl
@[simp] theorem State.writePt_c (k : Nat) (p : Pt) : (s.writePt k p).c = s.c := rfl
@[simp] theorem State.writePt_cmd (k : Nat) (p : Pt) : (s.writePt k p).cmd = s.cmd := rfl
@[simp] theorem State.writePt_busy (k : Nat) (p : Pt) : (s.writePt k p).busy = s.busy := rfl
@[simp] theorem State.writePt_done (k : Nat) (p : Pt) : (s.writePt k p).done = s.done := rfl
@[simp] theorem State.writePt_err (k : Nat) (p : Pt) : (s.writePt k p).err = s.err := rfl
@[simp] theorem State.writePt_errcode (k : Nat) (p : Pt) : (s.writePt k p).errcode = s.errcode := rfl
@[simp] theorem State.writePt_ovr (k : Nat) (p : Pt) : (s.writePt k p).ovr = s.ovr := rfl
@[simp] theorem State.writePt_ie (k : Nat) (p : Pt) : (s.writePt k p).ie = s.ie := rfl
@[simp] theorem State.writePt_doneP (k : Nat) (p : Pt) : (s.writePt k p).doneP = s.doneP := rfl
@[simp] theorem State.writePt_iso4 (k : Nat) (p : Pt) : (s.writePt k p).iso4 = s.iso4 := rfl
@[simp] theorem State.writePt_iso3 (k : Nat) (p : Pt) : (s.writePt k p).iso3 = s.iso3 := rfl
@[simp] theorem State.writePt_sk (k : Nat) (p : Pt) : (s.writePt k p).sk = s.sk := rfl
@[simp] theorem State.writePt_pk (k : Nat) (p : Pt) : (s.writePt k p).pk = s.pk := rfl
@[simp] theorem State.writePt_buf (k : Nat) (p : Pt) : (s.writePt k p).buf = s.buf := rfl
@[simp] theorem State.writePt_rng (k : Nat) (p : Pt) : (s.writePt k p).rng = s.rng := rfl
@[simp] theorem State.writePt_inputs (k : Nat) (p : Pt) : (s.writePt k p).inputs = s.inputs := rfl
@[simp] theorem State.writePt_rdata (k : Nat) (p : Pt) : (s.writePt k p).rdata = s.rdata := rfl
@[simp] theorem State.writePt_draws (k : Nat) (p : Pt) : (s.writePt k p).draws = s.draws := rfl
@[simp] theorem State.writePt_readD (k : Nat) (p : Pt) (i : Nat) : (s.writePt k p).readD i = s.readD i := rfl
@[simp] theorem State.writePt_readG (k : Nat) (p : Pt) (i : Nat) : (s.writePt k p).readG i = s.readG i := rfl
@[simp] theorem State.writePt_readSk (k : Nat) (p : Pt) (i : Nat) : (s.writePt k p).readSk i = s.readSk i := rfl
@[simp] theorem State.writePt_readPk (k : Nat) (p : Pt) (i : Nat) : (s.writePt k p).readPk i = s.readPk i := rfl
@[simp] theorem State.writePt_bufRead (k : Nat) (p : Pt) (a m : Nat) : (s.writePt k p).bufRead a m = s.bufRead a m := rfl

/-! ### `writeCrv` -/

@[simp] theorem State.writeCrv_d (k : Nat) (v : Crv) : (s.writeCrv k v).d = s.d := rfl
@[simp] theorem State.writeCrv_g (k : Nat) (v : Crv) : (s.writeCrv k v).g = s.g := rfl
@[simp] theorem State.writeCrv_c (k : Nat) (v : Crv) : (s.writeCrv k v).c = s.c := rfl
@[simp] theorem State.writeCrv_cmd (k : Nat) (v : Crv) : (s.writeCrv k v).cmd = s.cmd := rfl
@[simp] theorem State.writeCrv_busy (k : Nat) (v : Crv) : (s.writeCrv k v).busy = s.busy := rfl
@[simp] theorem State.writeCrv_done (k : Nat) (v : Crv) : (s.writeCrv k v).done = s.done := rfl
@[simp] theorem State.writeCrv_err (k : Nat) (v : Crv) : (s.writeCrv k v).err = s.err := rfl
@[simp] theorem State.writeCrv_errcode (k : Nat) (v : Crv) : (s.writeCrv k v).errcode = s.errcode := rfl
@[simp] theorem State.writeCrv_ovr (k : Nat) (v : Crv) : (s.writeCrv k v).ovr = s.ovr := rfl
@[simp] theorem State.writeCrv_ie (k : Nat) (v : Crv) : (s.writeCrv k v).ie = s.ie := rfl
@[simp] theorem State.writeCrv_doneP (k : Nat) (v : Crv) : (s.writeCrv k v).doneP = s.doneP := rfl
@[simp] theorem State.writeCrv_iso4 (k : Nat) (v : Crv) : (s.writeCrv k v).iso4 = s.iso4 := rfl
@[simp] theorem State.writeCrv_iso3 (k : Nat) (v : Crv) : (s.writeCrv k v).iso3 = s.iso3 := rfl
@[simp] theorem State.writeCrv_sk (k : Nat) (v : Crv) : (s.writeCrv k v).sk = s.sk := rfl
@[simp] theorem State.writeCrv_pk (k : Nat) (v : Crv) : (s.writeCrv k v).pk = s.pk := rfl
@[simp] theorem State.writeCrv_buf (k : Nat) (v : Crv) : (s.writeCrv k v).buf = s.buf := rfl
@[simp] theorem State.writeCrv_rng (k : Nat) (v : Crv) : (s.writeCrv k v).rng = s.rng := rfl
@[simp] theorem State.writeCrv_inputs (k : Nat) (v : Crv) : (s.writeCrv k v).inputs = s.inputs := rfl
@[simp] theorem State.writeCrv_rdata (k : Nat) (v : Crv) : (s.writeCrv k v).rdata = s.rdata := rfl
@[simp] theorem State.writeCrv_draws (k : Nat) (v : Crv) : (s.writeCrv k v).draws = s.draws := rfl
@[simp] theorem State.writeCrv_readD (k : Nat) (v : Crv) (i : Nat) : (s.writeCrv k v).readD i = s.readD i := rfl
@[simp] theorem State.writeCrv_readG (k : Nat) (v : Crv) (i : Nat) : (s.writeCrv k v).readG i = s.readG i := rfl
@[simp] theorem State.writeCrv_readSk (k : Nat) (v : Crv) (i : Nat) : (s.writeCrv k v).readSk i = s.readSk i := rfl
@[simp] theorem State.writeCrv_readPk (k : Nat) (v : Crv) (i : Nat) : (s.writeCrv k v).readPk i = s.readPk i := rfl
@[simp] theorem State.writeCrv_bufRead (k : Nat) (v : Crv) (a m : Nat) : (s.writeCrv k v).bufRead a m = s.bufRead a m := rfl

/-! ### `writePts`, `stashLast4`, `stashLast3` -/

@[simp] theorem State.writePts_d (k : Nat) (ps : List Pt) : (s.writePts k ps).d = s.d := by
  induction ps generalizing s k with
  | nil => rfl
  | cons p ps ih => exact (ih (s.writePt k p) (k + 1)).trans rfl

@[simp] theorem State.writePts_g (k : Nat) (ps : List Pt) : (s.writePts k ps).g = s.g := by
  induction ps generalizing s k with
  | nil => rfl
  | cons p ps ih => exact (ih (s.writePt k p) (k + 1)).trans rfl

@[simp] theorem State.writePts_c (k : Nat) (ps : List Pt) : (s.writePts k ps).c = s.c := by
  induction ps generalizing s k with
  | nil => rfl
  | cons p ps ih => exact (ih (s.writePt k p) (k + 1)).trans rfl

@[simp] theorem State.writePts_cmd (k : Nat) (ps : List Pt) : (s.writePts k ps).cmd = s.cmd := by
  induction ps generalizing s k with
  | nil => rfl
  | cons p ps ih => exact (ih (s.writePt k p) (k + 1)).trans rfl

@[simp] theorem State.writePts_busy (k : Nat) (ps : List Pt) : (s.writePts k ps).busy = s.busy := by
  induction ps generalizing s k with
  | nil => rfl
  | cons p ps ih => exact (ih (s.writePt k p) (k + 1)).trans rfl

@[simp] theorem State.writePts_done (k : Nat) (ps : List Pt) : (s.writePts k ps).done = s.done := by
  induction ps generalizing s k with
  | nil => rfl
  | cons p ps ih => exact (ih (s.writePt k p) (k + 1)).trans rfl

@[simp] theorem State.writePts_err (k : Nat) (ps : List Pt) : (s.writePts k ps).err = s.err := by
  induction ps generalizing s k with
  | nil => rfl
  | cons p ps ih => exact (ih (s.writePt k p) (k + 1)).trans rfl

@[simp] theorem State.writePts_errcode (k : Nat) (ps : List Pt) : (s.writePts k ps).errcode = s.errcode := by
  induction ps generalizing s k with
  | nil => rfl
  | cons p ps ih => exact (ih (s.writePt k p) (k + 1)).trans rfl

@[simp] theorem State.writePts_ovr (k : Nat) (ps : List Pt) : (s.writePts k ps).ovr = s.ovr := by
  induction ps generalizing s k with
  | nil => rfl
  | cons p ps ih => exact (ih (s.writePt k p) (k + 1)).trans rfl

@[simp] theorem State.writePts_ie (k : Nat) (ps : List Pt) : (s.writePts k ps).ie = s.ie := by
  induction ps generalizing s k with
  | nil => rfl
  | cons p ps ih => exact (ih (s.writePt k p) (k + 1)).trans rfl

@[simp] theorem State.writePts_doneP (k : Nat) (ps : List Pt) : (s.writePts k ps).doneP = s.doneP := by
  induction ps generalizing s k with
  | nil => rfl
  | cons p ps ih => exact (ih (s.writePt k p) (k + 1)).trans rfl

@[simp] theorem State.writePts_iso4 (k : Nat) (ps : List Pt) : (s.writePts k ps).iso4 = s.iso4 := by
  induction ps generalizing s k with
  | nil => rfl
  | cons p ps ih => exact (ih (s.writePt k p) (k + 1)).trans rfl

@[simp] theorem State.writePts_iso3 (k : Nat) (ps : List Pt) : (s.writePts k ps).iso3 = s.iso3 := by
  induction ps generalizing s k with
  | nil => rfl
  | cons p ps ih => exact (ih (s.writePt k p) (k + 1)).trans rfl

@[simp] theorem State.writePts_sk (k : Nat) (ps : List Pt) : (s.writePts k ps).sk = s.sk := by
  induction ps generalizing s k with
  | nil => rfl
  | cons p ps ih => exact (ih (s.writePt k p) (k + 1)).trans rfl

@[simp] theorem State.writePts_pk (k : Nat) (ps : List Pt) : (s.writePts k ps).pk = s.pk := by
  induction ps generalizing s k with
  | nil => rfl
  | cons p ps ih => exact (ih (s.writePt k p) (k + 1)).trans rfl

@[simp] theorem State.writePts_buf (k : Nat) (ps : List Pt) : (s.writePts k ps).buf = s.buf := by
  induction ps generalizing s k with
  | nil => rfl
  | cons p ps ih => exact (ih (s.writePt k p) (k + 1)).trans rfl

@[simp] theorem State.writePts_rng (k : Nat) (ps : List Pt) : (s.writePts k ps).rng = s.rng := by
  induction ps generalizing s k with
  | nil => rfl
  | cons p ps ih => exact (ih (s.writePt k p) (k + 1)).trans rfl

@[simp] theorem State.writePts_inputs (k : Nat) (ps : List Pt) : (s.writePts k ps).inputs = s.inputs := by
  induction ps generalizing s k with
  | nil => rfl
  | cons p ps ih => exact (ih (s.writePt k p) (k + 1)).trans rfl

@[simp] theorem State.writePts_rdata (k : Nat) (ps : List Pt) : (s.writePts k ps).rdata = s.rdata := by
  induction ps generalizing s k with
  | nil => rfl
  | cons p ps ih => exact (ih (s.writePt k p) (k + 1)).trans rfl

@[simp] theorem State.writePts_draws (k : Nat) (ps : List Pt) : (s.writePts k ps).draws = s.draws := by
  induction ps generalizing s k with
  | nil => rfl
  | cons p ps ih => exact (ih (s.writePt k p) (k + 1)).trans rfl

@[simp] theorem State.writePts_readD (k : Nat) (ps : List Pt) (i : Nat) :
    (s.writePts k ps).readD i = s.readD i := by simp [State.readD]

@[simp] theorem State.writePts_readG (k : Nat) (ps : List Pt) (i : Nat) :
    (s.writePts k ps).readG i = s.readG i := by simp [State.readG]

@[simp] theorem State.writePts_readSk (k : Nat) (ps : List Pt) (i : Nat) :
    (s.writePts k ps).readSk i = s.readSk i := by simp [State.readSk]

@[simp] theorem State.writePts_readPk (k : Nat) (ps : List Pt) (i : Nat) :
    (s.writePts k ps).readPk i = s.readPk i := by simp [State.readPk]

@[simp] theorem State.writePts_bufRead (k : Nat) (ps : List Pt) (a m : Nat) :
    (s.writePts k ps).bufRead a m = s.bufRead a m := by simp [State.bufRead]

@[simp] theorem State.stashLast4_e (k : Option Coeffs4) : (s.stashLast4 k).e = s.e := by cases k <;> rfl
@[simp] theorem State.stashLast4_d (k : Option Coeffs4) : (s.stashLast4 k).d = s.d := by cases k <;> rfl
@[simp] theorem State.stashLast4_g (k : Option Coeffs4) : (s.stashLast4 k).g = s.g := by cases k <;> rfl
@[simp] theorem State.stashLast4_c (k : Option Coeffs4) : (s.stashLast4 k).c = s.c := by cases k <;> rfl
@[simp] theorem State.stashLast4_cmd (k : Option Coeffs4) : (s.stashLast4 k).cmd = s.cmd := by cases k <;> rfl
@[simp] theorem State.stashLast4_busy (k : Option Coeffs4) : (s.stashLast4 k).busy = s.busy := by cases k <;> rfl
@[simp] theorem State.stashLast4_done (k : Option Coeffs4) : (s.stashLast4 k).done = s.done := by cases k <;> rfl
@[simp] theorem State.stashLast4_err (k : Option Coeffs4) : (s.stashLast4 k).err = s.err := by cases k <;> rfl
@[simp] theorem State.stashLast4_errcode (k : Option Coeffs4) : (s.stashLast4 k).errcode = s.errcode := by cases k <;> rfl
@[simp] theorem State.stashLast4_ovr (k : Option Coeffs4) : (s.stashLast4 k).ovr = s.ovr := by cases k <;> rfl
@[simp] theorem State.stashLast4_ie (k : Option Coeffs4) : (s.stashLast4 k).ie = s.ie := by cases k <;> rfl
@[simp] theorem State.stashLast4_doneP (k : Option Coeffs4) : (s.stashLast4 k).doneP = s.doneP := by cases k <;> rfl
@[simp] theorem State.stashLast4_iso3 (k : Option Coeffs4) : (s.stashLast4 k).iso3 = s.iso3 := by cases k <;> rfl
@[simp] theorem State.stashLast4_sk (k : Option Coeffs4) : (s.stashLast4 k).sk = s.sk := by cases k <;> rfl
@[simp] theorem State.stashLast4_pk (k : Option Coeffs4) : (s.stashLast4 k).pk = s.pk := by cases k <;> rfl
@[simp] theorem State.stashLast4_buf (k : Option Coeffs4) : (s.stashLast4 k).buf = s.buf := by cases k <;> rfl
@[simp] theorem State.stashLast4_rng (k : Option Coeffs4) : (s.stashLast4 k).rng = s.rng := by cases k <;> rfl
@[simp] theorem State.stashLast4_inputs (k : Option Coeffs4) : (s.stashLast4 k).inputs = s.inputs := by cases k <;> rfl
@[simp] theorem State.stashLast4_rdata (k : Option Coeffs4) : (s.stashLast4 k).rdata = s.rdata := by cases k <;> rfl
@[simp] theorem State.stashLast4_draws (k : Option Coeffs4) : (s.stashLast4 k).draws = s.draws := by cases k <;> rfl
@[simp] theorem State.stashLast4_readE (k : Option Coeffs4) (i : Nat) : (s.stashLast4 k).readE i = s.readE i := by
  cases k <;> rfl
@[simp] theorem State.stashLast4_readV (k : Option Coeffs4) (i : Nat) : (s.stashLast4 k).readV i = s.readV i := by
  cases k <;> rfl
@[simp] theorem State.stashLast4_readPt (k : Option Coeffs4) (i : Nat) : (s.stashLast4 k).readPt i = s.readPt i := by
  cases k <;> rfl
@[simp] theorem State.stashLast4_readCrv (k : Option Coeffs4) (i : Nat) : (s.stashLast4 k).readCrv i = s.readCrv i := by
  cases k <;> rfl
@[simp] theorem State.stashLast4_readD (k : Option Coeffs4) (i : Nat) : (s.stashLast4 k).readD i = s.readD i := by
  cases k <;> rfl
@[simp] theorem State.stashLast4_readG (k : Option Coeffs4) (i : Nat) : (s.stashLast4 k).readG i = s.readG i := by
  cases k <;> rfl
@[simp] theorem State.stashLast4_readSk (k : Option Coeffs4) (i : Nat) : (s.stashLast4 k).readSk i = s.readSk i := by
  cases k <;> rfl
@[simp] theorem State.stashLast4_readPk (k : Option Coeffs4) (i : Nat) : (s.stashLast4 k).readPk i = s.readPk i := by
  cases k <;> rfl
@[simp] theorem State.stashLast4_bufRead (k : Option Coeffs4) (a m : Nat) : (s.stashLast4 k).bufRead a m = s.bufRead a m := by
  cases k <;> rfl
@[simp] theorem State.stashLast4_some (k : Coeffs4) : s.stashLast4 (some k) = s.stash4 k := rfl

@[simp] theorem State.stashLast3_e (k : Option Coeffs3) : (s.stashLast3 k).e = s.e := by cases k <;> rfl
@[simp] theorem State.stashLast3_d (k : Option Coeffs3) : (s.stashLast3 k).d = s.d := by cases k <;> rfl
@[simp] theorem State.stashLast3_g (k : Option Coeffs3) : (s.stashLast3 k).g = s.g := by cases k <;> rfl
@[simp] theorem State.stashLast3_c (k : Option Coeffs3) : (s.stashLast3 k).c = s.c := by cases k <;> rfl
@[simp] theorem State.stashLast3_cmd (k : Option Coeffs3) : (s.stashLast3 k).cmd = s.cmd := by cases k <;> rfl
@[simp] theorem State.stashLast3_busy (k : Option Coeffs3) : (s.stashLast3 k).busy = s.busy := by cases k <;> rfl
@[simp] theorem State.stashLast3_done (k : Option Coeffs3) : (s.stashLast3 k).done = s.done := by cases k <;> rfl
@[simp] theorem State.stashLast3_err (k : Option Coeffs3) : (s.stashLast3 k).err = s.err := by cases k <;> rfl
@[simp] theorem State.stashLast3_errcode (k : Option Coeffs3) : (s.stashLast3 k).errcode = s.errcode := by cases k <;> rfl
@[simp] theorem State.stashLast3_ovr (k : Option Coeffs3) : (s.stashLast3 k).ovr = s.ovr := by cases k <;> rfl
@[simp] theorem State.stashLast3_ie (k : Option Coeffs3) : (s.stashLast3 k).ie = s.ie := by cases k <;> rfl
@[simp] theorem State.stashLast3_doneP (k : Option Coeffs3) : (s.stashLast3 k).doneP = s.doneP := by cases k <;> rfl
@[simp] theorem State.stashLast3_iso4 (k : Option Coeffs3) : (s.stashLast3 k).iso4 = s.iso4 := by cases k <;> rfl
@[simp] theorem State.stashLast3_sk (k : Option Coeffs3) : (s.stashLast3 k).sk = s.sk := by cases k <;> rfl
@[simp] theorem State.stashLast3_pk (k : Option Coeffs3) : (s.stashLast3 k).pk = s.pk := by cases k <;> rfl
@[simp] theorem State.stashLast3_buf (k : Option Coeffs3) : (s.stashLast3 k).buf = s.buf := by cases k <;> rfl
@[simp] theorem State.stashLast3_rng (k : Option Coeffs3) : (s.stashLast3 k).rng = s.rng := by cases k <;> rfl
@[simp] theorem State.stashLast3_inputs (k : Option Coeffs3) : (s.stashLast3 k).inputs = s.inputs := by cases k <;> rfl
@[simp] theorem State.stashLast3_rdata (k : Option Coeffs3) : (s.stashLast3 k).rdata = s.rdata := by cases k <;> rfl
@[simp] theorem State.stashLast3_draws (k : Option Coeffs3) : (s.stashLast3 k).draws = s.draws := by cases k <;> rfl
@[simp] theorem State.stashLast3_readE (k : Option Coeffs3) (i : Nat) : (s.stashLast3 k).readE i = s.readE i := by
  cases k <;> rfl
@[simp] theorem State.stashLast3_readV (k : Option Coeffs3) (i : Nat) : (s.stashLast3 k).readV i = s.readV i := by
  cases k <;> rfl
@[simp] theorem State.stashLast3_readPt (k : Option Coeffs3) (i : Nat) : (s.stashLast3 k).readPt i = s.readPt i := by
  cases k <;> rfl
@[simp] theorem State.stashLast3_readCrv (k : Option Coeffs3) (i : Nat) : (s.stashLast3 k).readCrv i = s.readCrv i := by
  cases k <;> rfl
@[simp] theorem State.stashLast3_readD (k : Option Coeffs3) (i : Nat) : (s.stashLast3 k).readD i = s.readD i := by
  cases k <;> rfl
@[simp] theorem State.stashLast3_readG (k : Option Coeffs3) (i : Nat) : (s.stashLast3 k).readG i = s.readG i := by
  cases k <;> rfl
@[simp] theorem State.stashLast3_readSk (k : Option Coeffs3) (i : Nat) : (s.stashLast3 k).readSk i = s.readSk i := by
  cases k <;> rfl
@[simp] theorem State.stashLast3_readPk (k : Option Coeffs3) (i : Nat) : (s.stashLast3 k).readPk i = s.readPk i := by
  cases k <;> rfl
@[simp] theorem State.stashLast3_bufRead (k : Option Coeffs3) (a m : Nat) : (s.stashLast3 k).bufRead a m = s.bufRead a m := by
  cases k <;> rfl
@[simp] theorem State.stashLast3_some (k : Coeffs3) : s.stashLast3 (some k) = s.stash3 k := rfl

/-! ### Taking RNG items -/

@[simp] theorem State.withLeft_readE (left : List RngItem) (i : Nat) :
    ({ s with rng := left } : State).readE i = s.readE i := rfl
@[simp] theorem State.withLeft_readV (left : List RngItem) (i : Nat) :
    ({ s with rng := left } : State).readV i = s.readV i := rfl
@[simp] theorem State.withLeft_readPt (left : List RngItem) (i : Nat) :
    ({ s with rng := left } : State).readPt i = s.readPt i := rfl
@[simp] theorem State.withLeft_readCrv (left : List RngItem) (i : Nat) :
    ({ s with rng := left } : State).readCrv i = s.readCrv i := rfl
@[simp] theorem State.withLeft_readD (left : List RngItem) (i : Nat) :
    ({ s with rng := left } : State).readD i = s.readD i := rfl
@[simp] theorem State.withLeft_readG (left : List RngItem) (i : Nat) :
    ({ s with rng := left } : State).readG i = s.readG i := rfl
@[simp] theorem State.withLeft_readSk (left : List RngItem) (i : Nat) :
    ({ s with rng := left } : State).readSk i = s.readSk i := rfl
@[simp] theorem State.withLeft_readPk (left : List RngItem) (i : Nat) :
    ({ s with rng := left } : State).readPk i = s.readPk i := rfl
@[simp] theorem State.withLeft_bufRead (left : List RngItem) (a m : Nat) :
    ({ s with rng := left } : State).bufRead a m = s.bufRead a m := rfl

end Sys2Proof.Machine
end

