-- ==== Sys2Proof/Laws/Ops.lean ====
section
/-! SUPPORT. What the shared operations of a command can do: its checks, its RNG reads and its two ends. -/

namespace Sys2Proof.Machine

/-! ### The ends of a command -/

theorem complete_eq (s : State) : complete s = .next (s.finish 0) := rfl

theorem raise_eq (e : CmdError) (s : State) : raise e s = .next (s.finish e.code) := rfl

/-- No error has code 0 (R521). -/
theorem CmdError.code_ne_zero (e : CmdError) : e.code ≠ 0 := by cases e <;> decide

/-- Different errors have different codes (R521). -/
theorem CmdError.code_injective {e f : CmdError} (h : e.code = f.code) : e = f := by
  cases e <;> cases f <;> first | rfl | exact absurd h (by decide)

/-! ### The checks -/

@[simp] theorem checked_nil (s : State) (r : Result) : checked s [] r = r := rfl

@[simp] theorem checked_cons (s : State) (ok : Bool) (e : CmdError) (rest : List (Bool × CmdError)) (r : Result) :
    checked s ((ok, e) :: rest) r = if ok then checked s rest r else raise e s := rfl

/-- Where every check holds, the command has its effect (R158, R530). -/
theorem checked_pass {s : State} {cs : List (Bool × CmdError)} {r : Result} (h : ∀ c ∈ cs, c.1 = true) :
    checked s cs r = r := by
  induction cs with
  | nil => rfl
  | cons c cs ih =>
    obtain ⟨ok, e⟩ := c
    have hok : ok = true := h (ok, e) (by simp)
    subst hok
    exact ih fun c hc => h c (List.mem_cons_of_mem _ hc)

/-- All that the checks can do: every one holds and the command has its effect, or the first that fails is
raised with nothing else changed (R522, R524). -/
theorem checked_cases (s : State) (cs : List (Bool × CmdError)) (r : Result) :
    ((∀ c ∈ cs, c.1 = true) ∧ checked s cs r = r) ∨
      ∃ pre e post, cs = pre ++ (false, e) :: post ∧ (∀ c ∈ pre, c.1 = true) ∧ checked s cs r = raise e s := by
  induction cs with
  | nil => exact .inl ⟨by simp, rfl⟩
  | cons c cs ih =>
    obtain ⟨ok, e⟩ := c
    cases ok with
    | false => exact .inr ⟨[], e, cs, rfl, by simp, rfl⟩
    | true =>
      rcases ih with ⟨hall, heq⟩ | ⟨pre, f, post, rfl, hpre, heq⟩
      · refine .inl ⟨?_, heq⟩
        intro c hc
        rcases List.mem_cons.mp hc with rfl | hc
        · rfl
        · exact hall c hc
      · refine .inr ⟨(true, e) :: pre, f, post, rfl, ?_, heq⟩
        intro c hc
        rcases List.mem_cons.mp hc with rfl | hc
        · rfl
        · exact hpre c hc

/-- The inversion of a checked command that answers a next state: every check held and the effect answered it,
or one error of the list ended the command with nothing else changed. -/
theorem checked_inv {s t : State} {cs : List (Bool × CmdError)} {r : Result} (h : checked s cs r = .next t) :
    ((∀ c ∈ cs, c.1 = true) ∧ r = .next t) ∨
      ∃ e, e ∈ cs.map Prod.snd ∧ t = s.finish e.code ∧ ∃ c ∈ cs, c.1 = false := by
  rcases checked_cases s cs r with ⟨hall, heq⟩ | ⟨pre, e, post, rfl, -, heq⟩
  · exact .inl ⟨hall, heq ▸ h⟩
  · refine .inr ⟨e, by simp, ?_, (false, e), by simp, rfl⟩
    rw [heq, raise_eq] at h
    injection h with h
    exact h.symm

/-- A completed command ends in the state with code 0. -/
theorem complete_inv {s t : State} (h : complete s = .next t) : t = s.finish 0 := by
  injection h with h
  exact h.symm

/-! ### The RNG port -/

/-- A read of `n` bytes succeeds exactly where the port delivers `n` bytes next, and takes them (R72). -/
theorem rngRead_eq_some {n : Nat} {items left : List RngItem} {bs : List Byte} :
    rngRead n items = (some bs, left) ↔ items = bs.map some ++ left ∧ bs.length = n := by
  induction n generalizing items bs with
  | zero =>
    simp only [rngRead, Prod.mk.injEq, Option.some.injEq, List.length_eq_zero_iff]
    constructor
    · rintro ⟨rfl, rfl⟩; simp
    · rintro ⟨h, rfl⟩; exact ⟨rfl, h⟩
  | succ n ih =>
    match items with
    | [] => simp [rngRead]; rintro rfl; simp
    | none :: items =>
      simp only [rngRead, Prod.mk.injEq, reduceCtorEq, false_and, false_iff, not_and]
      intro h
      cases bs with
      | nil => simp
      | cons b bs => simp at h
    | some b :: items =>
      simp only [rngRead]
      cases hr : rngRead n items with
      | mk res left' =>
        cases res with
        | none =>
          simp only [Prod.mk.injEq, reduceCtorEq, false_and, false_iff, not_and]
          intro h hlen
          cases bs with
          | nil => simp at hlen
          | cons b' bs =>
            simp only [List.map_cons, List.cons_append, List.cons.injEq, Option.some.injEq] at h
            have := (ih (items := items) (bs := bs)).mpr ⟨h.2, by simpa using hlen⟩
            rw [hr] at this
            simp at this
        | some bs' =>
          have h1 := (ih (items := items) (bs := bs')).mp
          simp only [Prod.mk.injEq, Option.some.injEq]
          constructor
          · rintro ⟨rfl, rfl⟩
            obtain ⟨rfl, hl⟩ := (ih (items := items) (bs := bs') ).mp hr
            simp [hl]
          · rintro ⟨h, hlen⟩
            cases bs with
            | nil => simp at hlen
            | cons b'' bs =>
              simp only [List.map_cons, List.cons_append, List.cons.injEq, Option.some.injEq] at h
              have h2 := (ih (items := items) (bs := bs)).mpr ⟨h.2, by simpa using hlen⟩
              rw [hr] at h2
              simp only [Prod.mk.injEq, Option.some.injEq] at h2
              exact ⟨by rw [h.1, h2.1], h2.2⟩

/-- A read that succeeds takes exactly the bytes it answers. -/
theorem rngRead_append (bs : List Byte) (left : List RngItem) :
    rngRead bs.length (bs.map some ++ left) = (some bs, left) := rngRead_eq_some.mpr ⟨rfl, rfl⟩

/-- A read fails exactly where the port does not deliver `n` bytes next (R72). -/
theorem rngRead_none_iff {n : Nat} {items : List RngItem} :
    (rngRead n items).1 = none ↔ ¬∃ (bs : List Byte) (left : List RngItem), items = bs.map some ++ left ∧ bs.length = n := by
  constructor
  · rintro h ⟨bs, left, hi, hl⟩
    rw [rngRead_eq_some.mpr ⟨hi, hl⟩] at h
    simp at h
  · intro h
    cases hr : rngRead n items with
    | mk res left =>
      cases res with
      | none => rfl
      | some bs => exact absurd ⟨bs, left, rngRead_eq_some.mp hr⟩ h

/-- Whatever a read answers, what is left is the end of what there was (R72). -/
theorem rngRead_suffix (n : Nat) (items : List RngItem) : (rngRead n items).2 <:+ items := by
  induction n generalizing items with
  | zero => exact List.suffix_rfl
  | succ n ih =>
    match items with
    | [] => exact List.suffix_rfl
    | none :: items => exact List.suffix_cons _ _
    | some b :: items =>
      have h := ih items
      simp only [rngRead]
      cases hr : rngRead n items with
      | mk res left =>
        rw [hr] at h
        cases res <;> exact h.trans (List.suffix_cons _ _)

/-- Inside a command, a read that succeeds goes on with its bytes. -/
theorem withRng_some {n : Nat} {s : State} {effect : List Byte → State → Result} {bs : List Byte}
    {left : List RngItem} (h : s.rng = bs.map some ++ left) (hn : bs.length = n) :
    withRng n s effect = effect bs { s with rng := left } := by
  unfold withRng
  rw [rngRead_eq_some.mpr ⟨h, hn⟩]

/-- Inside a command, a read that fails raises `RngFailure` with the items taken lost (R72, R523). -/
theorem withRng_none {n : Nat} {s : State} {effect : List Byte → State → Result}
    (h : ¬∃ (bs : List Byte) (left : List RngItem), s.rng = bs.map some ++ left ∧ bs.length = n) :
    withRng n s effect = raise .rngFailure { s with rng := (rngRead n s.rng).2 } := by
  have h1 := rngRead_none_iff.mpr h
  unfold withRng
  cases hr : rngRead n s.rng with
  | mk res left => rw [hr] at h1; subst h1; rfl

/-- All that a read inside a command can do. -/
theorem withRng_cases (n : Nat) (s : State) (effect : List Byte → State → Result) :
    (∃ (bs : List Byte) (left : List RngItem), s.rng = bs.map some ++ left ∧ bs.length = n ∧
        withRng n s effect = effect bs { s with rng := left }) ∨
      ∃ left, left <:+ s.rng ∧ withRng n s effect = raise .rngFailure { s with rng := left } := by
  by_cases h : ∃ (bs : List Byte) (left : List RngItem), s.rng = bs.map some ++ left ∧ bs.length = n
  · obtain ⟨bs, left, h1, h2⟩ := h
    exact .inl ⟨bs, left, h1, h2, withRng_some h1 h2⟩
  · exact .inr ⟨_, rngRead_suffix n s.rng, withRng_none h⟩

end Sys2Proof.Machine
end

