-- ==== Sys2Proof/Laws/Registers.lean ====
section
/-! SUPPORT. Reading a register, a slot or an alias after writing one: the value written, or what was there. -/

namespace Sys2Proof.Machine

/-- Setting an entry of a register file leaves the others. -/
theorem getD_setIfInBounds_ne {α : Type} {k : Nat} (v : Vector α k) {n m : Nat} (h : m ≠ n) (a d : α) :
    (v.setIfInBounds n a).getD m d = v.getD m d := by
  by_cases hm : m < k
  · simp [Vector.getD, hm, Ne.symm h]
  · simp [Vector.getD, hm]

variable (s : State)

/-! ### The files -/

@[simp] theorem State.readE_writeE_self {n : Nat} (h : n < 64) (v : Fp) :
    (s.writeE n v).readE n = v := by
  simp [State.readE, State.writeE, Vector.getD, h]

@[simp] theorem State.readE_writeE_ne {n m : Nat} (h : m ≠ n) (v : Fp) :
    (s.writeE n v).readE m = s.readE m := getD_setIfInBounds_ne s.e h v _

theorem State.readE_writeE (n m : Nat) (v : Fp) (h : m < 64) :
    (s.writeE n v).readE m = if m = n then v else s.readE m := by
  by_cases e : m = n
  · subst e; simp [h]
  · simp [e]

@[simp] theorem State.readD_writeD_self {n : Nat} (h : n < 4) (v : FpX2) :
    (s.writeD n v).readD n = v := by
  simp [State.readD, State.writeD, Vector.getD, h]

@[simp] theorem State.readD_writeD_ne {n m : Nat} (h : m ≠ n) (v : FpX2) :
    (s.writeD n v).readD m = s.readD m := getD_setIfInBounds_ne s.d h v _

@[simp] theorem State.readG_writeG_self {n : Nat} (h : n < 16) (v : Limb) :
    (s.writeG n v).readG n = v := by
  simp [State.readG, State.writeG, Vector.getD, h]

@[simp] theorem State.readG_writeG_ne {n m : Nat} (h : m ≠ n) (v : Limb) :
    (s.writeG n v).readG m = s.readG m := getD_setIfInBounds_ne s.g h v _

@[simp] theorem State.readSk_writeSk_self {n : Nat} (h : n < 4) (v : SkSlot) :
    (s.writeSk n v).readSk n = v := by
  simp [State.readSk, State.writeSk, Vector.getD, h]

@[simp] theorem State.readSk_writeSk_ne {n m : Nat} (h : m ≠ n) (v : SkSlot) :
    (s.writeSk n v).readSk m = s.readSk m := getD_setIfInBounds_ne s.sk h v _

@[simp] theorem State.readPk_writePk_self {n : Nat} (h : n < 4) (v : PkSlot) :
    (s.writePk n v).readPk n = v := by
  simp [State.readPk, State.writePk, Vector.getD, h]

@[simp] theorem State.readPk_writePk_ne {n m : Nat} (h : m ≠ n) (v : PkSlot) :
    (s.writePk n v).readPk m = s.readPk m := getD_setIfInBounds_ne s.pk h v _

/-! ### The aliases `V`, `Pt` and `Crv` (R53, R54) -/

@[simp] theorem State.readV_writeV_self {k : Nat} (h : k < 32) (v : Fp2) :
    (s.writeV k v).readV k = v := by
  have h0 : 2 * k < 64 := by omega
  have h1 : 2 * k + 1 < 64 := by omega
  simp [State.readV, State.writeV, h0, h1]

/-- Writing `V[k]` leaves every `E` register outside it. -/
theorem State.readE_writeV_ne {k n : Nat} (h0 : n ≠ 2 * k) (h1 : n ≠ 2 * k + 1) (v : Fp2) :
    (s.writeV k v).readE n = s.readE n := by
  simp [State.writeV, h0, h1]

@[simp] theorem State.readV_writeV_ne {k j : Nat} (h : j ≠ k) (v : Fp2) :
    (s.writeV k v).readV j = s.readV j := by
  simp only [State.readV]
  rw [State.readE_writeV_ne, State.readE_writeV_ne] <;> omega

@[simp] theorem State.readPt_writePt_self {k : Nat} (h : k < 16) (p : Pt) :
    (s.writePt k p).readPt k = p := by
  have h0 : 2 * k < 32 := by omega
  have h1 : 2 * k + 1 < 32 := by omega
  simp [State.readPt, State.writePt, h0, h1]

/-- Writing `Pt[k]` leaves every `E` register outside it. -/
theorem State.readE_writePt_ne {k n : Nat} (h : n < 4 * k ∨ 4 * k + 3 < n) (p : Pt) :
    (s.writePt k p).readE n = s.readE n := by
  rw [State.writePt, State.readE_writeV_ne, State.readE_writeV_ne] <;> omega

@[simp] theorem State.readPt_writePt_ne {k j : Nat} (h : j ≠ k) (p : Pt) :
    (s.writePt k p).readPt j = s.readPt j := by
  simp only [State.readPt, State.readV]
  rw [State.readE_writePt_ne, State.readE_writePt_ne, State.readE_writePt_ne, State.readE_writePt_ne] <;>
    omega

/-- A curve register is the point register of the same number. -/
theorem State.writeCrv_eq_writePt (k : Nat) (c : Crv) : s.writeCrv k c = s.writePt k ⟨c.fst, c.snd⟩ := rfl

/-- A curve register is the point register of the same number. -/
theorem State.readCrv_eq_readPt (k : Nat) : s.readCrv k = ⟨(s.readPt k).x, (s.readPt k).z⟩ := rfl

@[simp] theorem State.readCrv_writeCrv_self {k : Nat} (h : k < 16) (c : Crv) :
    (s.writeCrv k c).readCrv k = c := by
  rw [State.readCrv_eq_readPt, State.writeCrv_eq_writePt, State.readPt_writePt_self _ h]

@[simp] theorem State.readCrv_writePt_ne {k j : Nat} (h : j ≠ k) (p : Pt) :
    (s.writePt k p).readCrv j = s.readCrv j := by
  rw [State.readCrv_eq_readPt, State.readPt_writePt_ne _ h, State.readCrv_eq_readPt]

@[simp] theorem State.readPt_writeCrv_ne {k j : Nat} (h : j ≠ k) (c : Crv) :
    (s.writeCrv k c).readPt j = s.readPt j := by
  rw [State.writeCrv_eq_writePt, State.readPt_writePt_ne _ h]

/-- Writing `Crv[k]` leaves every `E` register outside it. -/
theorem State.readE_writeCrv_ne {k n : Nat} (h : n < 4 * k ∨ 4 * k + 3 < n) (c : Crv) :
    (s.writeCrv k c).readE n = s.readE n := by
  rw [State.writeCrv_eq_writePt, State.readE_writePt_ne _ h]

/-- Writing the three points of a `pt3` operand is three point writes (R153). -/
theorem State.writePts_three (k : Nat) (a b c : Pt) :
    s.writePts k [a, b, c] = ((s.writePt k a).writePt (k + 1) b).writePt (k + 2) c := rfl

@[simp] theorem State.writePts_nil (k : Nat) : s.writePts k [] = s := rfl

/-! ### Slots keep their number -/

theorem State.readE_of_le {n : Nat} (h : 64 ≤ n) : s.readE n = 0 := by
  simp [State.readE, Vector.getD, Nat.not_lt.mpr h]

theorem State.readSk_of_le {n : Nat} (h : 4 ≤ n) : s.readSk n = .empty := by
  simp [State.readSk, Vector.getD, Nat.not_lt.mpr h]

theorem State.readPk_of_le {n : Nat} (h : 4 ≤ n) : s.readPk n = .empty := by
  simp [State.readPk, Vector.getD, Nat.not_lt.mpr h]

end Sys2Proof.Machine
end

