-- ==== Sys2Proof/Laws/Bus.lean ====
section
/-! SUPPORT. The boundary of the core: the words of a register in the window (R102, R106), the window map (R103),
one step for each thing that can happen next (R108, R150), and that a command always answers a next state
(R530). -/

namespace Sys2Proof.Machine

/-! ### The words of a register -/

/-- The word at a word index, as a number (R102). -/
theorem toNat_wordOf {n : Nat} (v : BitVec n) (i : Nat) : (wordOf v i).toNat = v.toNat / 2 ^ (32 * i) % 2 ^ 32 := by
  rw [wordOf, BitVec.extractLsb'_toNat, Nat.shiftRight_eq_div_pow]

/-- Bit `k` of a register with one word replaced (R106). -/
theorem getLsbD_withWord {n : Nat} (v : BitVec n) (i : Nat) (x : Word) (k : Nat) (hk : k < n) :
    (withWord v i x).getLsbD k =
      if 32 * i ≤ k ∧ k < 32 * i + 32 then x.getLsbD (k - 32 * i) else v.getLsbD k := by
  have hm : ∀ j, ((0xFFFFFFFF : Word).getLsbD j) = decide (j < 32) := by
    intro j
    by_cases hj : j < 32
    · interval_cases j <;> rfl
    · rw [BitVec.getLsbD_of_ge _ _ (by omega)]; simp [hj]
  simp only [withWord, BitVec.getLsbD_or, BitVec.getLsbD_and, BitVec.getLsbD_not, BitVec.getLsbD_shiftLeft,
    BitVec.getLsbD_setWidth, hm, hk, decide_true, Bool.true_and]
  by_cases h1 : k < 32 * i
  · simp [h1, Nat.not_le.mpr h1]
  · by_cases h2 : k < 32 * i + 32
    · have h3 : k - 32 * i < n := by omega
      have h4 : k - 32 * i < 32 := by omega
      simp [h1, h2, h3, h4, Nat.not_lt.mp h1]
    · have h4 : ¬k - 32 * i < 32 := by omega
      simp [h1, h2, h4, BitVec.getLsbD_of_ge x (k - 32 * i) (by omega)]

/-- A word written into a register is read back there, and every other word is as before (R106). -/
theorem wordOf_withWord {n : Nat} (v : BitVec n) (i j : Nat) (x : Word) (hi : 32 * i + 32 ≤ n)
    (hj : 32 * j + 32 ≤ n) : wordOf (withWord v i x) j = if j = i then x else wordOf v j := by
  apply BitVec.eq_of_getLsbD_eq
  intro b hb
  rw [wordOf, BitVec.getLsbD_extractLsb', getLsbD_withWord _ _ _ _ (by omega)]
  by_cases h : j = i
  · subst h
    simp [hb]
  · have : ¬(32 * i ≤ 32 * j + b ∧ 32 * j + b < 32 * i + 32) := by omega
    simp [h, this, wordOf, hb]

/-! ### The window map -/

/-- `G[n]` is at `0x0100 + 8n`, low word first (R103). -/
theorem placeOf_g (n : Nat) (hn : n < 16) (k : Nat) (hk : k < 2) : placeOf (0x0100 + 8 * n + 4 * k) = .g n k := by
  unfold placeOf
  split_ifs <;> first | omega | exact congrArg₂ _ (by omega) (by omega)

/-- `E[n]` byte `b` is at `0x1000 + 64n + b` (R103). -/
theorem placeOf_e (n : Nat) (hn : n < 64) (k : Nat) (hk : k < 16) : placeOf (0x1000 + 64 * n + 4 * k) = .e n k := by
  unfold placeOf
  split_ifs <;> first | omega | exact congrArg₂ _ (by omega) (by omega)

/-- `D[n]` byte `b` is at `0x2000 + 128n + b` (R103). -/
theorem placeOf_d (n : Nat) (hn : n < 4) (k : Nat) (hk : k < 32) : placeOf (0x2000 + 128 * n + 4 * k) = .d n k := by
  unfold placeOf
  split_ifs <;> first | omega | exact congrArg₂ _ (by omega) (by omega)

/-- `BUF[b]` is at `0x4000 + b` (R103). -/
theorem placeOf_buf (k : Nat) (hk : k < 512) : placeOf (0x4000 + 4 * k) = .buf (4 * k) := by
  unfold placeOf
  split_ifs <;> first | omega | exact congrArg _ (by omega)

/-- The data places are those of the data addresses (R103, R109). -/
theorem isData_placeOf (a : Nat) (ha : a % 4 = 0) : (placeOf a).isData = dataAddress a := by
  unfold placeOf dataAddress
  split_ifs <;> simp [Place.isData] <;> omega

/-- The unmapped addresses of R104. -/
theorem placeOf_unmapped (a : Nat) (h4 : a % 4 = 0) (h : unmappedAddress a = true) : placeOf a = .unmapped := by
  simp only [unmappedAddress, dataAddress, Bool.and_eq_true, decide_eq_true_eq, Bool.not_eq_true', Bool.or_eq_false_iff,
    Bool.and_eq_false_iff, decide_eq_false_iff_not, beq_eq_false_iff_ne] at h
  unfold placeOf
  split_ifs <;> first | rfl | omega

/-! ### One step -/

/-- An aligned word address is admitted (R105). -/
theorem admitted_word (a : Nat) (h : a % 4 = 0) : admitted .word (BitVec.ofNat 16 a) = true := by
  simp only [admitted, BitVec.toNat_ofNat, beq_self_eq_true, Bool.true_and, beq_iff_eq]; omega

/-- The step of a host read of an aligned word. -/
theorem step_withRead (s : State) (a : Nat) (rest : List Input) (h4 : a % 4 = 0) (h : a < 65536) :
    step (s.withRead a rest) = .next (({ s with inputs := rest } : State).hostRead (placeOf a)) := by
  have ha : (BitVec.ofNat 16 a).toNat = a := Nat.mod_eq_of_lt h
  simp only [step, turn, State.withRead, admitted_word a h4, if_true, ha]

/-- The step of a host write of an aligned word. -/
theorem step_withWrite (s : State) (a : Nat) (x : Word) (rest : List Input) (h4 : a % 4 = 0) (h : a < 65536) :
    step (s.withWrite a x rest) = .next (({ s with inputs := rest } : State).hostWrite (placeOf a) x) := by
  have ha : (BitVec.ofNat 16 a).toNat = a := Nat.mod_eq_of_lt h
  simp only [step, turn, State.withWrite, admitted_word a h4, if_true, ha]

/-- The step of the core's turn with a command in progress. -/
theorem step_run {s : State} {rest : List Input} (hb : s.busy = true) (h : s.inputs = .run :: rest) :
    step s = execute { s with inputs := rest } := by
  simp only [step, turn, h, coreTurn, hb, if_true]

theorem execute_ok {s : State} {i : Instr} (h : decode s.cmd = .ok i) : execute s = exec i s := by
  simp only [execute, h]

theorem execute_error {s : State} {e : DecodeReject} (h : decode s.cmd = .error e) :
    execute s = raise .illegalOpcode s := by
  simp only [execute, h]

/-! ### Commands always answer -/

/-- The result is a next state. -/
def Result.isNext : Result → Prop
  | .next _ => True
  | _ => False

theorem isNext_complete (s : State) : Result.isNext (complete s) := trivial

theorem isNext_raise (e : CmdError) (s : State) : Result.isNext (raise e s) := trivial

theorem isNext_checked (s : State) (cs : List (Bool × CmdError)) {r : Result} (h : Result.isNext r) :
    Result.isNext (checked s cs r) := by
  rcases checked_cases s cs r with ⟨-, h1⟩ | ⟨_, e, _, _, _, h1⟩
  · rw [h1]; exact h
  · rw [h1]; exact isNext_raise e s

theorem isNext_withRng (n : Nat) (s : State) {effect : List Byte → State → Result}
    (h : ∀ bs t, Result.isNext (effect bs t)) : Result.isNext (withRng n s effect) := by
  rcases withRng_cases n s effect with ⟨bs, left, -, -, h1⟩ | ⟨left, -, h1⟩
  · rw [h1]; exact h _ _
  · rw [h1]; exact isNext_raise _ _

end Sys2Proof.Machine
end

