-- ==== Sys2Proof/Laws/Encoding.lean ====
section
/-! SUPPORT. The fields of a command word (R151), and the bits a command reads (R152). -/

namespace Sys2Proof

/-- Bit `i` of a command word, by the field it lies in (R151). -/
theorem getLsbD_cmdWord (o : BitVec 8) (a b c d : Field) (i : Nat) (hi : i < 32) :
    (cmdWord o a b c d).getLsbD i =
      if i < 8 then o.getLsbD i else if i < 14 then a.getLsbD (i - 8) else if i < 20 then b.getLsbD (i - 14)
      else if i < 26 then c.getLsbD (i - 20) else d.getLsbD (i - 26) := by
  simp only [cmdWord, BitVec.getLsbD_or, BitVec.getLsbD_shiftLeft, BitVec.getLsbD_setWidth]
  interval_cases i <;> simp

theorem opcOf_cmdWord (o : BitVec 8) (a b c d : Field) : opcOf (cmdWord o a b c d) = o := by
  apply BitVec.eq_of_getLsbD_eq
  intro i hi
  simp only [opcOf, BitVec.getLsbD_extractLsb', getLsbD_cmdWord _ _ _ _ _ (0 + i) (by omega)]
  simp [hi]

theorem rdOf_cmdWord (o : BitVec 8) (a b c d : Field) : rdOf (cmdWord o a b c d) = a := by
  apply BitVec.eq_of_getLsbD_eq
  intro i hi
  simp only [rdOf, BitVec.getLsbD_extractLsb', getLsbD_cmdWord _ _ _ _ _ (8 + i) (by omega)]
  interval_cases i <;> simp

theorem rs1Of_cmdWord (o : BitVec 8) (a b c d : Field) : rs1Of (cmdWord o a b c d) = b := by
  apply BitVec.eq_of_getLsbD_eq
  intro i hi
  simp only [rs1Of, BitVec.getLsbD_extractLsb', getLsbD_cmdWord _ _ _ _ _ (14 + i) (by omega)]
  interval_cases i <;> simp

theorem rs2Of_cmdWord (o : BitVec 8) (a b c d : Field) : rs2Of (cmdWord o a b c d) = c := by
  apply BitVec.eq_of_getLsbD_eq
  intro i hi
  simp only [rs2Of, BitVec.getLsbD_extractLsb', getLsbD_cmdWord _ _ _ _ _ (20 + i) (by omega)]
  interval_cases i <;> simp

theorem rs3Of_cmdWord (o : BitVec 8) (a b c d : Field) : rs3Of (cmdWord o a b c d) = d := by
  apply BitVec.eq_of_getLsbD_eq
  intro i hi
  simp only [rs3Of, BitVec.getLsbD_extractLsb', getLsbD_cmdWord _ _ _ _ _ (26 + i) (by omega)]
  interval_cases i <;> simp

/-- Every word is the command word of its own fields (R151). -/
theorem cmdWord_fields (w : Word) : cmdWord (opcOf w) (rdOf w) (rs1Of w) (rs2Of w) (rs3Of w) = w := by
  apply BitVec.eq_of_getLsbD_eq
  intro i hi
  rw [getLsbD_cmdWord _ _ _ _ _ _ hi]
  simp only [opcOf, rdOf, rs1Of, rs2Of, rs3Of, BitVec.getLsbD_extractLsb']
  interval_cases i <;> simp

/-- Masking a word keeps the opcode and the used fields, and zeroes the rest (R152). -/
theorem and_usedBits (w : Word) (rd rs1 rs2 rs3 : Bool) :
    w &&& usedBits rd rs1 rs2 rs3 =
      cmdWord (opcOf w) (if rd then rdOf w else 0) (if rs1 then rs1Of w else 0) (if rs2 then rs2Of w else 0)
        (if rs3 then rs3Of w else 0) := by
  apply BitVec.eq_of_getLsbD_eq
  intro i hi
  rw [BitVec.getLsbD_and, usedBits, getLsbD_cmdWord _ _ _ _ _ _ hi, getLsbD_cmdWord _ _ _ _ _ _ hi]
  simp only [opcOf, rdOf, rs1Of, rs2Of, rs3Of]
  cases rd <;> cases rs1 <;> cases rs2 <;> cases rs3 <;> interval_cases i <;>
    simp

end Sys2Proof
end

