-- ==== Sys2Proof/Laws/Formulas.lean ====
section
/-! SUPPORT. The formulas of 43_curve.md and 44_isogeny.md, the ladder and the traversal keep the range
`[0, 2p)` of register values (R272). Each formula is a composition of operations that keep it. -/

namespace Sys2Proof.Machine

/-! ### Points -/

theorem xDBL_inRange {p : Pt} {a b : Fp2} (hp : p.inRange) (ha : a.inRange) (hb : b.inRange) :
    (xDBL p a b).inRange := by
  obtain ⟨hx, hz⟩ := hp
  constructor <;> simp only [xDBL]
  all_goals
    repeat (with_reducible first
      | assumption | apply f2mul_inRange | apply f2sqr_inRange | apply f2add_inRange | apply f2sub_inRange)

theorem xTPL_inRange {p : Pt} {a b : Fp2} (hp : p.inRange) (ha : a.inRange) (hb : b.inRange) :
    (xTPL p a b).inRange := by
  obtain ⟨hx, hz⟩ := hp
  constructor <;> simp only [xTPL]
  all_goals
    repeat (with_reducible first
      | assumption | apply f2mul_inRange | apply f2sqr_inRange | apply f2add_inRange | apply f2sub_inRange)

theorem pow2k_succ (k : Nat) (crv : Crv) (p : Pt) :
    pow2k (k + 1) crv p = xDBL (pow2k k crv p) crv.fst crv.snd := by
  simp only [pow2k, Function.iterate_succ_apply']

theorem pow3k_succ (k : Nat) (crv : Crv) (p : Pt) :
    pow3k (k + 1) crv p = xTPL (pow3k k crv p) crv.snd crv.fst := by
  simp only [pow3k, Function.iterate_succ_apply']

theorem pow2k_inRange {crv : Crv} {p : Pt} (k : Nat) (hc : crv.inRange) (hp : p.inRange) :
    (pow2k k crv p).inRange := by
  induction k with
  | zero => exact hp
  | succ k ih => rw [pow2k_succ]; exact xDBL_inRange ih hc.1 hc.2

theorem pow3k_inRange {crv : Crv} {p : Pt} (k : Nat) (hc : crv.inRange) (hp : p.inRange) :
    (pow3k k crv p).inRange := by
  induction k with
  | zero => exact hp
  | succ k ih => rw [pow3k_succ]; exact xTPL_inRange ih hc.2 hc.1

theorem xDBLADD_inRange {p q r : Pt} {a : Fp2} (hp : p.inRange) (hq : q.inRange) (hr : r.inRange)
    (ha : a.inRange) :
    (xDBLADD p q r a).1.inRange ∧ (xDBLADD p q r a).2.inRange := by
  obtain ⟨px, pz⟩ := hp
  obtain ⟨qx, qz⟩ := hq
  obtain ⟨rx, rz⟩ := hr
  refine ⟨⟨?_, ?_⟩, ?_, ?_⟩ <;> simp only [xDBLADD]
  all_goals
    repeat (with_reducible first
      | assumption | apply f2mul_inRange | apply f2sqr_inRange | apply f2add_inRange | apply f2sub_inRange)

/-! ### The ladder -/

/-- The three points of the ladder are in range. -/
def LadderPoints.inRange (r : LadderPoints) : Prop := r.r0.inRange ∧ r.r1.inRange ∧ r.r2.inRange

theorem ladderA24_inRange {crv : Crv} (h : crv.inRange) : (ladderA24 crv).inRange := by
  obtain ⟨hf, hs⟩ := h
  have h2 := f2add_inRange hs hs
  exact f2mul_inRange (f2add_inRange hf h2) (f2inv_inRange (f2add_inRange h2 h2))

theorem ladderStep_inRange {a : Fp2} (ha : a.inRange) (bit : Bool) {r : LadderPoints} (h : r.inRange) :
    (ladderStep a bit r).inRange := by
  obtain ⟨h0, h1, h2⟩ := h
  have ht := xDBLADD_inRange h0 h1 h2 ha
  have hf := xDBLADD_inRange h0 h2 h1 ha
  unfold ladderStep
  split
  · exact ⟨ht.1, ht.2, h2⟩
  · exact ⟨hf.1, h1, hf.2⟩

/-- One more bit of the ladder (R297). -/
theorem ladderRun_succ (a : Fp2) (scalar : List Byte) (n : Nat) (r : LadderPoints) :
    ladderRun a scalar (n + 1) r = ladderStep a (scalarBit scalar n) (ladderRun a scalar n r) := by
  simp [ladderRun, List.range_succ]

theorem ladderRun_inRange {a : Fp2} (ha : a.inRange) (scalar : List Byte) (n : Nat) {r : LadderPoints}
    (h : r.inRange) : (ladderRun a scalar n r).inRange := by
  induction n with
  | zero => exact h
  | succ n ih => rw [ladderRun_succ]; exact ladderStep_inRange ha _ ih

theorem ladder3pt_inRange {crv : Crv} {p q r : Pt} (bitlen : Nat) (scalar : List Byte) (hc : crv.inRange)
    (hp : p.inRange) (hq : q.inRange) (hr : r.inRange) : (ladder3pt crv p q r bitlen scalar).inRange :=
  (ladderRun_inRange (ladderA24_inRange hc) scalar bitlen (r := ⟨q, p, r⟩) ⟨hq, hp, hr⟩).2.1

/-! ### Curves -/

theorem curveEquiv4_inRange {c : Crv} (h : c.inRange) :
    (curveEquiv4 c).inRange := by
  obtain ⟨hf, hs⟩ := h
  constructor <;> simp only [curveEquiv4]
  all_goals
    repeat (with_reducible first
      | assumption | apply f2mul_inRange | apply f2sqr_inRange | apply f2add_inRange | apply f2sub_inRange)

theorem curveEquiv3_inRange {c : Crv} (h : c.inRange) :
    (curveEquiv3 c).inRange := by
  obtain ⟨hf, hs⟩ := h
  constructor <;> simp only [curveEquiv3]
  all_goals
    repeat (with_reducible first
      | assumption | apply f2mul_inRange | apply f2sqr_inRange | apply f2add_inRange | apply f2sub_inRange)

theorem curveRecover4_inRange {c : Crv} (h : c.inRange) :
    (curveRecover4 c).inRange := by
  obtain ⟨hf, hs⟩ := h
  constructor <;> simp only [curveRecover4]
  all_goals
    repeat (with_reducible first
      | assumption | apply f2mul_inRange | apply f2sqr_inRange | apply f2add_inRange | apply f2sub_inRange)

theorem curveRecover3_inRange {c : Crv} (h : c.inRange) :
    (curveRecover3 c).inRange := by
  obtain ⟨hf, hs⟩ := h
  constructor <;> simp only [curveRecover3]
  all_goals
    repeat (with_reducible first
      | assumption | apply f2mul_inRange | apply f2sqr_inRange | apply f2add_inRange | apply f2sub_inRange)

theorem recoverA_inRange {p q r : Fp2} (hp : p.inRange) (hq : q.inRange) (hr : r.inRange) :
    (recoverA p q r).inRange := by
  have h1 := one2_inRange
  refine ⟨?_, h1⟩
  simp only [recoverA]
  repeat (with_reducible first
    | assumption | apply f2inv_inRange | apply f2mul_inRange | apply f2sqr_inRange | apply f2add_inRange
    | apply f2sub_inRange)

theorem jInvariant_inRange {c : Crv} (h : c.inRange) : (jInvariant c).inRange := by
  obtain ⟨hf, hs⟩ := h
  simp only [jInvariant]
  repeat (with_reducible first
    | assumption | apply f2inv_inRange | apply f2mul_inRange | apply f2sqr_inRange | apply f2add_inRange
    | apply f2sub_inRange)

/-! ### Isogenies -/

/-- The coefficients of a 4-isogeny are in range. -/
def Coeffs4.inRange (k : Coeffs4) : Prop := k.k1.inRange ∧ k.k2.inRange ∧ k.k3.inRange

/-- The coefficients of a 3-isogeny are in range. -/
def Coeffs3.inRange (k : Coeffs3) : Prop := k.k1.inRange ∧ k.k2.inRange

theorem get4_inRange {k : Pt} (h : k.inRange) : (get4 k).1.inRange ∧ (get4 k).2.inRange := by
  obtain ⟨hx, hz⟩ := h
  refine ⟨⟨?_, ?_⟩, ?_, ?_, ?_⟩ <;> simp only [get4]
  all_goals
    repeat (with_reducible first
      | assumption | apply f2mul_inRange | apply f2sqr_inRange | apply f2add_inRange | apply f2sub_inRange)

theorem get3_inRange {k : Pt} (h : k.inRange) : (get3 k).1.inRange ∧ (get3 k).2.inRange := by
  obtain ⟨hx, hz⟩ := h
  refine ⟨⟨?_, ?_⟩, ?_, ?_⟩ <;> simp only [get3]
  all_goals
    repeat (with_reducible first
      | assumption | apply f2mul_inRange | apply f2sqr_inRange | apply f2add_inRange | apply f2sub_inRange)

theorem eval4_inRange {p : Pt} {k : Coeffs4} (hp : p.inRange) (hk : k.inRange) : (eval4 p k).inRange := by
  obtain ⟨hx, hz⟩ := hp
  obtain ⟨h1, h2, h3⟩ := hk
  constructor <;> simp only [eval4]
  all_goals
    repeat (with_reducible first
      | assumption | apply f2mul_inRange | apply f2sqr_inRange | apply f2add_inRange | apply f2sub_inRange)

theorem eval3_inRange {p : Pt} {k : Coeffs3} (hp : p.inRange) (hk : k.inRange) : (eval3 p k).inRange := by
  obtain ⟨hx, hz⟩ := hp
  obtain ⟨h1, h2⟩ := hk
  constructor <;> simp only [eval3]
  all_goals
    repeat (with_reducible first
      | assumption | apply f2mul_inRange | apply f2sqr_inRange | apply f2add_inRange | apply f2sub_inRange)

/-! ### The traversal -/

/-- What a family of isogenies keeps, with `ok` the range of its coefficients. -/
structure IsogenyFamily.KeepsRange {κ : Type} (fam : IsogenyFamily κ) (ok : κ → Prop) : Prop where
  gen : ∀ p, p.inRange → (fam.gen p).1.inRange ∧ ok (fam.gen p).2
  eval : ∀ p k, p.inRange → ok k → (fam.eval p k).inRange
  step : ∀ c k p, c.inRange → p.inRange → (fam.step c k p).inRange

theorem family4_keepsRange : family4.KeepsRange Coeffs4.inRange :=
  ⟨fun _ h => get4_inRange h, fun _ _ hp hk => eval4_inRange hp hk, fun _ _ _ hc hp => pow2k_inRange _ hc hp⟩

theorem family3_keepsRange : family3.KeepsRange Coeffs3.inRange :=
  ⟨fun _ h => get3_inRange h, fun _ _ hp hk => eval3_inRange hp hk, fun _ _ _ hc hp => pow3k_inRange _ hc hp⟩

/-- Every value in the traversal's working state is in range. -/
structure Frame.inRange {κ : Type} (ok : κ → Prop) (f : Frame κ) : Prop where
  crv : f.crv.inRange
  r : f.r.inRange
  stack : ∀ x ∈ f.stack, x.1.inRange
  basis : ∀ b ∈ f.basis, b.inRange
  coeffs : ∀ k, f.coeffs = some k → ok k

theorem pushLoop_inRange {κ : Type} {fam : IsogenyFamily κ} {ok : κ → Prop} (hf : fam.KeepsRange ok) {crv : Crv}
    (hc : crv.inRange) (bound : Nat) (strat : List Nat) {r : Pt} (i : Nat) {st : List (Pt × Nat)}
    (hr : r.inRange) (hs : ∀ x ∈ st, x.1.inRange) :
    (pushLoop fam crv bound strat r i st).1.inRange ∧
      ∀ x ∈ (pushLoop fam crv bound strat r i st).2.2.1, x.1.inRange := by
  induction strat generalizing r i st with
  | nil => exact ⟨hr, hs⟩
  | cons k rest ih =>
    rw [pushLoop]
    split
    · exact ih (i + k) (hf.step _ _ _ hc hr) (List.forall_mem_cons.mpr ⟨hr, hs⟩)
    · exact ⟨hr, hs⟩

theorem walkRound_inRange {κ : Type} {fam : IsogenyFamily κ} {ok : κ → Prop} (hf : fam.KeepsRange ok) (bound : Nat)
    {f : Frame κ} (h : f.inRange ok) : (walkRound fam bound f).inRange ok := by
  obtain ⟨hr, hs⟩ := pushLoop_inRange hf h.crv bound f.strat f.i h.r h.stack
  have hg := hf.gen _ hr
  have hst : ∀ x ∈ ((pushLoop fam f.crv bound f.strat f.r f.i f.stack).2.2.1.map fun entry =>
      (fam.eval entry.1 (fam.gen (pushLoop fam f.crv bound f.strat f.r f.i f.stack).1).2, entry.2)), x.1.inRange := by
    intro x hx
    obtain ⟨y, hy, rfl⟩ := List.mem_map.mp hx
    exact hf.eval _ _ (hs y hy) hg.2
  refine ⟨hg.1, ?_, fun x hx => hst x (List.mem_of_mem_tail hx), ?_, ?_⟩
  · simp only [walkRound]
    cases hl : ((pushLoop fam f.crv bound f.strat f.r f.i f.stack).2.2.1.map fun entry =>
      (fam.eval entry.1 (fam.gen (pushLoop fam f.crv bound f.strat f.r f.i f.stack).1).2, entry.2)) with
    | nil => exact hr
    | cons x xs => exact hst x (by rw [hl]; exact List.mem_cons_self)
  · intro b hb
    obtain ⟨y, hy, rfl⟩ := List.mem_map.mp hb
    exact hf.eval _ _ (h.basis y hy) hg.2
  · intro k hk
    obtain rfl := Option.some.inj hk
    exact hg.2

/-- The traversal keeps the range. -/
theorem traverse_inRange {κ : Type} {fam : IsogenyFamily κ} {ok : κ → Prop} (hf : fam.KeepsRange ok)
    (strat : List Nat) {c : Crv} {r : Pt} {b : List Pt} (hc : c.inRange) (hr : r.inRange)
    (hb : ∀ x ∈ b, x.inRange) : (traverse fam strat c r b).inRange ok := by
  have h : ∀ (rounds : Nat) (f : Frame κ), f.inRange ok → (walkRounds fam rounds f).inRange ok := by
    intro rounds
    induction rounds with
    | zero => exact fun _ h => h
    | succ n ih => exact fun f h => ih _ (walkRound_inRange hf n h)
  exact h _ _ ⟨hc, hr, by simp, hb, by simp⟩

end Sys2Proof.Machine
end

