-- ==== Sys2Proof/Laws/Frames.lean ====
section
/-! SUPPORT. The frame `KeepsRest` and the end `Completed`, update by update: an update inside what may be
written keeps the frame. -/

namespace Sys2Proof.Machine

variable {w : Writes} {s t : State}

/-! ### The end of a command -/

theorem completed_finish (s : State) (code : BitVec 4) : Completed code (s.finish code) :=
  ⟨rfl, rfl, rfl, rfl, rfl⟩

theorem KeepsRest.refl (w : Writes) (s : State) : KeepsRest w s s :=
  ⟨fun _ _ _ => rfl, fun _ _ _ => rfl, fun _ _ _ => rfl, fun _ => rfl, fun _ => rfl, fun _ => rfl,
    fun _ _ _ => rfl, fun _ _ _ => rfl, fun _ _ _ => rfl, fun _ => rfl, rfl, rfl, rfl, rfl, rfl, rfl⟩

theorem KeepsRest.finish (h : KeepsRest w s t) (code : BitVec 4) : KeepsRest w s (t.finish code) :=
  ⟨h.e, h.d, h.g, h.c, h.iso4, h.iso3, h.sk, h.pk, h.buf, h.rng, h.cmd, h.ovr, h.ie, h.inputs, h.rdata, h.draws⟩

/-- A command whose run is a completion in `u` completes, with the frame and the result of `u`. -/
theorem CompletesWith.of_complete {i : Instr} {u : State} {result : State → Prop} (h : exec i s = complete u)
    (hk : KeepsRest w s u) (hr : result (u.finish 0)) : CompletesWith i s w result :=
  ⟨u.finish 0, h, completed_finish u 0, hk.finish 0, hr⟩

/-- A command whose run is a raise from its own state raises, with nothing else changed (R523). -/
theorem Raises.of_raise {i : Instr} {e : CmdError} (h : exec i s = raise e s) : Raises i s e :=
  ⟨s.finish e.code, h, completed_finish s e.code, (KeepsRest.refl {} s).finish e.code⟩

/-- A command that runs out of random bytes, with what is left of the port (R72, R523). -/
theorem RaisesRngFailure.of_raise {i : Instr} {left : List RngItem}
    (h : exec i s = raise .rngFailure { s with rng := left }) (hl : left <:+ s.rng) : RaisesRngFailure i s :=
  ⟨_, h, completed_finish _ _,
    ⟨fun _ _ _ => rfl, fun _ _ _ => rfl, fun _ _ _ => rfl, fun _ => rfl, fun _ => rfl, fun _ => rfl,
      fun _ _ _ => rfl, fun _ _ _ => rfl, fun _ _ _ => rfl, (nomatch ·), rfl, rfl, rfl, rfl, rfl, rfl⟩, hl⟩

/-! ### One update -/

theorem KeepsRest.writeE (h : KeepsRest w s t) {n : Nat} (hn : n ∈ w.e) (v : Fp) :
    KeepsRest w s (t.writeE n v) :=
  { h with
    e := fun m hm hw => by
      rw [State.readE_writeE_ne _ (ne_of_mem_of_not_mem hn hw).symm]; exact h.e m hm hw }

theorem KeepsRest.writeD (h : KeepsRest w s t) {n : Nat} (hn : n ∈ w.d) (v : FpX2) :
    KeepsRest w s (t.writeD n v) :=
  { h with
    d := fun m hm hw => by
      rw [State.readD_writeD_ne _ (ne_of_mem_of_not_mem hn hw).symm]; exact h.d m hm hw }

theorem KeepsRest.writeG (h : KeepsRest w s t) {n : Nat} (hn : n ∈ w.g) (v : Limb) :
    KeepsRest w s (t.writeG n v) :=
  { h with
    g := fun m hm hw => by
      rw [State.readG_writeG_ne _ (ne_of_mem_of_not_mem hn hw).symm]; exact h.g m hm hw }

theorem KeepsRest.writeSk (h : KeepsRest w s t) {n : Nat} (hn : n ∈ w.sk) (v : SkSlot) :
    KeepsRest w s (t.writeSk n v) :=
  { h with
    sk := fun m hm hw => by
      rw [State.readSk_writeSk_ne _ (ne_of_mem_of_not_mem hn hw).symm]; exact h.sk m hm hw }

theorem KeepsRest.writePk (h : KeepsRest w s t) {n : Nat} (hn : n ∈ w.pk) (v : PkSlot) :
    KeepsRest w s (t.writePk n v) :=
  { h with
    pk := fun m hm hw => by
      rw [State.readPk_writePk_ne _ (ne_of_mem_of_not_mem hn hw).symm]; exact h.pk m hm hw }

theorem KeepsRest.writeC (h : KeepsRest w s t) (hc : w.c = true) (b : Bool) : KeepsRest w s (t.writeC b) :=
  { h with c := fun hf => by rw [hc] at hf; cases hf }

theorem KeepsRest.stash4 (h : KeepsRest w s t) (hw : w.iso4 = true) (k : Coeffs4) : KeepsRest w s (t.stash4 k) :=
  { h with iso4 := fun hf => by rw [hw] at hf; cases hf }

theorem KeepsRest.stash3 (h : KeepsRest w s t) (hw : w.iso3 = true) (k : Coeffs3) : KeepsRest w s (t.stash3 k) :=
  { h with iso3 := fun hf => by rw [hw] at hf; cases hf }

theorem KeepsRest.stashLast4 (h : KeepsRest w s t) (hw : w.iso4 = true) (k : Option Coeffs4) :
    KeepsRest w s (t.stashLast4 k) := by
  cases k with
  | none => exact h
  | some k => exact h.stash4 hw k

theorem KeepsRest.stashLast3 (h : KeepsRest w s t) (hw : w.iso3 = true) (k : Option Coeffs3) :
    KeepsRest w s (t.stashLast3 k) := by
  cases k with
  | none => exact h
  | some k => exact h.stash3 hw k

theorem KeepsRest.clearStashes (h : KeepsRest w s t) (h4 : w.iso4 = true) (h3 : w.iso3 = true) :
    KeepsRest w s t.clearStashes :=
  { h with iso4 := fun hf => by (rw [h4] at hf; cases hf), iso3 := fun hf => by (rw [h3] at hf; cases hf) }

/-- Bytes written inside a range that may be written. -/
theorem KeepsRest.bufWrite (h : KeepsRest w s t) {off n : Nat} {bs : List Byte} (hw : (off, n) ∈ w.buf)
    (hn : bs.length ≤ n) : KeepsRest w s (t.bufWrite off bs) :=
  { h with
    buf := fun a ha hout => by
      have h1 := hout (off, n) hw
      have h2 : Memory.read (t.bufWrite off bs).buf a = Memory.read t.buf a :=
        Memory.read_writeBytes_outside (by simp only at h1; omega)
      rw [h2]; exact h.buf a ha hout }

/-- RNG items taken. -/
theorem KeepsRest.takeRng (h : KeepsRest w s t) (hw : w.rng = true) (left : List RngItem) :
    KeepsRest w s { t with rng := left } :=
  { h with rng := fun hf => by rw [hw] at hf; cases hf }

/-! ### Views of `E` -/

theorem KeepsRest.writeV (h : KeepsRest w s t) {k : Nat} (hk : ∀ n ∈ vRegs k, n ∈ w.e) (v : Fp2) :
    KeepsRest w s (t.writeV k v) :=
  (h.writeE (hk _ (by simp [vRegs])) v.re).writeE (hk _ (by simp [vRegs])) v.im

theorem ptRegs_eq (k : Nat) : ptRegs k = vRegs (2 * k) ++ vRegs (2 * k + 1) := by
  simp [ptRegs, vRegs]; omega

theorem KeepsRest.writePt (h : KeepsRest w s t) {k : Nat} (hk : ∀ n ∈ ptRegs k, n ∈ w.e) (p : Pt) :
    KeepsRest w s (t.writePt k p) := by
  rw [ptRegs_eq] at hk
  exact (h.writeV (fun n hn => hk n (List.mem_append_left _ hn)) p.x).writeV
    (fun n hn => hk n (List.mem_append_right _ hn)) p.z

theorem KeepsRest.writeCrv (h : KeepsRest w s t) {k : Nat} (hk : ∀ n ∈ ptRegs k, n ∈ w.e) (c : Crv) :
    KeepsRest w s (t.writeCrv k c) := by
  rw [State.writeCrv_eq_writePt]; exact h.writePt hk _

theorem KeepsRest.writePts (h : KeepsRest w s t) {k : Nat} (ps : List Pt)
    (hk : ∀ i < ps.length, ∀ n ∈ ptRegs (k + i), n ∈ w.e) : KeepsRest w s (t.writePts k ps) := by
  induction ps generalizing t k with
  | nil => exact h
  | cons p ps ih =>
    refine ih (h.writePt (hk 0 (by simp)) p) fun i hi n hn => hk (i + 1) (by simpa using hi) n ?_
    rwa [show k + (i + 1) = k + 1 + i by omega]

end Sys2Proof.Machine
end

