-- ==== Sys2Proof/Laws/Operands.lean ====
section
/-! SUPPORT. The operand checks of the meanings agree with the operand classes of `Instr.wellFormed` (R153). -/

namespace Sys2Proof.Machine

theorem admits_v (f : Field) : OperandClass.v.admits f = okV f := by
  simp only [OperandClass.admits, okV, decide_eq_decide]; omega

theorem admits_v3 (f : Field) : OperandClass.v3.admits f = okV3 f := by
  simp only [OperandClass.admits, okV3, decide_eq_decide]; omega

theorem admits_pt (f : Field) : OperandClass.pt.admits f = okPt f := by
  simp only [OperandClass.admits, okPt, decide_eq_decide]; omega

theorem admits_crv (f : Field) : OperandClass.crv.admits f = okPt f := by
  simp only [OperandClass.admits, okPt, decide_eq_decide]; omega

theorem admits_pt3 (f : Field) : OperandClass.pt3.admits f = okPt3 f := by
  simp only [OperandClass.admits, okPt3, decide_eq_decide]; omega

theorem admits_d (f : Field) : OperandClass.d.admits f = okD f := by
  simp only [OperandClass.admits, okD, decide_eq_decide]; omega

theorem admits_g (f : Field) : OperandClass.g.admits f = okG 1 f := by
  simp only [OperandClass.admits, okG]

theorem admits_gs {n : Nat} (h : n ≤ 16) (f : Field) : (OperandClass.gs n).admits f = okG n f := by
  simp only [OperandClass.admits, okG, decide_eq_decide]; omega

theorem admits_sk (f : Field) : OperandClass.sk.admits f = okSlot f := by
  simp only [OperandClass.admits, okSlot, decide_eq_decide]; omega

theorem admits_pk (f : Field) : OperandClass.pk.admits f = okSlot f := by
  simp only [OperandClass.admits, okSlot, decide_eq_decide]; omega

theorem admits_cs (f : Field) : OperandClass.cs.admits f = okCs f := by
  simp only [OperandClass.admits, okCs, decide_eq_decide]; omega

theorem admits_var (f : Field) : OperandClass.var.admits f = okVar f := by
  simp only [OperandClass.admits, okVar, ← Bool.decide_and, decide_eq_decide]; omega

theorem admits_e (f : Field) : OperandClass.e.admits f = true := rfl

theorem admits_imm1 (f : Field) : OperandClass.imm1.admits f = true := rfl

/-- Two fields are equal where their values are. -/
theorem field_eq_iff (a b : Field) : a = b ↔ a.toNat = b.toNat := BitVec.toNat_eq

/-- The `pt3` overlap check as a membership (R155). -/
theorem okOutside3_iff (f base : Field) :
    okOutside3 f base = true ↔ f.toNat ∉ [base.toNat, base.toNat + 1, base.toNat + 2] := by
  simp only [okOutside3, decide_eq_true_eq, List.mem_cons, List.not_mem_nil, or_false]; omega

/-- The three written points of a `pt3` field, with two more, are apart exactly where the checks hold (R155). -/
theorem writtenPoints_nodup (a b c : Field) :
    [a.toNat, b.toNat, c.toNat, c.toNat + 1, c.toNat + 2].Nodup ↔
      a ≠ b ∧ okOutside3 a c = true ∧ okOutside3 b c = true := by
  simp only [okOutside3, decide_eq_true_eq, List.nodup_cons, List.mem_cons, List.not_mem_nil, or_false,
    not_false_eq_true, List.nodup_nil, and_true, ne_eq, field_eq_iff]
  omega

/-- The checks on the fields of each command are `Instr.wellFormed` (R153, R155). -/
theorem wellFormed_mul64 (rd rs1 rs2 rs3 : Field) :
    (Instr.mul64 rd rs1 rs2 rs3).wellFormed =
      (okG 1 rd && okG 1 rs1 && okG 1 rs2 && okG 1 rs3 && rd != rs3) := by
  rw [Bool.eq_iff_iff]
  simp [Instr.wellFormed, Instr.operands, Instr.writtenTogether, admits_g, field_eq_iff, and_assoc]

theorem wellFormed_travSsA (rs1 rs2 : Field) :
    (Instr.travSsA rs1 rs2).wellFormed = (okPt rs1 && okPt rs2 && rs1 != rs2) := by
  rw [Bool.eq_iff_iff]
  simp [Instr.wellFormed, Instr.operands, Instr.writtenTogether, admits_pt, admits_crv, field_eq_iff, and_assoc]

theorem wellFormed_travSsB (rs1 rs2 : Field) :
    (Instr.travSsB rs1 rs2).wellFormed = (okPt rs1 && okPt rs2 && rs1 != rs2) := wellFormed_travSsA rs1 rs2

theorem wellFormed_travPkA (rs1 rs2 rs3 : Field) :
    (Instr.travPkA rs1 rs2 rs3).wellFormed =
      (okPt rs1 && okPt rs2 && okPt3 rs3 && rs1 != rs2 && okOutside3 rs1 rs3 && okOutside3 rs2 rs3) := by
  rw [Bool.eq_iff_iff, Instr.wellFormed, Bool.and_eq_true, Instr.writtenTogether, decide_eq_true_eq,
    writtenPoints_nodup]
  simp [Instr.operands, admits_pt, admits_crv, admits_pt3, and_assoc]

theorem wellFormed_travPkB (rs1 rs2 rs3 : Field) :
    (Instr.travPkB rs1 rs2 rs3).wellFormed =
      (okPt rs1 && okPt rs2 && okPt3 rs3 && rs1 != rs2 && okOutside3 rs1 rs3 && okOutside3 rs2 rs3) :=
  wellFormed_travPkA rs1 rs2 rs3

end Sys2Proof.Machine
end

