-- ==== Sys2Proof/Laws/Legal.lean ====
section
/-! SUPPORT. `legal` of each command is the check its meaning makes first (R153, R155, R156, R158). -/

namespace Sys2Proof.Machine

/-- Where one operand writes, the fields decide by their classes alone. -/
theorem wellFormed_of_single (i : Instr) (h : i.writtenTogether = []) :
    i.wellFormed = i.operands.all (fun o => o.1.admits o.2) := by
  simp [Instr.wellFormed, h]

theorem legal_nop (s : State) : legal .nop s = true := by
  rw [legal, wellFormed_of_single _ rfl]; rfl

theorem legal_addc (rd rs1 rs2 : Field) (s : State) :
    legal (.addc rd rs1 rs2) s =
      (okG 1 rd && okG 1 rs1 && okG 1 rs2) := by
  rw [legal, wellFormed_of_single _ rfl, Bool.eq_iff_iff]
  simp [Instr.operands, bufRanges, outputsDisjoint, admits_g, and_assoc]

theorem legal_subc (rd rs1 rs2 : Field) (s : State) :
    legal (.subc rd rs1 rs2) s =
      (okG 1 rd && okG 1 rs1 && okG 1 rs2) := by
  rw [legal, wellFormed_of_single _ rfl, Bool.eq_iff_iff]
  simp [Instr.operands, bufRanges, outputsDisjoint, admits_g, and_assoc]

theorem legal_mul64 (rd rs1 rs2 rs3 : Field) (s : State) :
    legal (.mul64 rd rs1 rs2 rs3) s =
      (okG 1 rd && okG 1 rs1 && okG 1 rs2 && okG 1 rs3 && rd != rs3) := by
  rw [legal, wellFormed_mul64]; simp [bufRanges, outputsDisjoint]

theorem legal_setc (rs1 : Field) (s : State) : legal (.setc rs1) s = true := by
  rw [legal, wellFormed_of_single _ rfl]; rfl

theorem legal_fpAdd (rd rs1 rs2 : Field) (s : State) : legal (.fpAdd rd rs1 rs2) s = true := by
  rw [legal, wellFormed_of_single _ rfl]; rfl

theorem legal_fpSub (rd rs1 rs2 : Field) (s : State) : legal (.fpSub rd rs1 rs2) s = true := by
  rw [legal, wellFormed_of_single _ rfl]; rfl

theorem legal_fpRdcp (rd rs1 : Field) (s : State) : legal (.fpRdcp rd rs1) s = true := by
  rw [legal, wellFormed_of_single _ rfl]; rfl

theorem legal_fpSwapcond (rs1 rs2 rs3 : Field) (s : State) :
    legal (.fpSwapcond rs1 rs2 rs3) s =
      (okG 1 rs3) := by
  rw [legal, wellFormed_of_single _ rfl, Bool.eq_iff_iff]
  simp [Instr.operands, bufRanges, outputsDisjoint, admits_e, admits_g]

theorem legal_fpMul (rd rs1 rs2 : Field) (s : State) :
    legal (.fpMul rd rs1 rs2) s =
      (okD rd) := by
  rw [legal, wellFormed_of_single _ rfl, Bool.eq_iff_iff]
  simp [Instr.operands, bufRanges, outputsDisjoint, admits_d, admits_e]

theorem legal_fpMontrdc (rd rs1 : Field) (s : State) :
    legal (.fpMontrdc rd rs1) s =
      (okD rs1) := by
  rw [legal, wellFormed_of_single _ rfl, Bool.eq_iff_iff]
  simp [Instr.operands, bufRanges, outputsDisjoint, admits_e, admits_d]

theorem legal_fpMulrdc (rd rs1 rs2 : Field) (s : State) : legal (.fpMulrdc rd rs1 rs2) s = true := by
  rw [legal, wellFormed_of_single _ rfl]; rfl

theorem legal_fpP34 (rd rs1 : Field) (s : State) : legal (.fpP34 rd rs1) s = true := by
  rw [legal, wellFormed_of_single _ rfl]; rfl

theorem legal_fpMov (rd rs1 : Field) (s : State) : legal (.fpMov rd rs1) s = true := by
  rw [legal, wellFormed_of_single _ rfl]; rfl

theorem legal_fpLdc (rd rs1 : Field) (s : State) :
    legal (.fpLdc rd rs1) s =
      (okCs rs1) := by
  rw [legal, wellFormed_of_single _ rfl, Bool.eq_iff_iff]
  simp [Instr.operands, bufRanges, outputsDisjoint, admits_e, admits_cs]

theorem legal_fpTomont (rd rs1 : Field) (s : State) : legal (.fpTomont rd rs1) s = true := by
  rw [legal, wellFormed_of_single _ rfl]; rfl

theorem legal_fpFrommont (rd rs1 : Field) (s : State) : legal (.fpFrommont rd rs1) s = true := by
  rw [legal, wellFormed_of_single _ rfl]; rfl

theorem legal_fp2Add (rd rs1 rs2 : Field) (s : State) :
    legal (.fp2Add rd rs1 rs2) s =
      (okV rd && okV rs1 && okV rs2) := by
  rw [legal, wellFormed_of_single _ rfl, Bool.eq_iff_iff]
  simp [Instr.operands, bufRanges, outputsDisjoint, admits_v, and_assoc]

theorem legal_fp2Sub (rd rs1 rs2 : Field) (s : State) :
    legal (.fp2Sub rd rs1 rs2) s =
      (okV rd && okV rs1 && okV rs2) := by
  rw [legal, wellFormed_of_single _ rfl, Bool.eq_iff_iff]
  simp [Instr.operands, bufRanges, outputsDisjoint, admits_v, and_assoc]

theorem legal_fp2Mul (rd rs1 rs2 : Field) (s : State) :
    legal (.fp2Mul rd rs1 rs2) s =
      (okV rd && okV rs1 && okV rs2) := by
  rw [legal, wellFormed_of_single _ rfl, Bool.eq_iff_iff]
  simp [Instr.operands, bufRanges, outputsDisjoint, admits_v, and_assoc]

theorem legal_fp2Sqr (rd rs1 : Field) (s : State) :
    legal (.fp2Sqr rd rs1) s =
      (okV rd && okV rs1) := by
  rw [legal, wellFormed_of_single _ rfl, Bool.eq_iff_iff]
  simp [Instr.operands, bufRanges, outputsDisjoint, admits_v]

theorem legal_fp2Inv (rd rs1 : Field) (s : State) :
    legal (.fp2Inv rd rs1) s =
      (okV rd && okV rs1) := by
  rw [legal, wellFormed_of_single _ rfl, Bool.eq_iff_iff]
  simp [Instr.operands, bufRanges, outputsDisjoint, admits_v]

theorem legal_fp2Mov (rd rs1 : Field) (s : State) :
    legal (.fp2Mov rd rs1) s =
      (okV rd && okV rs1) := by
  rw [legal, wellFormed_of_single _ rfl, Bool.eq_iff_iff]
  simp [Instr.operands, bufRanges, outputsDisjoint, admits_v]

theorem legal_fp2Swapcond (rs1 rs2 rs3 : Field) (s : State) :
    legal (.fp2Swapcond rs1 rs2 rs3) s =
      (okV rs1 && okV rs2 && okG 1 rs3) := by
  rw [legal, wellFormed_of_single _ rfl, Bool.eq_iff_iff]
  simp [Instr.operands, bufRanges, outputsDisjoint, admits_v, admits_g, and_assoc]

theorem legal_ptPow2k (rd rs1 rs2 rs3 : Field) (s : State) :
    legal (.ptPow2k rd rs1 rs2 rs3) s =
      (okPt rd && okPt rs1 && okPt rs2 && okG 1 rs3) := by
  rw [legal, wellFormed_of_single _ rfl, Bool.eq_iff_iff]
  simp [Instr.operands, bufRanges, outputsDisjoint, admits_pt, admits_crv, admits_g, and_assoc]

theorem legal_ptPow3k (rd rs1 rs2 rs3 : Field) (s : State) :
    legal (.ptPow3k rd rs1 rs2 rs3) s =
      (okPt rd && okPt rs1 && okPt rs2 && okG 1 rs3) := by
  rw [legal, wellFormed_of_single _ rfl, Bool.eq_iff_iff]
  simp [Instr.operands, bufRanges, outputsDisjoint, admits_pt, admits_crv, admits_g, and_assoc]

theorem legal_ptLadder3pt (rd rs1 rs2 rs3 : Field) (s : State) :
    legal (.ptLadder3pt rd rs1 rs2 rs3) s =
      (okPt rd && okPt rs1 && okPt3 rs2 && okG 2 rs3 &&
        okRange (s.readG (rs3.toNat + 1)) (scalarBytes (s.readG rs3.toNat))) := by
  rw [legal, wellFormed_of_single _ rfl, Bool.eq_iff_iff]
  simp only [Instr.operands, bufRanges, outputsDisjoint, okRange, admits_pt, admits_crv, admits_pt3, admits_gs (n := 2) (by decide),
    List.all_cons, List.all_nil, Bool.and_eq_true, decide_eq_true_eq, and_true]
  simp only [scalarBytes]; tauto

theorem legal_crvEquiv4 (rd rs1 : Field) (s : State) :
    legal (.crvEquiv4 rd rs1) s =
      (okPt rd && okPt rs1) := by
  rw [legal, wellFormed_of_single _ rfl, Bool.eq_iff_iff]
  simp [Instr.operands, bufRanges, outputsDisjoint, admits_crv]

theorem legal_crvEquiv3 (rd rs1 : Field) (s : State) :
    legal (.crvEquiv3 rd rs1) s =
      (okPt rd && okPt rs1) := by
  rw [legal, wellFormed_of_single _ rfl, Bool.eq_iff_iff]
  simp [Instr.operands, bufRanges, outputsDisjoint, admits_crv]

theorem legal_crvRecover4 (rd rs1 : Field) (s : State) :
    legal (.crvRecover4 rd rs1) s =
      (okPt rd && okPt rs1) := by
  rw [legal, wellFormed_of_single _ rfl, Bool.eq_iff_iff]
  simp [Instr.operands, bufRanges, outputsDisjoint, admits_crv]

theorem legal_crvRecover3 (rd rs1 : Field) (s : State) :
    legal (.crvRecover3 rd rs1) s =
      (okPt rd && okPt rs1) := by
  rw [legal, wellFormed_of_single _ rfl, Bool.eq_iff_iff]
  simp [Instr.operands, bufRanges, outputsDisjoint, admits_crv]

theorem legal_crvRecoverA (rd rs1 : Field) (s : State) :
    legal (.crvRecoverA rd rs1) s =
      (okPt rd && okV3 rs1) := by
  rw [legal, wellFormed_of_single _ rfl, Bool.eq_iff_iff]
  simp [Instr.operands, bufRanges, outputsDisjoint, admits_crv, admits_v3]

theorem legal_crvJinv (rd rs1 : Field) (s : State) :
    legal (.crvJinv rd rs1) s =
      (okV rd && okPt rs1) := by
  rw [legal, wellFormed_of_single _ rfl, Bool.eq_iff_iff]
  simp [Instr.operands, bufRanges, outputsDisjoint, admits_v, admits_crv]

theorem legal_iso4Gen (rd rs1 : Field) (s : State) :
    legal (.iso4Gen rd rs1) s =
      (okPt rd && okPt rs1) := by
  rw [legal, wellFormed_of_single _ rfl, Bool.eq_iff_iff]
  simp [Instr.operands, bufRanges, outputsDisjoint, admits_crv, admits_pt]

theorem legal_iso4Eval (rd rs1 : Field) (s : State) :
    legal (.iso4Eval rd rs1) s =
      (okPt rd && okPt rs1) := by
  rw [legal, wellFormed_of_single _ rfl, Bool.eq_iff_iff]
  simp [Instr.operands, bufRanges, outputsDisjoint, admits_pt]

theorem legal_iso3Gen (rd rs1 : Field) (s : State) :
    legal (.iso3Gen rd rs1) s =
      (okPt rd && okPt rs1) := by
  rw [legal, wellFormed_of_single _ rfl, Bool.eq_iff_iff]
  simp [Instr.operands, bufRanges, outputsDisjoint, admits_crv, admits_pt]

theorem legal_iso3Eval (rd rs1 : Field) (s : State) :
    legal (.iso3Eval rd rs1) s =
      (okPt rd && okPt rs1) := by
  rw [legal, wellFormed_of_single _ rfl, Bool.eq_iff_iff]
  simp [Instr.operands, bufRanges, outputsDisjoint, admits_pt]

theorem legal_travPkA (rs1 rs2 rs3 : Field) (s : State) :
    legal (.travPkA rs1 rs2 rs3) s =
      (okPt rs1 && okPt rs2 && okPt3 rs3 && rs1 != rs2 && okOutside3 rs1 rs3 && okOutside3 rs2 rs3) := by
  rw [legal, wellFormed_travPkA]; simp [bufRanges, outputsDisjoint]

theorem legal_travPkB (rs1 rs2 rs3 : Field) (s : State) :
    legal (.travPkB rs1 rs2 rs3) s =
      (okPt rs1 && okPt rs2 && okPt3 rs3 && rs1 != rs2 && okOutside3 rs1 rs3 && okOutside3 rs2 rs3) := by
  rw [legal, wellFormed_travPkB]; simp [bufRanges, outputsDisjoint]

theorem legal_travSsA (rs1 rs2 : Field) (s : State) :
    legal (.travSsA rs1 rs2) s =
      (okPt rs1 && okPt rs2 && rs1 != rs2) := by
  rw [legal, wellFormed_travSsA]; simp [bufRanges, outputsDisjoint]

theorem legal_travSsB (rs1 rs2 : Field) (s : State) :
    legal (.travSsB rs1 rs2) s =
      (okPt rs1 && okPt rs2 && rs1 != rs2) := by
  rw [legal, wellFormed_travSsB]; simp [bufRanges, outputsDisjoint]

theorem legal_skGenerate (rd rs1 : Field) (s : State) :
    legal (.skGenerate rd rs1) s =
      (okSlot rd && okVar rs1) := by
  rw [legal, wellFormed_of_single _ rfl, Bool.eq_iff_iff]
  simp [Instr.operands, bufRanges, outputsDisjoint, admits_sk, admits_var]

theorem legal_skImport (rd rs1 rs2 : Field) (s : State) :
    legal (.skImport rd rs1 rs2) s =
      (okSlot rd && okVar rs1 && okG 2 rs2 &&
        okRange (s.readG rs2.toNat) (s.readG (rs2.toNat + 1)).toNat) := by
  rw [legal, wellFormed_of_single _ rfl, Bool.eq_iff_iff]
  simp only [Instr.operands, bufRanges, outputsDisjoint, okRange, admits_sk, admits_var, admits_gs (n := 2) (by decide),
    List.all_cons, List.all_nil, Bool.and_eq_true, decide_eq_true_eq, and_true]
  tauto

theorem legal_skExport (rs1 rs2 : Field) (s : State) :
    legal (.skExport rs1 rs2) s =
      (okSlot rs1 && okG 2 rs2 && okRange (s.readG rs2.toNat) (skSize (s.readSk rs1.toNat).variant)) := by
  rw [legal, wellFormed_of_single _ rfl, Bool.eq_iff_iff]
  simp only [Instr.operands, bufRanges, outputsDisjoint, okRange, admits_sk, admits_gs (n := 2) (by decide),
    List.all_cons, List.all_nil, Bool.and_eq_true, decide_eq_true_eq, and_true]

theorem legal_pkImport (rd rs1 rs2 : Field) (s : State) :
    legal (.pkImport rd rs1 rs2) s =
      (okSlot rd && okVar rs1 && okG 2 rs2 &&
        okRange (s.readG rs2.toNat) (s.readG (rs2.toNat + 1)).toNat) := by
  rw [legal, wellFormed_of_single _ rfl, Bool.eq_iff_iff]
  simp only [Instr.operands, bufRanges, outputsDisjoint, okRange, admits_pk, admits_var, admits_gs (n := 2) (by decide),
    List.all_cons, List.all_nil, Bool.and_eq_true, decide_eq_true_eq, and_true]
  tauto

theorem legal_pkExport (rs1 rs2 : Field) (s : State) :
    legal (.pkExport rs1 rs2) s =
      (okSlot rs1 && okG 2 rs2 && okRange (s.readG rs2.toNat) publicKeySize) := by
  rw [legal, wellFormed_of_single _ rfl, Bool.eq_iff_iff]
  simp only [Instr.operands, bufRanges, outputsDisjoint, okRange, admits_pk, admits_gs (n := 2) (by decide),
    List.all_cons, List.all_nil, Bool.and_eq_true, decide_eq_true_eq, and_true]
  simp only [publicKeySize]

theorem legal_genPublic (rd rs1 : Field) (s : State) :
    legal (.genPublic rd rs1) s =
      (okSlot rd && okSlot rs1) := by
  rw [legal, wellFormed_of_single _ rfl, Bool.eq_iff_iff]
  simp [Instr.operands, bufRanges, outputsDisjoint, admits_pk, admits_sk]

theorem legal_deriveSecret (rs1 rs2 rs3 : Field) (s : State) :
    legal (.deriveSecret rs1 rs2 rs3) s =
      (okSlot rs1 && okSlot rs2 && okG 1 rs3 && okRange (s.readG rs3.toNat) sharedSecretSize) := by
  rw [legal, wellFormed_of_single _ rfl, Bool.eq_iff_iff]
  simp only [Instr.operands, bufRanges, outputsDisjoint, okRange, admits_sk, admits_pk, admits_g,
    List.all_cons, List.all_nil, Bool.and_eq_true, decide_eq_true_eq, and_true]
  simp only [sharedSecretSize]; tauto

theorem legal_encrypt (rs1 rs2 : Field) (s : State) :
    legal (.encrypt rs1 rs2) s =
      (okSlot rs1 && okG 4 rs2 && okRange (s.readG rs2.toNat) (s.readG (rs2.toNat + 1)).toNat &&
        okRange (s.readG (rs2.toNat + 2)) ciphertextSize) := by
  rw [legal, wellFormed_of_single _ rfl, Bool.eq_iff_iff]
  simp only [Instr.operands, bufRanges, outputsDisjoint, okRange, admits_pk, admits_gs (n := 4) (by decide),
    List.all_cons, List.all_nil, Bool.and_eq_true, decide_eq_true_eq, and_true]
  simp only [ciphertextSize]; tauto

theorem legal_decrypt (rs1 rs2 : Field) (s : State) :
    legal (.decrypt rs1 rs2) s =
      (okSlot rs1 && okG 4 rs2 && okRange (s.readG rs2.toNat) (s.readG (rs2.toNat + 1)).toNat &&
        okRange (s.readG (rs2.toNat + 2)) msgLen) := by
  rw [legal, wellFormed_of_single _ rfl, Bool.eq_iff_iff]
  simp only [Instr.operands, bufRanges, outputsDisjoint, okRange, admits_sk, admits_gs (n := 4) (by decide),
    List.all_cons, List.all_nil, Bool.and_eq_true, decide_eq_true_eq, and_true]
  simp only [msgLen]; tauto

theorem legal_encapsulate (rs1 rs2 : Field) (s : State) :
    legal (.encapsulate rs1 rs2) s =
      (okSlot rs1 && okG 2 rs2 && okRange (s.readG rs2.toNat) ciphertextSize &&
        okRange (s.readG (rs2.toNat + 1)) kemSize &&
        okDisjoint (s.readG rs2.toNat) ciphertextSize (s.readG (rs2.toNat + 1)) kemSize) := by
  rw [legal, wellFormed_of_single _ rfl, Bool.eq_iff_iff]
  simp only [Instr.operands, bufRanges, outputsDisjoint, okRange, okDisjoint, admits_pk, admits_gs (n := 2) (by decide),
    List.all_cons, List.all_nil, Bool.and_eq_true, decide_eq_true_eq, and_true]
  simp only [ciphertextSize, kemSize]; tauto

theorem legal_decapsulate (rs1 rs2 rs3 : Field) (s : State) :
    legal (.decapsulate rs1 rs2 rs3) s =
      (okSlot rs1 && okSlot rs2 && okG 3 rs3 &&
        okRange (s.readG rs3.toNat) (s.readG (rs3.toNat + 1)).toNat &&
        okRange (s.readG (rs3.toNat + 2)) kemSize) := by
  rw [legal, wellFormed_of_single _ rfl, Bool.eq_iff_iff]
  simp only [Instr.operands, bufRanges, outputsDisjoint, okRange, admits_sk, admits_pk, admits_gs (n := 3) (by decide),
    List.all_cons, List.all_nil, Bool.and_eq_true, decide_eq_true_eq, and_true]
  simp only [kemSize]; tauto

theorem legal_fp2Towire (rs1 rs2 : Field) (s : State) :
    legal (.fp2Towire rs1 rs2) s =
      (okV rs1 && okG 1 rs2 && okRange (s.readG rs2.toNat) fp2WireLen) := by
  rw [legal, wellFormed_of_single _ rfl, Bool.eq_iff_iff]
  simp only [Instr.operands, bufRanges, outputsDisjoint, okRange, admits_v, admits_g,
    List.all_cons, List.all_nil, Bool.and_eq_true, decide_eq_true_eq, and_true]
  simp only [fp2WireLen]

theorem legal_fp2Fromwire (rd rs2 : Field) (s : State) :
    legal (.fp2Fromwire rd rs2) s =
      (okV rd && okG 1 rs2 && okRange (s.readG rs2.toNat) fp2WireLen) := by
  rw [legal, wellFormed_of_single _ rfl, Bool.eq_iff_iff]
  simp only [Instr.operands, bufRanges, outputsDisjoint, okRange, admits_v, admits_g,
    List.all_cons, List.all_nil, Bool.and_eq_true, decide_eq_true_eq, and_true]
  simp only [fp2WireLen]

theorem legal_zeroize (s : State) : legal .zeroize s = true := by
  rw [legal, wellFormed_of_single _ rfl]; rfl

end Sys2Proof.Machine
end

