-- ==== Sys2Proof/Laws/PerInstr.lean ====
section
/-! SUPPORT. One family of laws of the commands as syntax: the word of a command has an opcode that is not
reserved (R161) and no bit set outside the fields the command uses (R152, R160). -/

namespace Sys2Proof.Laws

/-- The word of the command has a defined opcode, and no bit outside the used fields. -/
def EncodedWord.Statement (i : Instr) : Prop :=
  reservedOpcode (opcOf (encode i)) = false ∧ encode i &&& i.usedMask = encode i

/-- The law for a command word whose unused fields are 0. -/
theorem encodedWord_of_fields {o : BitVec 8} {a b c d : Field} {ua ub uc ud : Bool}
    (ho : reservedOpcode o = false) (ha : ua = false → a = 0) (hb : ub = false → b = 0)
    (hc : uc = false → c = 0) (hd : ud = false → d = 0) :
    reservedOpcode (opcOf (cmdWord o a b c d)) = false ∧
      cmdWord o a b c d &&& usedBits ua ub uc ud = cmdWord o a b c d := by
  refine ⟨by rw [opcOf_cmdWord]; exact ho, ?_⟩
  rw [and_usedBits, opcOf_cmdWord, rdOf_cmdWord, rs1Of_cmdWord, rs2Of_cmdWord, rs3Of_cmdWord]
  cases ua <;> cases ub <;> cases uc <;> cases ud <;> simp_all

theorem EncodedWord.nop : EncodedWord.Statement Instr.nop :=
  encodedWord_of_fields (by decide) (by simp) (by simp) (by simp) (by simp)

theorem EncodedWord.addc (rd rs1 rs2 : Field) : EncodedWord.Statement (Instr.addc rd rs1 rs2) :=
  encodedWord_of_fields (by decide) (by simp) (by simp) (by simp) (by simp)

theorem EncodedWord.subc (rd rs1 rs2 : Field) : EncodedWord.Statement (Instr.subc rd rs1 rs2) :=
  encodedWord_of_fields (by decide) (by simp) (by simp) (by simp) (by simp)

theorem EncodedWord.mul64 (rd rs1 rs2 rs3 : Field) : EncodedWord.Statement (Instr.mul64 rd rs1 rs2 rs3) :=
  encodedWord_of_fields (by decide) (by simp) (by simp) (by simp) (by simp)

theorem EncodedWord.setc (rs1 : Field) : EncodedWord.Statement (Instr.setc rs1) :=
  encodedWord_of_fields (by decide) (by simp) (by simp) (by simp) (by simp)

theorem EncodedWord.fpAdd (rd rs1 rs2 : Field) : EncodedWord.Statement (Instr.fpAdd rd rs1 rs2) :=
  encodedWord_of_fields (by decide) (by simp) (by simp) (by simp) (by simp)

theorem EncodedWord.fpSub (rd rs1 rs2 : Field) : EncodedWord.Statement (Instr.fpSub rd rs1 rs2) :=
  encodedWord_of_fields (by decide) (by simp) (by simp) (by simp) (by simp)

theorem EncodedWord.fpRdcp (rd rs1 : Field) : EncodedWord.Statement (Instr.fpRdcp rd rs1) :=
  encodedWord_of_fields (by decide) (by simp) (by simp) (by simp) (by simp)

theorem EncodedWord.fpSwapcond (rs1 rs2 rs3 : Field) : EncodedWord.Statement (Instr.fpSwapcond rs1 rs2 rs3) :=
  encodedWord_of_fields (by decide) (by simp) (by simp) (by simp) (by simp)

theorem EncodedWord.fpMul (rd rs1 rs2 : Field) : EncodedWord.Statement (Instr.fpMul rd rs1 rs2) :=
  encodedWord_of_fields (by decide) (by simp) (by simp) (by simp) (by simp)

theorem EncodedWord.fpMontrdc (rd rs1 : Field) : EncodedWord.Statement (Instr.fpMontrdc rd rs1) :=
  encodedWord_of_fields (by decide) (by simp) (by simp) (by simp) (by simp)

theorem EncodedWord.fpMulrdc (rd rs1 rs2 : Field) : EncodedWord.Statement (Instr.fpMulrdc rd rs1 rs2) :=
  encodedWord_of_fields (by decide) (by simp) (by simp) (by simp) (by simp)

theorem EncodedWord.fpP34 (rd rs1 : Field) : EncodedWord.Statement (Instr.fpP34 rd rs1) :=
  encodedWord_of_fields (by decide) (by simp) (by simp) (by simp) (by simp)

theorem EncodedWord.fpMov (rd rs1 : Field) : EncodedWord.Statement (Instr.fpMov rd rs1) :=
  encodedWord_of_fields (by decide) (by simp) (by simp) (by simp) (by simp)

theorem EncodedWord.fpLdc (rd rs1 : Field) : EncodedWord.Statement (Instr.fpLdc rd rs1) :=
  encodedWord_of_fields (by decide) (by simp) (by simp) (by simp) (by simp)

theorem EncodedWord.fpTomont (rd rs1 : Field) : EncodedWord.Statement (Instr.fpTomont rd rs1) :=
  encodedWord_of_fields (by decide) (by simp) (by simp) (by simp) (by simp)

theorem EncodedWord.fpFrommont (rd rs1 : Field) : EncodedWord.Statement (Instr.fpFrommont rd rs1) :=
  encodedWord_of_fields (by decide) (by simp) (by simp) (by simp) (by simp)

theorem EncodedWord.fp2Add (rd rs1 rs2 : Field) : EncodedWord.Statement (Instr.fp2Add rd rs1 rs2) :=
  encodedWord_of_fields (by decide) (by simp) (by simp) (by simp) (by simp)

theorem EncodedWord.fp2Sub (rd rs1 rs2 : Field) : EncodedWord.Statement (Instr.fp2Sub rd rs1 rs2) :=
  encodedWord_of_fields (by decide) (by simp) (by simp) (by simp) (by simp)

theorem EncodedWord.fp2Mul (rd rs1 rs2 : Field) : EncodedWord.Statement (Instr.fp2Mul rd rs1 rs2) :=
  encodedWord_of_fields (by decide) (by simp) (by simp) (by simp) (by simp)

theorem EncodedWord.fp2Sqr (rd rs1 : Field) : EncodedWord.Statement (Instr.fp2Sqr rd rs1) :=
  encodedWord_of_fields (by decide) (by simp) (by simp) (by simp) (by simp)

theorem EncodedWord.fp2Inv (rd rs1 : Field) : EncodedWord.Statement (Instr.fp2Inv rd rs1) :=
  encodedWord_of_fields (by decide) (by simp) (by simp) (by simp) (by simp)

theorem EncodedWord.fp2Mov (rd rs1 : Field) : EncodedWord.Statement (Instr.fp2Mov rd rs1) :=
  encodedWord_of_fields (by decide) (by simp) (by simp) (by simp) (by simp)

theorem EncodedWord.fp2Swapcond (rs1 rs2 rs3 : Field) : EncodedWord.Statement (Instr.fp2Swapcond rs1 rs2 rs3) :=
  encodedWord_of_fields (by decide) (by simp) (by simp) (by simp) (by simp)

theorem EncodedWord.ptPow2k (rd rs1 rs2 rs3 : Field) : EncodedWord.Statement (Instr.ptPow2k rd rs1 rs2 rs3) :=
  encodedWord_of_fields (by decide) (by simp) (by simp) (by simp) (by simp)

theorem EncodedWord.ptPow3k (rd rs1 rs2 rs3 : Field) : EncodedWord.Statement (Instr.ptPow3k rd rs1 rs2 rs3) :=
  encodedWord_of_fields (by decide) (by simp) (by simp) (by simp) (by simp)

theorem EncodedWord.ptLadder3pt (rd rs1 rs2 rs3 : Field) : EncodedWord.Statement (Instr.ptLadder3pt rd rs1 rs2 rs3) :=
  encodedWord_of_fields (by decide) (by simp) (by simp) (by simp) (by simp)

theorem EncodedWord.crvEquiv4 (rd rs1 : Field) : EncodedWord.Statement (Instr.crvEquiv4 rd rs1) :=
  encodedWord_of_fields (by decide) (by simp) (by simp) (by simp) (by simp)

theorem EncodedWord.crvEquiv3 (rd rs1 : Field) : EncodedWord.Statement (Instr.crvEquiv3 rd rs1) :=
  encodedWord_of_fields (by decide) (by simp) (by simp) (by simp) (by simp)

theorem EncodedWord.crvRecover4 (rd rs1 : Field) : EncodedWord.Statement (Instr.crvRecover4 rd rs1) :=
  encodedWord_of_fields (by decide) (by simp) (by simp) (by simp) (by simp)

theorem EncodedWord.crvRecover3 (rd rs1 : Field) : EncodedWord.Statement (Instr.crvRecover3 rd rs1) :=
  encodedWord_of_fields (by decide) (by simp) (by simp) (by simp) (by simp)

theorem EncodedWord.crvRecoverA (rd rs1 : Field) : EncodedWord.Statement (Instr.crvRecoverA rd rs1) :=
  encodedWord_of_fields (by decide) (by simp) (by simp) (by simp) (by simp)

theorem EncodedWord.crvJinv (rd rs1 : Field) : EncodedWord.Statement (Instr.crvJinv rd rs1) :=
  encodedWord_of_fields (by decide) (by simp) (by simp) (by simp) (by simp)

theorem EncodedWord.iso4Gen (rd rs1 : Field) : EncodedWord.Statement (Instr.iso4Gen rd rs1) :=
  encodedWord_of_fields (by decide) (by simp) (by simp) (by simp) (by simp)

theorem EncodedWord.iso4Eval (rd rs1 : Field) : EncodedWord.Statement (Instr.iso4Eval rd rs1) :=
  encodedWord_of_fields (by decide) (by simp) (by simp) (by simp) (by simp)

theorem EncodedWord.iso3Gen (rd rs1 : Field) : EncodedWord.Statement (Instr.iso3Gen rd rs1) :=
  encodedWord_of_fields (by decide) (by simp) (by simp) (by simp) (by simp)

theorem EncodedWord.iso3Eval (rd rs1 : Field) : EncodedWord.Statement (Instr.iso3Eval rd rs1) :=
  encodedWord_of_fields (by decide) (by simp) (by simp) (by simp) (by simp)

theorem EncodedWord.travPkA (rs1 rs2 rs3 : Field) : EncodedWord.Statement (Instr.travPkA rs1 rs2 rs3) :=
  encodedWord_of_fields (by decide) (by simp) (by simp) (by simp) (by simp)

theorem EncodedWord.travPkB (rs1 rs2 rs3 : Field) : EncodedWord.Statement (Instr.travPkB rs1 rs2 rs3) :=
  encodedWord_of_fields (by decide) (by simp) (by simp) (by simp) (by simp)

theorem EncodedWord.travSsA (rs1 rs2 : Field) : EncodedWord.Statement (Instr.travSsA rs1 rs2) :=
  encodedWord_of_fields (by decide) (by simp) (by simp) (by simp) (by simp)

theorem EncodedWord.travSsB (rs1 rs2 : Field) : EncodedWord.Statement (Instr.travSsB rs1 rs2) :=
  encodedWord_of_fields (by decide) (by simp) (by simp) (by simp) (by simp)

theorem EncodedWord.skGenerate (rd rs1 : Field) : EncodedWord.Statement (Instr.skGenerate rd rs1) :=
  encodedWord_of_fields (by decide) (by simp) (by simp) (by simp) (by simp)

theorem EncodedWord.skImport (rd rs1 rs2 : Field) : EncodedWord.Statement (Instr.skImport rd rs1 rs2) :=
  encodedWord_of_fields (by decide) (by simp) (by simp) (by simp) (by simp)

theorem EncodedWord.skExport (rs1 rs2 : Field) : EncodedWord.Statement (Instr.skExport rs1 rs2) :=
  encodedWord_of_fields (by decide) (by simp) (by simp) (by simp) (by simp)

theorem EncodedWord.pkImport (rd rs1 rs2 : Field) : EncodedWord.Statement (Instr.pkImport rd rs1 rs2) :=
  encodedWord_of_fields (by decide) (by simp) (by simp) (by simp) (by simp)

theorem EncodedWord.pkExport (rs1 rs2 : Field) : EncodedWord.Statement (Instr.pkExport rs1 rs2) :=
  encodedWord_of_fields (by decide) (by simp) (by simp) (by simp) (by simp)

theorem EncodedWord.genPublic (rd rs1 : Field) : EncodedWord.Statement (Instr.genPublic rd rs1) :=
  encodedWord_of_fields (by decide) (by simp) (by simp) (by simp) (by simp)

theorem EncodedWord.deriveSecret (rs1 rs2 rs3 : Field) : EncodedWord.Statement (Instr.deriveSecret rs1 rs2 rs3) :=
  encodedWord_of_fields (by decide) (by simp) (by simp) (by simp) (by simp)

theorem EncodedWord.encrypt (rs1 rs2 : Field) : EncodedWord.Statement (Instr.encrypt rs1 rs2) :=
  encodedWord_of_fields (by decide) (by simp) (by simp) (by simp) (by simp)

theorem EncodedWord.decrypt (rs1 rs2 : Field) : EncodedWord.Statement (Instr.decrypt rs1 rs2) :=
  encodedWord_of_fields (by decide) (by simp) (by simp) (by simp) (by simp)

theorem EncodedWord.encapsulate (rs1 rs2 : Field) : EncodedWord.Statement (Instr.encapsulate rs1 rs2) :=
  encodedWord_of_fields (by decide) (by simp) (by simp) (by simp) (by simp)

theorem EncodedWord.decapsulate (rs1 rs2 rs3 : Field) : EncodedWord.Statement (Instr.decapsulate rs1 rs2 rs3) :=
  encodedWord_of_fields (by decide) (by simp) (by simp) (by simp) (by simp)

theorem EncodedWord.fp2Towire (rs1 rs2 : Field) : EncodedWord.Statement (Instr.fp2Towire rs1 rs2) :=
  encodedWord_of_fields (by decide) (by simp) (by simp) (by simp) (by simp)

theorem EncodedWord.fp2Fromwire (rd rs2 : Field) : EncodedWord.Statement (Instr.fp2Fromwire rd rs2) :=
  encodedWord_of_fields (by decide) (by simp) (by simp) (by simp) (by simp)

theorem EncodedWord.zeroize : EncodedWord.Statement Instr.zeroize :=
  encodedWord_of_fields (by decide) (by simp) (by simp) (by simp) (by simp)

end Sys2Proof.Laws
end

