-- ==== Sys2Proof/Laws/Prime.lean ====
section
/-! SUPPORT. `p = 2^250 · 3^159 - 1` is prime (R2), by the order of one element: if `p` had a prime factor `q`
with `q² ≤ p`, the ring of pairs `a + b·i` over `Z/q` would have at most `p` elements, but it has an element
whose order is `p + 1`. -/

namespace Sys2Proof.Machine

/-- A pair of numbers `a + b·i`, each read modulo `p`. -/
structure GaussPair where
  re : Nat
  im : Nat
deriving DecidableEq

/-- The product with `i² = -1`; `p - 1` stands for `-1`, so that no subtraction is needed. -/
def GaussPair.mul (x y : GaussPair) : GaussPair :=
  ⟨(x.re * y.re + (prime - 1) * (x.im * y.im)) % prime, (x.re * y.im + x.im * y.re) % prime⟩

/-- `n` squarings. -/
def GaussPair.squarings : Nat → GaussPair → GaussPair
  | 0, x => x
  | n + 1, x => squarings n (x.mul x)

/-- `n` cubings. -/
def GaussPair.cubings : Nat → GaussPair → GaussPair
  | 0, x => x
  | n + 1, x => cubings n ((x.mul x).mul x)

/-- `(-3 + 4i)/5`, an element of norm 1. -/
def primeWitness : GaussPair where
  re := 0x338591013418184d049efe485fb70ce2e32bd395fecaf275a0497b4e74b94d5666666666666666666666666666666666666666666666666666666666666665
  im := 0x26a42cc0e7121239c3773eb647c949aa2a60deb07f1835d838371c7ad78afa00cccccccccccccccccccccccccccccccccccccccccccccccccccccccccccccd

theorem prime_eq : prime + 1 = 2 ^ 250 * 3 ^ 159 := by decide +kernel

/-- The half power of the witness is `-1`. -/
theorem primeWitness_half : (primeWitness.cubings 159).squarings 249 = ⟨prime - 1, 0⟩ := by decide +kernel

/-- The third power part of the witness, `w` with `w² + w + 1 = 0`. -/
theorem primeWitness_third :
    let w := (primeWitness.cubings 158).squarings 250
    ((w.mul w).re + w.re + 1) % prime = 0 := by decide +kernel

section

variable {q : Nat} (hq : q ∣ prime)

/-- The ring of pairs over `Z/q`. -/
abbrev GaussRing (q : Nat) := QuadraticAlgebra (ZMod q) (-1) 0

/-- A pair read over `Z/q`. -/
def GaussPair.over (q : Nat) (x : GaussPair) : GaussRing q := ⟨(x.re : ZMod q), (x.im : ZMod q)⟩

include hq

theorem prime_cast_zero : ((prime : Nat) : ZMod q) = 0 := (ZMod.natCast_eq_zero_iff _ _).mpr hq

theorem cast_mod_of_dvd (n : Nat) : ((n % prime : Nat) : ZMod q) = n := by
  conv_rhs => rw [← Nat.div_add_mod n prime]
  rw [Nat.cast_add, Nat.cast_mul, prime_cast_zero hq, zero_mul, zero_add]

theorem prime_pred_cast : ((prime - 1 : Nat) : ZMod q) = -1 := by
  have h1 : 1 ≤ prime := by decide +kernel
  rw [Nat.cast_sub h1, prime_cast_zero hq, Nat.cast_one, zero_sub]

theorem GaussPair.over_mul (x y : GaussPair) : (x.mul y).over q = x.over q * y.over q := by
  ext
  · simp only [GaussPair.over, GaussPair.mul, QuadraticAlgebra.re_mul, cast_mod_of_dvd hq, Nat.cast_add, Nat.cast_mul,
      prime_pred_cast hq]
    ring
  · simp only [GaussPair.over, GaussPair.mul, QuadraticAlgebra.im_mul, cast_mod_of_dvd hq, Nat.cast_add, Nat.cast_mul]
    ring

theorem GaussPair.over_squarings (n : Nat) (x : GaussPair) : (x.squarings n).over q = x.over q ^ 2 ^ n := by
  induction n generalizing x with
  | zero => simp [GaussPair.squarings]
  | succ n ih => rw [GaussPair.squarings, ih, GaussPair.over_mul hq, ← sq, ← pow_mul, ← pow_succ']

theorem GaussPair.over_cubings (n : Nat) (x : GaussPair) : (x.cubings n).over q = x.over q ^ 3 ^ n := by
  induction n generalizing x with
  | zero => simp [GaussPair.cubings]
  | succ n ih =>
    rw [GaussPair.cubings, ih, GaussPair.over_mul hq, GaussPair.over_mul hq, ← sq, ← pow_succ, ← pow_mul, ← pow_succ']

/-- Over any prime factor of `p` the witness has order `p + 1`. -/
theorem orderOf_primeWitness (hp : q.Prime) : orderOf (primeWitness.over q) = prime + 1 := by
  have h2 : q ≠ 2 := by
    rintro rfl
    exact absurd hq (by decide +kernel)
  have h3 : q ≠ 3 := by
    rintro rfl
    exact absurd hq (by decide +kernel)
  have hhalf : primeWitness.over q ^ (3 ^ 159 * 2 ^ 249) = -1 := by
    rw [pow_mul, ← GaussPair.over_cubings hq, ← GaussPair.over_squarings hq, primeWitness_half]
    ext
    · simp only [GaussPair.over, prime_pred_cast hq, QuadraticAlgebra.re_neg, QuadraticAlgebra.re_one]
    · simp only [GaussPair.over, Nat.cast_zero, QuadraticAlgebra.im_neg, QuadraticAlgebra.im_one, neg_zero]
  refine orderOf_eq_of_pow_and_pow_div_prime (Nat.succ_pos _) ?_ fun r hr hd => ?_
  · rw [prime_eq, show 2 ^ 250 * 3 ^ 159 = 3 ^ 159 * 2 ^ 249 * 2 by ring, pow_mul, hhalf, neg_one_sq]
  · have hr23 : r = 2 ∨ r = 3 := by
      rw [prime_eq] at hd
      rcases (Nat.Prime.dvd_mul hr).mp hd with h | h
      · exact .inl ((Nat.prime_dvd_prime_iff_eq hr Nat.prime_two).mp (hr.dvd_of_dvd_pow h))
      · exact .inr ((Nat.prime_dvd_prime_iff_eq hr Nat.prime_three).mp (hr.dvd_of_dvd_pow h))
    intro h1
    rcases hr23 with rfl | rfl
    · rw [show (prime + 1) / 2 = 3 ^ 159 * 2 ^ 249 by decide +kernel, hhalf] at h1
      have h := congrArg QuadraticAlgebra.re h1
      simp only [QuadraticAlgebra.re_neg, QuadraticAlgebra.re_one] at h
      have h0 : ((2 : Nat) : ZMod q) = 0 := by linear_combination -h
      exact h2 ((Nat.prime_dvd_prime_iff_eq hp Nat.prime_two).mp ((ZMod.natCast_eq_zero_iff _ _).mp h0))
    · rw [show (prime + 1) / 3 = 3 ^ 158 * 2 ^ 250 by decide +kernel, pow_mul, ← GaussPair.over_cubings hq,
        ← GaussPair.over_squarings hq] at h1
      have hw := congrArg (fun n : Nat => (n : ZMod q)) primeWitness_third
      simp only [cast_mod_of_dvd hq, Nat.cast_add, Nat.cast_one, Nat.cast_zero] at hw
      have e1 := congrArg QuadraticAlgebra.re h1
      have e2 := congrArg QuadraticAlgebra.re (GaussPair.over_mul hq ((primeWitness.cubings 158).squarings 250)
        ((primeWitness.cubings 158).squarings 250))
      rw [h1, mul_one] at e2
      simp only [GaussPair.over, QuadraticAlgebra.re_one] at e1 e2
      rw [e1, e2] at hw
      have h0 : ((3 : Nat) : ZMod q) = 0 := by push_cast; linear_combination hw
      exact h3 ((Nat.prime_dvd_prime_iff_eq hp Nat.prime_three).mp ((ZMod.natCast_eq_zero_iff _ _).mp h0))

end

/-- `p` is prime (R2). -/
theorem prime_isPrime : Nat.Prime prime := by
  by_contra hn
  have h1 : prime ≠ 1 := by decide +kernel
  have hq := Nat.minFac_prime h1
  have hd := Nat.minFac_dvd prime
  have hsq := Nat.minFac_sq_le_self (by decide +kernel) hn
  have : NeZero prime.minFac := ⟨hq.ne_zero⟩
  have : Fintype (GaussRing prime.minFac) := Fintype.ofEquiv _ (QuadraticAlgebra.equivProd _ _).symm
  have hcard : Fintype.card (GaussRing prime.minFac) = prime.minFac ^ 2 := by
    rw [Fintype.card_congr (QuadraticAlgebra.equivProd _ _), Fintype.card_prod, ZMod.card, sq]
  have hord := orderOf_le_card_univ (x := primeWitness.over prime.minFac)
  rw [orderOf_primeWitness hd hq, hcard] at hord
  omega

/-- `p` is 3 modulo 4, so `-1` is no square modulo `p` (R2, R269). -/
theorem prime_mod_four : prime % 4 = 3 := by decide +kernel

end Sys2Proof.Machine
end

