-- ==== Sys2Proof/Laws/Walk.lean ====
section
/-! SUPPORT. What one round and the whole of the traversal of R374 do to the parts of their working state that
do not depend on the points: the basis keeps its length, some isogeny has been generated, and nothing but
the basis depends on the basis. -/

namespace Sys2Proof.Machine

variable {κ : Type} (fam : IsogenyFamily κ)

/-- One round maps the basis pointwise by the isogeny it generates. -/
theorem walkRound_basis (bound : Nat) (f : Frame κ) :
    ∃ k, (walkRound fam bound f).coeffs = some k ∧
      (walkRound fam bound f).basis = f.basis.map (fun b => fam.eval b k) := ⟨_, rfl, rfl⟩

@[simp] theorem length_basis_walkRounds (rounds : Nat) (f : Frame κ) :
    (walkRounds fam rounds f).basis.length = f.basis.length := by
  induction rounds generalizing f with
  | zero => rfl
  | succ n ih => rw [walkRounds, ih]; simp [walkRound]

/-- The traversal carries as many basis points out as in. -/
@[simp] theorem length_basis_traverse (strat : List Nat) (c : Crv) (r : Pt) (b : List Pt) :
    (traverse fam strat c r b).basis.length = b.length := by simp [traverse]

/-- The isogeny of an earlier round is replaced, never dropped. -/
theorem coeffs_walkRounds (rounds : Nat) (f : Frame κ) (h : f.coeffs.isSome) :
    (walkRounds fam rounds f).coeffs.isSome := by
  induction rounds generalizing f with
  | zero => exact h
  | succ n ih => rw [walkRounds]; exact ih _ rfl

/-- A traversal by a strategy that is not empty generates an isogeny. -/
theorem coeffs_traverse (strat : List Nat) (hs : strat ≠ []) (c : Crv) (r : Pt) (b : List Pt) :
    ∃ k, (traverse fam strat c r b).coeffs = some k := by
  obtain ⟨k, rest, rfl⟩ := List.exists_cons_of_ne_nil hs
  exact Option.isSome_iff_exists.mp (coeffs_walkRounds fam rest.length _ rfl)

/-- Two working states that differ in the basis alone. -/
structure SameButBasis (f g : Frame κ) : Prop where
  crv : f.crv = g.crv
  r : f.r = g.r
  i : f.i = g.i
  stack : f.stack = g.stack
  strat : f.strat = g.strat
  coeffs : f.coeffs = g.coeffs
  deepest : f.deepest = g.deepest

theorem SameButBasis.walkRound {f g : Frame κ} (h : SameButBasis f g) (bound : Nat) :
    SameButBasis (walkRound fam bound f) (walkRound fam bound g) := by
  obtain ⟨h1, h2, h3, h4, h5, h6, h7⟩ := h
  constructor <;> simp [Machine.walkRound, h1, h2, h3, h4, h5, h7]

theorem SameButBasis.walkRounds {f g : Frame κ} (h : SameButBasis f g) (rounds : Nat) :
    SameButBasis (walkRounds fam rounds f) (walkRounds fam rounds g) := by
  induction rounds generalizing f g with
  | zero => exact h
  | succ n ih => exact ih (h.walkRound fam n)

/-- The curve, the point and the isogeny a traversal leaves do not depend on the basis (R377). -/
theorem traverse_sameButBasis (strat : List Nat) (c : Crv) (r : Pt) (b b' : List Pt) :
    SameButBasis (traverse fam strat c r b) (traverse fam strat c r b') := by
  have h : ∀ x y : List Pt, SameButBasis (κ := κ) ⟨c, r, 0, [], strat, x, none, 0⟩ ⟨c, r, 0, [], strat, y, none, 0⟩ :=
    fun _ _ => ⟨rfl, rfl, rfl, rfl, rfl, rfl, rfl⟩
  exact (h b b').walkRounds fam strat.length

end Sys2Proof.Machine
end

