-- ==== Sys2Proof/Tests/Slice0.lean ====
section
/-! SUPPORT. Tests of single steps, from the encodings of 30_encoding.md and the vectors of 95_test_vectors.md,
and a concrete witness for the hypotheses of each statement. -/

namespace Sys2Proof.Tests

open Sys2Proof.Machine

set_option Elab.async false

/-! ## Decoding: one word per command, put together from the bit positions of its row of R160 -/

theorem test_decode_nop : decode 0x00000000 = .ok (.nop) := rfl

theorem test_decode_addc : decode 0x034a5601 = .ok (.addc 22 41 52) := rfl

theorem test_decode_subc : decode 0x035a1702 = .ok (.subc 23 40 53) := rfl

theorem test_decode_mul64 : decode 0x4369d803 = .ok (.mul64 24 39 54 16) := rfl

theorem test_decode_setc : decode 0x00098004 = .ok (.setc 38) := rfl

theorem test_decode_fpAdd : decode 0x038a9a10 = .ok (.fpAdd 26 42 56) := rfl

theorem test_decode_fpSub : decode 0x039a5b11 = .ok (.fpSub 27 41 57) := rfl

theorem test_decode_fpRdcp : decode 0x000a1512 = .ok (.fpRdcp 21 40) := rfl

theorem test_decode_fpSwapcond : decode 0x57b9c013 = .ok (.fpSwapcond 39 59 21) := rfl

theorem test_decode_fpMul : decode 0x03399714 = .ok (.fpMul 23 38 51) := rfl

theorem test_decode_fpMontrdc : decode 0x000a9815 = .ok (.fpMontrdc 24 42) := rfl

theorem test_decode_fpMulrdc : decode 0x035a5916 = .ok (.fpMulrdc 25 41 53) := rfl

theorem test_decode_fpP34 : decode 0x000a1a17 = .ok (.fpP34 26 40) := rfl

theorem test_decode_fpMov : decode 0x0009db18 = .ok (.fpMov 27 39) := rfl

theorem test_decode_fpLdc : decode 0x00099519 = .ok (.fpLdc 21 38) := rfl

theorem test_decode_fpTomont : decode 0x000a961a = .ok (.fpTomont 22 42) := rfl

theorem test_decode_fpFrommont : decode 0x000a571b = .ok (.fpFrommont 23 41) := rfl

theorem test_decode_fp2Add : decode 0x03ba1820 = .ok (.fp2Add 24 40 59) := rfl

theorem test_decode_fp2Sub : decode 0x0339d921 = .ok (.fp2Sub 25 39 51) := rfl

theorem test_decode_fp2Mul : decode 0x03499a22 = .ok (.fp2Mul 26 38 52) := rfl

theorem test_decode_fp2Sqr : decode 0x000a9b23 = .ok (.fp2Sqr 27 42) := rfl

theorem test_decode_fp2Inv : decode 0x000a5524 = .ok (.fp2Inv 21 41) := rfl

theorem test_decode_fp2Mov : decode 0x000a1625 = .ok (.fp2Mov 22 40) := rfl

theorem test_decode_fp2Swapcond : decode 0x3b89c026 = .ok (.fp2Swapcond 39 56 14) := rfl

theorem test_decode_ptPow2k : decode 0x3f999830 = .ok (.ptPow2k 24 38 57 15) := rfl

theorem test_decode_ptPow3k : decode 0x43aa9931 = .ok (.ptPow3k 25 42 58 16) := rfl

theorem test_decode_ptLadder3pt : decode 0x47ba5a32 = .ok (.ptLadder3pt 26 41 59 17) := rfl

theorem test_decode_crvEquiv4 : decode 0x000a1b33 = .ok (.crvEquiv4 27 40) := rfl

theorem test_decode_crvEquiv3 : decode 0x0009d534 = .ok (.crvEquiv3 21 39) := rfl

theorem test_decode_crvRecover4 : decode 0x00099635 = .ok (.crvRecover4 22 38) := rfl

theorem test_decode_crvRecover3 : decode 0x000a9736 = .ok (.crvRecover3 23 42) := rfl

theorem test_decode_crvRecoverA : decode 0x000a5837 = .ok (.crvRecoverA 24 41) := rfl

theorem test_decode_crvJinv : decode 0x000a1938 = .ok (.crvJinv 25 40) := rfl

theorem test_decode_iso4Gen : decode 0x0009da40 = .ok (.iso4Gen 26 39) := rfl

theorem test_decode_iso4Eval : decode 0x00099b41 = .ok (.iso4Eval 27 38) := rfl

theorem test_decode_iso3Gen : decode 0x000a9542 = .ok (.iso3Gen 21 42) := rfl

theorem test_decode_iso3Eval : decode 0x000a5643 = .ok (.iso3Eval 22 41) := rfl

theorem test_decode_travPkA : decode 0x474a0050 = .ok (.travPkA 40 52 17) := rfl

theorem test_decode_travPkB : decode 0x4b59c051 = .ok (.travPkB 39 53 18) := rfl

theorem test_decode_travSsA : decode 0x03698052 = .ok (.travSsA 38 54) := rfl

theorem test_decode_travSsB : decode 0x037a8053 = .ok (.travSsB 42 55) := rfl

theorem test_decode_skGenerate : decode 0x000a5b60 = .ok (.skGenerate 27 41) := rfl

theorem test_decode_skImport : decode 0x039a1561 = .ok (.skImport 21 40 57) := rfl

theorem test_decode_skExport : decode 0x03a9c062 = .ok (.skExport 39 58) := rfl

theorem test_decode_pkImport : decode 0x03b99763 = .ok (.pkImport 23 38 59) := rfl

theorem test_decode_pkExport : decode 0x033a8064 = .ok (.pkExport 42 51) := rfl

theorem test_decode_genPublic : decode 0x000a5965 = .ok (.genPublic 25 41) := rfl

theorem test_decode_deriveSecret : decode 0x435a0066 = .ok (.deriveSecret 40 53 16) := rfl

theorem test_decode_encrypt : decode 0x0369c070 = .ok (.encrypt 39 54) := rfl

theorem test_decode_decrypt : decode 0x03798071 = .ok (.decrypt 38 55) := rfl

theorem test_decode_encapsulate : decode 0x038a8072 = .ok (.encapsulate 42 56) := rfl

theorem test_decode_decapsulate : decode 0x539a4073 = .ok (.decapsulate 41 57 20) := rfl

theorem test_decode_fp2Towire : decode 0x03aa0078 = .ok (.fp2Towire 40 58) := rfl

theorem test_decode_fp2Fromwire : decode 0x03b01979 = .ok (.fp2Fromwire 25 59) := rfl

theorem test_decode_zeroize : decode 0x000000fe = .ok (.zeroize) := rfl

/-- The largest value of a field, in every field (R151). -/
theorem test_decode_all_ones : decode 0xffffff30 = .ok (.ptPow2k 63 63 63 63) := rfl

/-- A reserved opcode next to a defined one, at each end of a range of R161. -/
theorem test_decode_reserved :
    decode 0x00000005 = .error (.illegalOpcode 0x05) ∧ decode 0x0000000f = .error (.illegalOpcode 0x0F) ∧
    decode 0x0000001c = .error (.illegalOpcode 0x1C) ∧ decode 0x0000007a = .error (.illegalOpcode 0x7A) ∧
    decode 0x000000fd = .error (.illegalOpcode 0xFD) ∧ decode 0xffffffff = .error (.illegalOpcode 0xFF) :=
  ⟨rfl, rfl, rfl, rfl, rfl, rfl⟩

/-- The bits above the 32 of the word are not read (R58). -/
theorem test_decodeTableWord : decodeTableWord 32 0x10204303 = some (.mul64 3 1 2 4) := rfl

/-! ## Ill-formed commands, one for each class of R153 and each overlap of R155 -/

theorem test_illformed_v : (Instr.fp2Add 32 0 0).wellFormed = false := by decide

theorem test_illformed_v3 : (Instr.crvRecoverA 0 30).wellFormed = false := by decide

theorem test_illformed_pt : (Instr.ptPow2k 16 0 0 0).wellFormed = false := by decide

theorem test_illformed_pt3 : (Instr.ptLadder3pt 0 0 14 0).wellFormed = false := by decide

theorem test_illformed_crv : (Instr.crvEquiv4 0 16).wellFormed = false := by decide

theorem test_illformed_d : (Instr.fpMul 4 0 0).wellFormed = false := by decide

theorem test_illformed_g : (Instr.addc 16 0 0).wellFormed = false := by decide

theorem test_illformed_g2 : (Instr.ptLadder3pt 0 0 13 15).wellFormed = false := by decide

theorem test_illformed_g3 : (Instr.decapsulate 0 0 14).wellFormed = false := by decide

theorem test_illformed_g4 : (Instr.encrypt 0 13).wellFormed = false := by decide

theorem test_illformed_sk : (Instr.skGenerate 4 1).wellFormed = false := by decide

theorem test_illformed_pk : (Instr.genPublic 4 0).wellFormed = false := by decide

theorem test_illformed_var : (Instr.skGenerate 0 0).wellFormed = false ∧ (Instr.skGenerate 0 4).wellFormed = false := by
  decide

theorem test_illformed_cs : (Instr.fpLdc 0 6).wellFormed = false := by decide

theorem test_illformed_mul64 : (Instr.mul64 1 2 3 1).wellFormed = false := by decide

theorem test_illformed_travSs : (Instr.travSsA 3 3).wellFormed = false := by decide

theorem test_illformed_travPk : (Instr.travPkA 5 1 3).wellFormed = false := by decide

theorem test_wellformed_e_and_imm : (Instr.fpAdd 63 63 63).wellFormed = true ∧ (Instr.setc 63).wellFormed = true := by
  decide

/-! ## One step: the command word accepted, then the core's turn -/

/-- What is read in the state one step after the word is accepted in `s`. -/
def after {α : Type} (s : State) (w : Nat) (get : State → α) : Option α :=
  match step (s.withFetchWord 32 w) with
  | .next t => some (get t)
  | _ => none

/-- The reset state with limbs in `G0, G1, …`. -/
def withG (xs : List Limb) : State := { State.reset with g := Vector.ofFn fun i => xs.getD i.val 0 }

/-- The reset state with values in `E0, E1, …`. -/
def withE (xs : List Nat) : State := { State.reset with e := Vector.ofFn fun i => BitVec.ofNat 512 (xs.getD i.val 0) }

/-- Vectors of 95_test_vectors.md section 3.1. -/
theorem test_addc_carries :
    after { withG [0, 0xffffffffffffffff, 0] with c := true } 0x00204301 (fun t => (t.readG 3, t.c)) =
      some (0, true) := by decide +kernel

theorem test_subc_borrows :
    after { withG [0, 5, 5] with c := true } 0x00204302 (fun t => (t.readG 3, t.c)) =
      some (0xffffffffffffffff, true) := by decide +kernel

theorem test_mul64_halves :
    after (withG [0, 0xdeadbeefcafebabe, 0x0123456789abcdef]) 0x10204303 (fun t => (t.readG 3, t.readG 4)) =
      some (0x00fd5bdeeeb2a01d, 0x7eb689f4ea447d62) := by decide +kernel

theorem test_setc_bit_zero : after { State.reset with c := true } 0x000f8004 State.c = some false := by decide +kernel

/-- Vectors of section 3.2, `2p - 1` and the constants as the section writes them. -/
theorem test_fpAdd_wraps : after (withE [2 ^ 512 - 1, 1]) 0x00100210 (fun t => t.readE 2) = some 0 := by
  decide +kernel

theorem test_fpSub_borrows :
    after (withE [0, 1]) 0x00100211 (fun t => t.readE 2) =
      some 0x80cdea83023c3cc08b8d7bb4ef49a03737ed90f6fcfb5e2610b7b44423cf4157fffffffffffffffffffffffffffffffffffffffffffffffffffffffffffffd := by
  decide +kernel

theorem test_fpRdcp_equal :
    after (withE [0x4066f541811e1e6045c6bdda77a4d01b9bf6c87b7e7daf13085bda2211e7a0abffffffffffffffffffffffffffffffffffffffffffffffffffffffffffffff])
      0x00000112 (fun t => t.readE 1) = some 0 := by decide +kernel

theorem test_fpSwapcond_partial :
    after { withE [0x0123456789abcdef, 0xfedcba9876543210] with g := Vector.replicate 16 2 } 0x00100013
        (fun t => ((t.readE 0).toNat % 2 ^ 64, (t.readE 1).toNat % 2 ^ 64)) =
      some (0xfedcba9876543211, 0x0123456789abcdee) := by decide +kernel

theorem test_fpMul_exact :
    after (withE [2 ^ 512 - 1]) 0x00000014 (fun t => t.readD 0) = some (BitVec.ofNat 1024 (2 ^ 1024 - 2 ^ 513 + 1)) := by
  decide +kernel

theorem test_fpMontrdc_top :
    after { State.reset with d := Vector.replicate 4 (BitVec.ofNat 1024 (2 ^ 1024 - 1)) } 0x00000015 (fun t => t.readE 0) =
      some 0x2344478716293d64d9770cbca27dc23e55dad4eeeb2e16dd1caa6fcf4390f77f62748a9a333ec05cc75c898090dadf42036cc6883b82c5beb9c54bcd65ccc0 := by
  decide +kernel

theorem test_fpMulrdc_one :
    after (withE [0x348c1710aceddc4022a097759f1ef6d89de1dfb7fd9cc91858f371d28a907d7000000000000000000000000000000000000000000000000000000000000bec,
        0x26fbaec60f59538acd77c71ab2414251689d8d667eb37d63cb1a6ea6ded2b4b4000000000000000000000000000000000000000000000000000000000003f9])
      0x00100216 (fun t => t.readE 2) =
      some 0x348c1710aceddc4022a097759f1ef6d89de1dfb7fd9cc91858f371d28a907d7000000000000000000000000000000000000000000000000000000000000bec := by
  decide +kernel

theorem test_fpMov_copies : after (withE [0, 2 ^ 512 - 1]) 0x00004018 (fun t => (t.readE 0).toNat) = some (2 ^ 512 - 1) := by
  decide +kernel

theorem test_fpLdc_one :
    after State.reset 0x00004019 (fun t => t.readE 0) =
      some 0x26fbaec60f59538acd77c71ab2414251689d8d667eb37d63cb1a6ea6ded2b4b4000000000000000000000000000000000000000000000000000000000003f9 := by
  decide +kernel

theorem test_fpTomont_two :
    after (withE [2]) 0x0000001a (fun t => t.readE 0) =
      some 0xd90684a9d9488b55528d05aecddb487354452517ee94bb48dd9032babbdc8bc000000000000000000000000000000000000000000000000000000000007f3 := by
  decide +kernel

theorem test_fpFrommont_one :
    after (withE [1]) 0x0000001b (fun t => t.readE 0) =
      some 0x1d22adba6af4e0fb6c4fb11dd5270ddd461bf38c934f9835ebb16a52ce56a92c9d8b7565ccc13fa338a3767f6f2520bdfc933977c47d3a41463ab4329a333f := by
  decide +kernel

/-- Vectors of section 3.3: `i · i` and `i²` differ in the representative. -/
theorem test_fp2Mul_i :
    after (withE [0, montOne]) 0x00000122 (fun t => t.readV 1) =
      some ⟨0x59d23bbcf2e2e935be15b49a3d085de5cf5003907e47e0c2459d459d44fc8ca3fffffffffffffffffffffffffffffffffffffffffffffffffffffffffffc05,
        0x4066f541811e1e6045c6bdda77a4d01b9bf6c87b7e7daf13085bda2211e7a0abffffffffffffffffffffffffffffffffffffffffffffffffffffffffffffff⟩ := by
  decide +kernel

theorem test_fp2Sqr_i :
    after (withE [0, montOne]) 0x00000123 (fun t => t.readV 1) =
      some ⟨0x196b467b71c4cad5784ef6bfc5638dca33593b14ffca31af3d416b7b3314ebf7fffffffffffffffffffffffffffffffffffffffffffffffffffffffffffc06, 0⟩ := by
  decide +kernel

theorem test_fp2Add_reduces :
    after (withE [2 * prime - 1, 0, 1, 0]) 0x00100220 (fun t => t.readV 2) = some ⟨0, 0⟩ := by decide +kernel

theorem test_fp2Sub_borrows :
    after (withE [0, 0, 1, 1]) 0x00100221 (fun t => ((t.readV 2).re.toNat, (t.readV 2).im.toNat)) =
      some (2 * prime - 1, 2 * prime - 1) := by decide +kernel

/-- Vectors of section 3.4 as residues: `CRV_EQUIV4`, `CRV_EQUIV3` and `CRV_RECOVER3` on the curve `(6, 1)`. -/
theorem test_crvEquiv4_residues :
    after (withE [(toMont 6).toNat, 0, montOne, 0]) 0x00000133
        (fun t => (residue (t.readE 4), residue (t.readE 6))) = some (8, 4) := by decide +kernel

theorem test_crvRecover3_residues :
    after (withE [(toMont 8).toNat, 0, (toMont 4).toNat, 0]) 0x00000136
        (fun t => (residue (t.readE 4), residue (t.readE 6))) = some (24, 4) := by decide +kernel

theorem test_ptPow2k_two_torsion :
    after { withE [0, 0, montOne, 0, (toMont 8).toNat, 0, (toMont 4).toNat, 0] with g := Vector.replicate 16 1 }
        0x00100230 (fun t => (residue (t.readE 8), residue (t.readE 10), residue (t.readE 11))) =
      some (4, 0, 0) := by decide +kernel

theorem test_ptPow2k_zero_copies :
    after (withE [1, 2, 3, 4]) 0x00100230 (fun t => t.readPt 2) = some ⟨⟨1, 2⟩, ⟨3, 4⟩⟩ := by decide +kernel

/-- Rows of section 3.7. -/
theorem test_iso3Eval_without_stash : after State.reset 0x00000043 State.errcode = some 10 := by decide +kernel

theorem test_skGenerate_without_rng : after State.reset 0x00004060 State.errcode = some 3 := by decide +kernel

theorem test_genPublic_empty : after State.reset 0x00000065 State.errcode = some 11 := by decide +kernel

theorem test_fp2Towire_last_offset :
    after (withG [1922]) 0x00000078 State.errcode = some 0 ∧ after (withG [1923]) 0x00000078 State.errcode = some 9 := by
  decide +kernel

theorem test_encapsulate_overlap_first :
    after (withG [100, 110]) 0x00000072 State.errcode = some 9 ∧
      after (withG [0, 402]) 0x00000072 State.errcode = some 11 := by decide +kernel

theorem test_reserved_opcode : after State.reset 0x00000005 (fun t => (t.errcode, t.err, t.done)) = some (8, true, true) := by
  decide +kernel

/-- Rows W1, K1 and K4 of section 3.9. -/
theorem test_fp2Towire_bytes :
    after (withE [(toMont 5).toNat + prime, (toMont 7).toNat]) 0x00000078 State.buf = some [(0, 5), (63, 7)] := by
  decide +kernel

theorem test_skImport_not_masked :
    after { withG [0, 32] with buf := [(31, 0xff)] } 0x00004061 (fun t => ((t.readSk 0).variant, (t.readSk 0).scalar[31])) =
      some (.sidhA, 0xff) := by decide +kernel

theorem test_pkImport_reduces :
    after { withG [0, 378] with buf := Memory.writeBytes [] 0 (bytesLE (prime + 3) 63) } 0x0000c063
        (fun t => t.readPk 0) = some ⟨.sike, ⟨3, 0⟩, ⟨0, 0⟩, ⟨0, 0⟩⟩ := by decide +kernel

/-- R402, R407: the last byte of a side-B scalar keeps its 4 low bits and gets bit 3. -/
theorem test_skGenerate_masks :
    after { State.reset with rng := List.replicate 32 (some 0xf5) } 0x00008160
        (fun t => ((t.readSk 1).scalar[30], (t.readSk 1).scalar[31], t.rng)) = some (0xf5, 0x0d, []) := by decide +kernel

theorem test_zeroize_keeps_cmd :
    after { withG [7] with ie := true } 0x000000fe (fun t => (t.readG 0, t.ie, t.cmd)) = some (0, true, 0x000000fe) := by
  decide +kernel

/-- R151, P1: the host writes `CMD` through the window. -/
theorem test_host_write_cmd :
    (match step (State.reset.withWrite 0x0000 0x00004004 [.run]) with
      | .next t => some (t.busy, t.cmd, t.inputs)
      | _ => none) = some (true, 0x00004004, [.run]) := by decide +kernel

/-- R105: a byte access is refused. -/
theorem test_byte_access_refused :
    step { State.reset with inputs := [.read .byte 0x4000] } = .refused (.accessNotAdmitted .byte 0x4000) := rfl

/-! ## Witnesses: a concrete state and operands that meet the hypotheses of each statement, clause by clause -/

/-- The reset state with a command word accepted and the core's turn next. -/
def running (w : Word) : State := State.reset.acceptedWord w

/-- A private key with all bytes 1, and `s` all 1 for a SIKE key. -/
def someSk (v : Variant) : SkSlot :=
  ⟨v, Vector.replicate 32 1, if v = .sike then Vector.replicate 24 1 else Vector.replicate 24 0⟩

/-- A public key with residues at the ends of their range. -/
def somePk (v : Variant) : PkSlot := ⟨v, ⟨prime - 1, 0⟩, ⟨1, prime - 1⟩, ⟨2, 3⟩⟩

/-- `SK0`, `SK1`, `PK0`, `PK1` of the given variants, limbs in `G`, one byte in `BUF`, and `n` bytes at the port. -/
def keyed (k0 k1 p0 p1 : Variant) (xs : List Limb) (n : Nat) : State :=
  { withG xs with
    sk := #v[someSk k0, someSk k1, .empty, .empty]
    pk := #v[somePk p0, somePk p1, .empty, .empty]
    buf := [(5, 7)]
    rng := List.replicate n (some 9) }

/-- The largest value in range, in every field register. -/
def fullE : State := { State.reset with e := Vector.replicate 64 (BitVec.ofNat 512 (2 * prime - 1)) }

/-- The same, in both components. -/
def topFp2 : Fp2 := ⟨BitVec.ofNat 512 (2 * prime - 1), BitVec.ofNat 512 (2 * prime - 1)⟩

theorem topFp2_inRange : topFp2.inRange := by constructor <;> decide +kernel

theorem topPt_inRange : (⟨topFp2, topFp2⟩ : Pt).inRange := ⟨topFp2_inRange, topFp2_inRange⟩

theorem fullE_readV (k : Nat) (h : k < 32) : fullE.readV k = topFp2 := by
  have h0 : 2 * k < 64 := by omega
  have h1 : 2 * k + 1 < 64 := by omega
  simp [State.readV, State.readE, fullE, Vector.getD, topFp2, h0, h1]

theorem witness_DecodeReadsExactlyTheUsedFields :
    decode 0xfff0c301 = .ok (.addc 3 3 63) ∧ (0xfff0c301 : Word) &&& (Instr.addc 3 3 63).usedMask = encode (.addc 3 3 63) := by
  exact ⟨rfl, by decide⟩

theorem witness_ReservedOpcodesAreIllegal :
    (∀ w, (running w).busy = true ∧ (running w).inputs = .run :: [] ∧ (running w).cmd = w) ∧
    ([0x05, 0x0f, 0x1c, 0x1f, 0x27, 0x2f, 0x39, 0x3f, 0x44, 0x4f, 0x54, 0x5f, 0x67, 0x6f, 0x74, 0x77, 0x7a, 0xfd,
        0xff] : List (BitVec 8)).all reservedOpcode = true ∧ opcOf 0xfffffffd = 0xfd :=
  ⟨fun _ => ⟨rfl, rfl, rfl⟩, by decide, rfl⟩

theorem witness_StepRunsTheDecodedCommand :
    ((running 0x10204303).busy = true ∧ (running 0x10204303).inputs = .run :: [] ∧
      decode (running 0x10204303).cmd = .ok (.mul64 3 1 2 4)) ∧
    ((State.reset.accept 0xfe).busy = true ∧ (State.reset.accept 0xfe).inputs = [] ∧
      decode (State.reset.accept 0xfe).cmd = .ok .zeroize) ∧
    decode (BitVec.ofNat 32 (0xfffff0fe % 2 ^ 8)) = .ok .zeroize ∧
    State.reset.busy = false ∧ State.reset.inputs = [] ∧
    ({ State.reset with inputs := [.run] } : State).inputs = .run :: [] := by
  exact ⟨⟨rfl, rfl, rfl⟩, ⟨rfl, rfl, rfl⟩, rfl, rfl, rfl, rfl⟩

theorem witness_IllegalOperandExactlyWhenIllegal :
    legal (.fp2Towire 0 0) (withG [1923]) = false ∧ legal (.fp2Towire 0 0) (withG [1922]) = true ∧
    legal (.encapsulate 0 0) (withG [100, 110]) = false ∧ legal (.encapsulate 0 0) (withG [0, 402]) = true ∧
    legal (.encapsulate 0 0) (withG [16, 0]) = true ∧ legal (.mul64 1 2 3 1) State.reset = false := by decide +kernel

theorem witness_RaisingIsAtomic :
    (∃ t, exec (.iso4Eval 0 0) State.reset = .next t ∧ t.errcode ≠ 0 ∧ t.errcode ≠ CmdError.rngFailure.code) ∧
    ∃ t, exec (.skGenerate 0 1) { State.reset with rng := [some 1] } = .next t ∧ t.errcode = CmdError.rngFailure.code :=
  ⟨⟨_, rfl, by decide, by decide⟩, ⟨_, rfl, by decide⟩⟩

theorem witness_CommandsWriteOnlyTheirDestinations :
    ∃ t, exec (.travPkB 13 14 15) State.reset = .next t := ⟨_, rfl⟩

theorem witness_CarryIsReadAndWrittenOnlyByItsCommands :
    (∀ rd rs1 rs2, Instr.nop ≠ .addc rd rs1 rs2 ∧ Instr.nop ≠ .subc rd rs1 rs2 ∧ Instr.nop ≠ .setc rs1) ∧
      Instr.nop ≠ .zeroize ∧ ∃ t, exec .nop { State.reset with c := true } = .next t :=
  ⟨fun _ _ _ => ⟨nofun, nofun, nofun⟩, nofun, _, rfl⟩

/-- A state with keys, a byte in `BUF`, a valid stash and a command in progress. -/
def populated : State :=
  { keyed .sike .sidhA .sike .sidhB [0, 32] 1 with
    iso4 := ⟨⟨topFp2, topFp2, topFp2⟩, true⟩
    cmd := 0x00004061
    busy := true
    inputs := [.run] }

theorem populated_inv : populated.Inv where
  buf := by decide
  err := by decide
  code := by decide
  progress := fun _ => by decide
  iso4 := fun h => absurd h (by decide)
  iso3 := fun _ => rfl
  sk := fun n hn => by
    interval_cases n
    · exact ⟨nofun, fun h => absurd rfl h⟩
    · exact ⟨nofun, fun _ => rfl⟩
    · exact ⟨fun _ => rfl, fun _ => rfl⟩
    · exact ⟨fun _ => rfl, fun _ => rfl⟩
  pk := fun n hn => by
    have h0 : 0 < prime := by decide +kernel
    have h1 : prime - 1 < prime := by decide +kernel
    have h3 : 3 < prime := by decide +kernel
    interval_cases n
    · exact ⟨nofun, ⟨h1, h0⟩, ⟨by show 1 < prime; omega, h1⟩, ⟨by show 2 < prime; omega, h3⟩⟩
    · exact ⟨nofun, ⟨h1, h0⟩, ⟨by show 1 < prime; omega, h1⟩, ⟨by show 2 < prime; omega, h3⟩⟩
    · exact ⟨fun _ => rfl, ⟨h0, h0⟩, ⟨h0, h0⟩, ⟨h0, h0⟩⟩
    · exact ⟨fun _ => rfl, ⟨h0, h0⟩, ⟨h0, h0⟩, ⟨h0, h0⟩⟩

theorem witness_StepKeepsTheInvariant :
    populated.Inv ∧ ∃ t, step populated = .next t ∧ (t.readSk 0).variant = .sidhA :=
  ⟨populated_inv, _, rfl, rfl⟩

theorem fullE_inRange : fullE.InRange where
  e := fun n hn => by
    have h : fullE.readE n = BitVec.ofNat 512 (2 * prime - 1) := by simp [State.readE, fullE, Vector.getD, hn]
    rw [h]; decide +kernel
  d := fun n hn => by
    have h : fullE.readD n = 0 := by simp [State.readD, fullE, State.reset, Vector.getD, hn]
    rw [h]; decide +kernel
  iso4 := by refine ⟨⟨?_, ?_⟩, ⟨?_, ?_⟩, ?_, ?_⟩ <;> decide +kernel
  iso3 := by refine ⟨⟨?_, ?_⟩, ?_, ?_⟩ <;> decide +kernel

theorem witness_CommandsKeepTheRange :
    fullE.InRange ∧ ¬mayLeaveRange (.fpSwapcond 1 2 3) fullE ∧ ¬mayLeaveRange (.fpLdc 0 2) fullE ∧
      ∃ t, exec (.fpSwapcond 1 2 3) fullE = .next t := by
  refine ⟨fullE_inRange, by show ¬2 ≤ (fullE.readG 3).toNat; decide +kernel, by show ¬(2 : Field).toNat = 3; decide, _, rfl⟩

theorem witness_ResetsRestoreTheResetState :
    ({ populated with inputs := [.powerOn] } : State).inputs = .powerOn :: [] ∧
    (∃ x : Word, x.getLsbD 1 = true ∧
      ({ populated with inputs := [.write .word 0x0008 3] } : State).inputs = .write .word 0x0008 x :: []) ∧
    populated.busy = true ∧ State.reset.busy = false :=
  ⟨rfl, ⟨3, by decide, rfl⟩, rfl, rfl⟩

theorem witness_CmdWriteWhileIdleAccepts : State.reset.busy = false := rfl

theorem witness_WritesWhileBusyAreDropped :
    populated.busy = true ∧
      ∀ a ∈ ([0x0014, 0x0100, 0x017c, 0x1000, 0x1ffc, 0x2000, 0x21fc, 0x4000, 0x47fc] : List Nat),
        a % 4 = 0 ∧ dataAddress a = true := by decide

theorem witness_OnlyUnadmittedAccessesAreRefused :
    (Width.dword ≠ .word ∧ ({ State.reset with inputs := [.read .dword 0x1000] } : State).inputs = .read .dword 0x1000 :: []) ∧
    ((0x4001 : Addr).toNat % 4 ≠ 0 ∧
      ∃ x, ({ State.reset with inputs := [.write .word 0x4001 5] } : State).inputs = .write .word 0x4001 x :: []) ∧
    nextAdmitted (State.reset.withRead 0x4000 []) = true ∧ nextAdmitted populated = true := by
  exact ⟨⟨by decide, rfl⟩, ⟨by decide, 5, rfl⟩, by decide, by decide⟩

theorem witness_WindowReadsReturnTheRegisters :
    State.reset.busy = false ∧ 15 < 16 ∧ 63 < 64 ∧ 3 < 4 ∧ 31 < 32 ∧ 511 < 512 := by decide

theorem witness_WindowWritesReplaceOneWord : (withG [1]).busy = false ∧ Memory.wf populated.buf = true := by decide

theorem witness_ControlWritesAndUnmappedAccesses :
    (∀ a ∈ ([0x0018, 0x00fc, 0x0180, 0x0ffc, 0x2200, 0x3ffc, 0x4800, 0xfffc] : List Nat),
      a < 65536 ∧ a % 4 = 0 ∧ unmappedAddress a = true) ∧ (0xfffffffd : Word).getLsbD 1 = false := by decide

theorem witness_ReadsHaveNoSideEffect :
    0x47fc % 4 = 0 ∧ populated.busy = true ∧ dataAddress 0x47fc = true ∧ State.reset.busy = false := by decide

theorem witness_SecretsAreNotInTheWindow : 0x2004 % 4 = 0 ∧ populated.sk ≠ State.reset.sk := by decide

theorem witness_IrqFollowsCompletionAndEnable :
    (running 0).busy = true ∧ (running 0).inputs = .run :: [] ∧ opcOf 0x20718500 = 0x00 ∧
      (1 : Word).getLsbD 1 = false ∧ (1 : Word).getLsbD 0 = true := ⟨rfl, rfl, rfl, by decide, by decide⟩

theorem witness_LimbCommandResults :
    (Instr.addc 15 15 15).wellFormed = true ∧ (Instr.subc 15 0 15).wellFormed = true ∧
      (Instr.mul64 15 15 15 14).wellFormed = true ∧ (15 : Field) = 15 := by decide

theorem witness_FpRdcpMovAndLdcResults : (5 : Field).toNat ≤ 5 ∧ 5 < (6 : Field).toNat := by decide

theorem witness_FpAddAndFpSubResults : topFp2.re.toNat < 2 * prime ∧ (0 : Fp).toNat < 2 * prime := by
  constructor <;> decide +kernel

theorem witness_FpSwapcondExchangesMaskedBits :
    (Instr.fpSwapcond 63 63 15).wellFormed = true ∧ (withG [0]).readG 0 = 0 ∧ (withG [1]).readG 0 = 1 := by decide

theorem witness_FpProductsAndReductions :
    (Instr.fpMul 3 63 63).wellFormed = true ∧ (Instr.fpMontrdc 63 3).wellFormed = true ∧ topFp2.re.toNat < 2 * prime ∧
      2 ^ 512 * prime - 1 < prime * 2 ^ 512 ∧ 2 ^ 512 * (2 ^ 512 - prime) - 1 < 2 ^ 512 * (2 ^ 512 - prime) ∧
      (BitVec.ofNat 512 (prime - 1)).toNat < prime := by decide +kernel

theorem witness_FpResidueLaws : Fp.inRange topFp2.re ∧ (BitVec.ofNat 512 (prime - 1)).toNat < prime :=
  ⟨topFp2_inRange.1, by decide +kernel⟩

theorem witness_Fp2ArithmeticIsTheFieldsArithmetic :
    (Instr.fp2Add 31 31 31).wellFormed = true ∧ (Instr.fp2Sqr 31 31).wellFormed = true ∧ (fullE.readV 31).inRange :=
  ⟨by decide, by decide, by rw [fullE_readV 31 (by decide)]; exact topFp2_inRange⟩

theorem gf_ne_zero_of_residue {x : Fp2} (h1 : residue x.re ≠ 0 ∧ residue x.re < prime) : x.gf ≠ 0 := by
  intro h
  have h0 : (residue x.re : ZMod prime) = 0 := congrArg QuadraticAlgebra.re h
  exact h1.1 (Nat.eq_zero_of_dvd_of_lt ((ZMod.natCast_eq_zero_iff _ prime).mp h0) h1.2)

theorem topFp2_gf_ne_zero : topFp2.gf ≠ 0 := gf_ne_zero_of_residue (by decide +kernel)

theorem witness_Fp2InvInvertsTheResidue :
    (Instr.fp2Inv 31 31).wellFormed = true ∧ (fullE.readV 31).inRange ∧ (fullE.readV 31).gf ≠ 0 ∧
      (State.reset.readV 0).gf = 0 :=
  ⟨by decide, by rw [fullE_readV 31 (by decide)]; exact topFp2_inRange, by
    rw [fullE_readV 31 (by decide)]; exact topFp2_gf_ne_zero, by
    have h : residue (0 : Fp) = 0 := by decide +kernel
    show (⟨(residue 0 : ZMod prime), (residue 0 : ZMod prime)⟩ : GF) = 0
    rw [h, Nat.cast_zero]; rfl⟩

theorem witness_Fp2MovAndSwapcondResults :
    (Instr.fp2Mov 31 31).wellFormed = true ∧ (Instr.fp2Swapcond 31 31 15).wellFormed = true ∧
      (withG [0]).readG 0 = 0 ∧ (withG [1]).readG 0 = 1 := by decide

theorem witness_PointPowerCommandsIterate : (Instr.ptPow2k 15 15 15 15).wellFormed = true := by decide

theorem witness_DoublingAndTriplingInTheField : (⟨topFp2, topFp2⟩ : Pt).inRange ∧ topFp2.inRange :=
  ⟨topPt_inRange, topFp2_inRange⟩

theorem witness_LadderStepsByTheScalarBits :
    legal (.ptLadder3pt 15 15 13 14) { State.reset with g := (Vector.replicate 16 0).set 14 16384 } = true ∧
    legal (.ptLadder3pt 15 15 13 14) ({ State.reset with g := ((Vector.replicate 16 0).set 14 7).set 15 2047 }) = true ∧
    legal (.ptLadder3pt 0 0 0 0) (withG [0, 2048]) = true ∧ ((withG [0, 2048]).readG 0).toNat = 0 ∧
    legal (.ptLadder3pt 0 15 0 0) fullE = true ∧ (fullE.readCrv 15).inRange := by
  refine ⟨by decide +kernel, by decide +kernel, by decide +kernel, by decide +kernel, by decide +kernel, ?_⟩
  rw [State.readCrv, fullE_readV _ (by decide), fullE_readV _ (by decide)]
  exact ⟨topFp2_inRange, topFp2_inRange⟩

theorem witness_LadderIgnoresBitsAboveBitlen :
    legal (.ptLadder3pt 0 0 0 0) (withG [3, 5]) = true ∧
      ∀ i, i < ((withG [3, 5]).readG 0).toNat →
        (Memory.read [(5, 0xf8)] (((withG [3, 5]).readG 1).toNat + i / 8)).getLsbD (i % 8) =
          (Memory.read (withG [3, 5]).buf (((withG [3, 5]).readG 1).toNat + i / 8)).getLsbD (i % 8) := by
  refine ⟨by decide +kernel, fun i hi => ?_⟩
  have h : ((withG [3, 5]).readG 0).toNat = 3 := by decide
  rw [h] at hi
  interval_cases i <;> decide

theorem witness_CurveFormCommands :
    (⟨topFp2, topFp2⟩ : Crv).inRange ∧ (Instr.crvEquiv4 15 15).wellFormed = true ∧ (fullE.readCrv 15).inRange :=
  ⟨topPt_inRange, by decide, by
    rw [State.readCrv, fullE_readV _ (by decide), fullE_readV _ (by decide)]; exact topPt_inRange⟩

theorem witness_RecoverAAndJInvariantFormulas :
    (Instr.crvRecoverA 15 29).wellFormed = true ∧ (Instr.crvJinv 31 15).wellFormed = true ∧
      (fullE.readV 29).inRange ∧ (fullE.readV 31).inRange ∧ (fullE.readCrv 15).inRange :=
  ⟨by decide, by decide, by rw [fullE_readV 29 (by decide)]; exact topFp2_inRange,
    by rw [fullE_readV 31 (by decide)]; exact topFp2_inRange, witness_CurveFormCommands.2.2⟩

theorem witness_IsogenyGenWritesCurveAndStash :
    (Instr.iso4Gen 15 15).wellFormed = true ∧ (fullE.readPt 15).inRange :=
  ⟨by decide, by rw [State.readPt, fullE_readV _ (by decide), fullE_readV _ (by decide)]; exact topPt_inRange⟩

/-- A state whose registers and stashes are all in range, with both stashes valid. -/
def stashed : State :=
  { fullE with iso4 := ⟨⟨topFp2, topFp2, topFp2⟩, true⟩, iso3 := ⟨⟨topFp2, topFp2⟩, true⟩ }

/-- Registers do not lie in the stashes. -/
theorem readPt_withStashes (s : State) (k : Stash4) (l : Stash3) (n : Nat) :
    ({ s with iso4 := k, iso3 := l } : State).readPt n = s.readPt n := rfl

theorem stashed_readPt : stashed.readPt 15 = ⟨topFp2, topFp2⟩ := by
  rw [stashed, readPt_withStashes, State.readPt, fullE_readV _ (by decide), fullE_readV _ (by decide)]

theorem witness_IsogenyEvalNeedsTheStash_inRange :
    (Instr.iso4Eval 15 15).wellFormed = true ∧ stashed.iso4.valid = true ∧ stashed.iso3.valid = true ∧
      (stashed.readPt 15).inRange ∧ stashed.iso4.coeffs.k1.inRange ∧ stashed.iso4.coeffs.k2.inRange ∧
      stashed.iso4.coeffs.k3.inRange ∧ stashed.iso3.coeffs.k1.inRange ∧ stashed.iso3.coeffs.k2.inRange :=
  ⟨by decide, rfl, rfl, stashed_readPt ▸ topPt_inRange, topFp2_inRange, topFp2_inRange, topFp2_inRange,
    topFp2_inRange, topFp2_inRange⟩

theorem witness_IsogenyEvalNeedsTheStash :
    (Instr.iso4Eval 15 15).wellFormed = true ∧ populated.iso4.valid = true ∧ State.reset.iso4.valid = false ∧
      ({ State.reset with iso3 := ⟨⟨topFp2, topFp2⟩, true⟩ } : State).iso3.valid = true ∧
      State.reset.iso3.valid = false := ⟨by decide, rfl, rfl, rfl, rfl⟩

theorem witness_KernelPointGoesToInfinity : (⟨topFp2, topFp2⟩ : Pt).inRange := topPt_inRange

theorem witness_PublicKeyTraversals :
    (Instr.travPkA 0 1 13).wellFormed = true ∧ (Instr.travPkB 15 3 0).wellFormed = true := by decide

theorem witness_SharedKeyTraversals : (Instr.travSsA 15 0).wellFormed = true := by decide

/-- Rows of 95_test_vectors.md section 3.6. -/
theorem witness_TraversalConsumesItsStrategy :
    wellFormedStrategy [2, 1, 1] = true ∧ strategyDepth [2, 1, 1] = 2 ∧ wellFormedStrategy [] = true ∧
      wellFormedStrategy [1, 1, 1] = true ∧ strategyDepth [1, 1, 1] = 3 ∧ wellFormedStrategy [2, 2, 1] = false ∧
      wellFormedStrategy [1, 1, 0] = false ∧ wellFormedStrategy [2] = false := by decide

theorem witness_StrategyTreesAreWellFormed : StrategyTree 4 [2, 1, 1] :=
  .node 4 2 [1] [1] (by decide) (by decide) (.node 2 1 [] [] (by decide) (by decide) .leaf .leaf)
    (.node 2 1 [] [] (by decide) (by decide) .leaf .leaf)

theorem witness_SkGenerateMasksTheScalar :
    (Instr.skGenerate 3 3).wellFormed = true ∧
    (keyed .none .none .none .none [] 56).rng = (List.replicate 56 (9 : Byte)).map some ++ [] ∧
    (List.replicate 56 (9 : Byte)).length = 56 ∧
    ¬∃ (bs : List Byte) (left : List RngItem), State.reset.rng = bs.map some ++ left ∧ bs.length = 56 := by
  refine ⟨by decide, by decide, by decide, ?_⟩
  rintro ⟨bs, left, h, hl⟩
  have h0 := congrArg List.length h
  simp only [State.reset, List.length_nil, List.length_append, List.length_map] at h0
  omega

theorem witness_KeyImports :
    legal (.skImport 3 3 14) { State.reset with g := ((Vector.replicate 16 0).set 14 1992).set 15 56 } = true ∧
    (({ State.reset with g := ((Vector.replicate 16 0).set 14 1992).set 15 56 } : State).readG 15).toNat = 56 ∧
    legal (.skImport 0 1 0) (withG [0, 2048]) = true ∧ ((withG [0, 2048]).readG 1).toNat ≠ 32 ∧
    legal (.pkImport 3 3 0) (withG [1670, 378]) = true ∧ ((withG [1670, 378]).readG 1).toNat = 378 ∧
    legal (.pkImport 0 1 0) (withG [2048, 0]) = true ∧ ((withG [2048, 0]).readG 1).toNat ≠ 378 := by decide +kernel

theorem witness_KeyExports :
    Memory.wf (keyed .sike .none .sike .none [1670] 0).buf = true ∧
    legal (.skExport 0 0) (keyed .sike .none .sike .none [1992] 0) = true ∧
    ((keyed .sike .none .sike .none [1992] 0).readSk 0).variant ≠ .none ∧
    legal (.skExport 3 14) State.reset = true ∧ (State.reset.readSk 3).variant = .none ∧
    legal (.pkExport 0 0) (keyed .sike .none .sike .none [1670] 0) = true ∧
    ((keyed .sike .none .sike .none [1670] 0).readPk 0).variant ≠ .none ∧
    legal (.pkExport 3 14) State.reset = true ∧ (State.reset.readPk 3).variant = .none := by decide +kernel

theorem witness_ExportThenImportRestoresTheKey :
    populated.Inv ∧ (3 : Field).toNat < 4 ∧
    (∃ t, exec (.skExport 0 14) populated = .next t ∧ t.errcode = 0) ∧
    (∃ t, exec (.pkExport 1 14) populated = .next t ∧ t.errcode = 0) ∧
    variantOf 3 = (populated.readSk 0).variant ∧ variantOf 2 = (populated.readPk 1).variant :=
  ⟨populated_inv, by decide, ⟨_, rfl, rfl⟩, ⟨_, rfl, rfl⟩, by decide, by decide⟩

theorem witness_GenPublicStoresThePublicKey :
    (Instr.genPublic 3 3).wellFormed = true ∧ (populated.readSk 1).variant ≠ .none ∧ (populated.readSk 3).variant = .none := by
  decide

theorem witness_DeriveSecretWritesTheSecret :
    legal (.deriveSecret 1 1 0) (keyed .sike .sidhA .sike .sidhB [1922] 0) = true ∧
    Memory.wf (keyed .sike .sidhA .sike .sidhB [1922] 0).buf = true ∧
    (let s := keyed .sike .sidhA .sike .sidhB [1922] 0
     ¬((s.readSk 1).variant = .sidhA ↔ (s.readPk 1).variant = .sidhA) ∧
     legal (.deriveSecret 0 0 15) s = true ∧ ((s.readSk 0).variant = .sidhA ↔ (s.readPk 0).variant = .sidhA) ∧
     (s.readSk 0).variant ≠ .none ∧ (s.readPk 0).variant ≠ .none ∧
     legal (.deriveSecret 2 0 0) s = true ∧ (s.readSk 2).variant = .none) := by decide +kernel

theorem witness_EncryptAndDecryptResults :
    (let s := keyed .none .none .sike .none [2024, 24, 1646] 32
     Memory.wf s.buf = true ∧ legal (.encrypt 0 0) s = true ∧ (s.readPk 0).variant = .sike ∧ (s.readG 1).toNat = 24 ∧
     s.rng = (List.replicate 32 (9 : Byte)).map some ++ [] ∧ (List.replicate 32 (9 : Byte)).length = 32) ∧
    (let s := keyed .sike .none .none .none [1646, 402, 2024] 0
     legal (.decrypt 0 0) s = true ∧ (s.readSk 0).variant = .sike ∧ (s.readG 1).toNat = 402) := by decide +kernel

theorem witness_EncapsulateAndDecapsulateResults :
    (let s := keyed .none .none .sike .none [0, 402] 24
     Memory.wf s.buf = true ∧ legal (.encapsulate 0 0) s = true ∧ (s.readPk 0).variant = .sike ∧
     s.rng = (List.replicate 24 (9 : Byte)).map some ++ [] ∧ (List.replicate 24 (9 : Byte)).length = 24) ∧
    (let s := keyed .sike .none .sike .none [1646, 402, 2032] 0
     legal (.decapsulate 0 0 0) s = true ∧ (s.readSk 0).variant = .sike ∧ (s.readPk 0).variant = .sike ∧
     (s.readG 1).toNat = 402) := by decide +kernel

theorem witness_KemErrorPriority :
    (let s := keyed .sidhB .none .sidhA .sike [0, 23, 100] 0
     legal (.encrypt 2 0) s = true ∧ (s.readPk 2).variant = .none ∧
     legal (.encrypt 0 0) s = true ∧ (s.readPk 0).variant = .sidhA ∧
     legal (.encrypt 1 0) s = true ∧ (s.readPk 1).variant = .sike ∧ (s.readG 1).toNat ≠ 24 ∧
     legal (.decrypt 2 0) s = true ∧ (s.readSk 2).variant = .none ∧
     legal (.decrypt 0 0) s = true ∧ (s.readSk 0).variant = .sidhB ∧
     legal (.decapsulate 0 2 0) s = true ∧ (s.readPk 2).variant = .none ∧
     legal (.decapsulate 0 1 0) s = true ∧ ¬((s.readSk 0).variant = .sike ∧ (s.readPk 1).variant = .sike)) ∧
    (let s := keyed .sike .none .sike .none [0, 401, 600] 0
     legal (.decrypt 0 0) s = true ∧ (s.readSk 0).variant = .sike ∧ (s.readG 1).toNat ≠ 402 ∧
     legal (.decapsulate 0 0 0) s = true ∧ (s.readPk 0).variant = .sike) ∧
    (let s := keyed .none .none .sike .sidhA [0, 402] 0
     legal (.encapsulate 2 0) s = true ∧ (s.readPk 2).variant = .none ∧ legal (.encapsulate 1 0) s = true ∧
     (s.readPk 1).variant = .sidhA ∧ legal (.encapsulate 0 0) s = true ∧ (s.readPk 0).variant = .sike) := by
  decide +kernel

/-- An empty port does not deliver (the last clauses of `KemErrorPriority`), at a length of 24 as well as of 32. -/
theorem witness_KemErrorPriority_short :
    (let s := keyed .none .none .sike .none [0, 24, 100] 0
     legal (.encrypt 0 0) s = true ∧ (s.readPk 0).variant = .sike ∧ (s.readG 1).toNat = 24) ∧
    ∀ n, 0 < n → ¬∃ (bs : List Byte) (left : List RngItem),
      (keyed .none .none .sike .none [0, 24, 100] 0).rng = bs.map some ++ left ∧ bs.length = n := by
  refine ⟨by decide +kernel, ?_⟩
  rintro n hn ⟨bs, left, h, rfl⟩
  have h0 := congrArg List.length h
  simp only [keyed, List.replicate_zero, List.length_nil, List.length_append, List.length_map] at h0
  omega

theorem witness_CompositeCommandsLeaveNoIsogeny :
    Instr.genPublic 0 1 ∈ ([.genPublic 0 1, .deriveSecret 1 0 0, .encrypt 1 0, .decrypt 1 0, .encapsulate 1 0,
      .decapsulate 1 0 0] : List Instr) ∧
    (∃ t, exec (.genPublic 0 1) populated = .next t ∧ t.errcode = 0) ∧ (Instr.iso4Eval 15 15).wellFormed = true :=
  ⟨by decide, ⟨_, rfl, rfl⟩, by decide⟩

theorem witness_WireConversions :
    legal (.fp2Towire 31 0) (keyed .none .none .none .none [1922] 0) = true ∧
      Memory.wf (keyed .none .none .none .none [1922] 0).buf = true ∧
      legal (.fp2Fromwire 31 0) (keyed .none .none .none .none [1922] 0) = true := by decide +kernel

end Sys2Proof.Tests
end

section
/-! PROOF of O48. The abstract run of R371 (`indexRun`) and the traversal of R374 (`walkRounds`) move the same
indices through the same strategy, so a run that does not fail tells what the traversal leaves. That the stack is
empty at the end is the invariant of the run: the current index and the stacked ones descend strictly, and with
`N - j` rounds to run the current index is at most `N - j`. -/

namespace Sys2Proof.Machine

/-! ### The abstract run of R371 -/

/-- Above the bound nothing is pushed. -/
theorem pushRun_of_lt {bound i : Nat} (h : bound < i) (strat st : List Nat) :
    pushRun bound strat st i = some (st, i, strat) := by
  cases strat <;> simp [pushRun, h]

/-- Where the run does not fail, a push reads an entry that is not 0. -/
theorem pushRun_cons_of_le {bound i k : Nat} {rest st : List Nat} {out : List Nat × Nat × List Nat} (hi : i ≤ bound)
    (h : pushRun bound (k :: rest) st i = some out) : 1 ≤ k ∧ pushRun bound rest (i :: st) (i + k) = some out := by
  rw [pushRun, if_pos hi] at h
  split at h
  · contradiction
  · exact ⟨by omega, h⟩

/-- What a round of the abstract run does where the run does not fail: it pushes until the index is the number of
rounds left, and goes on from the index it pops. -/
theorem indexRun_succ {rounds i deepest : Nat} {strat st : List Nat} {out : List Nat × Nat}
    (h : indexRun (rounds + 1) strat st i deepest = some out) :
    ∃ top below rest, pushRun rounds strat st i = some (top :: below, rounds + 1, rest) ∧
      indexRun rounds rest below top (max deepest (below.length + 1)) = some out := by
  rw [indexRun] at h
  split at h
  · contradiction
  · next st' i' rest hp =>
    split at h
    · next hi =>
      subst hi
      cases st' with
      | nil => contradiction
      | cons top below => exact ⟨top, below, rest, hp, h⟩
    · contradiction

/-- A push moves the index up, so the current index and the stacked ones stay strictly descending. -/
theorem pushRun_descending {bound i i' : Nat} {strat st st' rest : List Nat}
    (h : pushRun bound strat st i = some (st', i', rest)) (hd : (i :: st).Pairwise (· > ·)) :
    (i' :: st').Pairwise (· > ·) := by
  induction strat generalizing i st with
  | nil =>
    rw [pushRun] at h
    split at h
    · contradiction
    · cases h; exact hd
  | cons k rest ih =>
    by_cases hi : i ≤ bound
    · obtain ⟨hk, h⟩ := pushRun_cons_of_le hi h
      refine ih h (List.pairwise_cons.mpr ⟨fun x hx => ?_, hd⟩)
      rcases List.mem_cons.mp hx with rfl | hx
      · omega
      · have := (List.pairwise_cons.mp hd).1 x hx
        omega
    · rw [pushRun_of_lt (Nat.lt_of_not_le hi)] at h
      cases h; exact hd

/-- `wellFormedStrategy` and `strategyDepth` read the same run. -/
theorem indexRun_of_wellFormed {strat : List Nat} (h : wellFormedStrategy strat = true) :
    indexRun strat.length strat [] 0 0 = some ([], strategyDepth strat) := by
  unfold wellFormedStrategy at h
  unfold strategyDepth
  split at h
  · next rest deepest hrun => rw [hrun, List.isEmpty_iff.mp h]
  · contradiction

/-! ### The naive strategy -/

@[simp] theorem length_naiveStrategy (n : Nat) : (naiveStrategy n).length = n := by
  induction n with
  | zero => rfl
  | succ n ih => rw [naiveStrategy, List.length_cons, ih]

/-- Each round of the naive strategy pushes the index 0 onto an empty stack and pops it again. -/
theorem indexRun_naiveStrategy (n deepest : Nat) :
    indexRun n (naiveStrategy n) [] 0 deepest = some ([], max deepest (min n 1)) := by
  induction n generalizing deepest with
  | zero => simp [indexRun, naiveStrategy]
  | succ n ih =>
    have hpush : pushRun n (naiveStrategy (n + 1)) [] 0 = some ([0], n + 1, naiveStrategy n) := by
      simp [naiveStrategy, pushRun, pushRun_of_lt]
    simp [indexRun, hpush, ih]

theorem wellFormedStrategy_naiveStrategy (n : Nat) : wellFormedStrategy (naiveStrategy n) = true := by
  simp [wellFormedStrategy, indexRun_naiveStrategy]

/-! ### The configured strategies -/

/-- An admitted strategy is well-formed and has the length asked for, whatever is offered. -/
theorem admitStrategy_wellFormed (n : Nat) (offered : List Nat) :
    (admitStrategy n offered).length = n ∧ wellFormedStrategy (admitStrategy n offered) = true := by
  unfold admitStrategy
  split
  · assumption
  · exact ⟨length_naiveStrategy n, wellFormedStrategy_naiveStrategy n⟩

theorem strategy_wellFormed (sd : Side) :
    (strategy sd).length = stratLen sd ∧ wellFormedStrategy (strategy sd) = true := by
  cases sd <;> exact admitStrategy_wellFormed _ _

theorem strategyDepth_le_stackDepth (sd : Side) : strategyDepth (strategy sd) ≤ stackDepth := by
  cases sd <;> simp [stackDepth]

/-! ### The traversal follows the abstract run -/

section
variable {κ : Type} (fam : IsogenyFamily κ)

/-- The inner loop of R374 moves the indices as the inner loop of R371 does. -/
theorem pushLoop_follows_pushRun (crv : Crv) {bound i i' : Nat} (r : Pt) {strat st' rest : List Nat}
    {st : List (Pt × Nat)} (h : pushRun bound strat (st.map Prod.snd) i = some (st', i', rest)) :
    ∃ r' stack, pushLoop fam crv bound strat r i st = (r', i', stack, rest) ∧ stack.map Prod.snd = st' := by
  induction strat generalizing r i st with
  | nil =>
    rw [pushRun] at h
    split at h
    · contradiction
    · cases h; exact ⟨r, st, rfl, rfl⟩
  | cons k rest ih =>
    rw [pushLoop]
    by_cases hi : i ≤ bound
    · rw [if_pos hi]
      exact ih _ (pushRun_cons_of_le hi h).2
    · rw [if_neg hi]
      rw [pushRun_of_lt (Nat.lt_of_not_le hi)] at h
      cases h; exact ⟨r, st, rfl, rfl⟩

/-- A round of R374 pops the index, and leaves the stack and the strategy, that the round of R371 does. -/
theorem walkRound_follows_pushRun {bound i' top : Nat} {below rest : List Nat} {f : Frame κ}
    (h : pushRun bound f.strat (f.stack.map Prod.snd) f.i = some (top :: below, i', rest)) :
    (walkRound fam bound f).i = top ∧ (walkRound fam bound f).stack.map Prod.snd = below ∧
      (walkRound fam bound f).strat = rest ∧
      (walkRound fam bound f).deepest = max f.deepest (below.length + 1) := by
  obtain ⟨r', stack, hpush, hstack⟩ := pushLoop_follows_pushRun fam f.crv f.r h
  cases stack with
  | nil => contradiction
  | cons entry stack =>
    obtain ⟨rfl, rfl⟩ := List.cons.inj hstack
    simp [walkRound, hpush, Function.comp_def]

/-- Where the abstract run does not fail, the rounds of the traversal end with its strategy and its depth and with
an empty stack. -/
theorem walkRounds_follow_indexRun {rounds deepest : Nat} {rest : List Nat} {f : Frame κ}
    (h : indexRun rounds f.strat (f.stack.map Prod.snd) f.i f.deepest = some (rest, deepest))
    (hd : (f.i :: f.stack.map Prod.snd).Pairwise (· > ·)) (hi : f.i ≤ rounds) :
    (walkRounds fam rounds f).stack = [] ∧ (walkRounds fam rounds f).strat = rest ∧
      (walkRounds fam rounds f).deepest = deepest := by
  induction rounds generalizing f with
  | zero =>
    have hempty : f.stack.map Prod.snd = [] := by
      refine List.eq_nil_iff_forall_not_mem.mpr fun x hx => ?_
      have := (List.pairwise_cons.mp hd).1 x hx
      omega
    cases h
    exact ⟨List.map_eq_nil_iff.mp hempty, rfl, rfl⟩
  | succ rounds ih =>
    obtain ⟨top, below, rest', hpush, hrun⟩ := indexRun_succ h
    obtain ⟨hlt, hd'⟩ := List.pairwise_cons.mp (pushRun_descending hpush hd)
    have htop := hlt top List.mem_cons_self
    obtain ⟨ei, estack, estrat, edeepest⟩ := walkRound_follows_pushRun fam hpush
    rw [walkRounds]
    refine ih ?_ ?_ ?_
    · rw [ei, estack, estrat, edeepest]; exact hrun
    · rw [ei, estack]; exact hd'
    · omega

/-- A traversal by a well-formed strategy, with any family of isogenies. -/
theorem traverse_of_wellFormed {strat : List Nat} (h : wellFormedStrategy strat = true) (c : Crv) (r : Pt)
    (b : List Pt) :
    (traverse fam strat c r b).stack = [] ∧ (traverse fam strat c r b).strat = [] ∧
      (traverse fam strat c r b).deepest = strategyDepth strat :=
  walkRounds_follow_indexRun fam (indexRun_of_wellFormed h) (List.pairwise_singleton _ _) (Nat.zero_le _)

end

/-- Settles O48: the traversal follows the abstract run of R371, whose indices descend strictly on the stack. -/
theorem traversalConsumesItsStrategy : Obligations.TraversalConsumesItsStrategy := by
  unfold Obligations.TraversalConsumesItsStrategy
  refine ⟨fun strat c r b h => ⟨?_, ?_⟩, fun sd => ⟨?_, ?_⟩, ?_, ?_⟩
  · exact traverse_of_wellFormed family4 h c r b
  · exact traverse_of_wellFormed family3 h c r b
  · exact (strategy_wellFormed sd).2
  · exact strategyDepth_le_stackDepth sd
  · exact (strategy_wellFormed .a).1
  · exact (strategy_wellFormed .b).1

end Sys2Proof.Machine
end

section
/-! PROOF of O11, O12, O9 and O24. Every command's step is a chain of updates, each inside what the command may write
and each keeping the invariant, and then a completion with a defined code (`EndsWithin`). That is proved once, command
by command (`exec_endsWithin`); the frame (R74), the invariant and the completion follow from it. -/

namespace Sys2Proof.Machine

/-! ### Sound slots -/

theorem SkSlot.sound_empty : SkSlot.empty.sound := ⟨fun _ => rfl, fun _ => rfl⟩

theorem PkSlot.sound_empty : PkSlot.empty.sound :=
  ⟨fun _ => rfl, ⟨prime_pos, prime_pos⟩, ⟨prime_pos, prime_pos⟩, ⟨prime_pos, prime_pos⟩⟩

/-- A legal `var` field names a variant (R68). -/
theorem variantOf_ne_none {f : Field} (h : okVar f = true) : variantOf f ≠ .none := by
  simp only [okVar, decide_eq_true_eq] at h
  obtain h1 | h2 | h3 : f.toNat = 1 ∨ f.toNat = 2 ∨ f.toNat = 3 := by omega
  · simp [variantOf, h1]
  · simp [variantOf, h2]
  · simp [variantOf, h3]

theorem isPresent_iff (v : Variant) : isPresent v = true ↔ v ≠ .none := by simp [isPresent]

/-- An imported secret key is sound whatever its bytes (R403). -/
theorem skFromWire_sound {v : Variant} (hv : v ≠ .none) (b : List Byte) : (skFromWire v b).sound := by
  cases v with
  | none => contradiction
  | sidhA | sidhB => exact ⟨nofun, fun _ => rfl⟩
  | sike => exact ⟨nofun, fun h => absurd rfl h⟩

theorem residueFromWire_reduced (b : List Byte) : (residueFromWire b).reduced :=
  ⟨Nat.mod_lt _ prime_pos, Nat.mod_lt _ prime_pos⟩

theorem residue2_reduced (x : Fp2) : (residue2 x).reduced := ⟨residue_lt x.re, residue_lt x.im⟩

/-- An imported public key is sound whatever its bytes (R405, R491). -/
theorem pkFromWire_sound {v : Variant} (hv : v ≠ .none) (b : List Byte) : (pkFromWire v b).sound :=
  ⟨fun h => absurd h hv, residueFromWire_reduced _, residueFromWire_reduced _, residueFromWire_reduced _⟩

/-- Public-key generation makes residues (R409). -/
theorem genPublicOn_reduced {κ : Type} (fam : IsogenyFamily κ) (sd : Side) (sc : List Byte) :
    (genPublicOn fam sd sc).1.reduced ∧ (genPublicOn fam sd sc).2.1.reduced ∧ (genPublicOn fam sd sc).2.2.reduced := by
  unfold genPublicOn
  dsimp only
  split
  · exact ⟨residue2_reduced _, residue2_reduced _, residue2_reduced _⟩
  · exact ⟨⟨prime_pos, prime_pos⟩, ⟨prime_pos, prime_pos⟩, ⟨prime_pos, prime_pos⟩⟩

theorem genPublic_sound {v : Variant} (hv : v ≠ .none) (sc : List Byte) : (genPublic v sc).sound := by
  refine ⟨fun h => absurd h hv, ?_⟩
  unfold genPublic
  split
  · exact genPublicOn_reduced family4 .a sc
  · exact genPublicOn_reduced family3 .b sc

/-! ### The invariant, update by update -/

variable {w : Writes} {s t : State}

/-- Writing a sound key to a slot of `SK` keeps the slots sound. -/
theorem State.Inv.writeSk (h : s.Inv) (n : Nat) {k : SkSlot} (hk : k.sound) : (s.writeSk n k).Inv :=
  { h with
    sk := fun m hm => by
      by_cases e : m = n
      · subst e; rw [State.readSk_writeSk_self s hm]; exact hk
      · rw [State.readSk_writeSk_ne s e]; exact h.sk m hm }

/-- Writing a sound key to a slot of `PK` keeps the slots sound. -/
theorem State.Inv.writePk (h : s.Inv) (n : Nat) {k : PkSlot} (hk : k.sound) : (s.writePk n k).Inv :=
  { h with
    pk := fun m hm => by
      by_cases e : m = n
      · subst e; rw [State.readPk_writePk_self s hm]; exact hk
      · rw [State.readPk_writePk_ne s e]; exact h.pk m hm }

theorem State.Inv.bufWrite (h : s.Inv) {off : Nat} {bs : List Byte} (hb : off + bs.length ≤ 2048) :
    (s.bufWrite off bs).Inv :=
  { h with buf := Memory.wf_writeBytes bs hb h.buf }

theorem State.Inv.clearStashes (h : s.Inv) : s.clearStashes.Inv :=
  { h with iso4 := fun _ => rfl, iso3 := fun _ => rfl }

/-- A completion with a defined code (R150, R521). -/
theorem State.Inv.finish (h : s.Inv) {code : BitVec 4} (hc : definedCode code = true) : (s.finish code).Inv :=
  { h with err := rfl, code := hc, progress := nofun }

/-- The acceptance of a command (R150). -/
theorem State.Inv.accept (h : s.Inv) (x : Word) : (s.accept x).Inv :=
  { h with err := rfl, code := rfl, progress := fun _ => ⟨rfl, rfl⟩ }

/-- Every read of a file filled with one value answers that value. -/
theorem getD_replicate_self {α : Type} (k n : Nat) (a : α) : (Vector.replicate k a).getD n a = a := by
  by_cases h : n < k
  · simp [Vector.getD, h]
  · simp [Vector.getD, h]

@[simp] theorem State.zeroized_readSk (s : State) (n : Nat) : s.zeroized.readSk n = .empty :=
  getD_replicate_self 4 n SkSlot.empty

@[simp] theorem State.zeroized_readPk (s : State) (n : Nat) : s.zeroized.readPk n = .empty :=
  getD_replicate_self 4 n PkSlot.empty

theorem State.Inv.zeroized (h : s.Inv) : s.zeroized.Inv :=
  { h with
    buf := rfl
    iso4 := fun _ => rfl
    iso3 := fun _ => rfl
    sk := fun n _ => State.zeroized_readSk s n ▸ SkSlot.sound_empty
    pk := fun n _ => State.zeroized_readPk s n ▸ PkSlot.sound_empty }

/-! ### Sound updates -/

/-- From `s` to `t` nothing changes but what `w` allows (and `STATUS` and `ISR`), and the invariant is kept. -/
structure SoundUpdate (w : Writes) (s t : State) : Prop where
  frame : KeepsRest w s t
  inv : s.Inv → t.Inv

theorem SoundUpdate.refl : SoundUpdate w s s := ⟨.refl w s, id⟩

theorem SoundUpdate.writeE (h : SoundUpdate w s t) {n : Nat} (hn : n ∈ w.e) (v : Fp) : SoundUpdate w s (t.writeE n v) :=
  ⟨h.frame.writeE hn v, fun hs => { h.inv hs with }⟩

theorem SoundUpdate.writeD (h : SoundUpdate w s t) {n : Nat} (hn : n ∈ w.d) (v : FpX2) :
    SoundUpdate w s (t.writeD n v) :=
  ⟨h.frame.writeD hn v, fun hs => { h.inv hs with }⟩

theorem SoundUpdate.writeG (h : SoundUpdate w s t) {n : Nat} (hn : n ∈ w.g) (v : Limb) :
    SoundUpdate w s (t.writeG n v) :=
  ⟨h.frame.writeG hn v, fun hs => { h.inv hs with }⟩

theorem SoundUpdate.writeC (h : SoundUpdate w s t) (hc : w.c = true) (b : Bool) : SoundUpdate w s (t.writeC b) :=
  ⟨h.frame.writeC hc b, fun hs => { h.inv hs with }⟩

theorem SoundUpdate.takeRng (h : SoundUpdate w s t) (hw : w.rng = true) (left : List RngItem) :
    SoundUpdate w s { t with rng := left } :=
  ⟨h.frame.takeRng hw left, fun hs => { h.inv hs with }⟩

theorem SoundUpdate.writeSk (h : SoundUpdate w s t) {n : Nat} (hn : n ∈ w.sk) {k : SkSlot} (hk : k.sound) :
    SoundUpdate w s (t.writeSk n k) :=
  ⟨h.frame.writeSk hn k, fun hs => (h.inv hs).writeSk n hk⟩

theorem SoundUpdate.writePk (h : SoundUpdate w s t) {n : Nat} (hn : n ∈ w.pk) {k : PkSlot} (hk : k.sound) :
    SoundUpdate w s (t.writePk n k) :=
  ⟨h.frame.writePk hn k, fun hs => (h.inv hs).writePk n hk⟩

/-- Bytes written to a `BUF` range that may be written and lies inside `BUF` (R101). -/
theorem SoundUpdate.bufWrite (h : SoundUpdate w s t) {off : Limb} {n : Nat} {bs : List Byte}
    (hw : (off.toNat, n) ∈ w.buf) (hn : bs.length = n) (hr : okRange off n = true) :
    SoundUpdate w s (t.bufWrite off.toNat bs) :=
  ⟨h.frame.bufWrite hw hn.le, fun hs => (h.inv hs).bufWrite (by simpa [okRange, hn] using hr)⟩

/-- A stash that is written is valid (R340). -/
theorem SoundUpdate.stash4 (h : SoundUpdate w s t) (hw : w.iso4 = true) (k : Coeffs4) : SoundUpdate w s (t.stash4 k) :=
  ⟨h.frame.stash4 hw k, fun hs => { h.inv hs with iso4 := nofun }⟩

theorem SoundUpdate.stash3 (h : SoundUpdate w s t) (hw : w.iso3 = true) (k : Coeffs3) : SoundUpdate w s (t.stash3 k) :=
  ⟨h.frame.stash3 hw k, fun hs => { h.inv hs with iso3 := nofun }⟩

theorem SoundUpdate.stashLast4 (h : SoundUpdate w s t) (hw : w.iso4 = true) (k : Option Coeffs4) :
    SoundUpdate w s (t.stashLast4 k) := by
  cases k with
  | none => exact h
  | some k => exact h.stash4 hw k

theorem SoundUpdate.stashLast3 (h : SoundUpdate w s t) (hw : w.iso3 = true) (k : Option Coeffs3) :
    SoundUpdate w s (t.stashLast3 k) := by
  cases k with
  | none => exact h
  | some k => exact h.stash3 hw k

theorem SoundUpdate.clearStashes (h : SoundUpdate w s t) (h4 : w.iso4 = true) (h3 : w.iso3 = true) :
    SoundUpdate w s t.clearStashes :=
  ⟨h.frame.clearStashes h4 h3, fun hs => (h.inv hs).clearStashes⟩

theorem SoundUpdate.writeV (h : SoundUpdate w s t) {k : Nat} (hk : vRegs k ⊆ w.e) (v : Fp2) :
    SoundUpdate w s (t.writeV k v) :=
  ⟨h.frame.writeV hk v, fun hs => { h.inv hs with }⟩

theorem SoundUpdate.writePt (h : SoundUpdate w s t) {k : Nat} (hk : ptRegs k ⊆ w.e) (p : Pt) :
    SoundUpdate w s (t.writePt k p) :=
  ⟨h.frame.writePt hk p, fun hs => { h.inv hs with }⟩

theorem SoundUpdate.writeCrv (h : SoundUpdate w s t) {k : Nat} (hk : ptRegs k ⊆ w.e) (c : Crv) :
    SoundUpdate w s (t.writeCrv k c) :=
  ⟨h.frame.writeCrv hk c, fun hs => { h.inv hs with }⟩

theorem SoundUpdate.writePts (h : SoundUpdate w s t) {k : Nat} (ps : List Pt)
    (hk : ∀ i < ps.length, ptRegs (k + i) ⊆ w.e) : SoundUpdate w s (t.writePts k ps) := by
  induction ps generalizing t k with
  | nil => exact h
  | cons p ps ih =>
    refine ih (h.writePt (hk 0 (by simp)) p) fun i hi => ?_
    rw [Nat.add_assoc, Nat.add_comm 1]
    exact hk (i + 1) (by simpa using hi)

/-- `ZEROIZE` may write every piece of data state (R526). -/
theorem SoundUpdate.zeroized : SoundUpdate (mayWrite .zeroize s) s s.zeroized where
  frame :=
    { KeepsRest.refl (mayWrite .zeroize s) s with
      e := fun _ hn hw => absurd (List.mem_range.mpr hn) hw
      d := fun _ hn hw => absurd (List.mem_range.mpr hn) hw
      g := fun _ hn hw => absurd (List.mem_range.mpr hn) hw
      c := nofun
      iso4 := nofun
      iso3 := nofun
      sk := fun _ hn hw => absurd (List.mem_range.mpr hn) hw
      pk := fun _ hn hw => absurd (List.mem_range.mpr hn) hw
      buf := fun a ha hout =>
        absurd ⟨Nat.zero_le a, by simpa using ha⟩ (hout (0, bufSize) (List.mem_singleton_self _)) }
  inv := State.Inv.zeroized

/-! ### The ends of a command -/

/-- The result is a completion with a defined code, after a sound update of `s`. -/
def EndsWithin (w : Writes) (s : State) (r : Result) : Prop :=
  ∃ u code, r = .next (u.finish code) ∧ definedCode code = true ∧ SoundUpdate w s u

theorem EndsWithin.complete (h : SoundUpdate w s t) : EndsWithin w s (complete t) := ⟨t, 0, rfl, rfl, h⟩

theorem EndsWithin.raise (h : SoundUpdate w s t) (e : CmdError) : EndsWithin w s (raise e t) :=
  ⟨t, e.code, rfl, by cases e <;> rfl, h⟩

/-- A check that fails is raised with nothing changed; where all hold, the effect decides. -/
theorem EndsWithin.checked {cs : List (Bool × CmdError)} {r : Result}
    (h : (∀ c ∈ cs, c.1 = true) → EndsWithin w s r) : EndsWithin w s (checked s cs r) := by
  rcases checked_cases s cs r with ⟨hall, heq⟩ | ⟨_, e, _, _, _, heq⟩
  · rw [heq]; exact h hall
  · rw [heq]; exact .raise .refl e

/-- A read of the RNG port takes items of it, and fails or goes on (R72). -/
theorem EndsWithin.withRng {n : Nat} {effect : List Byte → State → Result} (ht : SoundUpdate w s t) (hw : w.rng = true)
    (h : ∀ bs left, bs.length = n → SoundUpdate w s { t with rng := left } →
      EndsWithin w s (effect bs { t with rng := left })) : EndsWithin w s (withRng n t effect) := by
  rcases withRng_cases n t effect with ⟨bs, left, _, hlen, heq⟩ | ⟨left, _, heq⟩
  · rw [heq]; exact h bs left hlen (ht.takeRng hw left)
  · rw [heq]; exact .raise (ht.takeRng hw left) _

/-! ### The commands that write key slots or `BUF` -/

theorem execSkGenerate_endsWithin (rd rs1 : Field) (s : State) :
    EndsWithin (mayWrite (.skGenerate rd rs1) s) s (execSkGenerate rd rs1 s) := by
  refine .checked fun hc => .withRng .refl rfl fun sc left _ hl => ?_
  simp only [List.forall_mem_cons, Bool.and_eq_true] at hc
  obtain ⟨⟨_, hvar⟩, _⟩ := hc
  by_cases hsike : variantOf rs1 = .sike
  · rw [if_pos hsike]
    refine .withRng hl rfl fun _ _ _ hl => .complete (hl.writeSk (List.mem_singleton_self _) ?_)
    exact ⟨nofun, fun h => absurd rfl h⟩
  · rw [if_neg hsike]
    refine .complete (hl.writeSk (List.mem_singleton_self _) ?_)
    exact ⟨fun h => absurd h (variantOf_ne_none hvar), fun _ => rfl⟩

theorem execSkImport_endsWithin (rd rs1 rs2 : Field) (s : State) :
    EndsWithin (mayWrite (.skImport rd rs1 rs2) s) s (execSkImport rd rs1 rs2 s) := by
  refine .checked fun hc => ?_
  simp only [List.forall_mem_cons, Bool.and_eq_true] at hc
  obtain ⟨⟨⟨⟨_, hvar⟩, _⟩, _⟩, _⟩ := hc
  exact .complete (.writeSk .refl (List.mem_singleton_self _) (skFromWire_sound (variantOf_ne_none hvar) _))

theorem execSkExport_endsWithin (rs1 rs2 : Field) (s : State) :
    EndsWithin (mayWrite (.skExport rs1 rs2) s) s (execSkExport rs1 rs2 s) := by
  refine .checked fun hc => ?_
  simp only [List.forall_mem_cons, Bool.and_eq_true] at hc
  obtain ⟨⟨_, hrange⟩, _⟩ := hc
  exact .complete
    (.writeG (.bufWrite .refl (List.mem_singleton_self _) (length_skWire _) hrange) (List.mem_singleton_self _) _)

theorem execPkImport_endsWithin (rd rs1 rs2 : Field) (s : State) :
    EndsWithin (mayWrite (.pkImport rd rs1 rs2) s) s (execPkImport rd rs1 rs2 s) := by
  refine .checked fun hc => ?_
  simp only [List.forall_mem_cons, Bool.and_eq_true] at hc
  obtain ⟨⟨⟨⟨_, hvar⟩, _⟩, _⟩, _⟩ := hc
  exact .complete (.writePk .refl (List.mem_singleton_self _) (pkFromWire_sound (variantOf_ne_none hvar) _))

theorem execPkExport_endsWithin (rs1 rs2 : Field) (s : State) :
    EndsWithin (mayWrite (.pkExport rs1 rs2) s) s (execPkExport rs1 rs2 s) := by
  refine .checked fun hc => ?_
  simp only [List.forall_mem_cons, Bool.and_eq_true] at hc
  obtain ⟨⟨_, hrange⟩, _⟩ := hc
  exact .complete
    (.writeG (.bufWrite .refl (List.mem_singleton_self _) (length_pkWire _) hrange) (List.mem_singleton_self _) _)

theorem execGenPublic_endsWithin (rd rs1 : Field) (s : State) :
    EndsWithin (mayWrite (.genPublic rd rs1) s) s (execGenPublic rd rs1 s) := by
  refine .checked fun hc => ?_
  simp only [List.forall_mem_cons, isPresent_iff] at hc
  obtain ⟨_, hkey, _⟩ := hc
  exact .complete (.clearStashes (.writePk .refl (List.mem_singleton_self _) (genPublic_sound hkey _)) rfl rfl)

theorem execDeriveSecret_endsWithin (rs1 rs2 rs3 : Field) (s : State) :
    EndsWithin (mayWrite (.deriveSecret rs1 rs2 rs3) s) s (execDeriveSecret rs1 rs2 rs3 s) := by
  refine .checked fun hc => ?_
  simp only [List.forall_mem_cons, Bool.and_eq_true] at hc
  obtain ⟨⟨_, hrange⟩, _⟩ := hc
  exact .complete
    (.clearStashes (.bufWrite .refl (List.mem_singleton_self _) (length_deriveSecret _ _ _) hrange) rfl rfl)

theorem execEncrypt_endsWithin (rs1 rs2 : Field) (s : State) :
    EndsWithin (mayWrite (.encrypt rs1 rs2) s) s (execEncrypt rs1 rs2 s) := by
  refine .checked fun hc => ?_
  simp only [List.forall_mem_cons, Bool.and_eq_true] at hc
  obtain ⟨⟨_, hrange⟩, _⟩ := hc
  exact .withRng .refl rfl fun r left _ hl => .complete
    (.clearStashes (.writeG (.bufWrite hl (List.mem_singleton_self _)
      (length_encryptCore _ _ _ (Memory.length_readBytes _ _ _)) hrange) (List.mem_singleton_self _) _) rfl rfl)

theorem execDecrypt_endsWithin (rs1 rs2 : Field) (s : State) :
    EndsWithin (mayWrite (.decrypt rs1 rs2) s) s (execDecrypt rs1 rs2 s) := by
  refine .checked fun hc => ?_
  simp only [List.forall_mem_cons, Bool.and_eq_true] at hc
  obtain ⟨⟨_, hrange⟩, _⟩ := hc
  exact .complete
    (.clearStashes (.writeG (.bufWrite .refl (List.mem_singleton_self _)
      (length_decryptCore _ (Memory.length_readBytes _ _ _)) hrange) (List.mem_singleton_self _) _) rfl rfl)

theorem execEncapsulate_endsWithin (rs1 rs2 : Field) (s : State) :
    EndsWithin (mayWrite (.encapsulate rs1 rs2) s) s (execEncapsulate rs1 rs2 s) := by
  refine .checked fun hc => ?_
  simp only [List.forall_mem_cons, Bool.and_eq_true] at hc
  obtain ⟨⟨⟨⟨_, hctext⟩, hkey⟩, _⟩, _⟩ := hc
  refine .withRng .refl rfl fun m left hm hl => .complete (.clearStashes ?_ rfl rfl)
  have hc := hl.bufWrite List.mem_cons_self (length_encapsulateCore_fst (s.readPk rs1.toNat) hm) hctext
  exact hc.bufWrite (List.mem_cons_of_mem _ List.mem_cons_self) (length_encapsulateCore_snd _ m) hkey

theorem execDecapsulate_endsWithin (rs1 rs2 rs3 : Field) (s : State) :
    EndsWithin (mayWrite (.decapsulate rs1 rs2 rs3) s) s (execDecapsulate rs1 rs2 rs3 s) := by
  refine .checked fun hc => ?_
  simp only [List.forall_mem_cons, Bool.and_eq_true] at hc
  obtain ⟨⟨_, hrange⟩, _⟩ := hc
  exact .complete
    (.clearStashes (.bufWrite .refl (List.mem_singleton_self _) (length_decapsulateCore _ _ _) hrange) rfl rfl)

theorem execFp2Towire_endsWithin (rs1 rs2 : Field) (s : State) :
    EndsWithin (mayWrite (.fp2Towire rs1 rs2) s) s (execFp2Towire rs1 rs2 s) := by
  refine .checked fun hc => ?_
  simp only [List.forall_mem_cons, Bool.and_eq_true] at hc
  obtain ⟨⟨_, hrange⟩, _⟩ := hc
  exact .complete (.bufWrite .refl (List.mem_singleton_self _) (length_f2Wire _) hrange)

/-! ### The traversals -/

/-- The registers of the three points of a `pt3` operand, after those of two others (R375). -/
theorem ptRegs_subset_written (a b k i : Nat) (h : i < 3) :
    ptRegs (k + i) ⊆ ptRegs a ++ ptRegs b ++ ptRegs k ++ ptRegs (k + 1) ++ ptRegs (k + 2) := by
  intro n hn
  interval_cases i <;> simp_all

theorem execTravPkA_endsWithin (rs1 rs2 rs3 : Field) (s : State) :
    EndsWithin (mayWrite (.travPkA rs1 rs2 rs3) s) s (execTravPkA rs1 rs2 rs3 s) := by
  refine .checked fun _ => .complete (.stashLast4 (.writePts (.writePt (.writeCrv .refl ?_ _) ?_ _) _ ?_) rfl _)
  · exact fun n hn => by simp [mayWrite, hn]
  · exact fun n hn => by simp [mayWrite, hn]
  · rw [length_basis_traverse]
    exact fun i hi => ptRegs_subset_written _ _ _ i hi

theorem execTravPkB_endsWithin (rs1 rs2 rs3 : Field) (s : State) :
    EndsWithin (mayWrite (.travPkB rs1 rs2 rs3) s) s (execTravPkB rs1 rs2 rs3 s) := by
  refine .checked fun _ => .complete (.stashLast3 (.writePts (.writePt (.writeCrv .refl ?_ _) ?_ _) _ ?_) rfl _)
  · exact fun n hn => by simp [mayWrite, hn]
  · exact fun n hn => by simp [mayWrite, hn]
  · rw [length_basis_traverse]
    exact fun i hi => ptRegs_subset_written _ _ _ i hi

/-! ### Every command -/

/-- Every command, from every state, ends in a completion with a defined code after a sound update. -/
theorem exec_endsWithin (i : Instr) (s : State) : EndsWithin (mayWrite i s) s (exec i s) := by
  cases i with
  | nop => exact .complete .refl
  | addc rd rs1 rs2 | subc rd rs1 rs2 =>
    exact .checked fun _ => .complete (.writeC (.writeG .refl (List.mem_singleton_self _) _) rfl _)
  | mul64 rd rs1 rs2 rs3 =>
    exact .checked fun _ => .complete
      (.writeG (.writeG .refl List.mem_cons_self _) (List.mem_cons_of_mem _ List.mem_cons_self) _)
  | setc rs1 => exact .complete (.writeC .refl rfl _)
  | fpAdd rd rs1 rs2 | fpSub rd rs1 rs2 | fpMulrdc rd rs1 rs2 =>
    exact .complete (.writeE .refl (List.mem_singleton_self _) _)
  | fpRdcp rd rs1 | fpP34 rd rs1 | fpMov rd rs1 | fpTomont rd rs1 | fpFrommont rd rs1 =>
    exact .complete (.writeE .refl (List.mem_singleton_self _) _)
  | fpMontrdc rd rs1 | fpLdc rd rs1 =>
    exact .checked fun _ => .complete (.writeE .refl (List.mem_singleton_self _) _)
  | fpSwapcond rs1 rs2 rs3 =>
    exact .checked fun _ => .complete
      (.writeE (.writeE .refl List.mem_cons_self _) (List.mem_cons_of_mem _ List.mem_cons_self) _)
  | fpMul rd rs1 rs2 => exact .checked fun _ => .complete (.writeD .refl (List.mem_singleton_self _) _)
  | fp2Add rd rs1 rs2 | fp2Sub rd rs1 rs2 | fp2Mul rd rs1 rs2 =>
    exact .checked fun _ => .complete (.writeV .refl (List.Subset.refl _) _)
  | fp2Sqr rd rs1 | fp2Inv rd rs1 | fp2Mov rd rs1 | crvJinv rd rs1 | fp2Fromwire rd rs1 =>
    exact .checked fun _ => .complete (.writeV .refl (List.Subset.refl _) _)
  | fp2Swapcond rs1 rs2 rs3 =>
    exact .checked fun _ => .complete
      (.writeV (.writeV .refl (List.subset_append_left _ _) _) (List.subset_append_right _ _) _)
  | ptPow2k rd rs1 rs2 rs3 | ptPow3k rd rs1 rs2 rs3 | ptLadder3pt rd rs1 rs2 rs3 =>
    exact .checked fun _ => .complete (.writePt .refl (List.Subset.refl _) _)
  | crvEquiv4 rd rs1 | crvEquiv3 rd rs1 | crvRecover4 rd rs1 | crvRecover3 rd rs1 | crvRecoverA rd rs1 =>
    exact .checked fun _ => .complete (.writeCrv .refl (List.Subset.refl _) _)
  | iso4Gen rd rs1 => exact .checked fun _ => .complete (.stash4 (.writeCrv .refl (List.Subset.refl _) _) rfl _)
  | iso3Gen rd rs1 => exact .checked fun _ => .complete (.stash3 (.writeCrv .refl (List.Subset.refl _) _) rfl _)
  | iso4Eval rd rs1 | iso3Eval rd rs1 => exact .checked fun _ => .complete (.writePt .refl (List.Subset.refl _) _)
  | travPkA rs1 rs2 rs3 => exact execTravPkA_endsWithin rs1 rs2 rs3 s
  | travPkB rs1 rs2 rs3 => exact execTravPkB_endsWithin rs1 rs2 rs3 s
  | travSsA rs1 rs2 =>
    exact .checked fun _ => .complete (.stashLast4
      (.writePt (.writeCrv .refl (List.subset_append_left _ _) _) (List.subset_append_right _ _) _) rfl _)
  | travSsB rs1 rs2 =>
    exact .checked fun _ => .complete (.stashLast3
      (.writePt (.writeCrv .refl (List.subset_append_left _ _) _) (List.subset_append_right _ _) _) rfl _)
  | skGenerate rd rs1 => exact execSkGenerate_endsWithin rd rs1 s
  | skImport rd rs1 rs2 => exact execSkImport_endsWithin rd rs1 rs2 s
  | skExport rs1 rs2 => exact execSkExport_endsWithin rs1 rs2 s
  | pkImport rd rs1 rs2 => exact execPkImport_endsWithin rd rs1 rs2 s
  | pkExport rs1 rs2 => exact execPkExport_endsWithin rs1 rs2 s
  | genPublic rd rs1 => exact execGenPublic_endsWithin rd rs1 s
  | deriveSecret rs1 rs2 rs3 => exact execDeriveSecret_endsWithin rs1 rs2 rs3 s
  | encrypt rs1 rs2 => exact execEncrypt_endsWithin rs1 rs2 s
  | decrypt rs1 rs2 => exact execDecrypt_endsWithin rs1 rs2 s
  | encapsulate rs1 rs2 => exact execEncapsulate_endsWithin rs1 rs2 s
  | decapsulate rs1 rs2 rs3 => exact execDecapsulate_endsWithin rs1 rs2 rs3 s
  | fp2Towire rs1 rs2 => exact execFp2Towire_endsWithin rs1 rs2 s
  | zeroize => exact .complete .zeroized

/-- Settles O9: a command's update and its completion keep the frame. -/
theorem commandsWriteOnlyTheirDestinations : Obligations.CommandsWriteOnlyTheirDestinations := by
  unfold Obligations.CommandsWriteOnlyTheirDestinations
  intro i s t h
  obtain ⟨u, code, hexec, _, hu⟩ := exec_endsWithin i s
  cases hexec.symm.trans h
  exact hu.frame.finish code

/-! ### The core's turn -/

/-- The atomic step of an accepted word, reserved or not, completes it and keeps the invariant, `CTRL` and `CMD`. -/
theorem execute_endsWithin (s : State) : ∃ w, EndsWithin w s (execute s) := by
  cases h : decode s.cmd with
  | ok i => exact ⟨mayWrite i s, execute_ok h ▸ exec_endsWithin i s⟩
  | error e => exact ⟨{}, execute_error h ▸ .raise .refl _⟩

theorem execute_keeps_inv (h : s.Inv) (he : execute s = .next t) : t.Inv := by
  obtain ⟨_, u, code, hexec, hcode, hu⟩ := execute_endsWithin s
  cases hexec.symm.trans he
  exact (hu.inv h).finish hcode

theorem coreTurn_keeps_inv (h : s.Inv) (ht : coreTurn s = .next t) : t.Inv := by
  unfold coreTurn at ht
  split at ht
  · exact execute_keeps_inv h ht
  · cases ht; exact h

/-! ### The boundary -/

@[simp] theorem State.reset_readSk (n : Nat) : State.reset.readSk n = .empty := getD_replicate_self 4 n SkSlot.empty

@[simp] theorem State.reset_readPk (n : Nat) : State.reset.readPk n = .empty := getD_replicate_self 4 n PkSlot.empty

theorem reset_inv : State.reset.Inv where
  buf := rfl
  err := rfl
  code := rfl
  progress := nofun
  iso4 := fun _ => rfl
  iso3 := fun _ => rfl
  sk := fun n _ => State.reset_readSk n ▸ SkSlot.sound_empty
  pk := fun n _ => State.reset_readPk n ▸ PkSlot.sound_empty

/-- A reset, with or without a command in progress, gives every field the invariant reads its reset value (R570). -/
theorem resetCore_inv (s : State) : s.resetCore.Inv := by
  unfold State.resetCore
  split
  · exact { reset_inv with }
  · exact { reset_inv with }

theorem State.Inv.hostRead (h : s.Inv) (p : Place) : (s.hostRead p).Inv := by
  unfold State.hostRead
  split
  · exact { h with }
  · exact { h with }

/-- The four bytes at an aligned `BUF` address lie inside `BUF` (R103). -/
theorem placeOf_buf_inside {a off : Nat} (h4 : a % 4 = 0) (h : placeOf a = .buf off) : off + 4 ≤ 2048 := by
  unfold placeOf at h
  split_ifs at h
  have hoff := Place.buf.inj h
  omega

theorem State.Inv.storeData (h : s.Inv) {p : Place} (hp : ∀ off, p = .buf off → off + 4 ≤ 2048) (x : Word) :
    (s.storeData p x).Inv := by
  cases p with
  | buf off => exact h.bufWrite (by simpa using hp off rfl)
  | flags | g n i | e n i | d n i => exact { h with }
  | cmd | status | ctrl | isr | id | unmapped => exact h

/-- A host write to the place of an aligned address (R105). -/
theorem State.Inv.hostWrite (h : s.Inv) {p : Place} (hp : ∀ off, p = .buf off → off + 4 ≤ 2048) (x : Word) :
    (s.hostWrite p x).Inv := by
  have hovr : ({ s with ovr := true } : State).Inv := { h with }
  cases p with
  | cmd => rw [State.hostWrite]; split; exacts [hovr, h.accept x]
  | status | isr => exact { h with }
  | ctrl => rw [State.hostWrite]; split; exacts [resetCore_inv s, { h with }]
  | id | unmapped => exact h
  | flags | g n i | e n i | d n i | buf off => rw [State.hostWrite]; split; exacts [hovr, h.storeData hp x]

/-! ### The step -/

/-- An admitted access is aligned (R105). -/
theorem aligned_of_admitted {width : Width} {addr : Addr} (h : admitted width addr = true) : addr.toNat % 4 = 0 := by
  simp only [admitted, Bool.and_eq_true, beq_iff_eq] at h
  exact h.2

theorem step_keeps_inv (h : s.Inv) (hstep : step s = .next t) : t.Inv := by
  have hrest : ∀ rest, ({ s with inputs := rest } : State).Inv := fun _ => { h with }
  cases hin : s.inputs with
  | nil =>
    simp only [step, turn, hin] at hstep
    exact coreTurn_keeps_inv h hstep
  | cons input rest =>
    cases input with
    | run =>
      simp only [step, turn, hin] at hstep
      exact coreTurn_keeps_inv (hrest rest) hstep
    | powerOn =>
      simp only [step, turn, hin] at hstep
      cases hstep
      exact resetCore_inv _
    | read width addr =>
      simp only [step, turn, hin] at hstep
      split at hstep
      · cases hstep
        exact (hrest rest).hostRead _
      · contradiction
    | write width addr x =>
      simp only [step, turn, hin] at hstep
      split at hstep
      · next hadm =>
        cases hstep
        exact (hrest rest).hostWrite (fun _ hp => placeOf_buf_inside (aligned_of_admitted hadm) hp) x
      · contradiction

/-- Settles O11: each thing that can happen next at the boundary keeps the invariant; for the core's turn that is the
sound update of the command. -/
theorem stepKeepsTheInvariant : Obligations.StepKeepsTheInvariant := by
  unfold Obligations.StepKeepsTheInvariant
  exact fun _ _ => step_keeps_inv

/-- Settles O12. -/
theorem resetHasTheInvariant : Obligations.ResetHasTheInvariant := reset_inv

end Sys2Proof.Machine
end

section
/-! PROOF of O5, O14, O16, O24, O21, O19 and O20. The step at each kind of input (the core's turn, a host read, a host
write), the reset values, and what the window's places hold before and after an access. -/

namespace Sys2Proof.Machine

/-! ### The core's turn and acceptance -/

/-- With nothing at the boundary it is the core's turn (log 1). -/
theorem step_nil {s : State} (h : s.inputs = []) : step s = coreTurn s := by simp only [step, turn, h]

theorem step_run_idle {s : State} {rest : List Input} (hb : s.busy = false) (h : s.inputs = .run :: rest) :
    step s = .next { s with inputs := rest } := by
  simp only [step, turn, h, coreTurn, hb, Bool.false_eq_true, if_false]

/-- Settles O5: the core's turn runs what `CMD` decodes to. -/
theorem stepRunsTheDecodedCommand : Obligations.StepRunsTheDecodedCommand := by
  unfold Obligations.StepRunsTheDecodedCommand
  refine ⟨fun s rest i hb hin hdec => ?_, fun s i hb hin hdec => ?_, fun s nbits w i hdec => ?_,
    fun s rest hb => ⟨step_run_idle hb, fun hin => ?_⟩⟩
  · rw [step_run hb hin]
    exact execute_ok hdec
  · rw [step_nil hin, coreTurn, if_pos hb]
    exact execute_ok hdec
  · rw [step_run (s := s.withFetchWord nbits w) rfl rfl]
    exact execute_ok hdec
  · rw [step_nil hin, coreTurn, hb]
    rfl

/-- Settles O16: `CMD` is at address 0 and is accepted while idle. -/
theorem cmdWriteWhileIdleAccepts : Obligations.CmdWriteWhileIdleAccepts := by
  unfold Obligations.CmdWriteWhileIdleAccepts
  intro s rest w hidle
  rw [step_withWrite s 0x0000 w rest (by decide) (by decide)]
  show Host.Outcome.next (if s.busy then _ else _) = _
  rw [if_neg (by simp [hidle])]
  rfl

/-! ### The reset values -/

/-- Settles O14: each register file is filled with its reset value, the rest of the table is read off. -/
theorem resetValues : Obligations.ResetValues := by
  unfold Obligations.ResetValues
  refine ⟨fun n _ => ?_, fun n _ => ?_, fun n _ => ?_, rfl, rfl, rfl, rfl, rfl, rfl, rfl, rfl, rfl,
    fun n _ => ?_, fun n _ => ?_, fun _ _ => rfl, rfl⟩
  · exact getD_replicate_self 64 n 0
  · exact getD_replicate_self 4 n 0
  · exact getD_replicate_self 16 n 0
  · exact State.reset_readSk n
  · exact State.reset_readPk n

/-! ### The control registers -/

/-- A write to `CTRL` without a soft reset, at any time (R60). -/
theorem step_writeCtrl (s : State) (x : Word) (rest : List Input) (h : x.getLsbD 1 = false) :
    step (s.withWrite 0x0008 x rest) = .next { s with inputs := rest, ie := x.getLsbD 0 } := by
  rw [step_withWrite s 0x0008 x rest (by decide) (by decide)]
  show Host.Outcome.next (if x.getLsbD 1 then _ else _) = _
  rw [h]
  rfl

/-- A write to `ISR`, at any time (R61; log 14). -/
theorem step_writeIsr (s : State) (x : Word) (rest : List Input) :
    step (s.withWrite 0x000C x rest) = .next { s with inputs := rest, doneP := s.doneP && !x.getLsbD 0 } :=
  step_withWrite s 0x000C x rest (by decide) (by decide)

/-- Settles O24: the core's turn ends in a completion, which keeps `IE` and sets `DONE_P`. -/
theorem irqFollowsCompletionAndEnable : Obligations.IrqFollowsCompletionAndEnable := by
  unfold Obligations.IrqFollowsCompletionAndEnable
  refine ⟨fun s => ?_, fun s rest hb hin => ?_, fun s rest x hx => ?_, fun s rest x hx => ?_⟩
  · simp [State.irq]
  · obtain ⟨w, u, code, hexec, _, hu⟩ := execute_endsWithin { s with inputs := rest }
    refine ⟨u.finish code, (step_run hb hin).trans hexec, rfl, rfl, rfl, ?_⟩
    have hie : u.ie = s.ie := hu.frame.ie
    simp [State.irq, hie]
  · exact ⟨_, step_writeCtrl s x rest hx, rfl⟩
  · refine ⟨_, step_writeIsr s x rest, ?_, ?_⟩
    · simp [hx]
    · simp [State.irq, hx]

/-! ### Host reads -/

/-- A read of a mapped place that is not a data place in use answers its value (R103, R109). -/
theorem readsAs_of_placeValue {s : State} {a v : Nat} {p : Place} (hp : placeOf a = p) (h4 : a % 4 = 0)
    (ha : a < 65536) (hfree : (s.busy && p.isData) = false) (hv : s.placeValue p = BitVec.ofNat 32 v) :
    ReadsAs s a v := by
  intro rest
  have hval : ({ s with inputs := rest } : State).placeValue p = s.placeValue p := by cases p <;> rfl
  rw [step_withRead s a rest h4 ha, hp, State.hostRead]
  show Host.Outcome.next (if (s.busy && p.isData) = true then _ else _) = _
  rw [if_neg (by simp [hfree]), hval, hv]

/-- Settles O21: none of these places is a data place. -/
theorem controlWritesAndUnmappedAccesses : Obligations.ControlWritesAndUnmappedAccesses := by
  unfold Obligations.ControlWritesAndUnmappedAccesses
  refine fun s rest x => ⟨fun a ha h4 hu => ⟨?_, ?_⟩, ?_, ?_, step_writeIsr s x rest, step_writeCtrl s x rest⟩
  · exact readsAs_of_placeValue (placeOf_unmapped a h4 hu) h4 ha (Bool.and_false _) rfl
  · rw [step_withWrite s a x rest h4 ha, placeOf_unmapped a h4 hu]
    rfl
  · exact step_withWrite s 0x0010 x rest (by decide) (by decide)
  · exact step_withWrite s 0x0004 x rest (by decide) (by decide)

/-- Four flags and a code at their places in a word, as a number. -/
theorem statusFields_eq : ∀ (b d e o : Bool) (c : BitVec 4),
    bitAt b 0 ||| bitAt d 1 ||| bitAt e 2 ||| (c.setWidth 32 <<< 4) ||| bitAt o 8 =
      BitVec.ofNat 32 (b.toNat + 2 * d.toNat + 4 * e.toNat + 16 * c.toNat + 256 * o.toNat) := by decide

/-- The value of `STATUS` (R59). -/
theorem statusWord_eq (s : State) :
    s.statusWord = BitVec.ofNat 32
      (s.busy.toNat + 2 * s.done.toNat + 4 * s.err.toNat + 16 * s.errcode.toNat + 256 * s.ovr.toNat) :=
  statusFields_eq s.busy s.done s.err s.ovr s.errcode

/-- A flag alone in its word. -/
theorem bitAt_zero (b : Bool) : bitAt b 0 = BitVec.ofNat 32 b.toNat := by cases b <;> rfl

/-- The word at a word index, as a number taken to 32 bits (R102). -/
theorem wordOf_eq {n : Nat} (v : BitVec n) (i : Nat) :
    wordOf v i = BitVec.ofNat 32 (v.toNat / 2 ^ (32 * i) % 2 ^ 32) := by
  rw [← toNat_wordOf, BitVec.ofNat_toNat, BitVec.setWidth_eq]

/-- The four bytes of a `BUF` word, least significant first (R102). -/
theorem bufWord_eq (s : State) (off : Nat) :
    s.bufWord off = BitVec.ofNat 32 ((Memory.read s.buf off).toNat + 2 ^ 8 * (Memory.read s.buf (off + 1)).toNat +
      2 ^ 16 * (Memory.read s.buf (off + 2)).toNat + 2 ^ 24 * (Memory.read s.buf (off + 3)).toNat) := by
  have hread : s.bufRead off 4 = [Memory.read s.buf off, Memory.read s.buf (off + 1), Memory.read s.buf (off + 2),
    Memory.read s.buf (off + 3)] := rfl
  rw [State.bufWord, hread]
  congr 1
  simp only [intLE]
  ring

/-- Settles O19: the window map gives the place of each address, and the place its value. -/
theorem windowReadsReturnTheRegisters : Obligations.WindowReadsReturnTheRegisters := by
  unfold Obligations.WindowReadsReturnTheRegisters
  refine fun s => ⟨⟨?_, ?_, ?_, ?_, ?_⟩, fun hidle => ?_⟩
  · exact readsAs_of_placeValue (p := .cmd) rfl rfl (by decide) (Bool.and_false _) (by simp [State.placeValue])
  · exact readsAs_of_placeValue (p := .status) rfl rfl (by decide) (Bool.and_false _) (statusWord_eq s)
  · exact readsAs_of_placeValue (p := .ctrl) rfl rfl (by decide) (Bool.and_false _) (bitAt_zero s.ie)
  · exact readsAs_of_placeValue (p := .isr) rfl rfl (by decide) (Bool.and_false _) (bitAt_zero s.doneP)
  · exact readsAs_of_placeValue (p := .id) rfl rfl (by decide) (Bool.and_false _) rfl
  have hfree : ∀ p : Place, (s.busy && p.isData) = false := fun p => by rw [hidle, Bool.false_and]
  refine ⟨?_, fun n hn => ⟨?_, ?_⟩, fun n k hn hk => ?_, fun n k hn hk => ?_, fun k hk => ?_⟩
  · exact readsAs_of_placeValue (p := .flags) rfl rfl (by decide) (hfree _) (bitAt_zero s.c)
  · refine readsAs_of_placeValue (placeOf_g n hn 0 (by decide)) (by omega) (by omega) (hfree _) ?_
    have hword := wordOf_eq (s.readG n) 0
    rwa [Nat.mul_zero, pow_zero, Nat.div_one] at hword
  · have haddr : 0x0104 + 8 * n = 0x0100 + 8 * n + 4 * 1 := by omega
    rw [haddr]
    refine readsAs_of_placeValue (placeOf_g n hn 1 (by decide)) (by omega) (by omega) (hfree _) ?_
    have hhigh : (s.readG n).toNat / 2 ^ 32 < 2 ^ 32 := by omega
    rw [← Nat.mod_eq_of_lt hhigh]
    exact wordOf_eq (s.readG n) 1
  · exact readsAs_of_placeValue (placeOf_e n hn k hk) (by omega) (by omega) (hfree _) (wordOf_eq _ k)
  · exact readsAs_of_placeValue (placeOf_d n hn k hk) (by omega) (by omega) (hfree _) (wordOf_eq _ k)
  · exact readsAs_of_placeValue (placeOf_buf k hk) (by omega) (by omega) (hfree _) (bufWord_eq s (4 * k))

/-! ### Host writes to the data windows -/

/-- A write to a data place while idle stores the word (R103, R106). -/
theorem step_withWrite_data {s : State} {a : Nat} {p : Place} (x : Word) (rest : List Input) (hp : placeOf a = p)
    (h4 : a % 4 = 0) (ha : a < 65536) (hdata : p.isData = true) (hidle : s.busy = false) :
    step (s.withWrite a x rest) = .next (({ s with inputs := rest } : State).storeData p x) := by
  rw [step_withWrite s a x rest h4 ha, hp]
  cases p with
  | cmd | status | ctrl | isr | id | unmapped => contradiction
  | flags | g n i | e n i | d n i | buf off =>
    show Host.Outcome.next (if s.busy then _ else _) = _
    rw [hidle]
    rfl

/-- The words of a register after one of them is replaced, as numbers (R106). -/
theorem toNat_withWord_div {n : Nat} (v : BitVec n) (x : Word) {i j : Nat} (hi : 32 * i + 32 ≤ n)
    (hj : 32 * j + 32 ≤ n) :
    (withWord v i x).toNat / 2 ^ (32 * j) % 2 ^ 32 = if j = i then x.toNat else v.toNat / 2 ^ (32 * j) % 2 ^ 32 := by
  rw [← toNat_wordOf, wordOf_withWord v i j x hi hj]
  split
  · rfl
  · exact toNat_wordOf v j

/-- A `G` register with its low word replaced. -/
theorem toNat_withWord_low (v : Limb) (x : Word) :
    (withWord v 0 x).toNat = v.toNat / 2 ^ 32 * 2 ^ 32 + x.toNat := by
  have hlow := toNat_withWord_div v x (i := 0) (j := 0) (by decide) (by decide)
  have hhigh := toNat_withWord_div v x (i := 0) (j := 1) (by decide) (by decide)
  simp only [mul_zero, pow_zero, Nat.div_one, mul_one, one_ne_zero, if_true, if_false] at hlow hhigh
  omega

/-- A `G` register with its high word replaced. -/
theorem toNat_withWord_high (v : Limb) (x : Word) :
    (withWord v 1 x).toNat = x.toNat * 2 ^ 32 + v.toNat % 2 ^ 32 := by
  have hlow := toNat_withWord_div v x (i := 1) (j := 0) (by decide) (by decide)
  have hhigh := toNat_withWord_div v x (i := 1) (j := 1) (by decide) (by decide)
  simp only [mul_zero, pow_zero, Nat.div_one, mul_one, zero_ne_one, if_true, if_false] at hlow hhigh
  omega

/-- Settles O20: storing a word is one write of the register or of the four bytes it is in. -/
theorem windowWritesReplaceOneWord : Obligations.WindowWritesReplaceOneWord := by
  unfold Obligations.WindowWritesReplaceOneWord
  intro s rest x hidle
  refine ⟨?_, fun n hn => ⟨?_, ?_⟩, fun n k hn hk => ?_, fun n k hn hk => ?_, fun k hk hwf => ?_⟩
  · exact ⟨_, step_withWrite_data (p := .flags) x rest rfl rfl (by decide) rfl hidle, ⟨rfl, rfl, rfl, rfl, rfl⟩,
      (KeepsRest.refl _ _).writeC rfl _, rfl⟩
  · refine ⟨_, step_withWrite_data x rest (placeOf_g n hn 0 (by decide)) (by omega) (by omega) rfl hidle,
      ⟨rfl, rfl, rfl, rfl, rfl⟩, (KeepsRest.refl _ _).writeG (List.mem_singleton_self n) _, ?_⟩
    rw [State.storeData, State.readG_writeG_self _ hn]
    exact toNat_withWord_low (s.readG n) x
  · have haddr : 0x0104 + 8 * n = 0x0100 + 8 * n + 4 * 1 := by omega
    rw [haddr]
    refine ⟨_, step_withWrite_data x rest (placeOf_g n hn 1 (by decide)) (by omega) (by omega) rfl hidle,
      ⟨rfl, rfl, rfl, rfl, rfl⟩, (KeepsRest.refl _ _).writeG (List.mem_singleton_self n) _, ?_⟩
    rw [State.storeData, State.readG_writeG_self _ hn]
    exact toNat_withWord_high (s.readG n) x
  · refine ⟨_, step_withWrite_data x rest (placeOf_e n hn k hk) (by omega) (by omega) rfl hidle,
      ⟨rfl, rfl, rfl, rfl, rfl⟩, (KeepsRest.refl _ _).writeE (List.mem_singleton_self n) _, fun j hj => ?_⟩
    rw [State.storeData, State.readE_writeE_self _ hn]
    exact toNat_withWord_div (s.readE n) x (by omega) (by omega)
  · refine ⟨_, step_withWrite_data x rest (placeOf_d n hn k hk) (by omega) (by omega) rfl hidle,
      ⟨rfl, rfl, rfl, rfl, rfl⟩, (KeepsRest.refl _ _).writeD (List.mem_singleton_self n) _, fun j hj => ?_⟩
    rw [State.storeData, State.readD_writeD_self _ hn]
    exact toNat_withWord_div (s.readD n) x (by omega) (by omega)
  · have hlen : (bytesLE x.toNat 4).length = 4 := length_bytesLE _ _
    refine ⟨_, step_withWrite_data x rest (placeOf_buf k hk) (by omega) (by omega) rfl hidle,
      ⟨rfl, rfl, rfl, rfl, rfl⟩, (KeepsRest.refl _ _).bufWrite (List.mem_singleton_self (4 * k, 4)) hlen.le,
      fun j hj => ?_⟩
    rw [State.storeData, State.bufWrite_buf, Memory.read_writeBytes_inside hwf (by omega) (by omega)]
    exact getElem_bytesLE x.toNat 4 j _

end Sys2Proof.Machine
end

section
/-! PROOF of O10. Setting the carry flag commutes with every operation a command is made of but those that read or write
the flag, so it commutes with the command (`exec_writeC`). -/

namespace Sys2Proof.Machine

/-- A result with the carry flag of its next state set. -/
def Result.withC (b : Bool) : Result → Result
  | .next t => .next (t.writeC b)
  | r => r

variable {s t t' : State} {b : Bool}

theorem State.writeC_self (s : State) : s.writeC s.c = s := rfl

/-! ### The updates -/

theorem writeE_writeC (h : t' = t.writeC b) (n : Nat) (v : Fp) : t'.writeE n v = (t.writeE n v).writeC b := by
  subst h; rfl

theorem writeV_writeC (h : t' = t.writeC b) (k : Nat) (v : Fp2) : t'.writeV k v = (t.writeV k v).writeC b :=
  writeE_writeC (writeE_writeC h _ _) _ _

theorem writePt_writeC (h : t' = t.writeC b) (k : Nat) (p : Pt) : t'.writePt k p = (t.writePt k p).writeC b :=
  writeV_writeC (writeV_writeC h _ _) _ _

theorem writeCrv_writeC (h : t' = t.writeC b) (k : Nat) (c : Crv) : t'.writeCrv k c = (t.writeCrv k c).writeC b :=
  writeV_writeC (writeV_writeC h _ _) _ _

theorem writePts_writeC (h : t' = t.writeC b) (k : Nat) (ps : List Pt) :
    t'.writePts k ps = (t.writePts k ps).writeC b := by
  induction ps generalizing t t' k with
  | nil => exact h
  | cons p ps ih => exact ih (writePt_writeC h k p) (k + 1)

theorem writeG_writeC (h : t' = t.writeC b) (n : Nat) (v : Limb) : t'.writeG n v = (t.writeG n v).writeC b := by
  subst h; rfl

theorem writeSk_writeC (h : t' = t.writeC b) (n : Nat) (k : SkSlot) : t'.writeSk n k = (t.writeSk n k).writeC b := by
  subst h; rfl

theorem writePk_writeC (h : t' = t.writeC b) (n : Nat) (k : PkSlot) : t'.writePk n k = (t.writePk n k).writeC b := by
  subst h; rfl

theorem bufWrite_writeC (h : t' = t.writeC b) (off : Nat) (bs : List Byte) :
    t'.bufWrite off bs = (t.bufWrite off bs).writeC b := by
  subst h; rfl

theorem clearStashes_writeC (h : t' = t.writeC b) : t'.clearStashes = t.clearStashes.writeC b := by subst h; rfl

theorem stash4_writeC (h : t' = t.writeC b) (k : Coeffs4) : t'.stash4 k = (t.stash4 k).writeC b := by subst h; rfl

theorem stash3_writeC (h : t' = t.writeC b) (k : Coeffs3) : t'.stash3 k = (t.stash3 k).writeC b := by subst h; rfl

theorem stashLast4_writeC (h : t' = t.writeC b) (k : Option Coeffs4) :
    t'.stashLast4 k = (t.stashLast4 k).writeC b := by
  cases k with
  | none => exact h
  | some k => exact stash4_writeC h k

theorem stashLast3_writeC (h : t' = t.writeC b) (k : Option Coeffs3) :
    t'.stashLast3 k = (t.stashLast3 k).writeC b := by
  cases k with
  | none => exact h
  | some k => exact stash3_writeC h k

/-! ### The ends, the checks and the RNG port -/

theorem complete_writeC (h : t' = t.writeC b) : complete t' = (complete t).withC b := by subst h; rfl

theorem checked_writeC {cs : List (Bool × CmdError)} {r r' : Result} (h : r' = r.withC b) :
    checked (s.writeC b) cs r' = (checked s cs r).withC b := by
  induction cs with
  | nil => exact h
  | cons c cs ih =>
    obtain ⟨ok, e⟩ := c
    cases ok with
    | false => rfl
    | true => exact ih

theorem withRng_writeC {n : Nat} {effect effect' : List Byte → State → Result}
    (h : ∀ bs left, effect' bs (({ s with rng := left } : State).writeC b) =
      (effect bs { s with rng := left }).withC b) :
    withRng n (s.writeC b) effect' = (withRng n s effect).withC b := by
  have hread : rngRead n (s.writeC b).rng = rngRead n s.rng := rfl
  unfold withRng
  rw [hread]
  rcases rngRead n s.rng with ⟨_ | bs, left⟩
  · rfl
  · exact h bs left

/-! ### The commands -/

theorem execSkGenerate_writeC (rd rs1 : Field) (s : State) (b : Bool) :
    execSkGenerate rd rs1 (s.writeC b) = (execSkGenerate rd rs1 s).withC b := by
  refine checked_writeC (withRng_writeC fun sc left => ?_)
  by_cases hsike : variantOf rs1 = .sike
  · simp only [if_pos hsike]
    exact withRng_writeC fun _ _ => rfl
  · simp only [if_neg hsike]
    rfl

/-- A command that is not `ADDC`, `SUBC`, `SETC` or `ZEROIZE` does the same with the carry flag set to `b`, and leaves
it so. -/
theorem exec_writeC (i : Instr) (s : State) (b : Bool)
    (hcarry : ∀ rd rs1 rs2, i ≠ .addc rd rs1 rs2 ∧ i ≠ .subc rd rs1 rs2 ∧ i ≠ .setc rs1) (hzero : i ≠ .zeroize) :
    exec i (s.writeC b) = Result.withC b (exec i s) := by
  cases i with
  | addc rd rs1 rs2 => exact absurd rfl (hcarry rd rs1 rs2).1
  | subc rd rs1 rs2 => exact absurd rfl (hcarry rd rs1 rs2).2.1
  | setc rs1 => exact absurd rfl (hcarry rs1 rs1 rs1).2.2
  | zeroize => exact absurd rfl hzero
  | nop => rfl
  | fpAdd rd rs1 rs2 | fpSub rd rs1 rs2 | fpMulrdc rd rs1 rs2 => rfl
  | fpRdcp rd rs1 | fpP34 rd rs1 | fpMov rd rs1 | fpTomont rd rs1 | fpFrommont rd rs1 => rfl
  | mul64 rd rs1 rs2 rs3 => exact checked_writeC rfl
  | fpMul rd rs1 rs2 => exact checked_writeC rfl
  | fpMontrdc rd rs1 | fpLdc rd rs1 => exact checked_writeC rfl
  | fpSwapcond rs1 rs2 rs3 => exact checked_writeC (complete_writeC (writeE_writeC (writeE_writeC rfl _ _) _ _))
  | fp2Add rd rs1 rs2 | fp2Sub rd rs1 rs2 | fp2Mul rd rs1 rs2 =>
    exact checked_writeC (complete_writeC (writeV_writeC rfl _ _))
  | fp2Sqr rd rs1 | fp2Inv rd rs1 | fp2Mov rd rs1 | crvJinv rd rs1 | fp2Fromwire rd rs1 =>
    exact checked_writeC (complete_writeC (writeV_writeC rfl _ _))
  | fp2Swapcond rs1 rs2 rs3 => exact checked_writeC (complete_writeC (writeV_writeC (writeV_writeC rfl _ _) _ _))
  | ptPow2k rd rs1 rs2 rs3 | ptPow3k rd rs1 rs2 rs3 | ptLadder3pt rd rs1 rs2 rs3 =>
    exact checked_writeC (complete_writeC (writePt_writeC rfl _ _))
  | crvEquiv4 rd rs1 | crvEquiv3 rd rs1 | crvRecover4 rd rs1 | crvRecover3 rd rs1 | crvRecoverA rd rs1 =>
    exact checked_writeC (complete_writeC (writeCrv_writeC rfl _ _))
  | iso4Gen rd rs1 => exact checked_writeC (complete_writeC (stash4_writeC (writeCrv_writeC rfl _ _) _))
  | iso3Gen rd rs1 => exact checked_writeC (complete_writeC (stash3_writeC (writeCrv_writeC rfl _ _) _))
  | iso4Eval rd rs1 | iso3Eval rd rs1 => exact checked_writeC (complete_writeC (writePt_writeC rfl _ _))
  | travPkA rs1 rs2 rs3 =>
    exact checked_writeC (complete_writeC
      (stashLast4_writeC (writePts_writeC (writePt_writeC (writeCrv_writeC rfl _ _) _ _) _ _) _))
  | travPkB rs1 rs2 rs3 =>
    exact checked_writeC (complete_writeC
      (stashLast3_writeC (writePts_writeC (writePt_writeC (writeCrv_writeC rfl _ _) _ _) _ _) _))
  | travSsA rs1 rs2 =>
    exact checked_writeC (complete_writeC (stashLast4_writeC (writePt_writeC (writeCrv_writeC rfl _ _) _ _) _))
  | travSsB rs1 rs2 =>
    exact checked_writeC (complete_writeC (stashLast3_writeC (writePt_writeC (writeCrv_writeC rfl _ _) _ _) _))
  | skGenerate rd rs1 => exact execSkGenerate_writeC rd rs1 s b
  | skImport rd rs1 rs2 => exact checked_writeC (complete_writeC (writeSk_writeC rfl _ _))
  | pkImport rd rs1 rs2 => exact checked_writeC (complete_writeC (writePk_writeC rfl _ _))
  | skExport rs1 rs2 | pkExport rs1 rs2 =>
    exact checked_writeC (complete_writeC (writeG_writeC (bufWrite_writeC rfl _ _) _ _))
  | genPublic rd rs1 => exact checked_writeC (complete_writeC (clearStashes_writeC (writePk_writeC rfl _ _)))
  | deriveSecret rs1 rs2 rs3 | decapsulate rs1 rs2 rs3 =>
    exact checked_writeC (complete_writeC (clearStashes_writeC (bufWrite_writeC rfl _ _)))
  | encrypt rs1 rs2 =>
    refine checked_writeC (withRng_writeC fun _ _ => ?_)
    exact complete_writeC (clearStashes_writeC (writeG_writeC (bufWrite_writeC rfl _ _) _ _))
  | decrypt rs1 rs2 =>
    exact checked_writeC (complete_writeC (clearStashes_writeC (writeG_writeC (bufWrite_writeC rfl _ _) _ _)))
  | encapsulate rs1 rs2 =>
    refine checked_writeC (withRng_writeC fun _ _ => ?_)
    exact complete_writeC (clearStashes_writeC (bufWrite_writeC (bufWrite_writeC rfl _ _) _ _))
  | fp2Towire rs1 rs2 => exact checked_writeC (complete_writeC (bufWrite_writeC rfl _ _))

/-- Settles O10. That the flag is left as it was is the second part with the flag the state already has. -/
theorem carryIsReadAndWrittenOnlyByItsCommands : Obligations.CarryIsReadAndWrittenOnlyByItsCommands := by
  unfold Obligations.CarryIsReadAndWrittenOnlyByItsCommands
  intro i s t b hcarry hzero hexec
  have hset : ∀ b, exec i (s.writeC b) = .next (t.writeC b) := fun b => by
    rw [exec_writeC i s b hcarry hzero, hexec, Result.withC]
  have hsame := hset s.c
  rw [State.writeC_self, hexec] at hsame
  injection hsame with hsame
  have hc : t.c = (t.writeC s.c).c := congrArg State.c hsame
  exact ⟨hc, hset b⟩

end Sys2Proof.Machine
end

section
/-! PROOF of O13. Every value a command writes to `E` or to a stash is computed by functions that keep the range
`[0, 2p)`, and a double-width product of two such values is below `p·R`. So each update a command is made of keeps every
register in range, and the command does (`exec_inRange`). -/

namespace Sys2Proof.Machine

/-! ### The functions of the Fp commands -/

theorem Fp.inRange_zero : Fp.inRange 0 := by
  unfold Fp.inRange
  decide +kernel

theorem Fp2.inRange_zero : Fp2.zero.inRange := ⟨Fp.inRange_zero, Fp.inRange_zero⟩

theorem Fp.inRange_of_lt_prime {x : Fp} (h : x.toNat < prime) : Fp.inRange x := by
  unfold Fp.inRange
  omega

/-- The conditional subtraction only lowers the value (R224). -/
theorem fpRdcP_inRange {x : Fp} (hx : Fp.inRange x) : Fp.inRange (fpRdcP x) := by
  have h4 := four_prime_lt_radix
  have hp : (BitVec.ofNat 512 prime).toNat = prime := Fp.toNat_ofNat_lt (by omega)
  unfold fpRdcP
  split
  · next hge =>
    unfold Fp.inRange at *
    rw [BitVec.toNat_sub_of_le (by rwa [BitVec.le_def, hp]), hp]
    omega
  · exact hx

theorem fromMont_inRange (x : Fp) : Fp.inRange (fromMont x) :=
  Fp.inRange_of_lt_prime (fromMont_toNat x ▸ residue_lt x)

/-- Of the constants of R242 only `2p` itself, the third, is not below `2p` (log 19). -/
theorem constant_inRange {sel : Nat} (h6 : sel < 6) (h3 : sel ≠ 3) : Fp.inRange (constant sel) := by
  unfold Fp.inRange
  interval_cases sel
  · exact Fp.inRange_zero
  · show (BitVec.ofNat 512 montOne).toNat < 2 * prime
    decide +kernel
  · show (BitVec.ofNat 512 prime).toNat < 2 * prime
    decide +kernel
  · contradiction
  · show (BitVec.ofNat 512 (prime + 1)).toNat < 2 * prime
    decide +kernel
  · show (BitVec.ofNat 512 montR2).toNat < 2 * prime
    decide +kernel

/-- The product of two values in range is what `MontRdc` reduces exactly (R232). -/
theorem fpMul_lt {x y : Fp} (hx : Fp.inRange x) (hy : Fp.inRange y) : (fpMul x y).toNat < prime * radix := by
  rw [fpMul_toNat]
  unfold Fp.inRange at hx
  exact mul_lt_of_range (by omega) hy

/-- With the choice 0 or 1 a conditional swap keeps or exchanges the two values whole (R235). -/
theorem swapCond_of_lt_two (x y : Fp) {c : Limb} (hc : c.toNat < 2) :
    swapCond x y c = if c = 0 then (x, y) else (y, x) := by
  obtain h | h : c.toNat = 0 ∨ c.toNat = 1 := by omega
  · obtain rfl : c = 0 := BitVec.eq_of_toNat_eq h
    simp [swapCond]
  · obtain rfl : c = 1 := BitVec.eq_of_toNat_eq h
    have hmask : ((0 - 1 : Limb).replicate 8 : Fp) = BitVec.allOnes 512 := by decide +kernel
    have hxy : x ^^^ (x ^^^ y) = y := by rw [← BitVec.xor_assoc, BitVec.xor_self, BitVec.zero_xor]
    have hyx : y ^^^ (x ^^^ y) = x := by
      rw [BitVec.xor_comm x y, ← BitVec.xor_assoc, BitVec.xor_self, BitVec.zero_xor]
    simp only [swapCond, hmask, BitVec.allOnes_and, hxy, hyx]
    rfl

theorem swapCond_inRange {x y : Fp} {c : Limb} (hc : c.toNat < 2) (hx : Fp.inRange x) (hy : Fp.inRange y) :
    Fp.inRange (swapCond x y c).1 ∧ Fp.inRange (swapCond x y c).2 := by
  rw [swapCond_of_lt_two x y hc]
  split
  · exact ⟨hx, hy⟩
  · exact ⟨hy, hx⟩

/-- The swap of Fp² values takes both components by one choice (R271). -/
theorem f2swapCond_inRange {x y : Fp2} {c : Limb} (hc : c.toNat < 2) (hx : x.inRange) (hy : y.inRange) :
    (f2swapCond x y c).1.inRange ∧ (f2swapCond x y c).2.inRange := by
  obtain ⟨hre1, hre2⟩ := swapCond_inRange hc hx.1 hy.1
  obtain ⟨him1, him2⟩ := swapCond_inRange hc hx.2 hy.2
  exact ⟨⟨hre1, him1⟩, hre2, him2⟩

/-- Whatever number the wire bytes hold, its Montgomery form is in range (R243, R496). -/
theorem f2FromWire_inRange (b : List Byte) : (f2FromWire b).inRange := ⟨(toMont_law _).1, (toMont_law _).1⟩

/-! ### Reading registers in range -/

variable {s : State}

theorem State.InRange.readE (h : s.InRange) (n : Nat) : Fp.inRange (s.readE n) := by
  by_cases hn : n < 64
  · exact h.e n hn
  · rw [State.readE_of_le s (Nat.le_of_not_lt hn)]
    exact Fp.inRange_zero

theorem State.InRange.readV (h : s.InRange) (k : Nat) : (s.readV k).inRange := ⟨h.readE _, h.readE _⟩

theorem State.InRange.readPt (h : s.InRange) (k : Nat) : (s.readPt k).inRange := ⟨h.readV _, h.readV _⟩

theorem State.InRange.readCrv (h : s.InRange) (k : Nat) : (s.readCrv k).inRange := ⟨h.readV _, h.readV _⟩

theorem State.InRange.readPts3 (h : s.InRange) (k : Nat) : ∀ p ∈ s.readPts3 k, p.inRange := by
  simp only [State.readPts3, List.forall_mem_cons]
  exact ⟨h.readPt _, h.readPt _, h.readPt _, List.forall_mem_nil _⟩

/-! ### Updates with values in range -/

theorem State.InRange.writeE (h : s.InRange) (n : Nat) {v : Fp} (hv : Fp.inRange v) : (s.writeE n v).InRange :=
  { h with
    e := fun m hm => by
      rw [State.readE_writeE s n m v hm]
      split
      · exact hv
      · exact h.e m hm }

theorem State.InRange.writeV (h : s.InRange) (k : Nat) {v : Fp2} (hv : v.inRange) : (s.writeV k v).InRange :=
  (h.writeE _ hv.1).writeE _ hv.2

theorem State.InRange.writePt (h : s.InRange) (k : Nat) {p : Pt} (hp : p.inRange) : (s.writePt k p).InRange :=
  (h.writeV _ hp.1).writeV _ hp.2

theorem State.InRange.writeCrv (h : s.InRange) (k : Nat) {c : Crv} (hc : c.inRange) : (s.writeCrv k c).InRange :=
  (h.writeV _ hc.1).writeV _ hc.2

theorem State.InRange.writePts (h : s.InRange) (k : Nat) {ps : List Pt} (hps : ∀ p ∈ ps, p.inRange) :
    (s.writePts k ps).InRange := by
  induction ps generalizing s k with
  | nil => exact h
  | cons p ps ih =>
    obtain ⟨hp, hps⟩ := List.forall_mem_cons.mp hps
    exact ih (h.writePt k hp) (k + 1) hps

theorem State.InRange.writeD (h : s.InRange) (n : Nat) {v : FpX2} (hv : v.toNat < prime * radix) :
    (s.writeD n v).InRange :=
  { h with
    d := fun m hm => by
      by_cases e : m = n
      · subst e; rw [State.readD_writeD_self s hm]; exact hv
      · rw [State.readD_writeD_ne s e]; exact h.d m hm }

theorem State.InRange.stash4 (h : s.InRange) {k : Coeffs4} (hk : k.inRange) : (s.stash4 k).InRange :=
  { h with iso4 := hk }

theorem State.InRange.stash3 (h : s.InRange) {k : Coeffs3} (hk : k.inRange) : (s.stash3 k).InRange :=
  { h with iso3 := hk }

theorem State.InRange.stashLast4 (h : s.InRange) {k : Option Coeffs4} (hk : ∀ c, k = some c → c.inRange) :
    (s.stashLast4 k).InRange := by
  cases k with
  | none => exact h
  | some c => exact h.stash4 (hk c rfl)

theorem State.InRange.stashLast3 (h : s.InRange) {k : Option Coeffs3} (hk : ∀ c, k = some c → c.inRange) :
    (s.stashLast3 k).InRange := by
  cases k with
  | none => exact h
  | some c => exact h.stash3 (hk c rfl)

theorem State.InRange.clearStashes (h : s.InRange) : s.clearStashes.InRange :=
  { h with
    iso4 := ⟨Fp2.inRange_zero, Fp2.inRange_zero, Fp2.inRange_zero⟩
    iso3 := ⟨Fp2.inRange_zero, Fp2.inRange_zero⟩ }

theorem State.InRange.writeG (h : s.InRange) (n : Nat) (v : Limb) : (s.writeG n v).InRange := { h with }

theorem State.InRange.bufWrite (h : s.InRange) (off : Nat) (bs : List Byte) : (s.bufWrite off bs).InRange := { h with }

/-- The cleared registers hold 0, whatever they held before (R526). -/
theorem State.inRange_zeroized (s : State) : s.zeroized.InRange where
  e n _ := by
    have h0 : s.zeroized.readE n = 0 := getD_replicate_self 64 n 0
    rw [h0]
    exact Fp.inRange_zero
  d n _ := by
    have h0 : s.zeroized.readD n = 0 := getD_replicate_self 4 n 0
    rw [h0]
    decide +kernel
  iso4 := ⟨Fp2.inRange_zero, Fp2.inRange_zero, Fp2.inRange_zero⟩
  iso3 := ⟨Fp2.inRange_zero, Fp2.inRange_zero⟩

/-! ### The ends of a command -/

/-- The next state of the result, where there is one, has every register in range. -/
def Result.InRange (r : Result) : Prop := ∀ t, r = .next t → t.InRange

theorem Result.InRange.complete (h : s.InRange) : Result.InRange (complete s) := by
  rintro _ ⟨⟩
  exact { h with }

theorem Result.InRange.raise (h : s.InRange) (e : CmdError) : Result.InRange (raise e s) := by
  rintro _ ⟨⟩
  exact { h with }

/-- A check that fails changes no register; where all hold, the effect decides. -/
theorem Result.InRange.checked (h : s.InRange) {cs : List (Bool × CmdError)} {r : Result}
    (hr : (∀ c ∈ cs, c.1 = true) → Result.InRange r) : Result.InRange (checked s cs r) := by
  rcases checked_cases s cs r with ⟨hall, heq⟩ | ⟨_, e, _, _, _, heq⟩
  · rw [heq]; exact hr hall
  · rw [heq]; exact .raise h e

/-- A read of the RNG port changes no register. -/
theorem Result.InRange.withRng (h : s.InRange) {n : Nat} {effect : List Byte → State → Result}
    (he : ∀ bs t, t.InRange → Result.InRange (effect bs t)) : Result.InRange (withRng n s effect) := by
  have hleft : ∀ left, ({ s with rng := left } : State).InRange := fun _ => { h with }
  rcases withRng_cases n s effect with ⟨bs, left, _, _, heq⟩ | ⟨left, _, heq⟩
  · rw [heq]; exact he bs _ (hleft left)
  · rw [heq]; exact .raise (hleft left) _

/-! ### Every command -/

theorem execSkGenerate_inRange (rd rs1 : Field) (h : s.InRange) : Result.InRange (execSkGenerate rd rs1 s) := by
  refine .checked h fun _ => .withRng h fun sc t ht => ?_
  by_cases hsike : variantOf rs1 = .sike
  · rw [if_pos hsike]
    exact .withRng ht fun _ _ hu => .complete { hu with }
  · rw [if_neg hsike]
    exact .complete { ht with }

theorem execFpLdc_inRange (rd rs1 : Field) (h : s.InRange) (h3 : rs1.toNat ≠ 3) :
    Result.InRange (execFpLdc rd rs1 s) := by
  refine .checked h fun hc => .complete (h.writeE _ (constant_inRange ?_ h3))
  simpa [okCs] using hc

theorem execFpSwapcond_inRange (rs1 rs2 rs3 : Field) (h : s.InRange) (hc : (s.readG rs3.toNat).toNat < 2) :
    Result.InRange (execFpSwapcond rs1 rs2 rs3 s) := by
  obtain ⟨h1, h2⟩ := swapCond_inRange hc (h.readE rs1.toNat) (h.readE rs2.toNat)
  exact .checked h fun _ => .complete ((h.writeE _ h1).writeE _ h2)

theorem execFp2Swapcond_inRange (rs1 rs2 rs3 : Field) (h : s.InRange) (hc : (s.readG rs3.toNat).toNat < 2) :
    Result.InRange (execFp2Swapcond rs1 rs2 rs3 s) := by
  obtain ⟨h1, h2⟩ := f2swapCond_inRange hc (h.readV rs1.toNat) (h.readV rs2.toNat)
  exact .checked h fun _ => .complete ((h.writeV _ h1).writeV _ h2)

/-- `FP_MONTRDC` reduces a `D` register below `p·R` (R230, R232). -/
theorem execFpMontrdc_inRange (rd rs1 : Field) (h : s.InRange) : Result.InRange (execFpMontrdc rd rs1 s) := by
  refine .checked h fun hc => .complete (h.writeE _ (montRdc_inRange (h.d _ ?_)))
  simpa [okD] using hc

theorem execIso4Gen_inRange (rd rs1 : Field) (h : s.InRange) : Result.InRange (execIso4Gen rd rs1 s) := by
  obtain ⟨hcrv, hk⟩ := get4_inRange (h.readPt rs1.toNat)
  exact .checked h fun _ => .complete ((h.writeCrv _ hcrv).stash4 hk)

theorem execIso3Gen_inRange (rd rs1 : Field) (h : s.InRange) : Result.InRange (execIso3Gen rd rs1 s) := by
  obtain ⟨hcrv, hk⟩ := get3_inRange (h.readPt rs1.toNat)
  exact .checked h fun _ => .complete ((h.writeCrv _ hcrv).stash3 hk)

theorem execTravPkA_inRange (rs1 rs2 rs3 : Field) (h : s.InRange) :
    Result.InRange (execTravPkA rs1 rs2 rs3 s) := by
  have hf := traverse_inRange family4_keepsRange (strategy .a) (h.readCrv rs1.toNat) (h.readPt rs2.toNat)
    (h.readPts3 rs3.toNat)
  exact .checked h fun _ => .complete
    ((((h.writeCrv _ hf.crv).writePt _ hf.r).writePts _ hf.basis).stashLast4 hf.coeffs)

theorem execTravPkB_inRange (rs1 rs2 rs3 : Field) (h : s.InRange) :
    Result.InRange (execTravPkB rs1 rs2 rs3 s) := by
  have hf := traverse_inRange family3_keepsRange (strategy .b) (h.readCrv rs1.toNat) (h.readPt rs2.toNat)
    (h.readPts3 rs3.toNat)
  exact .checked h fun _ => .complete
    ((((h.writeCrv _ hf.crv).writePt _ hf.r).writePts _ hf.basis).stashLast3 hf.coeffs)

theorem execTravSsA_inRange (rs1 rs2 : Field) (h : s.InRange) : Result.InRange (execTravSsA rs1 rs2 s) := by
  have hf := traverse_inRange family4_keepsRange (strategy .a) (h.readCrv rs1.toNat) (h.readPt rs2.toNat)
    (List.forall_mem_nil _)
  exact .checked h fun _ => .complete (((h.writeCrv _ hf.crv).writePt _ hf.r).stashLast4 hf.coeffs)

theorem execTravSsB_inRange (rs1 rs2 : Field) (h : s.InRange) : Result.InRange (execTravSsB rs1 rs2 s) := by
  have hf := traverse_inRange family3_keepsRange (strategy .b) (h.readCrv rs1.toNat) (h.readPt rs2.toNat)
    (List.forall_mem_nil _)
  exact .checked h fun _ => .complete (((h.writeCrv _ hf.crv).writePt _ hf.r).stashLast3 hf.coeffs)

/-- With every register in range, every command but the two forms of log 19 leaves every register in range, whatever
it ends with. -/
theorem exec_inRange (i : Instr) (h : s.InRange) (hform : ¬mayLeaveRange i s) : Result.InRange (exec i s) := by
  cases i with
  | nop => exact .complete h
  | addc rd rs1 rs2 | subc rd rs1 rs2 => exact .checked h fun _ => .complete { h with }
  | mul64 rd rs1 rs2 rs3 => exact .checked h fun _ => .complete { h with }
  | setc rs1 => exact .complete { h with }
  | fpAdd rd rs1 rs2 => exact .complete (h.writeE _ (fpAdd_inRange (h.readE _) (h.readE _)))
  | fpSub rd rs1 rs2 => exact .complete (h.writeE _ (fpSub_inRange (h.readE _) (h.readE _)))
  | fpRdcp rd rs1 => exact .complete (h.writeE _ (fpRdcP_inRange (h.readE _)))
  | fpSwapcond rs1 rs2 rs3 => exact execFpSwapcond_inRange rs1 rs2 rs3 h (Nat.lt_of_not_le hform)
  | fpMul rd rs1 rs2 => exact .checked h fun _ => .complete (h.writeD _ (fpMul_lt (h.readE _) (h.readE _)))
  | fpMontrdc rd rs1 => exact execFpMontrdc_inRange rd rs1 h
  | fpMulrdc rd rs1 rs2 => exact .complete (h.writeE _ (fpMulRdc_inRange (h.readE _) (h.readE _)))
  | fpP34 rd rs1 => exact .complete (h.writeE _ (p34Impl_law _).1)
  | fpMov rd rs1 => exact .complete (h.writeE _ (h.readE _))
  | fpLdc rd rs1 => exact execFpLdc_inRange rd rs1 h hform
  | fpTomont rd rs1 => exact .complete (h.writeE _ (toMont_law _).1)
  | fpFrommont rd rs1 => exact .complete (h.writeE _ (fromMont_inRange _))
  | fp2Add rd rs1 rs2 => exact .checked h fun _ => .complete (h.writeV _ (f2add_inRange (h.readV _) (h.readV _)))
  | fp2Sub rd rs1 rs2 => exact .checked h fun _ => .complete (h.writeV _ (f2sub_inRange (h.readV _) (h.readV _)))
  | fp2Mul rd rs1 rs2 => exact .checked h fun _ => .complete (h.writeV _ (f2mul_inRange (h.readV _) (h.readV _)))
  | fp2Sqr rd rs1 => exact .checked h fun _ => .complete (h.writeV _ (f2sqr_inRange (h.readV _)))
  | fp2Inv rd rs1 => exact .checked h fun _ => .complete (h.writeV _ (f2inv_inRange (h.readV _)))
  | fp2Mov rd rs1 => exact .checked h fun _ => .complete (h.writeV _ (h.readV _))
  | fp2Swapcond rs1 rs2 rs3 => exact execFp2Swapcond_inRange rs1 rs2 rs3 h (Nat.lt_of_not_le hform)
  | ptPow2k rd rs1 rs2 rs3 =>
    exact .checked h fun _ => .complete (h.writePt _ (pow2k_inRange _ (h.readCrv _) (h.readPt _)))
  | ptPow3k rd rs1 rs2 rs3 =>
    exact .checked h fun _ => .complete (h.writePt _ (pow3k_inRange _ (h.readCrv _) (h.readPt _)))
  | ptLadder3pt rd rs1 rs2 rs3 =>
    exact .checked h fun _ => .complete
      (h.writePt _ (ladder3pt_inRange _ _ (h.readCrv _) (h.readPt _) (h.readPt _) (h.readPt _)))
  | crvEquiv4 rd rs1 => exact .checked h fun _ => .complete (h.writeCrv _ (curveEquiv4_inRange (h.readCrv _)))
  | crvEquiv3 rd rs1 => exact .checked h fun _ => .complete (h.writeCrv _ (curveEquiv3_inRange (h.readCrv _)))
  | crvRecover4 rd rs1 => exact .checked h fun _ => .complete (h.writeCrv _ (curveRecover4_inRange (h.readCrv _)))
  | crvRecover3 rd rs1 => exact .checked h fun _ => .complete (h.writeCrv _ (curveRecover3_inRange (h.readCrv _)))
  | crvRecoverA rd rs1 =>
    exact .checked h fun _ => .complete (h.writeCrv _ (recoverA_inRange (h.readV _) (h.readV _) (h.readV _)))
  | crvJinv rd rs1 => exact .checked h fun _ => .complete (h.writeV _ (jInvariant_inRange (h.readCrv _)))
  | iso4Gen rd rs1 => exact execIso4Gen_inRange rd rs1 h
  | iso4Eval rd rs1 => exact .checked h fun _ => .complete (h.writePt _ (eval4_inRange (h.readPt _) h.iso4))
  | iso3Gen rd rs1 => exact execIso3Gen_inRange rd rs1 h
  | iso3Eval rd rs1 => exact .checked h fun _ => .complete (h.writePt _ (eval3_inRange (h.readPt _) h.iso3))
  | travPkA rs1 rs2 rs3 => exact execTravPkA_inRange rs1 rs2 rs3 h
  | travPkB rs1 rs2 rs3 => exact execTravPkB_inRange rs1 rs2 rs3 h
  | travSsA rs1 rs2 => exact execTravSsA_inRange rs1 rs2 h
  | travSsB rs1 rs2 => exact execTravSsB_inRange rs1 rs2 h
  | skGenerate rd rs1 => exact execSkGenerate_inRange rd rs1 h
  | skImport rd rs1 rs2 | pkImport rd rs1 rs2 => exact .checked h fun _ => .complete { h with }
  | skExport rs1 rs2 | pkExport rs1 rs2 => exact .checked h fun _ => .complete ((h.bufWrite _ _).writeG _ _)
  | genPublic rd rs1 => exact .checked h fun _ => .complete (.clearStashes { h with })
  | deriveSecret rs1 rs2 rs3 | decapsulate rs1 rs2 rs3 =>
    exact .checked h fun _ => .complete (h.bufWrite _ _).clearStashes
  | encrypt rs1 rs2 =>
    exact .checked h fun _ => .withRng h fun _ _ ht => .complete ((ht.bufWrite _ _).writeG _ _).clearStashes
  | decrypt rs1 rs2 => exact .checked h fun _ => .complete ((h.bufWrite _ _).writeG _ _).clearStashes
  | encapsulate rs1 rs2 =>
    exact .checked h fun _ => .withRng h fun _ _ ht => .complete ((ht.bufWrite _ _).bufWrite _ _).clearStashes
  | fp2Towire rs1 rs2 => exact .checked h fun _ => .complete (h.bufWrite _ _)
  | fp2Fromwire rd rs2 => exact .checked h fun _ => .complete (h.writeV _ (f2FromWire_inRange _))
  | zeroize => exact .complete s.inRange_zeroized

/-- Settles O13: the update of each command keeps the range, and its completion changes no register. -/
theorem commandsKeepTheRange : Obligations.CommandsKeepTheRange := by
  unfold Obligations.CommandsKeepTheRange
  exact fun i _ t h hform => exec_inRange i h hform t

end Sys2Proof.Machine
end

section
/-! PROOF of O7. A command's first check is that its operands are legal (the lemmas `legal_…`), and nothing after that
check raises `IllegalOperand`. Both together are `RaisesUnless`, proved for every command
(`exec_raisesUnless_legal`). -/

namespace Sys2Proof.Machine

/-! ### Ends without `IllegalOperand` -/

/-- The result does not end with the code of `IllegalOperand`. -/
def Result.OtherCode (r : Result) : Prop := ∀ t, r = .next t → t.errcode ≠ CmdError.illegalOperand.code

variable {s : State} {r : Result}

theorem Result.OtherCode.complete (s : State) : Result.OtherCode (complete s) := by
  rintro _ ⟨⟩
  exact (CmdError.code_ne_zero .illegalOperand).symm

theorem Result.OtherCode.raise {e : CmdError} (he : e ≠ .illegalOperand) (s : State) :
    Result.OtherCode (raise e s) := by
  rintro _ ⟨⟩ hcode
  exact he (CmdError.code_injective hcode)

/-- One check, for another error, before the rest. -/
theorem Result.OtherCode.check {ok : Bool} {e : CmdError} {cs : List (Bool × CmdError)} (he : e ≠ .illegalOperand)
    (h : Result.OtherCode (checked s cs r)) : Result.OtherCode (checked s ((ok, e) :: cs) r) := by
  cases ok with
  | false => exact .raise he s
  | true => exact h

/-- A read of the RNG port that fails raises `RngFailure` (R72). -/
theorem Result.OtherCode.withRng {n : Nat} {effect : List Byte → State → Result}
    (h : ∀ bs t, Result.OtherCode (effect bs t)) : Result.OtherCode (withRng n s effect) := by
  rcases withRng_cases n s effect with ⟨bs, left, _, _, heq⟩ | ⟨left, _, heq⟩
  · rw [heq]; exact h bs _
  · rw [heq]; exact .raise (e := .rngFailure) nofun _

/-! ### The first check -/

/-- The result is `IllegalOperand`, raised in `s`, where `ok` fails, and does not end with its code where `ok` holds. -/
structure RaisesUnless (ok : Bool) (s : State) (r : Result) : Prop where
  illegal : ok = false → r = raise .illegalOperand s
  other : ok = true → Result.OtherCode r

theorem RaisesUnless.checked {ok : Bool} {cs : List (Bool × CmdError)} (h : Result.OtherCode (checked s cs r)) :
    RaisesUnless ok s (checked s ((ok, .illegalOperand) :: cs) r) where
  illegal hok := by rw [checked_cons, hok]; rfl
  other hok := by rw [checked_cons, hok]; exact h

/-- A command all of whose operands are legal. -/
theorem RaisesUnless.always (h : Result.OtherCode r) : RaisesUnless true s r := ⟨nofun, fun _ => h⟩

/-! ### Every command -/

theorem execSkGenerate_raisesUnless (rd rs1 : Field) (s : State) :
    RaisesUnless (okSlot rd && okVar rs1) s (execSkGenerate rd rs1 s) := by
  refine .checked (.withRng fun sc t => ?_)
  by_cases hsike : variantOf rs1 = .sike
  · rw [if_pos hsike]
    exact .withRng fun _ _ => .complete _
  · rw [if_neg hsike]
    exact .complete _

/-- Every command raises `IllegalOperand` where its operands are illegal, and does not end with its code elsewhere. -/
theorem exec_raisesUnless_legal (i : Instr) (s : State) : RaisesUnless (legal i s) s (exec i s) := by
  cases i with
  | nop | setc | zeroize | fpAdd | fpSub | fpRdcp | fpMulrdc | fpP34 | fpMov | fpTomont | fpFrommont =>
    simp only [legal_nop, legal_setc, legal_zeroize, legal_fpAdd, legal_fpSub, legal_fpRdcp, legal_fpMulrdc,
      legal_fpP34, legal_fpMov, legal_fpTomont, legal_fpFrommont]
    exact .always (.complete _)
  | addc | subc | mul64 | fpSwapcond | fpMul | fpMontrdc | fpLdc | fp2Add | fp2Sub | fp2Mul | fp2Sqr | fp2Inv
  | fp2Mov | fp2Swapcond | ptPow2k | ptPow3k | ptLadder3pt | crvEquiv4 | crvEquiv3 | crvRecover4 | crvRecover3
  | crvRecoverA | crvJinv | iso4Gen | iso3Gen | travPkA | travPkB | travSsA | travSsB | fp2Towire | fp2Fromwire =>
    simp only [legal_addc, legal_subc, legal_mul64, legal_fpSwapcond, legal_fpMul, legal_fpMontrdc, legal_fpLdc,
      legal_fp2Add, legal_fp2Sub, legal_fp2Mul, legal_fp2Sqr, legal_fp2Inv, legal_fp2Mov, legal_fp2Swapcond,
      legal_ptPow2k, legal_ptPow3k, legal_ptLadder3pt, legal_crvEquiv4, legal_crvEquiv3, legal_crvRecover4,
      legal_crvRecover3, legal_crvRecoverA, legal_crvJinv, legal_iso4Gen, legal_iso3Gen, legal_travPkA, legal_travPkB,
      legal_travSsA, legal_travSsB, legal_fp2Towire, legal_fp2Fromwire]
    exact .checked (.complete _)
  | iso4Eval | iso3Eval | skImport | skExport | pkImport | pkExport | genPublic =>
    simp only [legal_iso4Eval, legal_iso3Eval, legal_skImport, legal_skExport, legal_pkImport, legal_pkExport,
      legal_genPublic]
    exact .checked (.check nofun (.complete _))
  | skGenerate rd rs1 => rw [legal_skGenerate]; exact execSkGenerate_raisesUnless rd rs1 s
  | deriveSecret => rw [legal_deriveSecret]; exact .checked (.check nofun (.check nofun (.complete _)))
  | encrypt =>
    rw [legal_encrypt]
    exact .checked (.check nofun (.check nofun (.check nofun (.withRng fun _ _ => .complete _))))
  | decrypt => rw [legal_decrypt]; exact .checked (.check nofun (.check nofun (.check nofun (.complete _))))
  | encapsulate =>
    rw [legal_encapsulate]
    exact .checked (.check nofun (.check nofun (.withRng fun _ _ => .complete _)))
  | decapsulate => rw [legal_decapsulate]; exact .checked (.check nofun (.check nofun (.check nofun (.complete _))))

/-- Settles O7: the raise of the first check changes nothing else, and nothing after it has that code. -/
theorem illegalOperandExactlyWhenIllegal : Obligations.IllegalOperandExactlyWhenIllegal := by
  unfold Obligations.IllegalOperandExactlyWhenIllegal
  intro i s
  obtain ⟨hillegal, hother⟩ := exec_raisesUnless_legal i s
  exact ⟨fun hl => Raises.of_raise (hillegal hl), hother⟩

end Sys2Proof.Machine
end

section
/-! PROOF of O18, O22 and O23. A step is refused only by the check of the access's width and address; and a host read
gives its state a new answer, the place's value or a free one, and nothing else. -/

namespace Sys2Proof.Machine

/-! ### The check of an access (R105) -/

theorem admitted_eq_false {width : Width} {addr : Addr} (h : width ≠ .word ∨ addr.toNat % 4 ≠ 0) :
    admitted width addr = false := by
  obtain hw | ha := h
  · rw [admitted, beq_false_of_ne hw, Bool.false_and]
  · rw [admitted, beq_false_of_ne ha, Bool.and_false]

/-- An access that is not admitted is refused, be it a read or a write. -/
theorem step_refused {s : State} {rest : List Input} {width : Width} {addr : Addr} (h : admitted width addr = false)
    (hin : s.inputs = .read width addr :: rest ∨ ∃ x, s.inputs = .write width addr x :: rest) :
    step s = .refused (.accessNotAdmitted width addr) := by
  obtain hread | ⟨x, hwrite⟩ := hin
  · simp only [step, turn, hread, h, Bool.false_eq_true, if_false]
  · simp only [step, turn, hwrite, h, Bool.false_eq_true, if_false]

/-- The core's turn answers a next state: a command always completes, and an idle core stays as it is (R530). -/
theorem coreTurn_next (s : State) : ∃ t, coreTurn s = .next t := by
  unfold coreTurn
  split
  · obtain ⟨_, u, code, hexec, _⟩ := execute_endsWithin s
    exact ⟨_, hexec⟩
  · exact ⟨s, rfl⟩

theorem safeStep_of_admitted {s : State} (h : nextAdmitted s = true) : SafeStep s := by
  unfold SafeStep
  cases hin : s.inputs with
  | nil => rw [step_nil hin]; exact coreTurn_next s
  | cons input rest =>
    cases input with
    | run => simp only [step, turn, hin]; exact coreTurn_next _
    | powerOn => simp only [step, turn, hin]; exact ⟨_, rfl⟩
    | read width addr =>
      have hadm : admitted width addr = true := by rwa [nextAdmitted, hin] at h
      simp only [step, turn, hin, hadm, if_true]
      exact ⟨_, rfl⟩
    | write width addr x =>
      have hadm : admitted width addr = true := by rwa [nextAdmitted, hin] at h
      simp only [step, turn, hin, hadm, if_true]
      exact ⟨_, rfl⟩

/-- Settles O18: only the check of an access refuses a step. -/
theorem onlyUnadmittedAccessesAreRefused : Obligations.OnlyUnadmittedAccessesAreRefused := by
  unfold Obligations.OnlyUnadmittedAccessesAreRefused
  exact ⟨fun s rest width addr hbad hin => step_refused (admitted_eq_false hbad) hin, fun s => safeStep_of_admitted⟩

/-! ### Host reads -/

/-- A read while the place may be used answers its value (R107). -/
theorem hostRead_free {s : State} {p : Place} (h : (s.busy && p.isData) = false) :
    s.hostRead p = { s with rdata := some (s.placeValue p) } := by
  rw [State.hostRead, h]
  rfl

/-- A data read while busy answers the next free value (R109, R580; log 4). -/
theorem hostRead_draw {s : State} {p : Place} (h : (s.busy && p.isData) = true) :
    s.hostRead p = { s with rdata := some (Config.busyRead s.draws), draws := s.draws + 1 } := by
  rw [State.hostRead, h]
  rfl

/-- The step of a host read at any multiple of 4, taken to the 16 bits of the window. -/
theorem step_withRead_mod (s : State) (a : Nat) (rest : List Input) (h4 : a % 4 = 0) :
    step (s.withRead a rest) = .next (({ s with inputs := rest } : State).hostRead (placeOf (a % 65536))) := by
  have haddr : BitVec.ofNat 16 a = BitVec.ofNat 16 (a % 65536) := BitVec.eq_of_toNat_eq (by simp)
  have hread : s.withRead a rest = s.withRead (a % 65536) rest := by rw [State.withRead, haddr, State.withRead]
  rw [hread]
  exact step_withRead s (a % 65536) rest (by omega) (by omega)

theorem dataAddress_lt {a : Nat} (h : dataAddress a = true) : a < 65536 := by
  simp only [dataAddress, Bool.or_eq_true, Bool.and_eq_true, beq_iff_eq, decide_eq_true_eq] at h
  omega

/-- Settles O22: a read changes the answer, and the counter where it is a draw. -/
theorem readsHaveNoSideEffect : Obligations.ReadsHaveNoSideEffect := by
  unfold Obligations.ReadsHaveNoSideEffect
  intro s rest a h4
  rw [step_withRead_mod s a rest h4]
  cases hdraw : s.busy && (placeOf (a % 65536)).isData with
  | true =>
    rw [hostRead_draw (s := { s with inputs := rest }) hdraw]
    refine ⟨_, _, rfl, fun _ _ => ⟨rfl, rfl⟩, fun hidle => ?_⟩
    rw [hidle, Bool.false_and] at hdraw
    contradiction
  | false =>
    rw [hostRead_free (s := { s with inputs := rest }) hdraw]
    refine ⟨_, _, rfl, fun hbusy hdata => ?_, fun _ => rfl⟩
    rw [Nat.mod_eq_of_lt (dataAddress_lt hdata), isData_placeOf a h4, hbusy, hdata] at hdraw
    contradiction

/-- No place of the window shows a key slot or a stash (R103). -/
theorem placeValue_secrets (s : State) (sk : Vector SkSlot 4) (pk : Vector PkSlot 4) (iso4 : Stash4) (iso3 : Stash3)
    (p : Place) :
    ({ s with sk := sk, pk := pk, iso4 := iso4, iso3 := iso3 } : State).placeValue p = s.placeValue p := by
  cases p with
  | cmd | status | ctrl | isr | id | unmapped => rfl
  | flags | g n i | e n i | d n i | buf off => rfl

/-- Settles O23: the two reads are both draws of one counter, or both answer the value of one place. -/
theorem secretsAreNotInTheWindow : Obligations.SecretsAreNotInTheWindow := by
  unfold Obligations.SecretsAreNotInTheWindow
  intro s rest a sk pk iso4 iso3 h4
  rw [step_withRead_mod s a rest h4, step_withRead_mod _ a rest h4]
  cases hdraw : s.busy && (placeOf (a % 65536)).isData with
  | true =>
    rw [hostRead_draw (s := { s with inputs := rest }) hdraw,
      hostRead_draw (s := { s with sk := sk, pk := pk, iso4 := iso4, iso3 := iso3, inputs := rest }) hdraw]
    exact ⟨_, _, rfl, rfl⟩
  | false =>
    rw [hostRead_free (s := { s with inputs := rest }) hdraw,
      hostRead_free (s := { s with sk := sk, pk := pk, iso4 := iso4, iso3 := iso3, inputs := rest }) hdraw,
      placeValue_secrets { s with inputs := rest } sk pk iso4 iso3]
    exact ⟨_, _, rfl, rfl⟩

end Sys2Proof.Machine
end

section
/-! PROOF of O1, O2, O3 and O4. A command word is its five fields (R151), so a word with its unused fields cleared is a
command's encoding exactly where the opcode and the used fields are the command's (`and_usedBits_eq_cmdWord_iff`).
The decoder is held to that once from its own rows and once from the commands. -/

namespace Sys2Proof

open Machine

/-- A command word determines its five fields (R151). -/
theorem cmdWord_inj {o o' : BitVec 8} {a b c d a' b' c' d' : Field} :
    cmdWord o a b c d = cmdWord o' a' b' c' d' ↔ o = o' ∧ a = a' ∧ b = b' ∧ c = c' ∧ d = d' := by
  constructor
  · intro h
    exact ⟨by simpa only [opcOf_cmdWord] using congrArg opcOf h, by simpa only [rdOf_cmdWord] using congrArg rdOf h,
      by simpa only [rs1Of_cmdWord] using congrArg rs1Of h, by simpa only [rs2Of_cmdWord] using congrArg rs2Of h,
      by simpa only [rs3Of_cmdWord] using congrArg rs3Of h⟩
  · rintro ⟨rfl, rfl, rfl, rfl, rfl⟩
    rfl

/-- With the unused fields cleared, a word is a given command word exactly where its opcode and its used fields are
those of the command word, and the command word's other fields are 0 (R152). -/
theorem and_usedBits_eq_cmdWord_iff {w : Word} {ua ub uc ud : Bool} {o : BitVec 8} {a b c d : Field} :
    w &&& usedBits ua ub uc ud = cmdWord o a b c d ↔
      opcOf w = o ∧ (if ua then rdOf w else 0) = a ∧ (if ub then rs1Of w else 0) = b ∧
        (if uc then rs2Of w else 0) = c ∧ (if ud then rs3Of w else 0) = d := by
  rw [and_usedBits, cmdWord_inj]

/-- A word of the opcode, with its unused fields cleared, has the used fields and 0 elsewhere (R152). -/
theorem and_usedBits_of_opcode {w : Word} {o : BitVec 8} (h : (opcOf w).toNat = o.toNat) (ua ub uc ud : Bool) :
    w &&& usedBits ua ub uc ud =
      cmdWord o (if ua then rdOf w else 0) (if ub then rs1Of w else 0) (if uc then rs2Of w else 0)
        (if ud then rs3Of w else 0) :=
  and_usedBits_eq_cmdWord_iff.mpr ⟨BitVec.eq_of_toNat_eq h, rfl, rfl, rfl, rfl⟩

/-- Row by row of the decoder: the command read from a word has the word's opcode and used fields (R152, R160). -/
theorem and_usedMask_of_decode {w : Word} {i : Instr} (h : decode w = .ok i) : w &&& i.usedMask = encode i := by
  unfold decode at h
  split at h
  case h_56 => contradiction
  all_goals
    injection h with h
    subst h
    exact and_usedBits_of_opcode ‹_› _ _ _ _

/-- Command by command: a word with the command's opcode and used fields is read as the command (R152, R160). -/
theorem decode_of_and_usedMask {w : Word} {i : Instr} (h : w &&& i.usedMask = encode i) : decode w = .ok i := by
  cases i
  all_goals
    obtain ⟨hopc, hrd, hrs1, hrs2, hrs3⟩ := and_usedBits_eq_cmdWord_iff.mp h
    subst_vars
    rw [decode, hopc]
    rfl

/-- Row by row of the decoder: a row's opcode is outside the reserved ranges, and an opcode of no row is in one
(R161). -/
theorem reservedOpcode_iff_decode_error (w : Word) :
    reservedOpcode (opcOf w) = true ↔ decode w = .error (.illegalOpcode (opcOf w)) := by
  unfold decode
  split
  case h_56 =>
    simp only [reservedOpcode, Bool.or_eq_true, Bool.and_eq_true, decide_eq_true_eq, beq_iff_eq, iff_true]
    have hlt := (opcOf w).isLt
    simp only [imp_false] at *
    omega
  all_goals simp [reservedOpcode, *]

/-- The encoder sets no bit outside the fields a command uses (R160). -/
theorem encode_and_usedMask (i : Instr) : encode i &&& i.usedMask = encode i := by
  cases i
  all_goals exact (Laws.encodedWord_of_fields (by decide) (by simp) (by simp) (by simp) (by simp)).2

/-- Settles O1: the used bits of a command's word are the word itself. -/
theorem decodeEncodeAgree : Obligations.DecodeEncodeAgree := by
  unfold Obligations.DecodeEncodeAgree
  exact fun i => decode_of_and_usedMask (encode_and_usedMask i)

/-- Settles O2: one direction from the decoder's rows, the other from the commands. -/
theorem decodeReadsExactlyTheUsedFields : Obligations.DecodeReadsExactlyTheUsedFields := by
  unfold Obligations.DecodeReadsExactlyTheUsedFields
  exact fun _ _ => ⟨and_usedMask_of_decode, decode_of_and_usedMask⟩

/-- Settles O3: a reserved word's step is the raise of the decoder's rejection, which keeps the frame. -/
theorem reservedOpcodesAreIllegal : Obligations.ReservedOpcodesAreIllegal := by
  unfold Obligations.ReservedOpcodesAreIllegal
  refine ⟨reservedOpcode_iff_decode_error, fun s rest hbusy hin hres => ?_, fun s => ?_⟩
  · have hdec := (reservedOpcode_iff_decode_error s.cmd).mp hres
    have hstep : step s = raise .illegalOpcode { s with inputs := rest } :=
      (step_run hbusy hin).trans (execute_error hdec)
    exact ⟨_, hstep, completed_finish _ _, (KeepsRest.refl {} _).finish _⟩
  · exact .of_complete rfl (.refl {} s) rfl

/-- Settles O4: each word, with its unused fields cleared, is the encoding of its command (R152). -/
theorem exampleWordsDecode : Obligations.ExampleWordsDecode := by
  unfold Obligations.ExampleWordsDecode
  simp only [decodeReadsExactlyTheUsedFields _ _]
  decide

end Sys2Proof
end

section
/-! PROOF of O6. A command ends with a completion, or with the raise of one of its checks or of a read of the RNG port;
and its checks are listed in its row of R531, in the order in which they are made. -/

namespace Sys2Proof.Machine

/-- The result is a completion without error or with one of the errors listed (R530). -/
def Result.EndsIn (es : List CmdError) (r : Result) : Prop :=
  ∃ u code, r = .next (State.finish u code) ∧ (code = 0 ∨ ∃ e ∈ es, code = e.code)

variable {es : List CmdError} {s : State} {r : Result}

theorem Result.EndsIn.complete (s : State) : Result.EndsIn es (complete s) := ⟨s, 0, rfl, .inl rfl⟩

theorem Result.EndsIn.raise {e : CmdError} (he : e ∈ es) (s : State) : Result.EndsIn es (raise e s) :=
  ⟨s, e.code, rfl, .inr ⟨e, he, rfl⟩⟩

/-- A check that fails raises an error of the checks; where all hold, the effect decides. -/
theorem Result.EndsIn.checked {cs : List (Bool × CmdError)} (hcs : cs.map Prod.snd ⊆ es) (hr : Result.EndsIn es r) :
    Result.EndsIn es (checked s cs r) := by
  rcases checked_cases s cs r with ⟨_, heq⟩ | ⟨pre, e, post, rfl, _, heq⟩
  · rw [heq]; exact hr
  · rw [heq]; exact .raise (hcs (by simp)) s

/-- A read of the RNG port raises `RngFailure` or goes on (R72). -/
theorem Result.EndsIn.withRng {n : Nat} {effect : List Byte → State → Result} (he : .rngFailure ∈ es)
    (h : ∀ bs t, Result.EndsIn es (effect bs t)) : Result.EndsIn es (withRng n s effect) := by
  rcases withRng_cases n s effect with ⟨bs, left, _, _, heq⟩ | ⟨left, _, heq⟩
  · rw [heq]; exact h bs _
  · rw [heq]; exact .raise he _

/-- `SK_GENERATE` reads the port once, and for a SIKE key twice (R402). -/
theorem execSkGenerate_endsIn (rd rs1 : Field) (s : State) :
    Result.EndsIn (errorsOf (.skGenerate rd rs1)) (execSkGenerate rd rs1 s) := by
  have hrng : CmdError.rngFailure ∈ errorsOf (.skGenerate rd rs1) := by simp [errorsOf]
  refine .checked (List.subset_append_left _ [CmdError.rngFailure]) (.withRng hrng fun sc t => ?_)
  by_cases hsike : variantOf rs1 = .sike
  · rw [if_pos hsike]
    exact .withRng hrng fun _ _ => .complete _
  · rw [if_neg hsike]
    exact .complete _

/-- Every command, in every state, ends without error or with one of its row (R531). -/
theorem exec_endsIn (i : Instr) (s : State) : Result.EndsIn (errorsOf i) (exec i s) := by
  cases i with
  | nop | setc | zeroize | fpAdd | fpSub | fpRdcp | fpMulrdc | fpP34 | fpMov | fpTomont | fpFrommont =>
    exact .complete _
  | skGenerate rd rs1 => exact execSkGenerate_endsIn rd rs1 s
  | encrypt | encapsulate =>
    exact .checked (List.subset_append_left _ [CmdError.rngFailure])
      (.withRng (by simp [errorsOf]) fun _ _ => .complete _)
  | _ => exact .checked (List.Subset.refl _) (.complete _)

/-- Settles O6: a completion leaves its code in `ERRCODE`, and the code is 0 or one of the row. -/
theorem everyCommandEndsWithAListedCode : Obligations.EveryCommandEndsWithAListedCode := by
  unfold Obligations.EveryCommandEndsWithAListedCode
  intro i s
  obtain ⟨u, code, hexec, hcode⟩ := exec_endsIn i s
  exact ⟨u.finish code, hexec, completed_finish u code, hcode⟩

end Sys2Proof.Machine
end

section
/-! PROOF of O26. The limb operations on numbers (R200 to R203), and the commands that write their results. -/

namespace Sys2Proof.Machine

/-! ### The limb operations -/

/-- Sum and carry make the exact sum (R201). -/
theorem addc_law (cin : Bool) (a b : Limb) :
    (addc cin a b).1.toNat + 2 ^ 64 * (addc cin a b).2.toNat = a.toNat + b.toNat + cin.toNat := by
  have ha := a.isLt
  have hb := b.isLt
  have hc := cin.toNat_le
  simp only [addc, BitVec.toNat_ofNat]
  by_cases hcarry : 2 ^ 64 ≤ a.toNat + b.toNat + cin.toNat
  · simp only [hcarry, decide_true, Bool.toNat_true]
    omega
  · simp only [hcarry, decide_false, Bool.toNat_false]
    omega

/-- Difference and borrow make the exact difference (R202). -/
theorem subc_law (bin : Bool) (a b : Limb) :
    ((subc bin a b).1.toNat : Int) - 2 ^ 64 * ((subc bin a b).2.toNat : Int) =
      (a.toNat : Int) - b.toNat - bin.toNat := by
  have ha := a.isLt
  have hb := b.isLt
  have hc := bin.toNat_le
  simp only [subc, BitVec.toNat_sub, BitVec.toNat_ofNat]
  by_cases hborrow : a.toNat < b.toNat + bin.toNat
  · simp only [hborrow, decide_true, Bool.toNat_true]
    omega
  · simp only [hborrow, decide_false, Bool.toNat_false]
    omega

/-- High and low half make the exact product (R203). -/
theorem mul64_law (a b : Limb) : (mul64 a b).1.toNat * 2 ^ 64 + (mul64 a b).2.toNat = a.toNat * b.toNat := by
  have hlt : a.toNat * b.toNat < 2 ^ 64 * 2 ^ 64 := Nat.mul_lt_mul'' a.isLt b.isLt
  simp only [mul64, BitVec.toNat_ofNat]
  omega

/-! ### The commands -/

theorem okG_one_iff {f : Field} : okG 1 f = true ↔ f.toNat < 16 := by
  simp only [okG, decide_eq_true_eq]; omega

theorem wellFormed_addc (rd rs1 rs2 : Field) :
    (Instr.addc rd rs1 rs2).wellFormed = (okG 1 rd && okG 1 rs1 && okG 1 rs2) := by
  rw [wellFormed_of_single _ rfl]
  simp [Instr.operands, admits_g, Bool.and_assoc]

theorem wellFormed_subc (rd rs1 rs2 : Field) :
    (Instr.subc rd rs1 rs2).wellFormed = (okG 1 rd && okG 1 rs1 && okG 1 rs2) := wellFormed_addc rd rs1 rs2

/-- What a limb command leaves that writes a result and the carry flag (R201, R202). -/
theorem completesWith_writeG_writeC {i : Instr} {s : State} {n : Nat} {r : Limb × Bool} {result : State → Prop}
    (h : exec i s = complete ((s.writeG n r.1).writeC r.2)) (hn : n < 16)
    (hresult : ∀ t : State, t.readG n = r.1 → t.c = r.2 → result t) :
    CompletesWith i s { g := [n], c := true } result :=
  .of_complete h (.writeC (.writeG (.refl _ s) (List.mem_singleton_self _) _) rfl _)
    (hresult _ (s.readG_writeG_self hn _) rfl)

theorem addc_completes {rd rs1 rs2 : Field} (hwf : (Instr.addc rd rs1 rs2).wellFormed = true) (s : State) :
    CompletesWith (.addc rd rs1 rs2) s { g := [rd.toNat], c := true } fun t =>
      (t.readG rd.toNat).toNat + 2 ^ 64 * t.c.toNat =
        (s.readG rs1.toNat).toNat + (s.readG rs2.toNat).toNat + s.c.toNat := by
  rw [wellFormed_addc] at hwf
  have hexec : exec (.addc rd rs1 rs2) s = complete _ := if_pos hwf
  simp only [Bool.and_eq_true, okG_one_iff] at hwf
  obtain ⟨⟨hrd, _⟩, _⟩ := hwf
  refine completesWith_writeG_writeC hexec hrd fun t hg hc => ?_
  rw [hg, hc, addc_law]

theorem subc_completes {rd rs1 rs2 : Field} (hwf : (Instr.subc rd rs1 rs2).wellFormed = true) (s : State) :
    CompletesWith (.subc rd rs1 rs2) s { g := [rd.toNat], c := true } fun t =>
      ((t.readG rd.toNat).toNat : Int) - 2 ^ 64 * (t.c.toNat : Int) =
        ((s.readG rs1.toNat).toNat : Int) - (s.readG rs2.toNat).toNat - s.c.toNat := by
  rw [wellFormed_subc] at hwf
  have hexec : exec (.subc rd rs1 rs2) s = complete _ := if_pos hwf
  simp only [Bool.and_eq_true, okG_one_iff] at hwf
  obtain ⟨⟨hrd, _⟩, _⟩ := hwf
  refine completesWith_writeG_writeC hexec hrd fun t hg hc => ?_
  rw [hg, hc, subc_law]

theorem mul64_completes {rd rs1 rs2 rs3 : Field} (hwf : (Instr.mul64 rd rs1 rs2 rs3).wellFormed = true) (s : State) :
    CompletesWith (.mul64 rd rs1 rs2 rs3) s { g := [rd.toNat, rs3.toNat] } fun t =>
      (t.readG rd.toNat).toNat * 2 ^ 64 + (t.readG rs3.toNat).toNat =
        (s.readG rs1.toNat).toNat * (s.readG rs2.toNat).toNat := by
  rw [wellFormed_mul64] at hwf
  have hexec : exec (.mul64 rd rs1 rs2 rs3) s = complete _ := if_pos hwf
  simp only [Bool.and_eq_true, okG_one_iff, bne_iff_ne, ne_eq, field_eq_iff] at hwf
  obtain ⟨⟨⟨⟨hrd, _⟩, _⟩, hrs3⟩, hne⟩ := hwf
  refine .of_complete hexec
    (.writeG (.writeG (.refl _ s) List.mem_cons_self _) (List.mem_cons_of_mem _ List.mem_cons_self) _) ?_
  rw [State.finish_readG, State.finish_readG, State.readG_writeG_self _ hrs3, State.readG_writeG_ne _ hne,
    State.readG_writeG_self _ hrd, mul64_law]

/-- `MUL64` of both halves to one register raises (R155, R203). -/
theorem mul64_raises (rd rs1 rs2 : Field) (s : State) : Raises (.mul64 rd rs1 rs2 rd) s .illegalOperand :=
  (illegalOperandExactlyWhenIllegal _ s).1 (by simp [legal_mul64])

/-- `SETC` takes bit 0 of its field, whatever the field (R204, log 15). -/
theorem setc_completes (rs1 : Field) (s : State) :
    CompletesWith (.setc rs1) s { c := true } fun t => t.c = decide (rs1.toNat % 2 = 1) := by
  refine .of_complete rfl (.writeC (.refl _ s) rfl _) ?_
  rw [State.finish_c, State.writeC_c, BitVec.getLsbD, Nat.testBit_zero]

/-- Settles O26: each command writes what its operation computes, and the operations are exact on numbers. -/
theorem limbCommandResults : Obligations.LimbCommandResults := by
  unfold Obligations.LimbCommandResults
  intro s rd rs1 rs2 rs3
  exact ⟨fun hwf => addc_completes hwf s, fun hwf => subc_completes hwf s, fun hwf => mul64_completes hwf s,
    fun heq => heq ▸ mul64_raises rd rs1 rs2 s, setc_completes rs1 s⟩

end Sys2Proof.Machine
end

section
/-! PROOF of O27 to O33. Each Fp command writes the value of one function to one register (`completesWith_writeE`), so
what is left is what these functions are as numbers: sums and differences with their one correction by `2p`, the
Montgomery reduction as an exact quotient by `R`, and the masked exchange bit by bit. -/

namespace Sys2Proof.Machine

/-! ### Commands that write one register -/

variable {s : State} {i : Instr} {result : State → Prop}

/-- What a command does that ends with one field register written. -/
theorem completesWith_writeE {rd : Field} {v : Fp} (h : exec i s = complete (s.writeE rd.toNat v))
    (hresult : ∀ t : State, t.readE rd.toNat = v → result t) : CompletesWith i s { e := [rd.toNat] } result :=
  .of_complete h (.writeE (.refl _ s) (List.mem_singleton_self _) v)
    (hresult _ (s.readE_writeE_self rd.isLt v))

/-- What a command does that ends with one double-width register written. -/
theorem completesWith_writeD {rd : Field} {v : FpX2} (h : exec i s = complete (s.writeD rd.toNat v))
    (hrd : rd.toNat < 4) (hresult : ∀ t : State, t.readD rd.toNat = v → result t) :
    CompletesWith i s { d := [rd.toNat] } result :=
  .of_complete h (.writeD (.refl _ s) (List.mem_singleton_self _) v)
    (hresult _ (s.readD_writeD_self hrd v))

theorem wellFormed_fpMul (rd rs1 rs2 : Field) : (Instr.fpMul rd rs1 rs2).wellFormed = okD rd := by
  rw [wellFormed_of_single _ rfl]
  simp [Instr.operands, admits_d, admits_e]

theorem wellFormed_fpMontrdc (rd rs1 : Field) : (Instr.fpMontrdc rd rs1).wellFormed = okD rs1 := by
  rw [wellFormed_of_single _ rfl]
  simp [Instr.operands, admits_d, admits_e]

theorem wellFormed_fpSwapcond (rs1 rs2 rs3 : Field) : (Instr.fpSwapcond rs1 rs2 rs3).wellFormed = okG 1 rs3 := by
  rw [wellFormed_of_single _ rfl]
  simp [Instr.operands, admits_g, admits_e]

/-! ### Congruence modulo `p` -/

theorem mod_prime_eq_of_zmod_eq {a b : Nat} (h : (a : ZMod prime) = (b : ZMod prime)) : a % prime = b % prime :=
  (ZMod.natCast_eq_natCast_iff' a b prime).mp h

/-- A residue is the reduction of a number equal to it in `ZMod p`. -/
theorem residue_eq_of_zmod_eq {x : Fp} {n : Nat} (h : (x.toNat : ZMod prime) * (radixInv : ZMod prime) = n) :
    residue x = n % prime := by
  rw [← Nat.mod_eq_of_lt (residue_lt x)]
  exact mod_prime_eq_of_zmod_eq ((residue_zmod x).trans h)

/-! ### Sums and differences (R222, R223, R224) -/

theorem toNat_ofNat_prime : (BitVec.ofNat 512 prime).toNat = prime :=
  Fp.toNat_ofNat_lt (by have := four_prime_lt_radix; omega)

theorem toNat_ofNat_two_prime : (BitVec.ofNat 512 (2 * prime)).toNat = 2 * prime :=
  Fp.toNat_ofNat_lt (by have := four_prime_lt_radix; omega)

/-- `fpAdd` on all 512-bit operands. -/
theorem fpAdd_toNat_eq (x y : Fp) :
    (fpAdd x y).toNat =
      if 2 * prime ≤ (x.toNat + y.toNat) % radix then (x.toNat + y.toNat) % radix - 2 * prime
      else (x.toNat + y.toNat) % radix := by
  unfold fpAdd
  rw [← Fp.toNat_add]
  split
  · next hge =>
    rw [BitVec.toNat_sub_of_le (by rwa [BitVec.le_def, toNat_ofNat_two_prime]), toNat_ofNat_two_prime]
  · rfl

theorem fpAdd_toNat_mod {x y : Fp} (hx : x.toNat < 2 * prime) (hy : y.toNat < 2 * prime) :
    (fpAdd x y).toNat = (x.toNat + y.toNat) % (2 * prime) := by
  rw [fpAdd_toNat hx hy]
  split
  · next hge => rw [Nat.mod_eq_sub_mod hge, Nat.mod_eq_of_lt (by omega)]
  · next hlt => rw [Nat.mod_eq_of_lt (by omega)]

/-- `fpSub` on all 512-bit operands. -/
theorem fpSub_toNat_eq (x y : Fp) :
    (fpSub x y).toNat =
      if y.toNat ≤ x.toNat then x.toNat - y.toNat else (radix + x.toNat - y.toNat + 2 * prime) % radix := by
  have hy := Fp.toNat_lt y
  unfold fpSub
  split
  · next hle => rw [BitVec.toNat_sub_of_le (by rwa [BitVec.le_def])]
  · rw [Fp.toNat_add, Fp.toNat_sub, toNat_ofNat_two_prime, Nat.mod_add_mod,
      ← Nat.sub_add_comm hy.le]

/-- The difference is exact, or `2p` above where the subtraction borrows. -/
theorem fpSub_toNat_add {x y : Fp} (hx : x.toNat < 2 * prime) (hy : y.toNat < 2 * prime) :
    (fpSub x y).toNat + y.toNat = x.toNat ∨ (fpSub x y).toNat + y.toNat = x.toNat + 2 * prime := by
  rw [fpSub_toNat hx hy]
  split <;> omega

theorem fpSub_congr {x y : Fp} (hx : x.toNat < 2 * prime) (hy : y.toNat < 2 * prime) :
    ((fpSub x y).toNat + y.toNat) % prime = x.toNat % prime := by
  obtain h | h := fpSub_toNat_add hx hy
  · rw [h]
  · rw [h, Nat.add_mul_mod_self_right]

theorem fpRdcP_toNat (x : Fp) : (fpRdcP x).toNat = if prime ≤ x.toNat then x.toNat - prime else x.toNat := by
  unfold fpRdcP
  split
  · next hge => rw [BitVec.toNat_sub_of_le (by rwa [BitVec.le_def, toNat_ofNat_prime]), toNat_ofNat_prime]
  · rfl

/-- The constants of R220, by their laws. -/
theorem constant_law {sel : Nat} (h : sel ≤ 5) :
    [0, 2 ^ 512 % (2 ^ 250 * 3 ^ 159 - 1), 2 ^ 250 * 3 ^ 159 - 1, 2 * (2 ^ 250 * 3 ^ 159 - 1),
      2 ^ 250 * 3 ^ 159, 2 ^ 1024 % (2 ^ 250 * 3 ^ 159 - 1)][sel]? = some (constant sel).toNat := by
  interval_cases sel <;> decide +kernel

/-- Settles O27: the values of `fpAdd` and `fpSub` as numbers, for all operands and for those below `2p`. -/
theorem fpAddAndFpSubResults : Obligations.FpAddAndFpSubResults := by
  unfold Obligations.FpAddAndFpSubResults
  intro s rd rs1 rs2
  simp only [← radix_eq]
  refine ⟨completesWith_writeE rfl fun t ht => ?_, completesWith_writeE rfl fun t ht => ?_⟩ <;> rw [ht]
  · exact ⟨fpAdd_toNat_eq _ _, fpAdd_toNat_mod⟩
  · exact ⟨fpSub_toNat_eq _ _, fun hx hy => ⟨fpSub_inRange hx hy, fpSub_congr hx hy⟩⟩

/-- Settles O28: the values as numbers, and the operand check of the selector. -/
theorem fpRdcpMovAndLdcResults : Obligations.FpRdcpMovAndLdcResults := by
  unfold Obligations.FpRdcpMovAndLdcResults
  intro s rd rs1
  refine ⟨completesWith_writeE rfl fun t ht => ?_, completesWith_writeE rfl fun t ht => ?_, fun hsel => ?_,
    fun hsel => ?_⟩
  · rw [ht, fpRdcP_toNat]
  · rw [ht]
  · have hcheck : okCs rs1 = true := decide_eq_true (by omega)
    refine completesWith_writeE (if_pos hcheck) fun t ht => ?_
    rw [ht, constant_law hsel]
  · refine (illegalOperandExactlyWhenIllegal _ s).1 ?_
    rw [legal_fpLdc, okCs, decide_eq_false (by omega)]

/-! ### The conditional swap (R235) -/

/-- Bit `k` is exchanged where bit `k mod 64` of `-c` is set. -/
theorem getLsbD_swapCond (x y : Fp) (c : Limb) {k : Nat} (hk : k < 512) :
    (swapCond x y c).1.getLsbD k = (if (0 - c).getLsbD (k % 64) then y.getLsbD k else x.getLsbD k) ∧
      (swapCond x y c).2.getLsbD k = (if (0 - c).getLsbD (k % 64) then x.getLsbD k else y.getLsbD k) := by
  have hmask : ((0 - c).replicate 8).getLsbD k = (0 - c).getLsbD (k % 64) := by
    rw [BitVec.getLsbD_replicate, decide_eq_true (by omega), Bool.true_and]
  simp only [swapCond, BitVec.getLsbD_xor, BitVec.getLsbD_and, hmask]
  cases (0 - c).getLsbD (k % 64) with
  | false => simp
  | true => simp [Bool.xor_comm (x.getLsbD k)]

/-- A value swapped with itself is unchanged, whatever the choice. -/
theorem swapCond_self (x : Fp) (c : Limb) : swapCond x x c = (x, x) := by simp [swapCond]

/-- `FP_SWAPCOND` leaves both values of the swap, in one register too. -/
theorem fpSwapcond_completes {rs1 rs2 rs3 : Field} (hwf : (Instr.fpSwapcond rs1 rs2 rs3).wellFormed = true)
    (hresult : ∀ t : State,
      (t.readE rs1.toNat, t.readE rs2.toNat) =
        swapCond (s.readE rs1.toNat) (s.readE rs2.toNat) (s.readG rs3.toNat) → result t) :
    CompletesWith (.fpSwapcond rs1 rs2 rs3) s { e := [rs1.toNat, rs2.toNat] } result := by
  rw [wellFormed_fpSwapcond] at hwf
  refine .of_complete (if_pos hwf) (.writeE (.writeE (.refl _ s) List.mem_cons_self _)
    (List.mem_cons_of_mem _ List.mem_cons_self) _) (hresult _ ?_)
  rw [State.finish_readE, State.finish_readE, State.readE_writeE_self _ rs2.isLt]
  by_cases heq : rs1 = rs2
  · subst heq
    rw [State.readE_writeE_self _ rs1.isLt, swapCond_self]
  · rw [State.readE_writeE_ne _ (mt (field_eq_iff rs1 rs2).mpr heq), State.readE_writeE_self _ rs1.isLt]

/-- Settles O29: the swap of whole values for the choices 0 and 1, and its bits for every choice. -/
theorem fpSwapcondExchangesMaskedBits : Obligations.FpSwapcondExchangesMaskedBits := by
  unfold Obligations.FpSwapcondExchangesMaskedBits
  intro s rs1 rs2 rs3 hwf
  refine fpSwapcond_completes hwf fun t ht => ⟨?_, fun hc => ?_, fun k hk => ?_⟩
  · rintro (hc | rfl)
    · rw [hc, swapCond_of_lt_two _ _ (by decide), if_pos rfl] at ht
      exact Prod.mk.inj ht
    · rw [swapCond_self] at ht
      exact Prod.mk.inj ht
  · rw [hc, swapCond_of_lt_two _ _ (by decide), if_neg (by decide)] at ht
    exact Prod.mk.inj ht
  · have hbits := getLsbD_swapCond (s.readE rs1.toNat) (s.readE rs2.toNat) (s.readG rs3.toNat) hk
    rwa [← ht] at hbits

/-! ### The Montgomery reduction (R232) -/

/-- `r` is the Montgomery reduction of `v`: the quotient by `R`, modulo `R`, of the sum of `v` and the multiple of
`p` that makes it a multiple of `R`, with the range and the congruence R232 names. -/
def MontReduces (v r : Nat) : Prop :=
  ∃ m q, m < 2 ^ 512 ∧ v + m * prime = 2 ^ 512 * q ∧ r = q % 2 ^ 512 ∧
    (v < prime * 2 ^ 512 → r < 2 * prime) ∧
    (v < 2 ^ 512 * (2 ^ 512 - prime) → r * 2 ^ 512 % prime = v % prime)

/-- Where the sum stays below `R²`, its quotient is not cut. -/
theorem quotient_lt_radix {v m q : Nat} (hm : m < radix) (hq : v + m * prime = radix * q)
    (hv : v < radix * (radix - prime)) : q < radix := by
  have hle : prime ≤ radix := by have := four_prime_lt_radix; omega
  have hmp : m * prime ≤ radix * prime := Nat.mul_le_mul_right _ hm.le
  refine Nat.lt_of_mul_lt_mul_left (a := radix) ?_
  calc radix * q < radix * (radix - prime) + radix * prime := by omega
    _ = radix * radix := by rw [← Nat.mul_add, Nat.sub_add_cancel hle]

theorem montRdc_reduces (x : FpX2) : MontReduces x.toNat (montRdc x).toNat := by
  have hm := montFactor_lt x.toNat
  obtain ⟨q, hq⟩ := radix_dvd x.toNat
  have hr : (montRdc x).toNat = q % radix := by rw [montRdc_toNat, hq, Nat.mul_div_cancel_left _ radix_pos]
  unfold MontReduces
  simp only [← radix_eq]
  refine ⟨montFactor x.toNat, q, hm, hq, hr, montRdc_inRange, fun hlt => ?_⟩
  rw [hr, Nat.mod_eq_of_lt (quotient_lt_radix hm hq hlt), Nat.mul_comm, ← hq, Nat.add_mul_mod_self_right]

theorem fpMulRdc_reduces (x y : Fp) : MontReduces (x.toNat * y.toNat) (fpMulRdc x y).toNat :=
  fpMul_toNat x y ▸ montRdc_reduces (fpMul x y)

/-- The reduction times `R` is at most `(R - 1)·p` above the number, since the factor of `p` is below `R`. -/
theorem montRdc_mul_radix_add_le {x : FpX2} (h : x.toNat < prime * radix) :
    (montRdc x).toNat * radix + prime ≤ x.toNat + radix * prime := by
  have hm : (montFactor x.toNat + 1) * prime ≤ radix * prime := Nat.mul_le_mul_right _ (montFactor_lt x.toNat)
  rw [Nat.add_mul, Nat.one_mul] at hm
  rw [(montRdc_exact h).1]
  omega

/-! ### Residues (R246) -/

theorem residue_fpAdd {x y : Fp} (hx : Fp.inRange x) (hy : Fp.inRange y) :
    residue (fpAdd x y) = (residue x + residue y) % prime := by
  refine residue_eq_of_zmod_eq ?_
  rw [fpAdd_zmod hx hy, Nat.cast_add, residue_zmod, residue_zmod, add_mul]

theorem residue_fpSub {x y : Fp} (hx : Fp.inRange x) (hy : Fp.inRange y) :
    (residue (fpSub x y) + residue y) % prime = residue x := by
  refine (residue_eq_of_zmod_eq ?_).symm
  rw [Nat.cast_add, residue_zmod, residue_zmod, fpSub_zmod hx hy, sub_mul, sub_add_cancel]

theorem residue_fpMulRdc {x y : Fp} (hx : Fp.inRange x) (hy : Fp.inRange y) :
    residue (fpMulRdc x y) = residue x * residue y % prime := by
  refine residue_eq_of_zmod_eq ?_
  rw [fpMulRdc_zmod hx hy, Nat.cast_mul, residue_zmod, residue_zmod]
  ring

/-- For canonical operands the sum is below `2p`, so that no correction is made on the way back. -/
theorem fpSub_fpAdd_cancel {x y : Fp} (hx : x.toNat < prime) (hy : y.toNat < prime) : fpSub (fpAdd x y) y = x := by
  have hadd : (fpAdd x y).toNat = x.toNat + y.toNat := by
    rw [fpAdd_toNat (by omega) (by omega), if_neg (by omega)]
  refine BitVec.eq_of_toNat_eq ?_
  rw [fpSub_toNat (by omega) (by omega), hadd, if_pos (by omega), Nat.add_sub_cancel]

theorem toNat_constant_one : (constant 1).toNat = montOne := by decide +kernel

theorem montOne_lt_prime : montOne < prime := by decide +kernel

/-- `ONE` is the Montgomery form of 1. -/
theorem montOne_zmod : (montOne : ZMod prime) * (radixInv : ZMod prime) = 1 := by
  rw [montOne_law, cast_mod_prime, radix_radixInv_zmod]

/-- Multiplying by `ONE` does not change a canonical value: the product is congruent to it, and it is below
`x + p` because `x·ONE + (R - 1)·p` is below `(x + p)·R`. -/
theorem fpMulRdc_one {x : Fp} (hx : x.toNat < prime) : fpMulRdc x (constant 1) = x := by
  have hxr : Fp.inRange x := Fp.inRange_of_lt_prime hx
  have h1 : Fp.inRange (constant 1) := constant_inRange (by decide) (by decide)
  have hmod : (fpMulRdc x (constant 1)).toNat % prime = x.toNat % prime := by
    refine mod_prime_eq_of_zmod_eq ?_
    rw [fpMulRdc_zmod hxr h1, toNat_constant_one, mul_assoc, montOne_zmod, mul_one]
  have hlt : (fpMulRdc x (constant 1)).toNat < x.toNat + prime := by
    have hmul : (fpMulRdc x (constant 1)).toNat * radix + prime ≤ (fpMul x (constant 1)).toNat + radix * prime :=
      montRdc_mul_radix_add_le (fpMul_lt hxr h1)
    have hone : x.toNat * montOne ≤ x.toNat * radix :=
      Nat.mul_le_mul_left _ (by have := montOne_lt_prime; have := four_prime_lt_radix; omega)
    rw [fpMul_toNat, toNat_constant_one] at hmul
    refine Nat.lt_of_mul_lt_mul_right (a := radix) ?_
    have := prime_pos
    rw [Nat.add_mul, Nat.mul_comm prime radix]
    omega
  have hle : x.toNat ≤ (fpMulRdc x (constant 1)).toNat := Nat.mod_eq_of_lt hx ▸ hmod ▸ Nat.mod_le _ _
  have hdvd : prime ∣ (fpMulRdc x (constant 1)).toNat - x.toNat := (Nat.modEq_iff_dvd' hle).mp hmod.symm
  have hzero := Nat.eq_zero_of_dvd_of_lt hdvd (by omega)
  exact BitVec.eq_of_toNat_eq (by omega)

/-- Settles O33: the laws of each function, in `ZMod p` and exactly. -/
theorem fpResidueLaws : Obligations.FpResidueLaws := by
  unfold Obligations.FpResidueLaws
  exact ⟨fun x y hx hy => ⟨residue_fpAdd hx hy, residue_fpSub hx hy, residue_fpMulRdc hx hy⟩,
    fun x y => fpSub_fpAdd_cancel, fun x => fpMulRdc_one⟩

/-- Settles O30: the product and the reduction as numbers, and the laws of `fpMulRdc`. -/
theorem fpProductsAndReductions : Obligations.FpProductsAndReductions := by
  unfold Obligations.FpProductsAndReductions
  intro s rd rs1 rs2
  refine ⟨fun hwf => ?_, fun hwf => ?_, completesWith_writeE rfl fun t ht => ?_⟩
  · rw [wellFormed_fpMul] at hwf
    refine completesWith_writeD (if_pos hwf) (of_decide_eq_true hwf) fun t ht => ?_
    rw [ht, fpMul_toNat]
  · rw [wellFormed_fpMontrdc] at hwf
    refine completesWith_writeE (if_pos hwf) fun t ht => ?_
    rw [ht]
    exact montRdc_reduces _
  · rw [ht]
    exact ⟨fpMulRdc_reduces _ _, fun hx hy => ⟨fpMulRdc_inRange hx hy, residue_fpMulRdc hx hy⟩,
      fun hx hone => hone ▸ fpMulRdc_one hx⟩

/-! ### Conversions and `p34` (R236, R243, R244) -/

theorem toMont_congr (a : Fp) : (toMont a).toNat % prime = a.toNat * 2 ^ 512 % prime := by
  rw [← radix_eq]
  refine mod_prime_eq_of_zmod_eq ?_
  rw [(toMont_law a).2, Nat.cast_mul]

theorem residue_toMont (a : Fp) : residue (toMont a) = a.toNat % prime := by
  refine residue_eq_of_zmod_eq ?_
  rw [(toMont_law a).2, mul_assoc, radix_radixInv_zmod, mul_one]

/-- The reduction of a value below `R` is at most `p`: `a + (R - 1)·p` is below `(p + 1)·R`. -/
theorem montRdc_setWidth_le (a : Fp) : (montRdc (a.setWidth 1024)).toNat ≤ prime := by
  have ha := Fp.toNat_lt a
  have hw : (a.setWidth 1024).toNat = a.toNat := BitVec.toNat_setWidth_of_le (by decide)
  have hlt : (a.setWidth 1024).toNat < prime * radix := by
    rw [hw]
    exact ha.trans_le (Nat.le_mul_of_pos_left _ prime_pos)
  have hmul := montRdc_mul_radix_add_le hlt
  rw [hw] at hmul
  refine Nat.le_of_lt_succ (Nat.lt_of_mul_lt_mul_right (a := radix) ?_)
  rw [Nat.succ_mul, Nat.mul_comm prime radix]
  omega

theorem fromMont_zmod (a : Fp) : ((fromMont a).toNat : ZMod prime) * (radix : ZMod prime) = a.toNat := by
  rw [fromMont_toNat, residue_zmod, mul_assoc, mul_comm (radixInv : ZMod prime), radix_radixInv_zmod, mul_one]

theorem fromMont_congr (a : Fp) : (fromMont a).toNat * 2 ^ 512 % prime = a.toNat % prime := by
  rw [← radix_eq]
  refine mod_prime_eq_of_zmod_eq ?_
  rw [Nat.cast_mul, fromMont_zmod]

theorem toMont_fromMont_congr (a : Fp) : (toMont (fromMont a)).toNat % prime = a.toNat % prime :=
  (toMont_congr _).trans (fromMont_congr a)

/-- Settles O31: the laws of the two conversions; the round trip of 1 gives `p + 1`. -/
theorem montgomeryConversions : Obligations.MontgomeryConversions := by
  unfold Obligations.MontgomeryConversions
  refine ⟨fun s rd rs1 => ⟨completesWith_writeE rfl fun t ht => ?_, completesWith_writeE rfl fun t ht => ?_⟩,
    toMont_fromMont_congr, 1, by decide +kernel, by decide +kernel⟩ <;> rw [ht]
  · exact ⟨rfl, (toMont_law _).1, toMont_congr _, residue_toMont _⟩
  · exact ⟨rfl, montRdc_setWidth_le _, fromMont_toNat _, fromMont_toNat _ ▸ residue_lt _, fromMont_congr _⟩

theorem residue_p34Impl (x : Fp) :
    (residue (p34Impl x) : ZMod prime) = (residue x : ZMod prime) ^ ((prime - 3) / 4) := by
  rw [residue_zmod, (p34Impl_law x).2, mul_assoc, radix_radixInv_zmod, mul_one, p34Exponent]

/-- Settles O32: the laws of `p34Impl`, which `FP_P34` writes. -/
theorem fpP34RaisesTheResidue : Obligations.FpP34RaisesTheResidue := by
  unfold Obligations.FpP34RaisesTheResidue
  intro s rd rs1
  refine completesWith_writeE rfl fun t ht => ?_
  rw [ht]
  exact ⟨(p34Impl_law _).1, residue_p34Impl _, rfl⟩

end Sys2Proof.Machine
end

section
/-! SUPPORT. What the proofs of O34 to O44 share: the field element that a register value in range represents,
operation by operation (R272), and what a command leaves that ends with one `V`, `Pt` or `Crv` register written. -/

namespace Sys2Proof.Machine

/-! ### Values in range and their field elements -/

/-- The register value is in range and stands for the field element (R15, R272). -/
structure Fp2.Represents (x : Fp2) (a : GF) : Prop where
  inRange : x.inRange
  gf : x.gf = a

theorem Fp2.inRange.represents {x : Fp2} (h : x.inRange) : x.Represents x.gf := ⟨h, rfl⟩

namespace Fp2.Represents

variable {x y : Fp2} {a b : GF}

theorem add (hx : x.Represents a) (hy : y.Represents b) : (f2add x y).Represents (a + b) :=
  ⟨f2add_inRange hx.inRange hy.inRange, by rw [f2add_gf hx.inRange hy.inRange, hx.gf, hy.gf]⟩

theorem sub (hx : x.Represents a) (hy : y.Represents b) : (f2sub x y).Represents (a - b) :=
  ⟨f2sub_inRange hx.inRange hy.inRange, by rw [f2sub_gf hx.inRange hy.inRange, hx.gf, hy.gf]⟩

theorem mul (hx : x.Represents a) (hy : y.Represents b) : (f2mul x y).Represents (a * b) :=
  ⟨f2mul_inRange hx.inRange hy.inRange, by rw [f2mul_gf hx.inRange hy.inRange, hx.gf, hy.gf]⟩

theorem sqr (hx : x.Represents a) : (f2sqr x).Represents (a ^ 2) :=
  ⟨f2sqr_inRange hx.inRange, by rw [f2sqr_gf hx.inRange, hx.gf, sq]⟩

theorem inv (hx : x.Represents a) : (f2inv x).Represents (gfInv a) :=
  ⟨f2inv_inRange hx.inRange, by rw [f2inv_gf hx.inRange, hx.gf]⟩

theorem one : one2.Represents 1 := ⟨one2_inRange, one2_gf⟩

/-- The same field element, written in another form. -/
theorem congr (hx : x.Represents a) (h : a = b) : x.Represents b := h ▸ hx

end Fp2.Represents

/-! ### Legal operands -/

variable {s : State} {i : Instr} {result : State → Prop} {rd : Field}

/-- A well-formed command that names no `BUF` range is legal in every state (R153, R155, R156). -/
theorem legal_of_wellFormed (hwf : i.wellFormed = true) (s : State) (hbuf : bufRanges i s = [])
    (hout : outputsDisjoint i s = true) : legal i s = true := by
  rw [legal, hwf, hbuf, hout]; rfl

/-- The operands of a legal command are in their classes (R153). -/
theorem admits_of_legal (hl : legal i s = true) {c : OperandClass} {f : Field} (hmem : (c, f) ∈ i.operands) :
    c.admits f = true := by
  simp only [legal, Instr.wellFormed, Bool.and_eq_true, List.all_eq_true] at hl
  obtain ⟨⟨⟨hadmits, _⟩, _⟩, _⟩ := hl
  exact hadmits _ hmem

theorem lt_of_admits_v {f : Field} (h : OperandClass.v.admits f = true) : f.toNat < 32 :=
  of_decide_eq_true ((admits_v f).symm.trans h)

theorem lt_of_admits_pt {f : Field} (h : OperandClass.pt.admits f = true) : f.toNat < 16 :=
  of_decide_eq_true ((admits_pt f).symm.trans h)

theorem lt_of_admits_crv {f : Field} (h : OperandClass.crv.admits f = true) : f.toNat < 16 :=
  of_decide_eq_true ((admits_crv f).symm.trans h)

/-! ### Commands that write one view of `E` -/

/-- What a legal command does that ends with one Fp² register written. -/
theorem completesWith_writeV {v : Fp2} (hl : legal i s = true) (hrd : (OperandClass.v, rd) ∈ i.operands)
    (h : exec i s = complete (s.writeV rd.toNat v)) (hresult : ∀ t : State, t.readV rd.toNat = v → result t) :
    CompletesWith i s { e := vRegs rd.toNat } result :=
  .of_complete h (.writeV (.refl _ s) (fun _ hn => hn) v)
    (hresult _ (s.readV_writeV_self (lt_of_admits_v (admits_of_legal hl hrd)) v))

/-- What a legal command does that ends with one point register written. -/
theorem completesWith_writePt {p : Pt} (hl : legal i s = true) (hrd : (OperandClass.pt, rd) ∈ i.operands)
    (h : exec i s = complete (s.writePt rd.toNat p)) (hresult : ∀ t : State, t.readPt rd.toNat = p → result t) :
    CompletesWith i s { e := ptRegs rd.toNat } result :=
  .of_complete h (.writePt (.refl _ s) (fun _ hn => hn) p)
    (hresult _ (s.readPt_writePt_self (lt_of_admits_pt (admits_of_legal hl hrd)) p))

/-- What a legal command does that ends with one curve register written. -/
theorem completesWith_writeCrv {c : Crv} (hl : legal i s = true) (hrd : (OperandClass.crv, rd) ∈ i.operands)
    (h : exec i s = complete (s.writeCrv rd.toNat c)) (hresult : ∀ t : State, t.readCrv rd.toNat = c → result t) :
    CompletesWith i s { e := ptRegs rd.toNat } result :=
  .of_complete h (.writeCrv (.refl _ s) (fun _ hn => hn) c)
    (hresult _ (s.readCrv_writeCrv_self (lt_of_admits_crv (admits_of_legal hl hrd)) c))

end Sys2Proof.Machine
end

section
/-! PROOF of O34 to O36. The Fp² commands write what their function gives, and the functions are the operations of the
field. The inverse is one because `-1` is no square modulo `p`, so that a nonzero element has a nonzero norm. -/

namespace Sys2Proof.Machine

/-! ### Arithmetic (R260 to R266) -/

/-- Settles O34: each command writes its function, which is the operation on what the operands represent. -/
theorem fp2ArithmeticIsTheFieldsArithmetic : Obligations.Fp2ArithmeticIsTheFieldsArithmetic := by
  unfold Obligations.Fp2ArithmeticIsTheFieldsArithmetic
  intro s rd rs1 rs2
  refine ⟨fun hwf => ?_, fun hwf => ?_⟩
  · have hl : legal (.fp2Add rd rs1 rs2) s = true := legal_of_wellFormed hwf s rfl rfl
    have hok := (legal_fp2Add rd rs1 rs2 s).symm.trans hl
    refine ⟨completesWith_writeV hl List.mem_cons_self (if_pos hok) fun t ht => ?_,
      completesWith_writeV hl List.mem_cons_self (if_pos hok) fun t ht => ?_,
      completesWith_writeV hl List.mem_cons_self (if_pos hok) fun t ht => ?_⟩ <;> rw [ht]
    · exact ⟨rfl, fun hx hy => ⟨f2add_inRange hx hy, f2add_gf hx hy⟩⟩
    · exact ⟨rfl, fun hx hy => ⟨f2sub_inRange hx hy, f2sub_gf hx hy⟩⟩
    · exact ⟨rfl, fun hx hy => ⟨f2mul_inRange hx hy, f2mul_gf hx hy⟩⟩
  · have hl : legal (.fp2Sqr rd rs1) s = true := legal_of_wellFormed hwf s rfl rfl
    refine completesWith_writeV hl List.mem_cons_self (if_pos (legal_fp2Sqr rd rs1 s ▸ hl)) fun t ht => ?_
    rw [ht]
    exact ⟨rfl, fun hx => ⟨f2sqr_inRange hx, hx.represents.sqr.gf⟩⟩

/-! ### Inversion (R267 to R269) -/

/-- A sum of two squares modulo `p` is 0 for 0 and 0 alone, since `p` is 3 modulo 4. -/
theorem sq_add_sq_ne_zero {a b : ZMod prime} (h : a ≠ 0 ∨ b ≠ 0) : a ^ 2 + b ^ 2 ≠ 0 := by
  have : Fact prime.Prime := ⟨prime_isPrime⟩
  intro hsum
  rcases h with ha | hb
  · exact ZMod.mod_four_ne_three_of_sq_eq_neg_sq ha (eq_neg_of_add_eq_zero_left hsum) prime_mod_four
  · exact ZMod.mod_four_ne_three_of_sq_eq_neg_sq' hb (eq_neg_of_add_eq_zero_left hsum) prime_mod_four

theorem norm_ne_zero {x : GF} (hx : x ≠ 0) : x.re ^ 2 + x.im ^ 2 ≠ 0 := by
  refine sq_add_sq_ne_zero ?_
  by_contra hzero
  rw [not_or, not_not, not_not] at hzero
  obtain ⟨hre, him⟩ := hzero
  exact hx (QuadraticAlgebra.ext hre him)

/-- Fermat: the power `p - 2` inverts a nonzero residue. -/
theorem mul_pow_prime_sub_two {n : ZMod prime} (hn : n ≠ 0) : n * n ^ (prime - 2) = 1 := by
  have : Fact prime.Prime := ⟨prime_isPrime⟩
  have hexp : prime - 2 + 1 = prime - 1 := by have := one_lt_prime; omega
  rw [← pow_succ', hexp, ZMod.pow_card_sub_one_eq_one hn]

/-- `gfInv` inverts a nonzero element: times the conjugate it is the norm, which the power inverts (R269). -/
theorem mul_gfInv {x : GF} (hx : x ≠ 0) : x * gfInv x = 1 := by
  have hn := mul_pow_prime_sub_two (norm_ne_zero hx)
  ext
  · rw [QuadraticAlgebra.re_mul, QuadraticAlgebra.re_one]
    simp only [gfInv]
    linear_combination hn
  · rw [QuadraticAlgebra.im_mul, QuadraticAlgebra.im_one]
    simp only [gfInv]
    ring

theorem gfInv_zero : gfInv 0 = 0 := by
  ext <;> simp [gfInv]

/-- Settles O35: the field law of `f2inv`, and that `gfInv` inverts what is not 0. -/
theorem fp2InvInvertsTheResidue : Obligations.Fp2InvInvertsTheResidue := by
  unfold Obligations.Fp2InvInvertsTheResidue
  intro s rd rs1 hwf
  have hl := legal_of_wellFormed hwf s rfl rfl
  refine completesWith_writeV hl List.mem_cons_self (if_pos (legal_fp2Inv rd rs1 s ▸ hl)) fun t ht => ?_
  rw [ht]
  refine ⟨rfl, fun hx => ?_⟩
  rw [f2inv_gf hx]
  exact ⟨f2inv_inRange hx, rfl, mul_gfInv, fun h0 => by rw [h0, gfInv_zero]⟩

/-! ### Copy and conditional swap (R270, R271) -/

theorem f2swapCond_self (x : Fp2) (c : Limb) : f2swapCond x x c = (x, x) := by
  rw [f2swapCond, swapCond_self, swapCond_self]

/-- With the choice 0 or 1 the two values are kept or exchanged whole. -/
theorem f2swapCond_of_lt_two (x y : Fp2) {c : Limb} (hc : c.toNat < 2) :
    f2swapCond x y c = if c = 0 then (x, y) else (y, x) := by
  rw [f2swapCond, swapCond_of_lt_two _ _ hc, swapCond_of_lt_two _ _ hc]
  split <;> rfl

/-- `FP2_SWAPCOND` leaves both values of the swap, in one register too. -/
theorem fp2Swapcond_completes {s : State} {rs1 rs2 rs3 : Field} {result : State → Prop}
    (hl : legal (.fp2Swapcond rs1 rs2 rs3) s = true)
    (hresult : ∀ t : State,
      (t.readV rs1.toNat, t.readV rs2.toNat) =
        f2swapCond (s.readV rs1.toNat) (s.readV rs2.toNat) (s.readG rs3.toNat) → result t) :
    CompletesWith (.fp2Swapcond rs1 rs2 rs3) s { e := vRegs rs1.toNat ++ vRegs rs2.toNat } result := by
  have h1 : rs1.toNat < 32 := lt_of_admits_v (admits_of_legal hl List.mem_cons_self)
  have h2 : rs2.toNat < 32 := lt_of_admits_v (admits_of_legal hl (List.mem_cons_of_mem _ List.mem_cons_self))
  refine .of_complete (if_pos (legal_fp2Swapcond rs1 rs2 rs3 s ▸ hl))
    (.writeV (.writeV (.refl _ s) (fun _ hn => List.mem_append_left _ hn) _)
      (fun _ hn => List.mem_append_right _ hn) _) (hresult _ ?_)
  rw [State.finish_readV, State.finish_readV, State.readV_writeV_self _ h2]
  by_cases heq : rs1 = rs2
  · subst heq
    rw [State.readV_writeV_self _ h1, f2swapCond_self]
  · rw [State.readV_writeV_ne _ (mt (field_eq_iff rs1 rs2).mpr heq), State.readV_writeV_self _ h1]

/-- Settles O36: the copy, and the swap with the choices 0 and 1 as special cases. -/
theorem fp2MovAndSwapcondResults : Obligations.Fp2MovAndSwapcondResults := by
  unfold Obligations.Fp2MovAndSwapcondResults
  refine ⟨fun s rd rs1 hwf => ?_, fun s rs1 rs2 rs3 hwf => ?_⟩
  · have hl := legal_of_wellFormed hwf s rfl rfl
    exact completesWith_writeV hl List.mem_cons_self (if_pos (legal_fp2Mov rd rs1 s ▸ hl)) fun t ht => ht
  · refine fp2Swapcond_completes (legal_of_wellFormed hwf s rfl rfl) fun t ht =>
      ⟨Prod.mk.inj ht, fun hc => ?_, fun hc => ?_⟩
    · rw [hc, f2swapCond_of_lt_two _ _ (by decide), if_pos rfl] at ht
      exact Prod.mk.inj ht
    · rw [hc, f2swapCond_of_lt_two _ _ (by decide), if_neg (by decide)] at ht
      exact Prod.mk.inj ht

end Sys2Proof.Machine
end

section
/-! PROOF of O38, O39 and O42. The point and curve formulas in the field: each lemma follows the register sequence of
its rule, with what each register represents, and the polynomial is what the last ones represent. -/

namespace Sys2Proof.Machine

/-! ### Points (R292, R294, R296) -/

theorem xDBL_represents {p : Pt} {a24p c24 : Fp2} {x z a c : GF} (hx : p.x.Represents x) (hz : p.z.Represents z)
    (ha : a24p.Represents a) (hc : c24.Represents c) :
    (xDBL p a24p c24).x.Represents (c * (x - z) ^ 2 * (x + z) ^ 2) ∧
      (xDBL p a24p c24).z.Represents
        (((x + z) ^ 2 - (x - z) ^ 2) * (c * (x - z) ^ 2 + a * ((x + z) ^ 2 - (x - z) ^ 2))) := by
  have d := (hx.sub hz).sqr
  have s := (hx.add hz).sqr
  have cd := hc.mul d
  have sd := s.sub d
  exact ⟨cd.mul s, ((cd.add (ha.mul sd)).mul sd).congr (mul_comm _ _)⟩

theorem xTPL_represents {p : Pt} {a24m a24p : Fp2} {x z a b : GF} (hx : p.x.Represents x) (hz : p.z.Represents z)
    (ha : a24m.Represents a) (hb : a24p.Represents b) :
    let d := (x - z) ^ 2
    let s := (x + z) ^ 2
    let uv := a * d * d - b * s * s
    let m := (b * s - a * d) * ((2 * x) ^ 2 - s - d)
    (xTPL p a24m a24p).x.Represents (2 * x * (uv + m) ^ 2) ∧
      (xTPL p a24m a24p).z.Represents (2 * z * (uv - m) ^ 2) := by
  intro d s uv m
  have hd : (f2sqr (f2sub p.x p.z)).Represents d := (hx.sub hz).sqr
  have hs : (f2sqr (f2add p.x p.z)).Represents s := (hx.add hz).sqr
  have twoX := ((hx.add hz).add (hx.sub hz)).congr (show _ = 2 * x by ring)
  have twoZ := ((hx.add hz).sub (hx.sub hz)).congr (show _ = 2 * z by ring)
  have bs := hs.mul hb
  have ad := hd.mul ha
  have huv := ((hd.mul ad).sub (bs.mul hs)).congr (show _ = uv by ring)
  have hm := ((bs.sub ad).mul ((twoX.sqr.sub hs).sub hd)).congr (show _ = m by ring)
  exact ⟨((huv.add hm).sqr.mul twoX).congr (mul_comm _ _), ((huv.sub hm).sqr.mul twoZ).congr (mul_comm _ _)⟩

/-- The doubled point of `xDBLADD`. -/
theorem xDBLADD_fst_represents {p : Pt} (q pq : Pt) {a24 : Fp2} {x z a : GF} (hx : p.x.Represents x)
    (hz : p.z.Represents z) (ha : a24.Represents a) :
    (xDBLADD p q pq a24).1.x.Represents ((x + z) ^ 2 * (x - z) ^ 2) ∧
      (xDBLADD p q pq a24).1.z.Represents
        (((x + z) ^ 2 - (x - z) ^ 2) * ((x - z) ^ 2 + a * ((x + z) ^ 2 - (x - z) ^ 2))) := by
  have d := (hx.sub hz).sqr
  have s := (hx.add hz).sqr
  have sd := s.sub d
  exact ⟨s.mul d, (((ha.mul sd).add d).mul sd).congr (by ring)⟩

/-- The sum of `xDBLADD`. -/
theorem xDBLADD_snd_represents {p q pq : Pt} (a24 : Fp2) {x z x' z' u w : GF} (hx : p.x.Represents x)
    (hz : p.z.Represents z) (hx' : q.x.Represents x') (hz' : q.z.Represents z') (hu : pq.x.Represents u)
    (hw : pq.z.Represents w) :
    (xDBLADD p q pq a24).2.x.Represents (4 * w * (x * x' - z * z') ^ 2) ∧
      (xDBLADD p q pq a24).2.z.Represents (4 * u * (z * x' - x * z') ^ 2) := by
  have t0 := (hx.add hz).mul (hx'.sub hz')
  have t1 := (hx.sub hz).mul (hx'.add hz')
  exact ⟨(hw.mul (t0.add t1).sqr).congr (by ring), (hu.mul (t0.sub t1).sqr).congr (by ring)⟩

/-- Settles O38: what the coordinates represent, for operands that represent their own field elements. -/
theorem doublingAndTriplingInTheField : Obligations.DoublingAndTriplingInTheField := by
  unfold Obligations.DoublingAndTriplingInTheField
  refine ⟨fun p a b hp ha hb => ?_, fun p q pq a24 hp hq hpq ha => ?_⟩
  · obtain ⟨hx, hz⟩ := hp
    obtain ⟨dx, dz⟩ := xDBL_represents hx.represents hz.represents ha.represents hb.represents
    obtain ⟨tx, tz⟩ := xTPL_represents hx.represents hz.represents ha.represents hb.represents
    exact ⟨⟨⟨dx.inRange, dz.inRange⟩, dx.gf, dz.gf⟩, ⟨tx.inRange, tz.inRange⟩, tx.gf, tz.gf⟩
  · obtain ⟨hx, hz⟩ := hp
    obtain ⟨hx', hz'⟩ := hq
    obtain ⟨hu, hw⟩ := hpq
    obtain ⟨dx, dz⟩ := xDBLADD_fst_represents q pq hx.represents hz.represents ha.represents
    obtain ⟨ax, az⟩ := xDBLADD_snd_represents a24 hx.represents hz.represents hx'.represents hz'.represents
      hu.represents hw.represents
    exact ⟨⟨⟨dx.inRange, dz.inRange⟩, dx.gf, dz.gf⟩, ⟨ax.inRange, az.inRange⟩, ax.gf, az.gf⟩

/-! ### The ladder (R297, R298) -/

theorem ladderStep_true (a : Fp2) (r : LadderPoints) :
    ladderStep a true r = ⟨(xDBLADD r.r0 r.r1 r.r2 a).1, (xDBLADD r.r0 r.r1 r.r2 a).2, r.r2⟩ := rfl

theorem ladderStep_false (a : Fp2) (r : LadderPoints) :
    ladderStep a false r = ⟨(xDBLADD r.r0 r.r2 r.r1 a).1, r.r1, (xDBLADD r.r0 r.r2 r.r1 a).2⟩ := rfl

theorem getD_readBytes (m : Memory) (off : Nat) {n i : Nat} (hi : i < n) :
    (Memory.readBytes m off n).getD i 0 = Memory.read m (off + i) := by
  simp [Memory.readBytes, List.getD, hi]

/-- A ladder bit below `bitlen` lies in the scalar's bytes, which are read from `BUF` (R102, R298). -/
theorem scalarBit_bufRead (s : State) (off : Nat) {bitlen : Limb} {i : Nat} (hi : i < bitlen.toNat) :
    scalarBit (s.bufRead off (scalarBytes bitlen)) i = (Memory.read s.buf (off + i / 8)).getLsbD (i % 8) := by
  have hbyte : i / 8 < scalarBytes bitlen := by rw [scalarBytes]; omega
  rw [scalarBit, State.bufRead, getD_readBytes _ _ hbyte]

theorem ladderA24_represents {crv : Crv} {a c : GF} (ha : crv.fst.Represents a) (hc : crv.snd.Represents c) :
    (ladderA24 crv).Represents ((a + 2 * c) * gfInv (4 * c)) := by
  have twoC := (hc.add hc).congr (two_mul c).symm
  have fourC := (twoC.add twoC).congr (show _ = 4 * c by ring)
  exact (ha.add twoC).mul fourC.inv

/-- Settles O39: the three points are the ladder's run, bit by bit. -/
theorem ladderStepsByTheScalarBits : Obligations.LadderStepsByTheScalarBits := by
  unfold Obligations.LadderStepsByTheScalarBits
  intro s rd rs1 rs2 rs3 hl bitlen off crv c2 a24
  have hok := (legal_ptLadder3pt rd rs1 rs2 rs3 s).symm.trans hl
  refine completesWith_writePt hl List.mem_cons_self (if_pos hok) fun t ht => ?_
  refine ⟨⟨fun i => ladderRun a24 (s.bufRead off (scalarBytes (s.readG rs3.toNat))) i
      ⟨s.readPt (rs2.toNat + 1), s.readPt rs2.toNat, s.readPt (rs2.toNat + 2)⟩, rfl, fun i hi => ?_, ht⟩,
    fun hcrv => ?_, fun hzero => ?_⟩
  · simp only [ladderRun_succ, scalarBit_bufRead s off hi]
    split
    · next hbit => rw [hbit, ladderStep_true]; exact ⟨rfl, rfl, rfl⟩
    · next hbit => rw [Bool.eq_false_iff.mpr hbit, ladderStep_false]; exact ⟨rfl, rfl, rfl⟩
  · obtain ⟨hfst, hsnd⟩ := hcrv
    obtain ⟨hr, hgf⟩ := ladderA24_represents hfst.represents hsnd.represents
    exact ⟨hr, hgf⟩
  · rw [ht, show (s.readG rs3.toNat).toNat = 0 from hzero]; rfl

/-! ### The recovered coefficient and the j-invariant (R305 to R308) -/

theorem recoverA_represents {xP xQ xR : Fp2} {p q r : GF} (hp : xP.Represents p) (hq : xQ.Represents q)
    (hr : xR.Represents r) :
    (recoverA xP xQ xR).fst.Represents
      ((1 - p * q - p * r - q * r) ^ 2 * gfInv (4 * p * q * r) - p - q - r) := by
  have sum := hp.add hq
  have pq := hp.mul hq
  have num := (((hr.mul sum).add pq).sub .one).sqr.congr (show _ = (1 - p * q - p * r - q * r) ^ 2 by ring)
  have pqr := pq.mul hr
  have den := ((pqr.add pqr).add (pqr.add pqr)).congr (show _ = 4 * p * q * r by ring)
  exact ((num.mul den.inv).sub (sum.add hr)).congr (by ring)

theorem jInvariant_represents {crv : Crv} {a c : GF} (ha : crv.fst.Represents a) (hc : crv.snd.Represents c) :
    (jInvariant crv).Represents (256 * (a ^ 2 - 3 * c ^ 2) ^ 3 * gfInv (c ^ 4 * (a ^ 2 - 4 * c ^ 2))) := by
  have sqA := ha.sqr
  have sqC := hc.sqr
  have n := ((sqA.sub (sqC.add sqC)).sub sqC).congr (show _ = a ^ 2 - 3 * c ^ 2 by ring)
  have den := ((n.sub sqC).mul sqC.sqr).congr (show _ = c ^ 4 * (a ^ 2 - 4 * c ^ 2) by ring)
  have n2 := n.add n
  have n4 := n2.add n2
  have n64 := n4.mul n4.sqr
  have n128 := n64.add n64
  have num := (n128.add n128).congr (show _ = 256 * (a ^ 2 - 3 * c ^ 2) ^ 3 by ring)
  exact num.mul den.inv

/-- Settles O42: both commands write their function, whose numerator and denominator are the stated ones. -/
theorem recoverAAndJInvariantFormulas : Obligations.RecoverAAndJInvariantFormulas := by
  unfold Obligations.RecoverAAndJInvariantFormulas
  intro s rd rs1
  refine ⟨fun hwf => ?_, fun hwf => ?_⟩
  · have hl := legal_of_wellFormed hwf s rfl rfl
    refine completesWith_writeCrv hl List.mem_cons_self (if_pos (legal_crvRecoverA rd rs1 s ▸ hl)) fun t ht => ?_
    rw [ht]
    refine ⟨rfl, rfl, fun hp hq hr => ?_⟩
    have ha := recoverA_represents hp.represents hq.represents hr.represents
    exact ⟨ha.inRange, ha.gf⟩
  · have hl := legal_of_wellFormed hwf s rfl rfl
    refine completesWith_writeV hl List.mem_cons_self (if_pos (legal_crvJinv rd rs1 s ▸ hl)) fun t ht => ?_
    rw [ht]
    refine ⟨rfl, fun hc => ?_⟩
    obtain ⟨hfst, hsnd⟩ := hc
    have hj := jInvariant_represents hfst.represents hsnd.represents
    exact ⟨hj.inRange, hj.gf, fun hzero => by rw [hj.gf, hzero, gfInv_zero, mul_zero]⟩

end Sys2Proof.Machine
end

section
/-! PROOF of O43 and O44. The isogeny commands: generating writes the curve and the stash, evaluating needs the stash;
the formulas in the field are read off their register sequences as those of O38. -/

namespace Sys2Proof.Machine

/-! ### Generating (R341, R345) -/

theorem get4_represents {k : Pt} {x z : GF} (hx : k.x.Represents x) (hz : k.z.Represents z) :
    (get4 k).1.fst.Represents (4 * x ^ 4) ∧ (get4 k).1.snd.Represents (4 * z ^ 4) ∧
      (get4 k).2.k1.Represents (4 * z ^ 2) ∧ (get4 k).2.k2.Represents (x - z) ∧ (get4 k).2.k3.Represents (x + z) := by
  have twoXX := hx.sqr.add hx.sqr
  have twoZZ := hz.sqr.add hz.sqr
  exact ⟨twoXX.sqr.congr (by ring), twoZZ.sqr.congr (by ring), (twoZZ.add twoZZ).congr (by ring), hx.sub hz,
    hx.add hz⟩

theorem get3_represents {k : Pt} {x z : GF} (hx : k.x.Represents x) (hz : k.z.Represents z) :
    (get3 k).1.fst.Represents ((3 * x + z) ^ 3 * (x - z)) ∧
      (get3 k).1.snd.Represents ((3 * x - z) ^ 3 * (x + z)) ∧
      (get3 k).2.k1.Represents (x - z) ∧ (get3 k).2.k2.Represents (x + z) := by
  have k1 := hx.sub hz
  have k2 := hx.add hz
  have t0 := k1.sqr
  have t1 := k2.sqr
  have cross := ((k1.add k2).sqr.sub (t0.add t1)).congr (show _ = 2 * x ^ 2 - 2 * z ^ 2 by ring)
  have t2 := (t1.add cross).congr (show _ = (3 * x - z) * (x + z) by ring)
  have t3 := (cross.add t0).congr (show _ = (3 * x + z) * (x - z) by ring)
  have t4 := t3.add t0
  have sqMinus := (t1.add (t4.add t4)).congr (show _ = (3 * x - z) ^ 2 by ring)
  have t4' := t1.add t2
  have sqPlus := (t0.add (t4'.add t4')).congr (show _ = (3 * x + z) ^ 2 by ring)
  exact ⟨(t3.mul sqPlus).congr (by ring), (t2.mul sqMinus).congr (by ring), k1, k2⟩

/-- Settles O43: the curve is written first, and the stash is no register. -/
theorem isogenyGenWritesCurveAndStash : Obligations.IsogenyGenWritesCurveAndStash := by
  unfold Obligations.IsogenyGenWritesCurveAndStash
  intro s rd rs1 hwf k
  have hl : legal (.iso4Gen rd rs1) s = true := legal_of_wellFormed hwf s rfl rfl
  have hok := (legal_iso4Gen rd rs1 s).symm.trans hl
  have hrd : rd.toNat < 16 := lt_of_admits_crv (admits_of_legal hl List.mem_cons_self)
  refine ⟨.of_complete (if_pos hok) (.stash4 (.writeCrv (.refl _ s) (fun _ hn => hn) _) rfl _) ?_,
    .of_complete (if_pos hok) (.stash3 (.writeCrv (.refl _ s) (fun _ hn => hn) _) rfl _) ?_⟩
  · rw [State.finish_readCrv, State.stash4_readCrv, State.readCrv_writeCrv_self _ hrd]
    refine ⟨rfl, rfl, fun hk => ?_⟩
    obtain ⟨hx, hz⟩ := hk
    obtain ⟨ha, hc, h1, h2, h3⟩ := get4_represents hx.represents hz.represents
    exact ⟨ha.gf, hc.gf, h1.gf, h2.gf, h3.gf⟩
  · rw [State.finish_readCrv, State.stash3_readCrv, State.readCrv_writeCrv_self _ hrd]
    refine ⟨rfl, rfl, fun hk => ?_⟩
    obtain ⟨hx, hz⟩ := hk
    obtain ⟨hp, hm, h1, h2⟩ := get3_represents hx.represents hz.represents
    exact ⟨hp.gf, hm.gf, h1.gf, h2.gf⟩

/-! ### Evaluating (R343, R347) -/

theorem eval4_represents {p : Pt} {k : Coeffs4} {x z k1 k2 k3 : GF} (hx : p.x.Represents x) (hz : p.z.Represents z)
    (h1 : k.k1.Represents k1) (h2 : k.k2.Represents k2) (h3 : k.k3.Represents k3) :
    let w := (x + z) * (x - z) * k1
    let a := ((x + z) * k2 + (x - z) * k3) ^ 2
    let b := ((x + z) * k2 - (x - z) * k3) ^ 2
    (eval4 p k).x.Represents ((w + a) * a) ∧ (eval4 p k).z.Represents ((b - w) * b) := by
  intro w a b
  have u := hx.add hz
  have v := hx.sub hz
  have hw := (u.mul v).mul h1
  have uk := u.mul h2
  have vk := v.mul h3
  have ha := (uk.add vk).sqr
  have hb := (uk.sub vk).sqr
  exact ⟨(hw.add ha).mul ha, (hb.mul (hb.sub hw)).congr (mul_comm _ _)⟩

theorem eval3_represents {p : Pt} {k : Coeffs3} {x z k1 k2 : GF} (hx : p.x.Represents x) (hz : p.z.Represents z)
    (h1 : k.k1.Represents k1) (h2 : k.k2.Represents k2) :
    (eval3 p k).x.Represents (x * (k1 * (x + z) + k2 * (x - z)) ^ 2) ∧
      (eval3 p k).z.Represents (z * (k2 * (x - z) - k1 * (x + z)) ^ 2) := by
  have ku := h1.mul (hx.add hz)
  have kv := h2.mul (hx.sub hz)
  exact ⟨hx.mul (ku.add kv).sqr, hz.mul (kv.sub ku).sqr⟩

/-- Settles O44: after the operands each evaluator checks its stash, and raises where it is not valid (R340). -/
theorem isogenyEvalNeedsTheStash : Obligations.IsogenyEvalNeedsTheStash := by
  unfold Obligations.IsogenyEvalNeedsTheStash
  intro s rd rs1 hwf p u v k l
  have hl : legal (.iso4Eval rd rs1) s = true := legal_of_wellFormed hwf s rfl rfl
  have hok := (legal_iso4Eval rd rs1 s).symm.trans hl
  refine ⟨fun hvalid => ?_, fun hvalid => .of_raise ((if_pos hok).trans (if_neg (Bool.eq_false_iff.mp hvalid))),
    fun hvalid => ?_, fun hvalid => .of_raise ((if_pos hok).trans (if_neg (Bool.eq_false_iff.mp hvalid)))⟩
  · refine completesWith_writePt hl List.mem_cons_self ((if_pos hok).trans (if_pos hvalid)) fun t ht => ?_
    rw [ht]
    refine ⟨rfl, fun hp h1 h2 h3 => ?_⟩
    obtain ⟨hx, hz⟩ := hp
    obtain ⟨ix, iz⟩ := eval4_represents hx.represents hz.represents h1.represents h2.represents h3.represents
    exact ⟨⟨ix.inRange, iz.inRange⟩, ix.gf, iz.gf⟩
  · refine completesWith_writePt hl List.mem_cons_self ((if_pos hok).trans (if_pos hvalid)) fun t ht => ?_
    rw [ht]
    refine ⟨rfl, fun hp h1 h2 => ?_⟩
    obtain ⟨hx, hz⟩ := hp
    obtain ⟨ix, iz⟩ := eval3_represents hx.represents hz.represents h1.represents h2.represents
    exact ⟨⟨ix.inRange, iz.inRange⟩, ix.gf, iz.gf⟩

end Sys2Proof.Machine
end

section
/-! PROOF of O37, O40 and O41. The point powers are iterates of one formula; the ladder reads its scalar only by the
bits below `bitlen`, and `BUF` takes no part in its write; the curve forms are read off their register sequences as
those of O38. -/

namespace Sys2Proof.Machine

/-! ### Point powers (R293, R295) -/

/-- Settles O37: `pow2k` and `pow3k` are, step by step, the sequences, and the count is where each is read. -/
theorem pointPowerCommandsIterate : Obligations.PointPowerCommandsIterate := by
  unfold Obligations.PointPowerCommandsIterate
  intro s rd rs1 rs2 rs3 hwf k crv
  have hl : legal (.ptPow2k rd rs1 rs2 rs3) s = true := legal_of_wellFormed hwf s rfl rfl
  have hok := (legal_ptPow2k rd rs1 rs2 rs3 s).symm.trans hl
  refine ⟨completesWith_writePt hl List.mem_cons_self (if_pos hok) fun t ht => ?_,
    completesWith_writePt hl List.mem_cons_self (if_pos hok) fun t ht => ?_⟩
  · exact ⟨fun j => pow2k j crv (s.readPt rs1.toNat), rfl, fun j => pow2k_succ j _ _, ht⟩
  · exact ⟨fun j => pow3k j crv (s.readPt rs1.toNat), rfl, fun j => pow3k_succ j _ _, ht⟩

/-! ### The ladder and `BUF` (R297, R298) -/

/-- The ladder reads a scalar only by its bits below `bitlen` (R297). -/
theorem ladderRun_congr {a : Fp2} {scalar scalar' : List Byte} {bitlen : Nat}
    (h : ∀ i, i < bitlen → scalarBit scalar i = scalarBit scalar' i) (r : LadderPoints) :
    ladderRun a scalar bitlen r = ladderRun a scalar' bitlen r := by
  induction bitlen with
  | zero => rfl
  | succ n ih =>
    rw [ladderRun_succ, ladderRun_succ, h n n.lt_succ_self, ih fun i hi => h i (Nat.lt_succ_of_lt hi)]

theorem ladder3pt_congr {scalar scalar' : List Byte} {bitlen : Nat} (crv : Crv) (p q pmq : Pt)
    (h : ∀ i, i < bitlen → scalarBit scalar i = scalarBit scalar' i) :
    ladder3pt crv p q pmq bitlen scalar = ladder3pt crv p q pmq bitlen scalar' :=
  congrArg LadderPoints.r1 (ladderRun_congr h _)

/-- The end of a command that writes a point does not touch `BUF`. -/
theorem complete_writePt_withBuf (s : State) (m : Memory) (n : Nat) (p : Pt) :
    complete (({ s with buf := m } : State).writePt n p) =
      .next { (s.writePt n p).finish 0 with buf := m } := rfl

/-- Settles O40: with the same bits below `bitlen` the two runs write the same point, and legality and the other
operands are not in `BUF`. -/
theorem ladderIgnoresBitsAboveBitlen : Obligations.LadderIgnoresBitsAboveBitlen := by
  unfold Obligations.LadderIgnoresBitsAboveBitlen
  intro s m rd rs1 rs2 rs3 hl hbits
  have hok := (legal_ptLadder3pt rd rs1 rs2 rs3 s).symm.trans hl
  have hok' := (legal_ptLadder3pt rd rs1 rs2 rs3 { s with buf := m }).symm.trans hl
  refine ⟨_, if_pos hok, (if_pos hok').trans ?_⟩
  rw [complete_writePt_withBuf, ladder3pt_congr _ _ _ _ fun i hi => ?_]
  · rfl
  · exact (scalarBit_bufRead _ _ hi).trans ((hbits i hi).trans (scalarBit_bufRead s _ hi).symm)

/-! ### The curve forms (R300 to R303) -/

section
variable {crv : Crv} {a c : GF}

theorem curveEquiv4_represents (ha : crv.fst.Represents a) (hc : crv.snd.Represents c) :
    (curveEquiv4 crv).fst.Represents (a + 2 * c) ∧ (curveEquiv4 crv).snd.Represents (4 * c) := by
  have twoC := (hc.add hc).congr (two_mul c).symm
  exact ⟨ha.add twoC, (twoC.add twoC).congr (by ring)⟩

theorem curveEquiv3_represents (ha : crv.fst.Represents a) (hc : crv.snd.Represents c) :
    (curveEquiv3 crv).fst.Represents (a + 2 * c) ∧ (curveEquiv3 crv).snd.Represents (a - 2 * c) := by
  have twoC := (hc.add hc).congr (two_mul c).symm
  exact ⟨ha.add twoC, ha.sub twoC⟩

theorem curveRecover4_represents (ha : crv.fst.Represents a) (hc : crv.snd.Represents c) :
    (curveRecover4 crv).fst.Represents (4 * a - 2 * c) ∧ (curveRecover4 crv).snd.Represents c := by
  have twoA := ha.add ha
  exact ⟨((twoA.add twoA).sub (hc.add hc)).congr (by ring), hc⟩

theorem curveRecover3_represents (ha : crv.fst.Represents a) (hc : crv.snd.Represents c) :
    (curveRecover3 crv).fst.Represents (2 * (a + c)) ∧ (curveRecover3 crv).snd.Represents (a - c) := by
  have sum := ha.add hc
  exact ⟨(sum.add sum).congr (two_mul _).symm, ha.sub hc⟩

/-- From the 4-form the recovery gives `(4A, 4C)` (R304). -/
theorem curveRecover4_curveEquiv4_represents (ha : crv.fst.Represents a) (hc : crv.snd.Represents c) :
    (curveRecover4 (curveEquiv4 crv)).fst.Represents (4 * a) ∧
      (curveRecover4 (curveEquiv4 crv)).snd.Represents (4 * c) := by
  obtain ⟨hp, hc4⟩ := curveEquiv4_represents ha hc
  obtain ⟨hfst, hsnd⟩ := curveRecover4_represents hp hc4
  exact ⟨hfst.congr (by ring), hsnd⟩

/-- From the 3-form the recovery gives `(4A, 4C)` (R304). -/
theorem curveRecover3_curveEquiv3_represents (ha : crv.fst.Represents a) (hc : crv.snd.Represents c) :
    (curveRecover3 (curveEquiv3 crv)).fst.Represents (4 * a) ∧
      (curveRecover3 (curveEquiv3 crv)).snd.Represents (4 * c) := by
  obtain ⟨hp, hm⟩ := curveEquiv3_represents ha hc
  obtain ⟨hfst, hsnd⟩ := curveRecover3_represents hp hm
  exact ⟨hfst.congr (by ring), hsnd.congr (by ring)⟩

end

/-- What a legal command does that ends with one curve form written: the form, and in range what it represents. -/
theorem completesWith_curveForm {i : Instr} {s : State} {rd : Field} {crv form : Crv} {x y : GF} (hl : legal i s = true)
    (hrd : (OperandClass.crv, rd) ∈ i.operands) (h : exec i s = complete (s.writeCrv rd.toNat form))
    (hform : crv.fst.Represents crv.fst.gf → crv.snd.Represents crv.snd.gf →
      form.fst.Represents x ∧ form.snd.Represents y) :
    CompletesWith i s { e := ptRegs rd.toNat } fun t =>
      t.readCrv rd.toNat = form ∧
        (crv.inRange → (t.readCrv rd.toNat).fst.gf = x ∧ (t.readCrv rd.toNat).snd.gf = y) := by
  refine completesWith_writeCrv hl hrd h fun t ht => ⟨ht, fun hcrv => ?_⟩
  obtain ⟨hA, hC⟩ := hcrv
  obtain ⟨hfst, hsnd⟩ := hform hA.represents hC.represents
  exact ht ▸ ⟨hfst.gf, hsnd.gf⟩

/-- Settles O41: each command writes its function, and the recovery of a form composes what both represent. -/
theorem curveFormCommands : Obligations.CurveFormCommands := by
  unfold Obligations.CurveFormCommands
  refine ⟨fun crv hcrv => ?_, ?_⟩
  · obtain ⟨hA, hC⟩ := hcrv
    obtain ⟨fst4, snd4⟩ := curveRecover4_curveEquiv4_represents hA.represents hC.represents
    obtain ⟨fst3, snd3⟩ := curveRecover3_curveEquiv3_represents hA.represents hC.represents
    exact ⟨fst4.gf, snd4.gf, fst3.gf, snd3.gf⟩
  · intro s rd rs1 hwf crv a b twice sum
    have hl : legal (.crvEquiv4 rd rs1) s = true := legal_of_wellFormed hwf s rfl rfl
    have hok := (legal_crvEquiv4 rd rs1 s).symm.trans hl
    exact ⟨completesWith_curveForm hl List.mem_cons_self (if_pos hok) curveEquiv4_represents,
      completesWith_curveForm hl List.mem_cons_self (if_pos hok) curveEquiv3_represents,
      completesWith_curveForm hl List.mem_cons_self (if_pos hok) curveRecover4_represents,
      completesWith_curveForm hl List.mem_cons_self (if_pos hok) curveRecover3_represents⟩

end Sys2Proof.Machine
end

section
/-! PROOF of O45 and O59. The kernel point makes the two products whose difference is squared in the `Z` coordinate
equal (R344, R348). A composite command that completes has cleared both stashes last (R412, R578), so an evaluator
meets the case of O44 without a stash. -/

namespace Sys2Proof.Machine

/-! ### The image of the kernel point (R344, R348) -/

/-- At the kernel point `(x + z) * k2` and `(x - z) * k3` are both `(x + z) * (x - z)`. -/
theorem eval4_kernel_z_represents {k : Pt} {x z : GF} (hx : k.x.Represents x) (hz : k.z.Represents z) :
    (eval4 k (get4 k).2).z.Represents 0 := by
  obtain ⟨_, _, h1, h2, h3⟩ := get4_represents hx hz
  obtain ⟨_, image⟩ := eval4_represents hx hz h1 h2 h3
  have equal : (x + z) * (x - z) = (x - z) * (x + z) := mul_comm _ _
  exact image.congr (by rw [equal, sub_self]; ring)

/-- At the kernel point `k2 * (x - z)` and `k1 * (x + z)` are both `(x + z) * (x - z)`. -/
theorem eval3_kernel_z_represents {k : Pt} {x z : GF} (hx : k.x.Represents x) (hz : k.z.Represents z) :
    (eval3 k (get3 k).2).z.Represents 0 := by
  obtain ⟨_, _, h1, h2⟩ := get3_represents hx hz
  obtain ⟨_, image⟩ := eval3_represents hx hz h1 h2
  have equal : (x + z) * (x - z) = (x - z) * (x + z) := mul_comm _ _
  exact image.congr (by rw [equal, sub_self]; ring)

/-- Settles O45: the `Z` coordinate of either image represents 0. -/
theorem kernelPointGoesToInfinity : Obligations.KernelPointGoesToInfinity := by
  unfold Obligations.KernelPointGoesToInfinity
  intro k hk
  obtain ⟨hx, hz⟩ := hk
  exact ⟨(eval4_kernel_z_represents hx.represents hz.represents).gf,
    (eval3_kernel_z_represents hx.represents hz.represents).gf⟩

/-! ### Ends without an isogeny (R412, R578) -/

/-- Neither stash holds an isogeny (R340). -/
structure State.NoIsogeny (s : State) : Prop where
  iso4 : s.iso4.valid = false
  iso3 : s.iso3.valid = false

/-- Where the result is a next state without error, it holds no isogeny. -/
def Result.NoIsogenyUnlessError (r : Result) : Prop := ∀ t, r = .next t → t.errcode = 0 → t.NoIsogeny

variable {s : State} {r : Result}

/-- A composite command completes with both stashes cleared (R412). -/
theorem Result.NoIsogenyUnlessError.complete_clearStashes (s : State) :
    Result.NoIsogenyUnlessError (complete s.clearStashes) := by
  rintro _ ⟨⟩ _
  exact ⟨rfl, rfl⟩

theorem Result.NoIsogenyUnlessError.raise (e : CmdError) (s : State) : Result.NoIsogenyUnlessError (raise e s) := by
  rintro _ ⟨⟩ hcode
  exact absurd hcode (CmdError.code_ne_zero e)

/-- A check that fails is an error; where all hold, the effect decides. -/
theorem Result.NoIsogenyUnlessError.checked {cs : List (Bool × CmdError)} (h : Result.NoIsogenyUnlessError r) :
    Result.NoIsogenyUnlessError (checked s cs r) := by
  rcases checked_cases s cs r with ⟨_, heq⟩ | ⟨_, e, _, _, _, heq⟩
  · rw [heq]; exact h
  · rw [heq]; exact .raise e s

/-- A read of the RNG port fails with an error or goes on (R72). -/
theorem Result.NoIsogenyUnlessError.withRng {n : Nat} {effect : List Byte → State → Result}
    (h : ∀ bs t, Result.NoIsogenyUnlessError (effect bs t)) : Result.NoIsogenyUnlessError (withRng n s effect) := by
  rcases withRng_cases n s effect with ⟨bs, left, _, _, heq⟩ | ⟨left, _, heq⟩
  · rw [heq]; exact h bs _
  · rw [heq]; exact .raise _ _

/-- Every composite command clears both stashes as the last of its updates. -/
theorem exec_composite_noIsogenyUnlessError {i : Instr} {rd rs1 rs2 rs3 : Field}
    (hi : i ∈ [.genPublic rd rs1, .deriveSecret rs1 rs2 rs3, .encrypt rs1 rs2, .decrypt rs1 rs2,
      .encapsulate rs1 rs2, .decapsulate rs1 rs2 rs3]) (s : State) :
    Result.NoIsogenyUnlessError (exec i s) := by
  cases i with
  | genPublic | deriveSecret | decrypt | decapsulate => exact .checked (.complete_clearStashes _)
  | encrypt | encapsulate => exact .checked (.withRng fun _ _ => .complete_clearStashes _)
  | _ => simp at hi

/-- Settles O59, by the clauses of O44 for a stash that is not valid. -/
theorem compositeCommandsLeaveNoIsogeny : Obligations.CompositeCommandsLeaveNoIsogeny := by
  unfold Obligations.CompositeCommandsLeaveNoIsogeny
  intro s t i rd rs1 rs2 rs3 a b hi hexec hcode hwf
  obtain ⟨empty4, empty3⟩ := exec_composite_noIsogenyUnlessError hi s t hexec hcode
  obtain ⟨_, raises4, _, raises3⟩ := isogenyEvalNeedsTheStash t a b hwf
  exact ⟨raises4 empty4, raises3 empty3⟩

end Sys2Proof.Machine
end

section
/-! PROOF of O49. In the abstract run of R371 a strategy tree with `h` leaves is read in `h` rounds: its node pushes the
current index, the left subtree pops it again, and the right subtree pops what was on the stack before. The tree of the
whole strategy starts on an empty stack, so its last leaf has nothing to pop and needs no round. -/

namespace Sys2Proof.Machine

/-- A push inside a round of the abstract run. -/
theorem indexRun_push {rounds i k : Nat} (hi : i ≤ rounds) (hk : 1 ≤ k) (rest st : List Nat) (deepest : Nat) :
    indexRun (rounds + 1) (k :: rest) st i deepest = indexRun (rounds + 1) rest (i :: st) (i + k) deepest := by
  have hpush : pushRun rounds (k :: rest) st i = pushRun rounds rest (i :: st) (i + k) := by
    rw [pushRun, if_pos hi, if_neg (by omega)]
  rw [indexRun, indexRun, hpush]

/-- A round that pushes nothing pops the top of the stack. -/
theorem indexRun_pop (rounds : Nat) (rest : List Nat) (top : Nat) (below : List Nat) (deepest : Nat) :
    indexRun (rounds + 1) rest (top :: below) (rounds + 1) deepest =
      indexRun rounds rest below top (max deepest (below.length + 1)) := by
  simp [indexRun, pushRun_of_lt]

/-- A tree on a stack that is not empty: one round for each leaf, and at the end the top is popped. -/
theorem indexRun_subtree {h : Nat} {tree : List Nat} (ht : StrategyTree h tree) (rounds : Nat) (rest : List Nat)
    (top : Nat) (below : List Nat) (deepest : Nat) :
    ∃ deepest', indexRun (rounds + h) (tree ++ rest) (top :: below) (rounds + 1) deepest =
      indexRun rounds rest below top deepest' := by
  induction ht generalizing rounds rest top below deepest with
  | leaf => exact ⟨_, indexRun_pop rounds rest top below deepest⟩
  | node h k left right hk hlt _ _ ihLeft ihRight =>
    obtain ⟨d₁, hleft⟩ := ihLeft (rounds + k) (right ++ rest) (rounds + 1) (top :: below) deepest
    obtain ⟨d₂, hright⟩ := ihRight rounds rest top below d₁
    refine ⟨d₂, ?_⟩
    obtain ⟨m, rfl⟩ : ∃ m, h = m + 1 := ⟨h - 1, by omega⟩
    calc indexRun (rounds + m + 1) (k :: (left ++ right) ++ rest) (top :: below) (rounds + 1) deepest
      _ = indexRun (rounds + m + 1) (left ++ (right ++ rest)) ((rounds + 1) :: top :: below) (rounds + 1 + k) deepest := by
        rw [List.cons_append, List.append_assoc, indexRun_push (by omega) hk]
      _ = indexRun (rounds + k + (m + 1 - k)) (left ++ (right ++ rest)) ((rounds + 1) :: top :: below)
            (rounds + k + 1) deepest := by
        congr 1 <;> omega
      _ = indexRun (rounds + k) (right ++ rest) (top :: below) (rounds + 1) d₁ := hleft
      _ = indexRun rounds rest below top d₂ := hright

/-- The whole tree, on the empty stack: it is read in one round less than it has leaves. -/
theorem indexRun_tree {n : Nat} {tree : List Nat} (ht : StrategyTree n tree) (deepest : Nat) :
    ∃ deepest', indexRun (n - 1) tree [] 0 deepest = some ([], deepest') := by
  induction ht generalizing deepest with
  | leaf => exact ⟨deepest, rfl⟩
  | node n k left right hk hlt hl _ _ ihRight =>
    obtain ⟨d₁, hleft⟩ := indexRun_subtree hl (k - 1) right 0 [] deepest
    obtain ⟨d₂, hright⟩ := ihRight d₁
    refine ⟨d₂, ?_⟩
    obtain ⟨m, rfl⟩ : ∃ m, n = m + 2 := ⟨n - 2, by omega⟩
    calc indexRun (m + 1) (k :: (left ++ right)) [] 0 deepest
      _ = indexRun (m + 1) (left ++ right) [0] (0 + k) deepest := indexRun_push (Nat.zero_le m) hk _ _ _
      _ = indexRun (k - 1 + (m + 2 - k)) (left ++ right) [0] (k - 1 + 1) deepest := by
        congr 1 <;> omega
      _ = indexRun (k - 1) right [] 0 d₁ := hleft
      _ = some ([], d₂) := hright

/-- A tree has one entry for each node, that is one less than it has leaves. -/
theorem StrategyTree.length_add_one {n : Nat} {tree : List Nat} (ht : StrategyTree n tree) : tree.length + 1 = n := by
  induction ht with
  | leaf => rfl
  | node n k left right hk hlt _ _ ihLeft ihRight =>
    rw [List.length_cons, List.length_append]
    omega

theorem StrategyTree.wellFormedStrategy {n : Nat} {tree : List Nat} (ht : StrategyTree n tree) :
    wellFormedStrategy tree = true := by
  obtain ⟨deepest, hrun⟩ := indexRun_tree ht 0
  have hlength : n - 1 = tree.length := by rw [← ht.length_add_one, Nat.add_sub_cancel]
  rw [hlength] at hrun
  simp [Machine.wellFormedStrategy, hrun]

/-- A stack of one entry is all the naive strategy needs, and it needs none where it has no entry (R372). -/
theorem strategyDepth_naiveStrategy (n : Nat) : strategyDepth (naiveStrategy n) = min n 1 := by
  simp [strategyDepth, indexRun_naiveStrategy]

/-- Settles O49: the run of a tree by induction on the tree; the naive strategy's run is that of O48. -/
theorem strategyTreesAreWellFormed : Obligations.StrategyTreesAreWellFormed := by
  unfold Obligations.StrategyTreesAreWellFormed
  refine ⟨fun n tree ht => ⟨ht.wellFormedStrategy, ht.length_add_one⟩,
    fun n => ⟨wellFormedStrategy_naiveStrategy n, ?_⟩⟩
  rw [strategyDepth_naiveStrategy]
  exact Nat.min_le_right n 1

end Sys2Proof.Machine
end

section
/-! PROOF of O46 and O47. A traversal command writes registers that do not overlap (R155) and then the stash, which is no
register. The frame is that of O9, a configured strategy always generates an isogeny, and what the shared-key traversal
leaves does not depend on the basis (R377). -/

namespace Sys2Proof.Machine

/-- A configured strategy is not empty (R8). -/
theorem strategy_ne_nil (sd : Side) : strategy sd ≠ [] := by
  have hlength := (strategy_wellFormed sd).1
  intro hnil
  rw [hnil] at hlength
  cases sd <;> contradiction

/-! ### Completions that end with a stash written -/

section
variable {s u : State} {i : Instr} {result : State → Prop}

/-- What a command completes with where its run is a completion: the frame is all it may write (R74). -/
theorem completesWith_mayWrite (h : exec i s = complete u) (hresult : result (u.finish 0)) :
    CompletesWith i s (mayWrite i s) result :=
  ⟨u.finish 0, h, completed_finish u 0, commandsWriteOnlyTheirDestinations i s _ h, hresult⟩

/-- A traversal on side A by the configured strategy ends with the 4-isogeny it generated last (R379). -/
theorem completesWith_traverse4 {c : Crv} {r : Pt} {b : List Pt}
    (h : exec i s = complete (u.stashLast4 (traverse family4 (strategy .a) c r b).coeffs))
    (hresult : ∀ t : State, t.readCrv = u.readCrv → t.readPt = u.readPt →
      (∃ k, (traverse family4 (strategy .a) c r b).coeffs = some k ∧ t.iso4 = ⟨k, true⟩) → result t) :
    CompletesWith i s (mayWrite i s) result := by
  obtain ⟨k, hk⟩ := coeffs_traverse family4 (strategy .a) (strategy_ne_nil .a) c r b
  rw [hk] at h
  exact completesWith_mayWrite h (hresult _ rfl rfl ⟨k, hk, rfl⟩)

/-- A traversal on side B by the configured strategy ends with the 3-isogeny it generated last (R379). -/
theorem completesWith_traverse3 {c : Crv} {r : Pt} {b : List Pt}
    (h : exec i s = complete (u.stashLast3 (traverse family3 (strategy .b) c r b).coeffs))
    (hresult : ∀ t : State, t.readCrv = u.readCrv → t.readPt = u.readPt →
      (∃ k, (traverse family3 (strategy .b) c r b).coeffs = some k ∧ t.iso3 = ⟨k, true⟩) → result t) :
    CompletesWith i s (mayWrite i s) result := by
  obtain ⟨k, hk⟩ := coeffs_traverse family3 (strategy .b) (strategy_ne_nil .b) c r b
  rw [hk] at h
  exact completesWith_mayWrite h (hresult _ rfl rfl ⟨k, hk, rfl⟩)

end

/-! ### The registers written -/

section
variable (s : State)

/-- A point outside the ones written keeps its value. -/
theorem State.readPt_writePts_ne {j k : Nat} {ps : List Pt} (h : j < k ∨ k + ps.length ≤ j) :
    (s.writePts k ps).readPt j = s.readPt j := by
  induction ps generalizing s k with
  | nil => rfl
  | cons p ps ih =>
    rw [List.length_cons] at h
    exact (ih (s.writePt k p) (by omega)).trans (s.readPt_writePt_ne (by omega) p)

/-- The three points of a `pt3` operand read back as written (R153). -/
theorem State.readPts3_writePts {k : Nat} {ps : List Pt} (hk : k < 14) (hlength : ps.length = 3) :
    (s.writePts k ps).readPts3 k = ps := by
  obtain ⟨p, q, r, rfl⟩ := List.length_eq_three.mp hlength
  have h0 : k < 16 := by omega
  have h1 : k + 1 < 16 := by omega
  have h2 : k + 2 < 16 := by omega
  simp [State.readPts3, State.writePts_three, h0, h1, h2]

/-- A curve and a point written to different registers read back as written. -/
theorem State.read_writeCrv_writePt {a b : Nat} (ha : a < 16) (hb : b < 16) (hab : a ≠ b) (c : Crv) (p : Pt) :
    ((s.writeCrv a c).writePt b p).readCrv a = c ∧ ((s.writeCrv a c).writePt b p).readPt b = p :=
  ⟨by rw [State.readCrv_writePt_ne _ hab, State.readCrv_writeCrv_self _ ha], State.readPt_writePt_self _ hb p⟩

/-- What a public-key traversal leaves reads back as written: no two of the operands overlap (R155). -/
theorem State.read_travPk_writes {κ : Type} {rs1 rs2 rs3 : Field} (hwf : (Instr.travPkA rs1 rs2 rs3).wellFormed = true)
    (f : Frame κ) (hlength : f.basis.length = 3) :
    let u := ((s.writeCrv rs1.toNat f.crv).writePt rs2.toNat f.r).writePts rs3.toNat f.basis
    u.readCrv rs1.toNat = f.crv ∧ u.readPt rs2.toNat = f.r ∧ u.readPts3 rs3.toNat = f.basis := by
  intro u
  rw [wellFormed_travPkA] at hwf
  simp only [okPt, okPt3, okOutside3, Bool.and_eq_true, decide_eq_true_eq, bne_iff_ne, ne_eq, field_eq_iff] at hwf
  obtain ⟨⟨⟨⟨⟨h1, h2⟩, h3⟩, h12⟩, h13⟩, h23⟩ := hwf
  obtain ⟨hcrv, hpt⟩ := s.read_writeCrv_writePt h1 h2 h12 f.crv f.r
  refine ⟨?_, ?_, State.readPts3_writePts _ h3 hlength⟩
  · rw [State.readCrv_eq_readPt, State.readPt_writePts_ne _ (by omega)]
    exact hcrv
  · rw [State.readPt_writePts_ne _ (by omega)]
    exact hpt

/-- What a shared-key traversal leaves reads back as written (R155). -/
theorem State.read_travSs_writes {κ : Type} {rs1 rs2 : Field} (hwf : (Instr.travSsA rs1 rs2).wellFormed = true)
    (f : Frame κ) :
    let u := (s.writeCrv rs1.toNat f.crv).writePt rs2.toNat f.r
    u.readCrv rs1.toNat = f.crv ∧ u.readPt rs2.toNat = f.r := by
  rw [wellFormed_travSsA] at hwf
  simp only [okPt, Bool.and_eq_true, decide_eq_true_eq, bne_iff_ne, ne_eq, field_eq_iff] at hwf
  obtain ⟨⟨h1, h2⟩, h12⟩ := hwf
  exact s.read_writeCrv_writePt h1 h2 h12 f.crv f.r

end

/-- Settles O46: the registers written read back, and the stash holds the isogeny generated last. -/
theorem publicKeyTraversals : Obligations.PublicKeyTraversals := by
  unfold Obligations.PublicKeyTraversals
  intro s rs1 rs2 rs3 hwf c r b regs
  have hok := (wellFormed_travPkA rs1 rs2 rs3).symm.trans hwf
  refine ⟨completesWith_traverse4 (if_pos hok) fun t crv pt stash => ?_,
    completesWith_traverse3 (if_pos hok) fun t crv pt stash => ?_⟩
  · obtain ⟨hcrv, hpt, hbasis⟩ := s.read_travPk_writes hwf (traverse family4 (strategy .a) c r b)
      (length_basis_traverse _ _ _ _ b)
    rw [crv, pt]
    exact ⟨hcrv, hpt, hbasis, stash⟩
  · obtain ⟨hcrv, hpt, hbasis⟩ := s.read_travPk_writes hwf (traverse family3 (strategy .b) c r b)
      (length_basis_traverse _ _ _ _ b)
    rw [crv, pt]
    exact ⟨hcrv, hpt, hbasis, stash⟩

/-- Settles O47: the traversal with no basis and the one with `b` leave states that differ in the basis alone. -/
theorem sharedKeyTraversals : Obligations.SharedKeyTraversals := by
  unfold Obligations.SharedKeyTraversals
  intro s rs1 rs2 hwf c r regs
  have hok := (wellFormed_travSsA rs1 rs2).symm.trans hwf
  refine ⟨completesWith_traverse4 (if_pos hok) fun t crv pt stash b => ?_,
    completesWith_traverse3 (if_pos hok) fun t crv pt stash b => ?_⟩
  · obtain ⟨hcrv, hpt⟩ := s.read_travSs_writes hwf (traverse family4 (strategy .a) c r [])
    have same := traverse_sameButBasis family4 (strategy .a) c r [] b
    dsimp only
    rw [crv, pt, ← same.crv, ← same.r, ← same.coeffs]
    exact ⟨hcrv, hpt, stash⟩
  · obtain ⟨hcrv, hpt⟩ := s.read_travSs_writes hwf (traverse family3 (strategy .b) c r [])
    have same := traverse_sameButBasis family3 (strategy .b) c r [] b
    dsimp only
    rw [crv, pt, ← same.crv, ← same.r, ← same.coeffs]
    exact ⟨hcrv, hpt, stash⟩

end Sys2Proof.Machine
end

section
/-! SUPPORT. What the proofs of O50 to O57 share: a command's run past its checks, the operand classes of slots and `G`
registers, the masked scalar (R407), and the bytes that `BUF` and the wire formats hold (R490 to R493). -/

namespace Sys2Proof.Machine

/-! ### A run past its checks -/

section
variable {s t u : State} {ok : Bool} {e : CmdError} {rest : List (Bool × CmdError)} {r : Result}

theorem checked_true (h : ok = true) : checked s ((ok, e) :: rest) r = checked s rest r := if_pos h

theorem checked_false (h : ok = false) : checked s ((ok, e) :: rest) r = raise e s := by
  rw [checked_cons, h]; rfl

/-- A checked completion that ended without error passed every check. -/
theorem checked_complete_inv {cs : List (Bool × CmdError)} (h : checked s cs (complete u) = .next t)
    (hcode : t.errcode = 0) : (∀ c ∈ cs, c.1 = true) ∧ t = u.finish 0 := by
  rcases checked_inv h with ⟨hall, hend⟩ | ⟨e, _, rfl, _⟩
  · exact ⟨hall, complete_inv hend⟩
  · exact absurd hcode e.code_ne_zero

end

/-! ### The RNG port (R72) -/

/-- Bytes that the port delivers come first in a longer read. -/
theorem rngRead_length_add (a : List Byte) (m : Nat) (left : List RngItem) :
    rngRead (a.length + m) (a.map some ++ left) = ((rngRead m left).1.map (a ++ ·), (rngRead m left).2) := by
  induction a with
  | nil => simp
  | cons b a ih =>
    rw [List.length_cons, Nat.succ_add, List.map_cons, List.cons_append, rngRead, ih]
    cases (rngRead m left).1 <;> rfl

/-- A read that fails fails in a longer read, with the same items taken. -/
theorem rngRead_add_of_none {n : Nat} {items left : List RngItem} (h : rngRead n items = (none, left)) (m : Nat) :
    rngRead (n + m) items = (none, left) := by
  induction n generalizing items with
  | zero => cases h
  | succ n ih =>
    rw [Nat.succ_add]
    match items with
    | [] => exact h
    | none :: items => exact h
    | some b :: items =>
      cases hr : rngRead n items with
      | mk res left' =>
        rw [rngRead, hr] at h
        cases res with
        | none =>
          cases h
          rw [rngRead, ih hr]
        | some bs => cases h

/-- Two reads one after the other are one read of both (R72). -/
theorem withRng_withRng (n m : Nat) (s : State) (effect : List Byte → List Byte → State → Result) :
    withRng n s (fun a t => withRng m t (effect a)) =
      withRng (n + m) s fun bs t => effect (bs.take n) (bs.drop n) t := by
  cases hr : rngRead n s.rng with
  | mk res left =>
    cases res with
    | none => rw [withRng, withRng, hr, rngRead_add_of_none hr]
    | some a =>
      obtain ⟨hrng, rfl⟩ := rngRead_eq_some.mp hr
      rw [withRng_some hrng rfl, withRng, withRng, hrng, rngRead_length_add]
      cases hm : rngRead m left with
      | mk res' left' => cases res' <;> simp

/-! ### Operand classes and keys -/

theorem lt_of_admits_sk {f : Field} (h : OperandClass.sk.admits f = true) : f.toNat < 4 :=
  of_decide_eq_true ((admits_sk f).symm.trans h)

theorem lt_of_admits_pk {f : Field} (h : OperandClass.pk.admits f = true) : f.toNat < 4 :=
  of_decide_eq_true ((admits_pk f).symm.trans h)

/-- The registers of a `gN` field are among the 16 (R153). -/
theorem lt_of_admits_gs {n i : Nat} {f : Field} (h : (OperandClass.gs n).admits f = true) (hi : i < n) :
    f.toNat + i < 16 := by
  simp only [OperandClass.admits, decide_eq_true_eq] at h
  omega

/-- The `BUF` ranges of a legal command are inside `BUF` (R156). -/
theorem range_of_legal {i : Instr} {s : State} (hl : legal i s = true) {r : Nat × Nat} (hmem : r ∈ bufRanges i s) :
    r.1 + r.2 ≤ 2048 := by
  simp only [legal, Bool.and_eq_true, List.all_eq_true, decide_eq_true_eq] at hl
  obtain ⟨⟨_, hranges⟩, _⟩ := hl
  exact hranges r hmem

/-- A `var` field that names a variant is legal (R68). -/
theorem okVar_of_variantOf {f : Field} (h : variantOf f ≠ .none) : okVar f = true := by
  unfold variantOf at h
  unfold okVar
  split at h
  case h_4 => contradiction
  all_goals simp [*]

theorem isPresent_none {v : Variant} (h : v = .none) : isPresent v = false := by rw [h]; rfl

/-- The wire size of a key (R493). -/
theorem skSize_of_ne_none {v : Variant} (h : v ≠ .none) : skSize v = if v = .sike then 56 else 32 := by
  cases v with
  | none => contradiction
  | sidhA | sidhB | sike => rfl

/-- The wire size of a variant that a legal `var` field names (R68, R493). -/
theorem skSize_variantOf {i : Instr} {s : State} {f : Field} (hl : legal i s = true)
    (hmem : (OperandClass.var, f) ∈ i.operands) : skSize (variantOf f) = if variantOf f = .sike then 56 else 32 :=
  skSize_of_ne_none (variantOf_ne_none ((admits_var f).symm.trans (admits_of_legal hl hmem)))

/-- The wire bytes of a secret key (R493). -/
theorem skWire_of_ne_none {k : SkSlot} (h : k.variant ≠ .none) :
    skWire k = if k.variant = .sike then k.s.toList ++ k.scalar.toList else k.scalar.toList := by
  obtain ⟨v, scalar, s⟩ := k
  cases v with
  | none => contradiction
  | sidhA | sidhB | sike => rfl

/-- Two keys are on one side where both or neither are side-A keys (R68, R400). -/
theorem side_eq_iff (v w : Variant) : side v = side w ↔ (v = .sidhA ↔ w = .sidhA) := by
  cases v <;> cases w <;> simp [side]

/-! ### The masked scalar (R407) -/

/-- The bits of the last byte that the mask keeps. -/
def keptBits : Side → Byte
  | .a => 0x03
  | .b => 0x0F

/-- The bit of the last byte that the mask sets. -/
def forcedBit : Side → Byte
  | .a => 0x02
  | .b => 0x08

theorem keptBits_side (v : Variant) : keptBits (side v) = if v = .sidhA then 0x03 else 0x0F := by
  cases v <;> rfl

theorem forcedBit_side (v : Variant) : forcedBit (side v) = if v = .sidhA then 0x02 else 0x08 := by
  cases v <;> rfl

theorem secretBitLen_side (v : Variant) : secretBitLen (side v) = if v = .sidhA then 250 else 252 := by
  cases v <;> rfl

theorem mask_eq_set (sc : Vector Byte 32) (sd : Side) :
    mask sc sd = sc.set 31 ((sc[31] &&& keptBits sd) ||| forcedBit sd) := by
  cases sd <;> rfl

/-- Packing reads no byte past the vector's length. -/
theorem pack_take (n : Nat) (bs : List Byte) : pack n (bs.take n) = pack n bs := by
  apply Vector.ext
  intro i hi
  simp [pack]

/-- Masking changes the last byte alone. -/
theorem toList_mask_pack {bs : List Byte} (h : 32 ≤ bs.length) (sd : Side) :
    (mask (pack 32 bs) sd).toList = bs.take 31 ++ [(bs.getD 31 0 &&& keptBits sd) ||| forcedBit sd] := by
  have hlen : (bs.take 32).length = 32 := List.length_take_of_le h
  have hbyte : (pack 32 bs)[31] = bs.getD 31 0 := by simp [pack]
  rw [mask_eq_set, hbyte, Vector.toList_set, ← pack_take, toList_pack hlen, List.set_eq_take_append_cons_drop,
    if_pos (by omega), List.drop_of_length_le (by omega), List.take_take]
  rfl

/-- The masked last byte holds the scalar's high bit and none above it. -/
theorem maskedByte_bounds (b : Byte) (sd : Side) :
    2 ^ (secretBitLen sd - 249) ≤ ((b &&& keptBits sd) ||| forcedBit sd).toNat ∧
      ((b &&& keptBits sd) ||| forcedBit sd).toNat < 2 ^ (secretBitLen sd - 248) := by
  revert b
  cases sd <;> decide

/-- A masked scalar is in `[2^(SecretBitLen-1), 2^SecretBitLen)`. -/
theorem intLE_mask_pack {bs : List Byte} (h : 32 ≤ bs.length) (sd : Side) :
    2 ^ (secretBitLen sd - 1) ≤ intLE (mask (pack 32 bs) sd).toList ∧
      intLE (mask (pack 32 bs) sd).toList < 2 ^ secretBitLen sd := by
  have hlen : (bs.take 31).length = 31 := List.length_take_of_le (by omega)
  have hlow := intLE_lt (bs.take 31)
  have hlast := maskedByte_bounds (bs.getD 31 0) sd
  rw [toList_mask_pack h, intLE_append, intLE, intLE, hlen]
  rw [hlen] at hlow
  cases sd with
  | a | b =>
    norm_num [secretBitLen] at hlast hlow ⊢
    omega

/-- The ephemeral scalar is masked for side A (R455, R457, R458). -/
theorem ephemeralScalar_eq {bs : List Byte} (h : bs.length = 32) :
    ephemeralScalar bs = bs.take 31 ++ [(bs.getD 31 0 &&& 0x03) ||| 0x02] := toList_mask_pack h.ge .a

/-! ### The bytes of `BUF` -/

/-- Bytes written inside `BUF` are read back (R13). -/
theorem State.bufRead_bufWrite_self {s : State} (hm : Memory.wf s.buf = true) {off n : Nat} {bs : List Byte}
    (hlen : bs.length = n) (hr : off + n ≤ 2048) : (s.bufWrite off bs).bufRead off n = bs := by
  subst hlen
  exact Memory.readBytes_writeBytes hm hr

/-- Bytes written outside a range leave what is read from it. -/
theorem State.bufRead_bufWrite_disjoint (s : State) {off off' n : Nat} {bs : List Byte}
    (h : off' + n ≤ off ∨ off + bs.length ≤ off') : (s.bufWrite off bs).bufRead off' n = s.bufRead off' n :=
  Memory.readBytes_writeBytes_disjoint h

/-- Bytes written at the offset in `G[o]`, and their number to `G[o+1]` (R404, R406, R455, R456). -/
def State.writeOut (s : State) (o : Nat) (bs : List Byte) : State :=
  (s.bufWrite (s.readG o).toNat bs).writeG (o + 1) (BitVec.ofNat 64 bs.length)

section
variable {s : State} {o n : Nat} {bs : List Byte}

theorem State.readG_writeOut_self (s : State) (o : Nat) (bs : List Byte) : (s.writeOut o bs).readG o = s.readG o :=
  State.readG_writeG_ne _ (by omega) _

theorem State.toNat_readG_writeOut_succ (ho : o + 1 < 16) (hlen : bs.length = n) (hr : (s.readG o).toNat + n ≤ 2048) :
    ((s.writeOut o bs).readG (o + 1)).toNat = n := by
  rw [State.writeOut, State.readG_writeG_self _ ho, BitVec.toNat_ofNat, hlen, Nat.mod_eq_of_lt (by omega)]

theorem State.bufRead_writeOut (hm : Memory.wf s.buf = true) (hlen : bs.length = n)
    (hr : (s.readG o).toNat + n ≤ 2048) : (s.writeOut o bs).bufRead (s.readG o).toNat n = bs :=
  State.bufRead_bufWrite_self hm hlen hr

end

/-- A part of the bytes read from `BUF`. -/
theorem slice_bufRead (s : State) {off n i j : Nat} (hij : i ≤ j) (h : j ≤ n) :
    slice (s.bufRead off n) i j = s.bufRead (off + i) (j - i) := slice_readBytes s.buf off n i j h hij

@[simp] theorem State.length_bufRead (s : State) (off n : Nat) : (s.bufRead off n).length = n :=
  Memory.length_readBytes s.buf off n

/-- One byte of `BUF` where the bytes read are known. -/
theorem State.read_of_bufRead {s : State} {off n x : Nat} {bs : List Byte} (h : s.bufRead off n = bs)
    (hx : x < bs.length) : Memory.read s.buf (off + x) = bs[x] := by
  subst h
  simp [State.bufRead, Memory.readBytes]

/-! ### Wire formats -/

/-- The components of two 63-byte numbers in `BUF` (R491). -/
theorem residueFromWire_bufRead (s : State) (off : Nat) :
    residueFromWire (s.bufRead off 126) =
      ⟨intLE (s.bufRead off 63) % prime, intLE (s.bufRead (off + 63) 63) % prime⟩ := by
  rw [residueFromWire, slice_bufRead s (by decide) (by decide), slice_bufRead s (by decide) (by decide)]
  rfl

/-- The components of a public key read from `BUF` (R405, R491). -/
theorem pkFromWire_bufRead (s : State) (v : Variant) (off : Nat) :
    pkFromWire v (s.bufRead off 378) =
      ⟨v, residueFromWire (s.bufRead off 126), residueFromWire (s.bufRead (off + 126) 126),
        residueFromWire (s.bufRead (off + 252) 126)⟩ := by
  rw [pkFromWire, slice_bufRead s (by decide) (by decide), slice_bufRead s (by decide) (by decide),
    slice_bufRead s (by decide) (by decide)]
  rfl

/-- Two byte strings are the two parts of the one that they make. -/
theorem slice_append_parts {a b : List Byte} {m n : Nat} (ha : a.length = m) (hb : b.length = n) :
    slice (a ++ b) 0 m = a ∧ slice (a ++ b) m (m + n) = b := by
  subst ha
  exact ⟨(slice_append_left a b _ _ le_rfl).trans (slice_all a _ rfl), slice_append_right a b n hb⟩

theorem prime_lt_wire : prime < 256 ^ 63 := by decide

/-- A reduced pair is read back from its wire bytes (R490, R491). -/
theorem residueFromWire_residueWire {r : Residue2} (h : r.reduced) : residueFromWire (residueWire r) = r := by
  obtain ⟨hre, him⟩ := h
  obtain ⟨hfst, hsnd⟩ := slice_append_parts (length_bytesLE r.re 63) (length_bytesLE r.im 63)
  rw [residueFromWire, residueWire, bytelen, hfst, hsnd, intLE_bytesLE, intLE_bytesLE, Nat.mod_eq_of_lt (hre.trans prime_lt_wire),
    Nat.mod_eq_of_lt (him.trans prime_lt_wire), Nat.mod_eq_of_lt hre, Nat.mod_eq_of_lt him]

/-- A public key is read back from its wire bytes (R492, R498). -/
theorem pkFromWire_pkWire {k : PkSlot} (h : k.sound) : pkFromWire k.variant (pkWire k) = k := by
  obtain ⟨_, hP, hQ, hQmP⟩ := h
  have hparts : slice (pkWire k) 0 126 = residueWire k.xP ∧ slice (pkWire k) 126 252 = residueWire k.xQ ∧
      slice (pkWire k) 252 378 = residueWire k.xQmP := by
    simp [pkWire, slice, List.drop_append, List.take_of_length_le]
  obtain ⟨h1, h2, h3⟩ := hparts
  rw [pkFromWire, h1, h2, h3, residueFromWire_residueWire hP, residueFromWire_residueWire hQ,
    residueFromWire_residueWire hQmP]

/-- A secret key is read back from its wire bytes (R493, R498). -/
theorem skFromWire_skWire {k : SkSlot} (h : k.sound) (hv : k.variant ≠ .none) :
    skFromWire k.variant (skWire k) = k := by
  obtain ⟨_, hs⟩ := h
  obtain ⟨v, scalar, s⟩ := k
  have hscalar : scalar.toList.length = 32 := scalar.length_toList
  have hslen : s.toList.length = 24 := s.length_toList
  cases v with
  | none => contradiction
  | sidhA | sidhB =>
    have hs0 : s = Vector.replicate 24 0 := hs nofun
    simp only [skWire, skFromWire, slice_all _ _ hscalar, pack_toList, hs0]
  | sike =>
    obtain ⟨hfst, hsnd⟩ := slice_append_parts hslen hscalar
    simp only [skWire, skFromWire, hfst, hsnd, pack_toList]

/-- Lists of one length, joined: entry `j` of the list of entry `i`. -/
theorem getElem?_flatMap_of_length {α β : Type} {f : α → List β} {n : Nat} (hf : ∀ a, (f a).length = n) (l : List α)
    (i : Nat) {j : Nat} (hj : j < n) : (l.flatMap f)[n * i + j]? = l[i]?.bind fun a => (f a)[j]? := by
  induction l generalizing i with
  | nil => rfl
  | cons a l ih =>
    rw [List.flatMap_cons, List.getElem?_append]
    cases i with
    | zero => simp [hf, hj]
    | succ i =>
      rw [if_neg (by rw [hf]; nlinarith), hf, show n * (i + 1) + j - n = n * i + j by rw [Nat.mul_succ]; omega, ih]
      rfl

/-- The six numbers of a public key in wire order (R492). -/
def PkSlot.numbers (k : PkSlot) : List Nat := [k.xP.re, k.xP.im, k.xQ.re, k.xQ.im, k.xQmP.re, k.xQmP.im]

theorem pkWire_eq_flatMap (k : PkSlot) : pkWire k = k.numbers.flatMap (bytesLE · bytelen) := by
  simp [pkWire, residueWire, PkSlot.numbers]

/-- Byte `j` of number `i` in the wire bytes of a public key. -/
theorem getElem_pkWire (k : PkSlot) {i j : Nat} (hi : i < 6) (hj : j < 63) (h : 63 * i + j < (pkWire k).length) :
    ((pkWire k)[63 * i + j]).toNat = k.numbers.getD i 0 / 2 ^ (8 * j) % 2 ^ 8 := by
  have hlen : k.numbers.length = 6 := rfl
  have hentry : (pkWire k)[63 * i + j]? = (bytesLE (k.numbers.getD i 0) bytelen)[j]? := by
    rw [pkWire_eq_flatMap, getElem?_flatMap_of_length (n := 63) (fun v => length_bytesLE v bytelen) _ _ hj]
    simp [hlen, hi]
  have hj' : j < (bytesLE (k.numbers.getD i 0) bytelen).length := by simpa [bytelen] using hj
  rw [List.getElem?_eq_getElem h, List.getElem?_eq_getElem hj', Option.some_inj] at hentry
  rw [hentry, getElem_bytesLE]

end Sys2Proof.Machine
end

section
/-! PROOF of O50 to O55. A legal key command passes its first check; the others decide by the key and the length. What it
writes reads back, and a key written out is its wire bytes, from which the import makes the key again (R498). -/

namespace Sys2Proof.Machine

/-! ### Key generation (R402, R407) -/

/-- The key that `SK_GENERATE` makes of the bytes drawn: the scalar's first, then those of `s` for a SIKE key. -/
def drawnKey (v : Variant) (bs : List Byte) : SkSlot :=
  ⟨v, mask (pack 32 bs) (side v), if v = .sike then pack 24 (bs.drop 32) else Vector.replicate 24 0⟩

/-- The two reads of a SIKE key are one read of 56 bytes, and any other key takes 32. -/
theorem exec_skGenerate (rd rs1 : Field) (s : State) :
    exec (.skGenerate rd rs1) s = checked s [(legal (.skGenerate rd rs1) s, .illegalOperand)]
      (withRng (if variantOf rs1 = .sike then 56 else 32) s fun bs t =>
        complete (t.writeSk rd.toNat (drawnKey (variantOf rs1) bs))) := by
  rw [legal_skGenerate]
  refine congrArg (checked s [(okSlot rd && okVar rs1, .illegalOperand)]) ?_
  by_cases hv : variantOf rs1 = .sike
  · simp only [hv, if_true, drawnKey, secretByteLen]
    rw [withRng_withRng]
    simp only [pack_take, msgLen]
  · simp only [if_neg hv, drawnKey, secretByteLen]

theorem toList_drawnKey_s {v : Variant} {bs : List Byte} (h : bs.length = if v = .sike then 56 else 32) :
    (drawnKey v bs).s.toList = if v = .sike then bs.drop 32 else List.replicate 24 0 := by
  by_cases hv : v = .sike
  · rw [if_pos hv] at h
    simp only [drawnKey, if_pos hv]
    exact toList_pack (by rw [List.length_drop, h])
  · simp only [drawnKey, if_neg hv, Vector.toList_replicate]

/-- Settles O50: the read delivers a key whose scalar is masked, or fails before any slot is written. -/
theorem skGenerateMasksTheScalar : Obligations.SkGenerateMasksTheScalar := by
  unfold Obligations.SkGenerateMasksTheScalar
  intro s rd rs1 hwf
  have hl : legal (.skGenerate rd rs1) s = true := legal_of_wellFormed hwf s rfl rfl
  have hrd : rd.toNat < 4 := lt_of_admits_sk (admits_of_legal hl List.mem_cons_self)
  dsimp only
  rw [← keptBits_side, ← forcedBit_side, ← secretBitLen_side]
  refine ⟨fun bs left hrng hlen => ?_, fun hshort => ?_⟩
  · have h32 : 32 ≤ bs.length := by rw [hlen]; split <;> decide
    obtain ⟨hlow, hhigh⟩ := intLE_mask_pack h32 (side (variantOf rs1))
    have hexec := (exec_skGenerate rd rs1 s).trans ((checked_true hl).trans (withRng_some hrng hlen))
    refine completesWith_mayWrite hexec ?_
    rw [State.finish_readSk, State.readSk_writeSk_self _ hrd]
    exact ⟨rfl, toList_mask_pack h32 _, toList_drawnKey_s hlen, hlow, hhigh, rfl⟩
  · have hexec := (exec_skGenerate rd rs1 s).trans ((checked_true hl).trans (withRng_none hshort))
    exact .of_raise hexec (rngRead_suffix _ _)

/-! ### Import (R403, R405) -/

theorem exec_skImport (rd rs1 rs2 : Field) (s : State) :
    exec (.skImport rd rs1 rs2) s =
      checked s [(legal (.skImport rd rs1 rs2) s, .illegalOperand),
          ((s.readG (rs2.toNat + 1)).toNat == skSize (variantOf rs1), .invalidInputLength)]
        (complete (s.writeSk rd.toNat (skFromWire (variantOf rs1)
          (s.bufRead (s.readG rs2.toNat).toNat (s.readG (rs2.toNat + 1)).toNat)))) := by
  rw [legal_skImport]; rfl

theorem exec_pkImport (rd rs1 rs2 : Field) (s : State) :
    exec (.pkImport rd rs1 rs2) s =
      checked s [(legal (.pkImport rd rs1 rs2) s, .illegalOperand),
          ((s.readG (rs2.toNat + 1)).toNat == publicKeySize, .invalidInputLength)]
        (complete (s.writePk rd.toNat (pkFromWire (variantOf rs1)
          (s.bufRead (s.readG rs2.toNat).toNat publicKeySize)))) := by
  rw [legal_pkImport]; rfl

section
variable {s : State} {rd rs1 rs2 : Field}

/-- A secret key of the right length is stored. -/
theorem completesWith_skImport (hl : legal (.skImport rd rs1 rs2) s = true)
    (hlen : (s.readG (rs2.toNat + 1)).toNat = skSize (variantOf rs1)) {result : State → Prop}
    (hresult : ∀ t : State, t.readSk rd.toNat =
      skFromWire (variantOf rs1) (s.bufRead (s.readG rs2.toNat).toNat (skSize (variantOf rs1))) → result t) :
    CompletesWith (.skImport rd rs1 rs2) s { sk := [rd.toNat] } result := by
  have hrd : rd.toNat < 4 := lt_of_admits_sk (admits_of_legal hl List.mem_cons_self)
  refine completesWith_mayWrite ((exec_skImport rd rs1 rs2 s).trans
    ((checked_true hl).trans (checked_true (beq_iff_eq.mpr hlen)))) (hresult _ ?_)
  rw [State.finish_readSk, State.readSk_writeSk_self _ hrd, hlen]

/-- A public key of the right length is stored. -/
theorem completesWith_pkImport (hl : legal (.pkImport rd rs1 rs2) s = true)
    (hlen : (s.readG (rs2.toNat + 1)).toNat = publicKeySize) {result : State → Prop}
    (hresult : ∀ t : State, t.readPk rd.toNat =
      pkFromWire (variantOf rs1) (s.bufRead (s.readG rs2.toNat).toNat publicKeySize) → result t) :
    CompletesWith (.pkImport rd rs1 rs2) s { pk := [rd.toNat] } result := by
  have hrd : rd.toNat < 4 := lt_of_admits_pk (admits_of_legal hl List.mem_cons_self)
  refine completesWith_mayWrite ((exec_pkImport rd rs1 rs2 s).trans
    ((checked_true hl).trans (checked_true (beq_iff_eq.mpr hlen)))) (hresult _ ?_)
  rw [State.finish_readPk, State.readPk_writePk_self _ hrd]

end

/-- The parts of a secret key read from `BUF`, as given (R403, R493). -/
theorem skFromWire_bufRead_sike (s : State) (off : Nat) :
    (skFromWire .sike (s.bufRead off 56)).s.toList = s.bufRead off 24 ∧
      (skFromWire .sike (s.bufRead off 56)).scalar.toList = s.bufRead (off + 24) 32 := by
  simp only [skFromWire]
  rw [slice_bufRead s (by decide) (by decide), slice_bufRead s (by decide) (by decide)]
  exact ⟨toList_pack (State.length_bufRead s _ _), toList_pack (State.length_bufRead s _ _)⟩

theorem skFromWire_bufRead_sidh (s : State) {v : Variant} (hv : v ≠ .sike) (off : Nat) :
    (skFromWire v (s.bufRead off 32)).s.toList = List.replicate 24 0 ∧
      (skFromWire v (s.bufRead off 32)).scalar.toList = s.bufRead off 32 := by
  have hlen := State.length_bufRead s off 32
  cases v with
  | sike => contradiction
  | none | sidhA | sidhB =>
    simp only [skFromWire, slice_all _ _ hlen]
    exact ⟨rfl, toList_pack hlen⟩

theorem skFromWire_variant (v : Variant) (b : List Byte) : (skFromWire v b).variant = v := by
  cases v <;> rfl

/-- Settles O51: the right length passes the second check and any other fails it. -/
theorem keyImports : Obligations.KeyImports := by
  unfold Obligations.KeyImports
  intro s rd rs1 rs2
  dsimp only
  refine ⟨fun hl hn => ?_, fun hl hn => ?_, fun hl hn => ?_, fun hl hn => ?_⟩
  · have hsize := skSize_variantOf (f := rs1) hl (by simp [Instr.operands])
    refine completesWith_skImport hl (hn.trans hsize.symm) fun t ht => ?_
    rw [ht]
    refine ⟨skFromWire_variant _ _, ?_⟩
    by_cases hv : variantOf rs1 = .sike
    · rw [if_pos hv, hv]
      exact skFromWire_bufRead_sike s _
    · rw [if_neg hv, hsize, if_neg hv]
      exact skFromWire_bufRead_sidh s hv _
  · rw [← skSize_variantOf (f := rs1) hl (by simp [Instr.operands])] at hn
    exact .of_raise ((exec_skImport rd rs1 rs2 s).trans
      ((checked_true hl).trans (checked_false (beq_eq_false_iff_ne.mpr hn))))
  · refine completesWith_pkImport hl hn fun t ht => ?_
    rw [ht]
    exact (pkFromWire_bufRead s _ _).trans (by simp only [residueFromWire_bufRead]; rfl)
  · exact .of_raise ((exec_pkImport rd rs1 rs2 s).trans
      ((checked_true hl).trans (checked_false (beq_eq_false_iff_ne.mpr hn))))

/-! ### Export (R404, R406) -/

theorem exec_skExport (rs1 rs2 : Field) (s : State) :
    exec (.skExport rs1 rs2) s =
      checked s [(legal (.skExport rs1 rs2) s, .illegalOperand),
          (isPresent (s.readSk rs1.toNat).variant, .emptyKeySlot)]
        (complete (s.writeOut rs2.toNat (skWire (s.readSk rs1.toNat)))) := by
  rw [legal_skExport, State.writeOut, length_skWire]; rfl

theorem exec_pkExport (rs1 rs2 : Field) (s : State) :
    exec (.pkExport rs1 rs2) s =
      checked s [(legal (.pkExport rs1 rs2) s, .illegalOperand),
          (isPresent (s.readPk rs1.toNat).variant, .emptyKeySlot)]
        (complete (s.writeOut rs2.toNat (pkWire (s.readPk rs1.toNat)))) := by
  rw [legal_pkExport, State.writeOut, length_pkWire]; rfl

/-- The registers and the range that a legal `SK_EXPORT` names (R153, R156). -/
theorem skExport_bounds {rs1 rs2 : Field} {s : State} (hl : legal (.skExport rs1 rs2) s = true) :
    rs1.toNat < 4 ∧ rs2.toNat + 1 < 16 ∧
      (s.readG rs2.toNat).toNat + skSize (s.readSk rs1.toNat).variant ≤ 2048 :=
  ⟨lt_of_admits_sk (admits_of_legal hl List.mem_cons_self),
    lt_of_admits_gs (admits_of_legal hl (List.mem_cons_of_mem _ List.mem_cons_self)) Nat.one_lt_two,
    range_of_legal hl (List.mem_singleton_self _)⟩

/-- The registers and the range that a legal `PK_EXPORT` names (R153, R156). -/
theorem pkExport_bounds {rs1 rs2 : Field} {s : State} (hl : legal (.pkExport rs1 rs2) s = true) :
    rs1.toNat < 4 ∧ rs2.toNat + 1 < 16 ∧ (s.readG rs2.toNat).toNat + 378 ≤ 2048 :=
  ⟨lt_of_admits_pk (admits_of_legal hl List.mem_cons_self),
    lt_of_admits_gs (admits_of_legal hl (List.mem_cons_of_mem _ List.mem_cons_self)) Nat.one_lt_two,
    range_of_legal hl (List.mem_singleton_self _)⟩

/-- What `SK_EXPORT` and `PK_EXPORT` leave: the offset as it was, the number of bytes, and the bytes. -/
theorem State.reads_writeOut_finish {s : State} {o n : Nat} {bs : List Byte} (hm : Memory.wf s.buf = true)
    (ho : o + 1 < 16) (hlen : bs.length = n) (hr : (s.readG o).toNat + n ≤ 2048) :
    let t := (s.writeOut o bs).finish 0
    t.readG o = s.readG o ∧ (t.readG (o + 1)).toNat = n ∧ t.bufRead (s.readG o).toNat n = bs :=
  ⟨State.readG_writeOut_self s o bs, State.toNat_readG_writeOut_succ ho hlen hr, State.bufRead_writeOut hm hlen hr⟩

/-- Settles O52: the bytes written are those of the key, and byte `j` of number `i` of a public key is in its place. -/
theorem keyExports : Obligations.KeyExports := by
  unfold Obligations.KeyExports
  intro s rs1 rs2 hm
  dsimp only
  refine ⟨fun hl hv => ?_, fun hl hv => ?_, fun hl hv => ?_, fun hl hv => ?_⟩
  · obtain ⟨_, hg, hr⟩ := skExport_bounds hl
    have hexec := (exec_skExport rs1 rs2 s).trans ((checked_true hl).trans (checked_true ((isPresent_iff _).mpr hv)))
    obtain ⟨_, hnumber, hbytes⟩ := State.reads_writeOut_finish hm hg (length_skWire _) hr
    rw [← skSize_of_ne_none hv, ← skWire_of_ne_none hv]
    exact completesWith_mayWrite hexec ⟨hnumber, hbytes⟩
  · exact .of_raise ((exec_skExport rs1 rs2 s).trans ((checked_true hl).trans (checked_false (isPresent_none hv))))
  · obtain ⟨_, hg, hr⟩ := pkExport_bounds hl
    have hexec := (exec_pkExport rs1 rs2 s).trans ((checked_true hl).trans (checked_true ((isPresent_iff _).mpr hv)))
    obtain ⟨_, hnumber, hbytes⟩ := State.reads_writeOut_finish hm hg (length_pkWire (s.readPk rs1.toNat)) hr
    refine completesWith_mayWrite hexec ⟨hnumber, fun i j hi hj => ?_⟩
    have hlt : 63 * i + j < (pkWire (s.readPk rs1.toNat)).length := by rw [length_pkWire]; omega
    rw [Nat.add_assoc, State.read_of_bufRead hbytes hlt]
    exact getElem_pkWire _ hi hj hlt
  · exact .of_raise ((exec_pkExport rs1 rs2 s).trans ((checked_true hl).trans (checked_false (isPresent_none hv))))

/-! ### Export and then import (R498) -/

/-- The operand checks of `SK_IMPORT` and `PK_IMPORT` hold where `G` names the bytes just written (R153, R156). -/
theorem import_operands {t : State} {r v g : Field} {n : Nat} (hr : r.toNat < 4) (hv : variantOf v ≠ .none)
    (hg : g.toNat + 1 < 16) (hn : (t.readG (g.toNat + 1)).toNat = n) (hrange : (t.readG g.toNat).toNat + n ≤ 2048) :
    (okSlot r && okVar v && okG 2 g && okRange (t.readG g.toNat) (t.readG (g.toNat + 1)).toNat) = true := by
  simp only [Bool.and_eq_true, okSlot, okG, okRange, decide_eq_true_eq]
  exact ⟨⟨⟨hr, okVar_of_variantOf hv⟩, by omega⟩, hn ▸ hrange⟩

/-- Settles O53: what is read back is what was written, and a sound key is read from its wire bytes. -/
theorem exportThenImportRestoresTheKey : Obligations.ExportThenImportRestoresTheKey := by
  unfold Obligations.ExportThenImportRestoresTheKey
  intro s t k r v g hinv hr
  refine ⟨fun hexec hcode hv => ?_, fun hexec hcode hv => ?_⟩
  · obtain ⟨hall, rfl⟩ := checked_complete_inv ((exec_skExport k g s).symm.trans hexec) hcode
    simp only [List.forall_mem_cons, isPresent_iff] at hall
    obtain ⟨hl, hkey, _⟩ := hall
    obtain ⟨hk, hg, hrange⟩ := skExport_bounds hl
    obtain ⟨hoff, hnumber, hbytes⟩ := State.reads_writeOut_finish hinv.buf hg (length_skWire _) hrange
    have hlegal := (legal_skImport r v g _).trans (import_operands hr (hv ▸ hkey) hg hnumber (by rwa [hoff]))
    refine completesWith_skImport hlegal (hv ▸ hnumber) fun u hu => ?_
    rw [hu, hv, hoff, hbytes]
    exact skFromWire_skWire (hinv.sk _ hk) hkey
  · obtain ⟨hall, rfl⟩ := checked_complete_inv ((exec_pkExport k g s).symm.trans hexec) hcode
    simp only [List.forall_mem_cons, isPresent_iff] at hall
    obtain ⟨hl, hkey, _⟩ := hall
    obtain ⟨hk, hg, hrange⟩ := pkExport_bounds hl
    obtain ⟨hoff, hnumber, hbytes⟩ :=
      State.reads_writeOut_finish hinv.buf hg (length_pkWire (s.readPk k.toNat)) hrange
    have hlegal := (legal_pkImport r v g _).trans (import_operands hr (hv ▸ hkey) hg hnumber (by rwa [hoff]))
    refine completesWith_pkImport hlegal hnumber fun u hu => ?_
    rw [hu, hv, hoff, publicKeySize, hbytes]
    exact pkFromWire_pkWire (hinv.pk _ hk)

/-! ### Public keys and the shared secret (R410, R415) -/

theorem exec_genPublic (rd rs1 : Field) (s : State) :
    exec (.genPublic rd rs1) s =
      checked s [(legal (.genPublic rd rs1) s, .illegalOperand),
          (isPresent (s.readSk rs1.toNat).variant, .emptyKeySlot)]
        (complete (s.writePk rd.toNat
          (genPublic (s.readSk rs1.toNat).variant (s.readSk rs1.toNat).scalar.toList)).clearStashes) := by
  rw [legal_genPublic]; rfl

theorem exec_deriveSecret (rs1 rs2 rs3 : Field) (s : State) :
    exec (.deriveSecret rs1 rs2 rs3) s =
      checked s [(legal (.deriveSecret rs1 rs2 rs3) s, .illegalOperand),
          (isPresent (s.readSk rs1.toNat).variant && isPresent (s.readPk rs2.toNat).variant, .emptyKeySlot),
          (side (s.readSk rs1.toNat).variant != side (s.readPk rs2.toNat).variant, .incompatibleKeys)]
        (complete (s.bufWrite (s.readG rs3.toNat).toNat (deriveSecret (s.readSk rs1.toNat).variant
          (s.readSk rs1.toNat).scalar.toList (s.readPk rs2.toNat))).clearStashes) := by
  rw [legal_deriveSecret]; rfl

/-- Settles O54: a key generated from a key is sound, and the stashes are cleared last. -/
theorem genPublicStoresThePublicKey : Obligations.GenPublicStoresThePublicKey := by
  unfold Obligations.GenPublicStoresThePublicKey
  intro s rd rs1 hwf
  have hl : legal (.genPublic rd rs1) s = true := legal_of_wellFormed hwf s rfl rfl
  have hrd : rd.toNat < 4 := lt_of_admits_pk (admits_of_legal hl List.mem_cons_self)
  refine ⟨fun hv => ?_, fun hv => ?_⟩
  · have hexec := (exec_genPublic rd rs1 s).trans ((checked_true hl).trans (checked_true ((isPresent_iff _).mpr hv)))
    obtain ⟨_, hreduced⟩ := genPublic_sound hv (s.readSk rs1.toNat).scalar.toList
    refine completesWith_mayWrite hexec ?_
    rw [State.finish_readPk, State.clearStashes_readPk, State.readPk_writePk_self _ hrd]
    exact ⟨rfl, rfl, hreduced, rfl, rfl⟩
  · exact .of_raise ((exec_genPublic rd rs1 s).trans ((checked_true hl).trans (checked_false (isPresent_none hv))))

/-- Settles O55: the check of the keys decides first and that of their sides next. -/
theorem deriveSecretWritesTheSecret : Obligations.DeriveSecretWritesTheSecret := by
  unfold Obligations.DeriveSecretWritesTheSecret
  intro s rs1 rs2 rs3 hl
  have hrun := (exec_deriveSecret rs1 rs2 rs3 s).trans (checked_true hl)
  refine ⟨fun hk hq hside hm => ?_, fun hk hq hside => ?_, fun hnone => ?_⟩
  · have hr := range_of_legal hl (List.mem_singleton_self _)
    have hkeys := Bool.and_eq_true_iff.mpr ⟨(isPresent_iff _).mpr hk, (isPresent_iff _).mpr hq⟩
    have hsides := bne_iff_ne.mpr (mt (side_eq_iff _ _).mp hside)
    exact completesWith_mayWrite (hrun.trans ((checked_true hkeys).trans (checked_true hsides)))
      ⟨State.bufRead_bufWrite_self hm (length_deriveSecret _ _ _) hr, rfl, rfl⟩
  · have hkeys := Bool.and_eq_true_iff.mpr ⟨(isPresent_iff _).mpr hk, (isPresent_iff _).mpr hq⟩
    have hsides := bne_eq_false_iff_eq.mpr ((side_eq_iff _ _).mpr hside)
    exact .of_raise (hrun.trans ((checked_true hkeys).trans (checked_false hsides)))
  · have hkeys := Bool.and_eq_false_iff.mpr (hnone.imp isPresent_none isPresent_none)
    exact .of_raise (hrun.trans (checked_false hkeys))

end Sys2Proof.Machine
end

section
/-! PROOF of O56 and O57. On legal operands, with SIKE keys and the right length, a KEM command passes its checks and writes
what the KEM's functions make. The ranges written lie inside `BUF`, so the bytes read back; the statements write the
masked scalar out, which is `ephemeralScalar`. -/

namespace Sys2Proof.Machine

/-- A SIKE key is present and of the type that the KEM commands ask for. -/
theorem sike_checks {v : Variant} (h : v = .sike) : isPresent v = true ∧ (v == .sike) = true := by
  rw [h]; exact ⟨rfl, rfl⟩

theorem ctEqual_iff (a b : List Byte) : ctEqual a b = true ↔ a = b := beq_iff_eq

/-! ### The runs -/

section
variable {s : State} {rs1 rs2 rs3 : Field}

theorem exec_encrypt_delivered {r : List Byte} {left : List RngItem} (hl : legal (.encrypt rs1 rs2) s = true)
    (hq : (s.readPk rs1.toNat).variant = .sike) (hn : (s.readG (rs2.toNat + 1)).toNat = 24)
    (hrng : s.rng = r.map some ++ left) (hlen : r.length = 32) :
    exec (.encrypt rs1 rs2) s =
      complete (State.writeOut { s with rng := left } (rs2.toNat + 2)
        (encryptCore (ephemeralScalar r) (genPublic .sidhA (ephemeralScalar r)) (s.readPk rs1.toNat)
          (s.bufRead (s.readG rs2.toNat).toNat 24))).clearStashes := by
  obtain ⟨hkey, htype⟩ := sike_checks hq
  have hok := (legal_encrypt rs1 rs2 s).symm.trans hl
  rw [State.writeOut, length_encryptCore _ _ _ (State.length_bufRead _ _ _)]
  exact (checked_true hok).trans ((checked_true hkey).trans ((checked_true htype).trans
    ((checked_true (beq_iff_eq.mpr hn)).trans (withRng_some hrng hlen))))

theorem exec_decrypt_sike (hl : legal (.decrypt rs1 rs2) s = true) (hk : (s.readSk rs1.toNat).variant = .sike)
    (hn : (s.readG (rs2.toNat + 1)).toNat = 402) :
    exec (.decrypt rs1 rs2) s =
      complete (s.writeOut (rs2.toNat + 2)
        (decryptCore (s.readSk rs1.toNat) (s.bufRead (s.readG rs2.toNat).toNat 402))).clearStashes := by
  obtain ⟨hkey, htype⟩ := sike_checks hk
  have hok := (legal_decrypt rs1 rs2 s).symm.trans hl
  rw [State.writeOut, length_decryptCore _ (State.length_bufRead _ _ _)]
  exact (checked_true hok).trans ((checked_true hkey).trans ((checked_true htype).trans
    (checked_true (beq_iff_eq.mpr hn))))

theorem exec_encapsulate_delivered {m : List Byte} {left : List RngItem} (hl : legal (.encapsulate rs1 rs2) s = true)
    (hq : (s.readPk rs1.toNat).variant = .sike) (hrng : s.rng = m.map some ++ left) (hlen : m.length = 24) :
    exec (.encapsulate rs1 rs2) s =
      complete ((State.bufWrite { s with rng := left } (s.readG rs2.toNat).toNat
        (encapsulateCore (s.readPk rs1.toNat) m).1).bufWrite (s.readG (rs2.toNat + 1)).toNat
        (encapsulateCore (s.readPk rs1.toNat) m).2).clearStashes := by
  obtain ⟨hkey, htype⟩ := sike_checks hq
  have hok := (legal_encapsulate rs1 rs2 s).symm.trans hl
  exact (checked_true hok).trans ((checked_true hkey).trans ((checked_true htype).trans (withRng_some hrng hlen)))

theorem exec_decapsulate_sike (hl : legal (.decapsulate rs1 rs2 rs3) s = true)
    (hk : (s.readSk rs1.toNat).variant = .sike) (hq : (s.readPk rs2.toNat).variant = .sike)
    (hn : (s.readG (rs3.toNat + 1)).toNat = 402) :
    exec (.decapsulate rs1 rs2 rs3) s =
      complete (s.bufWrite (s.readG (rs3.toNat + 2)).toNat (decapsulateCore (s.readSk rs1.toNat) (s.readPk rs2.toNat)
        (s.bufRead (s.readG rs3.toNat).toNat 402))).clearStashes := by
  obtain ⟨hkey, htype⟩ := sike_checks hk
  obtain ⟨hkey', htype'⟩ := sike_checks hq
  have hok := (legal_decapsulate rs1 rs2 rs3 s).symm.trans hl
  exact (checked_true hok).trans ((checked_true (Bool.and_eq_true_iff.mpr ⟨hkey, hkey'⟩)).trans
    ((checked_true (Bool.and_eq_true_iff.mpr ⟨htype, htype'⟩)).trans (checked_true (beq_iff_eq.mpr hn))))

end

/-! ### The results -/

/-- What a command does that ends with bytes and their number written and the stashes cleared (R412). -/
theorem completesWith_writeOut_clearStashes {i : Instr} {s u : State} {o n : Nat} {bs : List Byte}
    {result : State → Prop} (h : exec i s = complete (u.writeOut o bs).clearStashes)
    (hm : Memory.wf u.buf = true) (ho : o + 1 < 16) (hlen : bs.length = n) (hr : (u.readG o).toNat + n ≤ 2048)
    (hresult : ∀ t : State, t.bufRead (u.readG o).toNat n = bs → (t.readG (o + 1)).toNat = n → t.iso4 = .cleared →
      t.iso3 = .cleared → t.rng = u.rng → result t) : CompletesWith i s (mayWrite i s) result := by
  refine completesWith_mayWrite h (hresult _ ?_ ?_ rfl rfl rfl)
  · rw [State.finish_bufRead, State.clearStashes_bufRead, State.bufRead_writeOut hm hlen hr]
  · rw [State.finish_readG, State.clearStashes_readG, State.toNat_readG_writeOut_succ ho hlen hr]

/-- Settles O56: both write their bytes and the number of them, and `ENCRYPT`'s scalar is the masked one. -/
theorem encryptAndDecryptResults : Obligations.EncryptAndDecryptResults := by
  unfold Obligations.EncryptAndDecryptResults
  intro s rs1 rs2 hm g
  refine ⟨fun hl hq hn r left hrng hlen => ?_, fun hl hk hn => ?_⟩
  · have hg : rs2.toNat + 3 < 16 :=
      lt_of_admits_gs (admits_of_legal hl (List.mem_cons_of_mem _ List.mem_cons_self)) (Nat.lt_succ_self 3)
    have hr : g 2 + 402 ≤ 2048 := range_of_legal hl (List.mem_cons_of_mem _ List.mem_cons_self)
    rw [← ephemeralScalar_eq hlen]
    exact completesWith_writeOut_clearStashes (exec_encrypt_delivered hl hq hn hrng hlen) hm hg
      (length_encryptCore _ _ _ (State.length_bufRead s _ 24)) hr
      fun t hbytes hnumber h4 h3 hleft => ⟨hbytes, hnumber, h4, h3, hleft⟩
  · have hg : rs2.toNat + 3 < 16 :=
      lt_of_admits_gs (admits_of_legal hl (List.mem_cons_of_mem _ List.mem_cons_self)) (Nat.lt_succ_self 3)
    have hr : g 2 + 24 ≤ 2048 := range_of_legal hl (List.mem_cons_of_mem _ List.mem_cons_self)
    exact completesWith_writeOut_clearStashes (exec_decrypt_sike hl hk hn) hm hg
      (length_decryptCore _ (State.length_bufRead s _ 402)) hr
      fun t hbytes hnumber h4 h3 _ => ⟨hbytes, hnumber, h4, h3⟩

/-- Two outputs that do not overlap read back as written (R155). -/
theorem State.bufRead_bufWrite_bufWrite {s : State} (hm : Memory.wf s.buf = true) {a b m n : Nat} {as bs : List Byte}
    (ha : as.length = m) (hb : bs.length = n) (hra : a + m ≤ 2048) (hrb : b + n ≤ 2048) (hab : a + m ≤ b ∨ b + n ≤ a) :
    ((s.bufWrite a as).bufWrite b bs).bufRead a m = as ∧ ((s.bufWrite a as).bufWrite b bs).bufRead b n = bs :=
  ⟨(State.bufRead_bufWrite_disjoint _ (hb.symm ▸ hab)).trans (State.bufRead_bufWrite_self hm ha hra),
    State.bufRead_bufWrite_self (Memory.wf_writeBytes as (ha.symm ▸ hra) hm) hb hrb⟩

/-- The outputs of a legal `ENCAPSULATE` do not overlap (R155, R457). -/
theorem disjoint_of_legal_encapsulate {rs1 rs2 : Field} {s : State} (hl : legal (.encapsulate rs1 rs2) s = true) :
    (s.readG rs2.toNat).toNat + 402 ≤ (s.readG (rs2.toNat + 1)).toNat ∨
      (s.readG (rs2.toNat + 1)).toNat + 16 ≤ (s.readG rs2.toNat).toNat := by
  rw [legal, Bool.and_eq_true] at hl
  obtain ⟨_, hdisjoint⟩ := hl
  exact of_decide_eq_true hdisjoint

/-- The key of `DECAPSULATE` where the re-encryption gives the ciphertext's public key, and where it does not (R458). -/
theorem decapsulateCore_eq (k : SkSlot) (q : PkSlot) (c : List Byte) :
    let m := decryptCore k c
    let scA := ephemeralScalar (hashMac 32 (m ++ pkWire q) .g)
    (pkWire (genPublic .sidhA scA) = c.take 378 → decapsulateCore k q c = hashMac 16 (m ++ c) .h) ∧
      (pkWire (genPublic .sidhA scA) ≠ c.take 378 → decapsulateCore k q c = hashMac 16 (k.s.toList ++ c) .h) := by
  intro m scA
  have hcore : decapsulateCore k q c =
      hashMac 16 (select (ctEqual (pkWire (genPublic .sidhA scA)) (c.take 378)) m k.s.toList ++ c) .h := rfl
  refine ⟨fun heq => ?_, fun hne => ?_⟩
  · rw [hcore, (ctEqual_iff _ _).mpr heq]; rfl
  · rw [hcore, Bool.eq_false_iff.mpr (mt (ctEqual_iff _ _).mp hne)]; rfl

/-- Settles O57: `ENCAPSULATE`'s two outputs are apart, and `DECAPSULATE` selects by the re-encryption. -/
theorem encapsulateAndDecapsulateResults : Obligations.EncapsulateAndDecapsulateResults := by
  unfold Obligations.EncapsulateAndDecapsulateResults
  intro s hm
  refine ⟨fun rs1 rs2 hl hq m left hrng hlen => ?_, fun rs1 rs2 rs3 hl hk hq hn => ?_⟩
  · intro co ko q
    have hco : co + 402 ≤ 2048 := range_of_legal hl List.mem_cons_self
    have hko : ko + 16 ≤ 2048 := range_of_legal hl (List.mem_cons_of_mem _ List.mem_cons_self)
    obtain ⟨hctext, hkey⟩ := State.bufRead_bufWrite_bufWrite (s := { s with rng := left }) hm
      (length_encapsulateCore_fst q hlen) (length_encapsulateCore_snd q m) hco hko (disjoint_of_legal_encapsulate hl)
    refine completesWith_mayWrite (exec_encapsulate_delivered hl hq hrng hlen) ?_
    dsimp only
    rw [← ephemeralScalar_eq (length_hashMac (by decide) _ _)]
    exact ⟨hctext, hkey, rfl, rfl, rfl⟩
  · intro c ko k q
    have hko : ko + 16 ≤ 2048 := range_of_legal hl (List.mem_cons_of_mem _ List.mem_cons_self)
    have hread := State.bufRead_bufWrite_self hm (length_decapsulateCore k q c) hko
    refine completesWith_mayWrite (exec_decapsulate_sike hl hk hq hn) ?_
    dsimp only
    rw [← ephemeralScalar_eq (length_hashMac (by decide) _ _)]
    obtain ⟨heq, hne⟩ := decapsulateCore_eq k q c
    exact ⟨fun h => hread.trans (heq h), fun h => hread.trans (hne h), rfl, rfl⟩

end Sys2Proof.Machine
end

section
/-! PROOF of O58. On legal operands a KEM command is the list of its remaining checks, in the order of R521, before its
effect. Whether a key's checks hold depends on its variant alone, and the first check that fails decides. -/

namespace Sys2Proof.Machine

/-! ### The checks that follow the operands' -/

section
variable {s : State} {rs1 rs2 rs3 : Field}

theorem exec_encrypt_of_legal (hl : legal (.encrypt rs1 rs2) s = true) :
    ∃ effect, exec (.encrypt rs1 rs2) s =
      checked s [(isPresent (s.readPk rs1.toNat).variant, .emptyKeySlot),
          ((s.readPk rs1.toNat).variant == .sike, .wrongKeyType),
          ((s.readG (rs2.toNat + 1)).toNat == 24, .invalidInputLength)] (withRng 32 s effect) :=
  ⟨_, checked_true ((legal_encrypt rs1 rs2 s).symm.trans hl)⟩

theorem exec_decrypt_of_legal (hl : legal (.decrypt rs1 rs2) s = true) :
    ∃ effect, exec (.decrypt rs1 rs2) s =
      checked s [(isPresent (s.readSk rs1.toNat).variant, .emptyKeySlot),
          ((s.readSk rs1.toNat).variant == .sike, .wrongKeyType),
          ((s.readG (rs2.toNat + 1)).toNat == 402, .invalidInputLength)] effect :=
  ⟨_, checked_true ((legal_decrypt rs1 rs2 s).symm.trans hl)⟩

theorem exec_encapsulate_of_legal (hl : legal (.encapsulate rs1 rs2) s = true) :
    ∃ effect, exec (.encapsulate rs1 rs2) s =
      checked s [(isPresent (s.readPk rs1.toNat).variant, .emptyKeySlot),
          ((s.readPk rs1.toNat).variant == .sike, .wrongKeyType)] (withRng 24 s effect) :=
  ⟨_, checked_true ((legal_encapsulate rs1 rs2 s).symm.trans hl)⟩

theorem exec_decapsulate_of_legal (hl : legal (.decapsulate rs1 rs2 rs3) s = true) :
    ∃ effect, exec (.decapsulate rs1 rs2 rs3) s =
      checked s [(isPresent (s.readSk rs1.toNat).variant && isPresent (s.readPk rs2.toNat).variant, .emptyKeySlot),
          ((s.readSk rs1.toNat).variant == .sike && (s.readPk rs2.toNat).variant == .sike, .wrongKeyType),
          ((s.readG (rs3.toNat + 1)).toNat == 402, .invalidInputLength)] effect :=
  ⟨_, checked_true ((legal_decapsulate rs1 rs2 rs3 s).symm.trans hl)⟩

end

/-! ### The first check that fails -/

section
variable {i : Instr} {s : State} {v w : Variant} {n len : Nat} {e : CmdError} {rest : List (Bool × CmdError)}
  {r : Result} {effect : List Byte → State → Result}

/-- An SIDH key is present, but not of the type that the KEM commands ask for. -/
theorem sidh_checks (h : v = .sidhA ∨ v = .sidhB) : isPresent v = true ∧ (v == .sike) = false := by
  rcases h with rfl | rfl <;> exact ⟨rfl, rfl⟩

/-- What the checks of a single key decide (R521): an absent key and one of the wrong type raise, and a SIKE key leads
to the checks after them. -/
theorem checked_key_cases
    (h : exec i s = checked s ((isPresent v, .emptyKeySlot) :: (v == .sike, .wrongKeyType) :: rest) r) :
    (v = .none → Raises i s .emptyKeySlot) ∧ (v = .sidhA ∨ v = .sidhB → Raises i s .wrongKeyType) ∧
      (v = .sike → exec i s = checked s rest r) := by
  refine ⟨fun hnone => ?_, fun hsidh => ?_, fun hsike => ?_⟩
  · exact .of_raise (h.trans (checked_false (isPresent_none hnone)))
  · obtain ⟨hkey, htype⟩ := sidh_checks hsidh
    exact .of_raise (h.trans ((checked_true hkey).trans (checked_false htype)))
  · obtain ⟨hkey, htype⟩ := sike_checks hsike
    exact h.trans ((checked_true hkey).trans (checked_true htype))

/-- What the checks of a secret and a public key decide (R458, R521): both are present before both are of the type. -/
theorem checked_keys_cases
    (h : exec i s = checked s ((isPresent v && isPresent w, .emptyKeySlot) ::
      (v == .sike && w == .sike, .wrongKeyType) :: rest) r) :
    (v = .none ∨ w = .none → Raises i s .emptyKeySlot) ∧
      (v ≠ .none → w ≠ .none → ¬(v = .sike ∧ w = .sike) → Raises i s .wrongKeyType) ∧
      (v = .sike → w = .sike → exec i s = checked s rest r) := by
  refine ⟨fun hnone => ?_, fun hv hw hne => ?_, fun hv hw => ?_⟩
  · have hkeys := Bool.and_eq_false_iff.mpr (hnone.imp isPresent_none isPresent_none)
    exact .of_raise (h.trans (checked_false hkeys))
  · have hkeys := Bool.and_eq_true_iff.mpr ⟨(isPresent_iff v).mpr hv, (isPresent_iff w).mpr hw⟩
    have htypes : (v == .sike && w == .sike) = false := by simpa using hne
    exact .of_raise (h.trans ((checked_true hkeys).trans (checked_false htypes)))
  · obtain ⟨hkey, htype⟩ := sike_checks hv
    obtain ⟨hkey', htype'⟩ := sike_checks hw
    exact h.trans ((checked_true (Bool.and_eq_true_iff.mpr ⟨hkey, hkey'⟩)).trans
      (checked_true (Bool.and_eq_true_iff.mpr ⟨htype, htype'⟩)))

theorem raises_of_length_ne (h : exec i s = checked s ((n == len, e) :: rest) r) (hne : n ≠ len) : Raises i s e :=
  .of_raise (h.trans (checked_false (beq_eq_false_iff_ne.mpr hne)))

/-- A command that has passed its checks runs out of random bytes where the port does not deliver them (R72). -/
theorem raisesRngFailure_of_withRng (h : exec i s = withRng n s effect)
    (hshort : ¬∃ (bs : List Byte) (left : List RngItem), s.rng = bs.map some ++ left ∧ bs.length = n) :
    RaisesRngFailure i s :=
  .of_raise (h.trans (withRng_none hshort)) (rngRead_suffix _ _)

end

/-- Settles O58: the keys decide first, then the length, and the port last. -/
theorem kemErrorPriority : Obligations.KemErrorPriority := by
  unfold Obligations.KemErrorPriority
  intro s rs1 rs2 rs3
  dsimp only
  refine ⟨fun hl => ?encrypt, fun hl => ?decrypt, fun hl => ?encapsulate, fun hl => ?decapsulate⟩
  case encrypt =>
    obtain ⟨_, hrun⟩ := exec_encrypt_of_legal hl
    obtain ⟨hempty, htype, hsike⟩ := checked_key_cases hrun
    exact ⟨hempty, htype, fun hp hn => raises_of_length_ne (hsike hp) hn, fun hp hn hshort =>
      raisesRngFailure_of_withRng ((hsike hp).trans (checked_true (beq_iff_eq.mpr hn))) hshort⟩
  case decrypt =>
    obtain ⟨_, hrun⟩ := exec_decrypt_of_legal hl
    obtain ⟨hempty, htype, hsike⟩ := checked_key_cases hrun
    exact ⟨hempty, htype, fun hk hn => raises_of_length_ne (hsike hk) hn⟩
  case encapsulate =>
    obtain ⟨_, hrun⟩ := exec_encapsulate_of_legal hl
    obtain ⟨hempty, htype, hsike⟩ := checked_key_cases hrun
    exact ⟨hempty, htype, fun hp hshort => raisesRngFailure_of_withRng (hsike hp) hshort⟩
  case decapsulate =>
    obtain ⟨_, hrun⟩ := exec_decapsulate_of_legal hl
    obtain ⟨hempty, htype, hsike⟩ := checked_keys_cases hrun
    exact ⟨hempty, htype, fun hk hq hn => raises_of_length_ne (hsike hk hq) hn⟩

end Sys2Proof.Machine
end

section
/-! PROOF of O8, O25, O15 and O17. A command's run is one of three: a completion, a raise in the state it started from,
or `RngFailure` with some RNG items gone (`exec_endsAtomically`). A reset answers one state whatever was in progress,
but for what the boundary keeps; and the places whose writes are dropped while busy are `CMD` and the data places. -/

namespace Sys2Proof.Machine

/-! ### Raising is atomic (R523) -/

/-- The ends of a command that starts in `s`: it completes in some state, it raises an error with `s` as it was, or it
fails to read the RNG port, with items of the port taken (R72, R520, R523). -/
inductive Result.EndsAtomically (s : State) : Result → Prop
  | complete (u : State) : EndsAtomically s (complete u)
  | raise (e : CmdError) : EndsAtomically s (raise e s)
  | rngFailure {left : List RngItem} (hleft : left <:+ s.rng) :
    EndsAtomically s (raise .rngFailure { s with rng := left })

variable {s t : State} {r : Result}

theorem Result.EndsAtomically.checked {cs : List (Bool × CmdError)} (h : Result.EndsAtomically s r) :
    Result.EndsAtomically s (checked s cs r) := by
  rcases checked_cases s cs r with ⟨_, heq⟩ | ⟨_, e, _, _, _, heq⟩
  · rw [heq]; exact h
  · rw [heq]; exact .raise e

/-- A read of the port, be it the first or after another: what is left is still an end part of what there was. -/
theorem Result.EndsAtomically.withRng {n : Nat} {left : List RngItem} {effect : List Byte → State → Result}
    (hleft : left <:+ s.rng)
    (h : ∀ bs left', left' <:+ s.rng → Result.EndsAtomically s (effect bs { s with rng := left' })) :
    Result.EndsAtomically s (withRng n { s with rng := left } effect) := by
  rcases withRng_cases n { s with rng := left } effect with ⟨bs, left', hrng, _, heq⟩ | ⟨left', hsuffix, heq⟩
  · rw [heq]; exact h bs left' (.trans ⟨bs.map some, hrng.symm⟩ hleft)
  · rw [heq]; exact .rngFailure (hsuffix.trans hleft)

/-- `SK_GENERATE` reads the port once, and for a SIKE key twice (R402). -/
theorem execSkGenerate_endsAtomically (rd rs1 : Field) (s : State) :
    Result.EndsAtomically s (execSkGenerate rd rs1 s) := by
  refine .checked (.withRng List.suffix_rfl fun sc left hleft => ?_)
  by_cases hsike : variantOf rs1 = .sike
  · rw [if_pos hsike]
    exact .withRng hleft fun _ _ _ => .complete _
  · rw [if_neg hsike]
    exact .complete _

/-- Every command, in every state, completes, raises with nothing changed, or fails to read the port. -/
theorem exec_endsAtomically (i : Instr) (s : State) : Result.EndsAtomically s (exec i s) := by
  cases i with
  | nop | setc | zeroize | fpAdd | fpSub | fpRdcp | fpMulrdc | fpP34 | fpMov | fpTomont | fpFrommont =>
    exact .complete _
  | skGenerate rd rs1 => exact execSkGenerate_endsAtomically rd rs1 s
  | encrypt | encapsulate => exact .checked (.withRng List.suffix_rfl fun _ _ _ => .complete _)
  | _ => exact .checked (.complete _)

/-- Settles O8: of the three ends, the completion has code 0, and only the failed read has taken items. -/
theorem raisingIsAtomic : Obligations.RaisingIsAtomic := by
  unfold Obligations.RaisingIsAtomic
  intro i s t hexec hcode
  have hends := exec_endsAtomically i s
  rw [hexec] at hends
  cases hends with
  | complete u => exact absurd rfl hcode
  | raise e => exact ⟨(KeepsRest.refl _ s).finish _, List.suffix_rfl, fun _ => rfl⟩
  | rngFailure hleft =>
    exact ⟨((KeepsRest.refl _ s).takeRng rfl _).finish _, hleft, fun hother => absurd rfl hother⟩

/-! ### `NOP` and `ZEROIZE` (R525, R526) -/

/-- The opcode 0 is `NOP` whatever the other fields are: `NOP` uses none of them (R152, R525). -/
theorem decode_of_opcode_zero {w : Word} (h : opcOf w = 0x00) : decode w = .ok .nop :=
  decode_of_and_usedMask (and_usedBits_eq_cmdWord_iff.mpr ⟨h, rfl, rfl, rfl, rfl⟩)

/-- Settles O25: each register and slot file of `zeroized` is filled with its cleared value, and `BUF` is empty. -/
theorem nopAndZeroizeResults : Obligations.NopAndZeroizeResults := by
  unfold Obligations.NopAndZeroizeResults
  refine ⟨fun _ => decode_of_opcode_zero, fun s => ⟨.of_complete rfl (.refl {} s) rfl, ?_⟩⟩
  refine .of_complete (u := s.zeroized) rfl SoundUpdate.zeroized.frame ⟨fun n _ => ?_, fun n _ => ?_, fun n _ => ?_,
    rfl, rfl, rfl, fun n _ => s.zeroized_readSk n, fun n _ => s.zeroized_readPk n, fun _ _ => rfl, rfl, rfl⟩
  · exact getD_replicate_self 64 n 0
  · exact getD_replicate_self 4 n 0
  · exact getD_replicate_self 16 n 0

/-! ### Reset (R570, R571) -/

/-- A reset gives the reset state but for the boundary's fields; with no command in progress it takes no RNG item
(logs 5 and 18). -/
theorem resetCore_eq (s : State) :
    ∃ n draws, s.resetCore =
        { State.reset with rng := s.rng.drop n, inputs := s.inputs, rdata := s.rdata, draws := draws } ∧
      n ≤ rngDemand s ∧ (s.busy = false → n = 0) := by
  unfold State.resetCore
  split
  · next hbusy =>
    exact ⟨_, _, rfl, Nat.min_le_right _ _, fun hidle => absurd (hbusy.symm.trans hidle) nofun⟩
  · exact ⟨0, _, rfl, Nat.zero_le _, fun _ => rfl⟩

theorem step_powerOn {rest : List Input} (h : s.inputs = .powerOn :: rest) :
    step s = .next ({ s with inputs := rest } : State).resetCore := by
  simp only [step, turn, h]

/-- A write to `CTRL` with bit 1 set is the soft reset, whatever its other bits (R60, R571). -/
theorem step_softReset {rest : List Input} {x : Word} (hx : x.getLsbD 1 = true)
    (h : s.inputs = .write .word 0x0008 x :: rest) : step s = .next ({ s with inputs := rest } : State).resetCore := by
  simp only [step, turn, h]
  exact congrArg Host.Outcome.next (if_pos hx)

/-- Settles O15: either step is the reset of the state with that input gone. -/
theorem resetsRestoreTheResetState : Obligations.ResetsRestoreTheResetState := by
  unfold Obligations.ResetsRestoreTheResetState
  intro s rest hin
  have hstep : step s = .next ({ s with inputs := rest } : State).resetCore := by
    obtain hpower | ⟨x, hx, hwrite⟩ := hin
    · exact step_powerOn hpower
    · exact step_softReset hx hwrite
  obtain ⟨n, draws, hreset, hn, hidle⟩ := resetCore_eq { s with inputs := rest }
  exact ⟨n, draws, hstep.trans (congrArg _ hreset), hn, hidle⟩

/-! ### Writes while busy (R574) -/

/-- While busy, a write to `CMD` or to a data place only sets `OVR`. -/
theorem hostWrite_dropped {p : Place} (hbusy : s.busy = true) (hp : p = .cmd ∨ p.isData = true) (x : Word) :
    s.hostWrite p x = { s with ovr := true } := by
  cases p with
  | status | ctrl | isr | id | unmapped => exact absurd hp (by simp [Place.isData])
  | cmd | flags | g n i | e n i | d n i | buf off => exact if_pos hbusy

/-- Settles O17: address 0 is `CMD`, and a data address is that of a data place. -/
theorem writesWhileBusyAreDropped : Obligations.WritesWhileBusyAreDropped := by
  unfold Obligations.WritesWhileBusyAreDropped
  intro s rest a x hbusy h4 ha
  obtain ⟨hlt, hplace⟩ : a < 65536 ∧ (placeOf a = .cmd ∨ (placeOf a).isData = true) := by
    obtain rfl | hdata := ha
    · exact ⟨by decide, .inl rfl⟩
    · exact ⟨dataAddress_lt hdata, .inr ((isData_placeOf a h4).trans hdata)⟩
  rw [step_withWrite s a x rest h4 hlt, hostWrite_dropped (s := { s with inputs := rest }) hbusy hplace]

end Sys2Proof.Machine
end

section
/-! PROOF of O60. The wire bytes of a register are those of its residue pair (R490), and the two numbers read from `BUF`
are below `2^512`, so that `toMont` is taken of the numbers themselves (R491, R496). -/

namespace Sys2Proof.Machine

/-! ### To the wire (R490, R495) -/

theorem f2Wire_eq_residueWire (x : Fp2) : f2Wire x = residueWire (residue2 x) := by
  rw [f2Wire, fromMont_toNat, fromMont_toNat]; rfl

/-- Byte `j` of the first number in the wire bytes of a residue pair. -/
theorem getElem_residueWire_re (r : Residue2) {j : Nat} (hj : j < 63) (h : j < (residueWire r).length) :
    ((residueWire r)[j]).toNat = r.re / 2 ^ (8 * j) % 2 ^ 8 := by
  have hre : j < (bytesLE r.re bytelen).length := hj.trans_eq (length_bytesLE _ _).symm
  simp only [residueWire, List.getElem_append_left hre]
  exact getElem_bytesLE _ _ _ hre

/-- Byte `j` of the second number, which starts at byte 63. -/
theorem getElem_residueWire_im (r : Residue2) (j : Nat) (h : 63 + j < (residueWire r).length) :
    ((residueWire r)[63 + j]).toNat = r.im / 2 ^ (8 * j) % 2 ^ 8 := by
  have hlen : (bytesLE r.re bytelen).length = 63 := length_bytesLE _ _
  simp only [residueWire, List.getElem_append_right (hlen.le.trans (Nat.le_add_right 63 j)), hlen,
    Nat.add_sub_cancel_left]
  exact getElem_bytesLE _ _ _ _

theorem exec_fp2Towire (rs1 rs2 : Field) (s : State) :
    exec (.fp2Towire rs1 rs2) s = checked s [(legal (.fp2Towire rs1 rs2) s, .illegalOperand)]
      (complete (s.bufWrite (s.readG rs2.toNat).toNat (f2Wire (s.readV rs1.toNat)))) := by
  rw [legal_fp2Towire]; rfl

/-! ### From the wire (R491, R496) -/

theorem exec_fp2Fromwire (rd rs2 : Field) (s : State) :
    exec (.fp2Fromwire rd rs2) s = checked s [(legal (.fp2Fromwire rd rs2) s, .illegalOperand)]
      (complete (s.writeV rd.toNat (f2FromWire (s.bufRead (s.readG rs2.toNat).toNat 126)))) := by
  rw [legal_fp2Fromwire]; rfl

/-- The register value of two 63-byte numbers in `BUF`. -/
theorem f2FromWire_bufRead (s : State) (off : Nat) :
    f2FromWire (s.bufRead off 126) =
      ⟨toMont (BitVec.ofNat 512 (intLE (s.bufRead off 63))),
        toMont (BitVec.ofNat 512 (intLE (s.bufRead (off + 63) 63)))⟩ := by
  rw [f2FromWire, slice_bufRead s (by decide) (by decide), slice_bufRead s (by decide) (by decide)]
  rfl

theorem wire_lt_radix : 256 ^ 63 < radix := by decide +kernel

/-- The residue of `toMont` of a 63-byte number, with no prior reduction. -/
theorem residue_toMont_intLE {bs : List Byte} (h : bs.length = 63) :
    residue (toMont (BitVec.ofNat 512 (intLE bs))) = intLE bs % prime := by
  have hlt : intLE bs < 256 ^ 63 := h ▸ intLE_lt bs
  rw [residue_toMont, Fp.toNat_ofNat_lt (hlt.trans wire_lt_radix)]

/-- Settles O60: the bytes written are those of the residues, and the value written is `toMont` of the numbers read. -/
theorem wireConversions : Obligations.WireConversions := by
  unfold Obligations.WireConversions
  intro s r rs2
  dsimp only
  refine ⟨fun hl hm => ?_, fun hl => ?_⟩
  · have hr := range_of_legal hl (List.mem_singleton_self _)
    refine completesWith_mayWrite ((exec_fp2Towire r rs2 s).trans (checked_true hl)) fun j hj => ?_
    have hbytes := State.bufRead_bufWrite_self hm (length_f2Wire (s.readV r.toNat)) hr
    rw [f2Wire_eq_residueWire] at hbytes ⊢
    have hlen := length_residueWire (residue2 (s.readV r.toNat))
    rw [State.finish_buf, Nat.add_assoc, State.read_of_bufRead hbytes (by omega),
      State.read_of_bufRead hbytes (by omega)]
    exact ⟨getElem_residueWire_re _ hj _, getElem_residueWire_im _ j _⟩
  · refine completesWith_writeV hl List.mem_cons_self
      ((exec_fp2Fromwire r rs2 s).trans (checked_true hl)) fun t ht => ?_
    rw [ht, f2FromWire_bufRead]
    exact ⟨rfl, ⟨(toMont_law _).1, (toMont_law _).1⟩, residue_toMont_intLE (s.length_bufRead _ _),
      residue_toMont_intLE (s.length_bufRead _ _)⟩

end Sys2Proof.Machine
end
